-- ==== Sys2Proof/Word.lean ====
section
/-!
DEFINITION. The word types of the block: what the spec treats as bits (00_scope.md R9, R10).
-/
namespace Sys2Proof

/-- A binary64 value, held as its 64-bit pattern `bits(v)` (00_scope.md R12). -/
abbrev F64 := BitVec 64

/-- A plane sample: 32 bits, two's complement, the set `S32` (00_scope.md R9, R11). -/
abbrev Sample := BitVec 32

/-- The command word `CMD` (30_encoding.md R100). -/
abbrev CmdWord := BitVec 32

/-- The data words `WDATA` and `RDATA`, and the content of a configuration register
(30_encoding.md R100, 10_state.md R24). -/
abbrev DataWord := BitVec 64

end Sys2Proof
end

