-- ==== Sys2Proof/Syntax.lean ====
section
/-!
DEFINITION. The commands of the block, one constructor per row of spec/opcode_table.json
(30_encoding.md R103). Operand fields are the unsigned numbers the fields hold (R102): a register index,
a preset number, a plane, a cell, a count; a mode bit is a Bool. Operands that travel in `WDATA` are not
part of the command word; they are read from the port (State.wdata).
-/
namespace Sys2Proof

inductive Instr where
  /-- `NOP`, format N, opcode 0x00 (R130). -/
  | nop
  /-- `RESET`, format N, opcode 0x01 (R131). -/
  | reset
  /-- `CFGW idx`, format R, opcode 0x02 (R132). -/
  | cfgw (idx : Nat)
  /-- `CFGR idx`, format R, opcode 0x03 (R133). -/
  | cfgr (idx : Nat)
  /-- `SETUP`, format N, opcode 0x04 (R134, R135). -/
  | setup
  /-- `CATV k`, format K, opcode 0x05 (R136). -/
  | catv (k : Nat)
  /-- `PWR p`, format P, opcode 0x08 (R137). -/
  | pwr (p : Nat)
  /-- `PRD p`, format P, opcode 0x09 (R138). -/
  | prd (p : Nat)
  /-- `PIXW`, format N, opcode 0x0A (R192). -/
  | pixw
  /-- `PIXR`, format N, opcode 0x0B (R193). -/
  | pixr
  /-- `FCFG cell`, format F, opcode 0x10 (R165). -/
  | fcfg (cell : Nat)
  /-- `FRST cell`, format F, opcode 0x11 (R166). -/
  | frst (cell : Nat)
  /-- `FLP cell`, format F, opcode 0x12 (R167). -/
  | flp (cell : Nat)
  /-- `FHP cell`, format F, opcode 0x13 (R168). -/
  | fhp (cell : Nat)
  /-- `FCASL first, n`, format B, opcode 0x14 (R169). -/
  | fcasl (first n : Nat)
  /-- `FCASH first, n`, format B, opcode 0x15 (R170). -/
  | fcash (first n : Nat)
  /-- `HILO first, n`, format B, opcode 0x16 (R171). -/
  | hilo (first n : Nat)
  /-- `CLPF m`, format M, opcode 0x20; `m` true is the lite variant (R201). -/
  | clpf (m : Bool)
  /-- `MOD`, format N, opcode 0x21 (R205). -/
  | mod
  /-- `PRE`, format N, opcode 0x22 (R208). -/
  | pre
  /-- `YNOISE`, format N, opcode 0x23 (R211). -/
  | ynoise
  /-- `HSW`, format N, opcode 0x24 (R253). -/
  | hsw
  /-- `DEMOD m`, format M, opcode 0x25; `m` true scales by the plain amplitude (R216). -/
  | demod (m : Bool)
  /-- `CNOISE`, format N, opcode 0x26 (R223). -/
  | cnoise
  /-- `CPHASE`, format N, opcode 0x27 (R225). -/
  | cphase
  /-- `CDROP`, format N, opcode 0x28 (R228). -/
  | cdrop
  /-- `VLUMA`, format N, opcode 0x30 (R272). -/
  | vluma
  /-- `VCHROMA`, format N, opcode 0x31 (R274). -/
  | vchroma
  /-- `VBLEND`, format N, opcode 0x32 (R277). -/
  | vblend
  /-- `VSHARP`, format N, opcode 0x33 (R279). -/
  | vsharp
  /-- `VHS`, format N, opcode 0x34 (R281). -/
  | vhs
  /-- `RUNFIELD`, format N, opcode 0x38 (R302). -/
  | runfield
  /-- `NEXTFIELD`, format N, opcode 0x39 (R304). -/
  | nextfield
  /-- `AUDF`, format N, opcode 0x40 (R322). -/
  | audf
deriving DecidableEq, Repr

end Sys2Proof
end

