-- ==== Sys2Proof/WellFormed.lean ====
section
/-!
DEFINITION. Which commands the encoding can express: each operand fits its field (30_encoding.md R101).
A value that fits its field but that the command's own rule refuses (a cell of 16 or more, plane 3, a
preset outside 1 to 4) is well formed: the command raises the fault its rule names (R104, R107).
-/
namespace Sys2Proof

/-- Whether a number fits an unsigned field of `bits` bits (30_encoding.md R102). -/
def fits (bits n : Nat) : Bool := decide (n < 2 ^ bits)

/-- The operand widths of the formats N, R, K, P, F, B and M (30_encoding.md R101). -/
def wellFormed : Instr → Bool
  | .nop => true
  | .reset => true
  | .cfgw idx => fits 8 idx
  | .cfgr idx => fits 8 idx
  | .setup => true
  | .catv k => fits 8 k
  | .pwr p => fits 2 p
  | .prd p => fits 2 p
  | .pixw => true
  | .pixr => true
  | .fcfg cell => fits 8 cell
  | .frst cell => fits 8 cell
  | .flp cell => fits 8 cell
  | .fhp cell => fits 8 cell
  | .fcasl first n => fits 8 first && fits 8 n
  | .fcash first n => fits 8 first && fits 8 n
  | .hilo first n => fits 8 first && fits 8 n
  | .clpf _ => true
  | .mod => true
  | .pre => true
  | .ynoise => true
  | .hsw => true
  | .demod _ => true
  | .cnoise => true
  | .cphase => true
  | .cdrop => true
  | .vluma => true
  | .vchroma => true
  | .vblend => true
  | .vsharp => true
  | .vhs => true
  | .runfield => true
  | .nextfield => true
  | .audf => true

end Sys2Proof
end

