-- ==== Sys2Proof/Decode.lean ====
section
/-!
DEFINITION. The decoder and the encoder of the 32-bit command word (30_encoding.md R101 to R106). The
decoder is total: it answers the command, or `none` for an illegal word (R104), and the step turns `none`
into the fault `IllegalCommand` (60_exceptions.md R361).
-/
namespace Sys2Proof

/-- `w[lo + width - 1 : lo]` of a word given as a number (00_scope.md R10). -/
def bitField (w lo width : Nat) : Nat := w / 2 ^ lo % 2 ^ width

/-- Format N: every bit of `CMD[23:0]` is zero (R101). -/
def formatN (body : Nat) (i : Instr) : Option Instr :=
  if body = 0 then some i else none

/-- Formats R, K and F: one 8-bit field in `CMD[7:0]`, the other bits zero (R101). -/
def formatByte (body : Nat) (i : Nat → Instr) : Option Instr :=
  if bitField body 8 16 = 0 then some (i (bitField body 0 8)) else none

/-- Format P: a 2-bit plane in `CMD[1:0]`, the other bits zero (R101). -/
def formatP (body : Nat) (i : Nat → Instr) : Option Instr :=
  if bitField body 2 22 = 0 then some (i (bitField body 0 2)) else none

/-- Format B: the count in `CMD[15:8]`, the first cell in `CMD[7:0]`, `CMD[23:16]` zero (R101). -/
def formatB (body : Nat) (i : Nat → Nat → Instr) : Option Instr :=
  if bitField body 16 8 = 0 then some (i (bitField body 0 8) (bitField body 8 8)) else none

/-- Format M: a mode bit in `CMD[0]`, the other bits zero (R101). -/
def formatM (body : Nat) (i : Bool → Instr) : Option Instr :=
  if bitField body 1 23 = 0 then some (i (decide (bitField body 0 1 = 1))) else none

/-- The opcode map of R103: `op = CMD[31:24]`, `body = CMD[23:0]`. Every opcode not listed is illegal
(R106). -/
def decodeOp (op body : Nat) : Option Instr :=
  match op with
  | 0x00 => formatN body .nop
  | 0x01 => formatN body .reset
  | 0x02 => formatByte body .cfgw
  | 0x03 => formatByte body .cfgr
  | 0x04 => formatN body .setup
  | 0x05 => formatByte body .catv
  | 0x08 => formatP body .pwr
  | 0x09 => formatP body .prd
  | 0x0A => formatN body .pixw
  | 0x0B => formatN body .pixr
  | 0x10 => formatByte body .fcfg
  | 0x11 => formatByte body .frst
  | 0x12 => formatByte body .flp
  | 0x13 => formatByte body .fhp
  | 0x14 => formatB body .fcasl
  | 0x15 => formatB body .fcash
  | 0x16 => formatB body .hilo
  | 0x20 => formatM body .clpf
  | 0x21 => formatN body .mod
  | 0x22 => formatN body .pre
  | 0x23 => formatN body .ynoise
  | 0x24 => formatN body .hsw
  | 0x25 => formatM body .demod
  | 0x26 => formatN body .cnoise
  | 0x27 => formatN body .cphase
  | 0x28 => formatN body .cdrop
  | 0x30 => formatN body .vluma
  | 0x31 => formatN body .vchroma
  | 0x32 => formatN body .vblend
  | 0x33 => formatN body .vsharp
  | 0x34 => formatN body .vhs
  | 0x38 => formatN body .runfield
  | 0x39 => formatN body .nextfield
  | 0x40 => formatN body .audf
  | _ => none

/-- The decoder (30_encoding.md R104). -/
def decode (cmd : CmdWord) : Option Instr :=
  decodeOp (bitField cmd.toNat 24 8) (bitField cmd.toNat 0 24)

/-- The opcode of each command (30_encoding.md R103). -/
def opcode : Instr → Nat
  | .nop => 0x00
  | .reset => 0x01
  | .cfgw _ => 0x02
  | .cfgr _ => 0x03
  | .setup => 0x04
  | .catv _ => 0x05
  | .pwr _ => 0x08
  | .prd _ => 0x09
  | .pixw => 0x0A
  | .pixr => 0x0B
  | .fcfg _ => 0x10
  | .frst _ => 0x11
  | .flp _ => 0x12
  | .fhp _ => 0x13
  | .fcasl _ _ => 0x14
  | .fcash _ _ => 0x15
  | .hilo _ _ => 0x16
  | .clpf _ => 0x20
  | .mod => 0x21
  | .pre => 0x22
  | .ynoise => 0x23
  | .hsw => 0x24
  | .demod _ => 0x25
  | .cnoise => 0x26
  | .cphase => 0x27
  | .cdrop => 0x28
  | .vluma => 0x30
  | .vchroma => 0x31
  | .vblend => 0x32
  | .vsharp => 0x33
  | .vhs => 0x34
  | .runfield => 0x38
  | .nextfield => 0x39
  | .audf => 0x40

/-- The operand fields of each command, `CMD[23:0]` (30_encoding.md R101). -/
def operandBits : Instr → Nat
  | .cfgw idx => idx
  | .cfgr idx => idx
  | .catv k => k
  | .pwr p => p
  | .prd p => p
  | .fcfg cell => cell
  | .frst cell => cell
  | .flp cell => cell
  | .fhp cell => cell
  | .fcasl first n => n * 2 ^ 8 + first
  | .fcash first n => n * 2 ^ 8 + first
  | .hilo first n => n * 2 ^ 8 + first
  | .clpf m => m.toNat
  | .demod m => m.toNat
  | .nop | .reset | .setup | .pixw | .pixr | .mod | .pre | .ynoise | .hsw | .cnoise | .cphase
  | .cdrop | .vluma | .vchroma | .vblend | .vsharp | .vhs | .runfield | .nextfield | .audf => 0

/-- The command word of a command (30_encoding.md R101, R103). -/
def encode (i : Instr) : CmdWord :=
  BitVec.ofNat 32 (opcode i * 2 ^ 24 + operandBits i)

/-- What the decoder reads from a table row's word: every command is one 32-bit word (30_encoding.md R100),
so a row's bits are the whole word and a number that needs more bits is no command. -/
def decodeTableWord (nbits w : Nat) : Option Instr :=
  if nbits ≤ 32 ∧ w < 2 ^ 32 then decode (BitVec.ofNat 32 w) else none

end Sys2Proof
end

