-- ==== Sys2Proof/Config.lean ====
section
/-!
DEFINITION. The parameters the spec fixes for the block (00_scope.md R9) and the free values: what the
spec leaves open to the environment or to an implementation. A free value is an opaque constant, so
nothing can be proved of which value it is.
-/
namespace Sys2Proof.Config

/-- `NGF`, the number of general filter cells (00_scope.md R9). -/
abbrev numGeneralCells : Nat := 16

/-- `NAUD`, the stages of the audio HiLoPass: six lowpass cells and six highpass cells
(00_scope.md R9, 90_conflicts.md C1). -/
abbrev numAudioStages : Nat := 6

/-- `OVS`, the buzz oversampling factor (00_scope.md R9). -/
abbrev buzzOversampling : Nat := 16

/-- FREE VALUE (log 3): what the environment answers to its n-th draw where no answer is recorded
(00_scope.md R16, 93_implementation_defined.md U13). -/
opaque freeDraw : Nat → Nat

/-- FREE VALUE (log 4): the parameter `SIN` away from zero (00_scope.md R9, 93_implementation_defined.md U14). -/
opaque freeSin : F64 → F64

/-- FREE VALUE (log 4): the parameter `COS` away from zero (00_scope.md R9, 93_implementation_defined.md U14). -/
opaque freeCos : F64 → F64

/-- FREE VALUE (log 5): the coefficient of an audio cell that `SETUP` did not configure. No run reads it
(10_state.md R56, 93_implementation_defined.md U12). -/
opaque freeAlpha : F64

end Sys2Proof.Config
end

