-- ==== Sys2Proof/Machine/Binary64.lean ====
section
/-!
DEFINITION. The numbers of the spec: exact integers with `tdiv` and `clamp` (00_scope.md R11, R13) and IEEE
754 binary64, round to nearest even, one rounding per operation (R12, 41_iir_filter.md R174).

Every finite binary64 is a whole number of UNITS of 2^-1074 (the least subnormal). An operation computes
its exact result as a quotient of naturals in units, and `roundUnits` rounds it once.
-/
namespace Sys2Proof.Machine

/-! ## Integers (R11, R13) -/

/-- `tdiv(a, b)`: the quotient rounded toward zero (R11). -/
def tdiv (a b : Int) : Int := Int.tdiv a b

/-- `clamp(v, lo, hi)` (R13). -/
def clampInt (v lo hi : Int) : Int := if v < lo then lo else if hi < v then hi else v

/-- Whether an integer lies in `S32` (R11). -/
def inS32 (v : Int) : Bool := decide (-2147483648 ≤ v ∧ v ≤ 2147483647)

/-- The sample that holds an integer of `S32`. -/
def sampleOfInt (v : Int) : Sample := BitVec.ofInt 32 v

/-- The value a plane write stores, or `none` where the write raises `PlaneOverflow` (R14, 20_memory.md R73). -/
def toSample (v : Int) : Option Sample := if inS32 v then some (sampleOfInt v) else none

/-! ## The parts of a binary64 pattern (R12) -/

/-- The biased exponent field. -/
def expField (v : F64) : Nat := v.toNat / 2 ^ 52 % 2 ^ 11

/-- The fraction field. -/
def fracField (v : F64) : Nat := v.toNat % 2 ^ 52

/-- The pattern without its sign bit. -/
def magBits (v : F64) : Nat := v.toNat % 2 ^ 63

/-- The sign bit. -/
def isNeg (v : F64) : Bool := decide (2 ^ 63 ≤ v.toNat)

def isFinite (v : F64) : Bool := decide (expField v ≠ 2047)

def isNaN (v : F64) : Bool := decide (expField v = 2047 ∧ fracField v ≠ 0)

def isInf (v : F64) : Bool := decide (expField v = 2047 ∧ fracField v = 0)

/-- Whether the value is `+0` or `-0`. -/
def isZero (v : F64) : Bool := decide (magBits v = 0)

/-- The pattern with a given sign and a given pattern of the other 63 bits. -/
def packBits (neg : Bool) (mag : Nat) : F64 :=
  BitVec.ofNat 64 (if neg then 2 ^ 63 + mag else mag)

/-- The 63 bits of an infinity. -/
def infMag : Nat := 0x7FF0000000000000

/-- The NaN an invalid operation yields. No NaN is ever stored or answered (41_iir_filter.md R174), so which
pattern stands here cannot be observed. DESIGN CHOICE (safe), log 6. -/
def nanValue : F64 := 0x7FF8000000000000#64

/-- How many units make 1: every finite value is a whole number of units of 2^-1074. -/
def unitsPerOne : Nat := 2 ^ 1074

/-- The magnitude of a finite value in units. -/
def magUnits (v : F64) : Nat :=
  if expField v = 0 then fracField v else (2 ^ 52 + fracField v) * 2 ^ (expField v - 1)

/-- A finite value in units, with its sign. -/
def toUnits (v : F64) : Int := if isNeg v then -(magUnits v : Int) else magUnits v

/-! ## Rounding (R12: each operation is rounded once, to nearest even) -/

/-- How many units the last place of a value of `len` binary digits (in units) is worth, as a power of two:
53 digits are kept. -/
def ulpExp (len : Nat) : Nat := len - 53

/-- The length in binary digits. -/
def bitLen (n : Nat) : Nat := if n = 0 then 0 else Nat.log2 n + 1

/-- `num / den` rounded to the nearest integer, ties to even. -/
def roundHalfEven (num den : Nat) : Nat :=
  let q := num / den
  let r := num % den
  if den < 2 * r ∨ (2 * r = den ∧ q % 2 = 1) then q + 1 else q

/-- The 63-bit pattern of the binary64 nearest `num / den` units, ties to even; a value too large for the
format gives infinity. The exponent field and the fraction are one number, so a carry out of the fraction
steps the exponent. -/
def roundMag (num den : Nat) : Nat :=
  let k := ulpExp (bitLen (num / den))
  min infMag (k * 2 ^ 52 + roundHalfEven num (den * 2 ^ k))

/-- The binary64 nearest `± num / den` units (R12). -/
def roundUnits (neg : Bool) (num den : Nat) : F64 := packBits neg (roundMag num den)

/-! ## The operations (R12) -/

/-- The negation of a value: the sign bit flipped. -/
def fneg (a : F64) : F64 := packBits (!isNeg a) (magBits a)

/-- `fadd(a, b)` (R12). An exact zero sum of opposite values is `+0` (41_iir_filter.md R174). -/
def fadd (a b : F64) : F64 :=
  if isNaN a || isNaN b then nanValue
  else if isInf a then (if isInf b && (isNeg a != isNeg b) then nanValue else a)
  else if isInf b then b
  else
    let sum := toUnits a + toUnits b
    if sum = 0 then packBits (isNeg a && isNeg b) 0
    else roundUnits (decide (sum < 0)) sum.natAbs 1

/-- `fsub(a, b)` (R12). -/
def fsub (a b : F64) : F64 := fadd a (fneg b)

/-- `fmul(a, b)` (R12). -/
def fmul (a b : F64) : F64 :=
  let neg := isNeg a != isNeg b
  if isNaN a || isNaN b then nanValue
  else if isInf a || isInf b then (if isZero a || isZero b then nanValue else packBits neg infMag)
  else roundUnits neg (magUnits a * magUnits b) unitsPerOne

/-- `fdiv(a, b)` (R12). -/
def fdiv (a b : F64) : F64 :=
  let neg := isNeg a != isNeg b
  if isNaN a || isNaN b then nanValue
  else if isInf a then (if isInf b then nanValue else packBits neg infMag)
  else if isInf b then packBits neg 0
  else if isZero b then (if isZero a then nanValue else packBits neg infMag)
  else roundUnits neg (magUnits a * unitsPerOne) (magUnits b)

/-- `i2f(n)`: one rounding where the integer is too long for 53 digits (R12, 47_audio_chain.md R328). -/
def i2f (n : Int) : F64 := roundUnits (decide (n < 0)) (n.natAbs * unitsPerOne) 1

/-! ## Comparisons (R12, R13): a NaN compares with nothing, `-0` equals `+0` -/

/-- The place of a value that is not a NaN in the order of the reals. -/
def orderKey (v : F64) : Int := if isNeg v then -(magBits v : Int) else magBits v

/-- `a < b`. -/
def flt (a b : F64) : Bool := !isNaN a && !isNaN b && decide (orderKey a < orderKey b)

/-- `a <= b`. -/
def fle (a b : F64) : Bool := !isNaN a && !isNaN b && decide (orderKey a ≤ orderKey b)

/-- `v > 0`; `not (v > 0)` also holds of a NaN (41_iir_filter.md R161). -/
def isPos (v : F64) : Bool := flt 0#64 v

/-! ## Integral parts and conversions (R12, R13) -/

/-- `trunc(v)` for a finite `v`: rounded toward zero (R13). -/
def truncInt (v : F64) : Int := Int.tdiv (toUnits v) unitsPerOne

/-- `f2i(v)`, or `none` where it raises `PlaneOverflow`: a NaN, an infinity, a result outside `S32` (R13). -/
def f2i (v : F64) : Option Int :=
  if isFinite v && inS32 (truncInt v) then some (truncInt v) else none

/-- A filtered value as a plane stores it: `f2i` and then the write (R13, 41_iir_filter.md R174). -/
def f2s (v : F64) : Option Sample := (f2i v).map sampleOfInt

/-- `rnd(v)` for a finite `v`: to the nearest integer, ties away from zero (R13). -/
def roundAway (v : F64) : Int :=
  let n : Nat := (2 * magUnits v + unitsPerOne) / (2 * unitsPerOne)
  if isNeg v then -(n : Int) else n

/-- `clamp(trunc(v), lo, hi)`; an infinity clamps like any large value (R13, 47_audio_chain.md R333). -/
def clampTrunc (v : F64) (lo hi : Int) : Int :=
  if isFinite v then clampInt (truncInt v) lo hi
  else if isNeg v then lo else hi

/-- `ffloor(v)`: the largest integral binary64 not above `v`, exact (R12). A zero keeps its sign
(DESIGN CHOICE, safe, log 7). -/
def ffloor (v : F64) : F64 :=
  if !isFinite v || isZero v then v
  else
    let n := Int.fdiv (toUnits v) unitsPerOne
    roundUnits (decide (n < 0)) (n.natAbs * unitsPerOne) 1

/-- `ffmod(a, b) = a - b*floor(a/b)` for finite `a >= 0`, `b > 0`, exact (R12). -/
def ffmod (a b : F64) : F64 := roundUnits (isNeg a) (magUnits a % magUnits b) 1

/-! ## Constants (00_scope.md R9, R12): a decimal literal is the binary64 nearest it -/

/-- The binary64 nearest the decimal `num / den`. -/
def decimal (num : Int) (den : Nat) : F64 := fdiv (i2f num) (i2f den)

def f64One : F64 := 0x3FF0000000000000#64
def f64Two : F64 := 0x4000000000000000#64

/-- `PI` (R12). -/
def f64Pi : F64 := 0x400921FB54442D18#64

/-- `FSC = fdiv(315000000.0, 88.0)`, the colour subcarrier constant (R9, 40_host_config_commands.md R136). -/
def fsc : F64 := 0x414B4F4CBA2E8BA3#64

/-- `FSC4 = fdiv(fmul(315000000.0, 4.0), 88.0)`, the sample rate of every video filter
(R9, 41_iir_filter.md R173). -/
def fsc4 : F64 := 0x416B4F4CBA2E8BA3#64

/-- The parameter `SIN`: `SIN(±0) = ±0`, free elsewhere (43_composite_chroma.md R225, log 4). -/
def sinF (v : F64) : F64 := if isZero v then v else Config.freeSin v

/-- The parameter `COS`: `COS(±0) = 1.0`, free elsewhere (43_composite_chroma.md R225, log 4). -/
def cosF (v : F64) : F64 := if isZero v then f64One else Config.freeCos v

end Sys2Proof.Machine
end

