-- ==== Sys2Proof/Machine/State.lean ====
section
/-!
DEFINITION. The state of the block as plain data (10_state.md R20), its reset value (R61), and the reasons a
step can stop.
-/
namespace Sys2Proof.Machine

/-- The phase of the block's life (10_state.md R21). -/
inductive Phase where
  | setup
  | run
  | faulted
deriving DecidableEq, Repr

/-- The configuration registers, 64 bits each (10_state.md R24 to R49). `STATUS`, `FINFO` and `FIELD_INDEX`
are views of other state (R25, R27) and are not stored here. -/
structure Regs where
  /-- 0x00 `CTRL` (R26). -/
  ctrl : DataWord
  /-- 0x04 `DIM` (R31). -/
  dim : DataWord
  /-- 0x05 `COMP_PHASE` (R32). -/
  compPhase : DataWord
  /-- 0x06 `COMP_PHASE_OFFSET` (R32). -/
  compPhaseOffset : DataWord
  /-- 0x07 `COMP_PRE` (R33). -/
  compPre : DataWord
  /-- 0x08 `COMP_CUT` (R33). -/
  compCut : DataWord
  /-- 0x09 `SC_AMP` (R34). -/
  scAmp : DataWord
  /-- 0x0A `VIDEO_NOISE` (R35). -/
  videoNoise : DataWord
  /-- 0x0B `CHROMA_NOISE` (R35). -/
  chromaNoise : DataWord
  /-- 0x0C `CHROMA_PHASE_NOISE` (R35). -/
  chromaPhaseNoise : DataWord
  /-- 0x0D `CHROMA_LOSS` (R36). -/
  chromaLoss : DataWord
  /-- 0x0E `VHS_SPEED` (R37). -/
  vhsSpeed : DataWord
  /-- 0x0F `VHS_SHARPEN` (R37). -/
  vhsSharpen : DataWord
  /-- 0x10 `HSW_POINT` (R38). -/
  hswPoint : DataWord
  /-- 0x11 `HSW_PHASE` (R38). -/
  hswPhase : DataWord
  /-- 0x12 `HSW_NOISE` (R38). -/
  hswNoise : DataWord
  /-- 0x13 `GF_RATE` (R39). -/
  gfRate : DataWord
  /-- 0x18 `AUD_RATE` (R41). -/
  audRate : DataWord
  /-- 0x19 `AUD_CH` (R41). -/
  audCh : DataWord
  /-- 0x1A `AUD_LP_HZ` (R42). -/
  audLpHz : DataWord
  /-- 0x1B `AUD_HP_HZ` (R42). -/
  audHpHz : DataWord
  /-- 0x1C `AUD_PRE_HZ` (R43). -/
  audPreHz : DataWord
  /-- 0x1D `AUD_DE_HZ` (R43). -/
  audDeHz : DataWord
  /-- 0x1E `AUD_BOOST_HZ` (R43). -/
  audBoostHz : DataWord
  /-- 0x1F `AUD_BOOST_GAIN` (R44). -/
  audBoostGain : DataWord
  /-- 0x20 `AUD_BUZZ_GAIN` (R47). -/
  audBuzzGain : DataWord
  /-- 0x21 `AUD_HISS_LEVEL` (R48). -/
  audHissLevel : DataWord
  /-- 0x22 `AUD_HPULSE_END` (R49). -/
  audHpulseEnd : DataWord
  /-- 0x23 `AUD_VPULSE_END` (R49). -/
  audVpulseEnd : DataWord
deriving DecidableEq, Repr

/-- The reset values of the configuration registers (10_state.md R61, 70_reset_and_hazards.md R400). -/
def Regs.reset : Regs where
  ctrl := 0x0000000000000001#64
  dim := 0x0000000001E002D0#64
  compPhase := 0#64
  compPhaseOffset := 0#64
  compPre := 0#64
  compCut := 0#64
  scAmp := 50#64
  videoNoise := 0#64
  chromaNoise := 0#64
  chromaPhaseNoise := 0#64
  chromaLoss := 0#64
  vhsSpeed := 0#64
  vhsSharpen := 0x3FF8000000000000#64
  hswPoint := 0#64
  hswPhase := 0#64
  hswNoise := 0#64
  gfRate := 0x40E5888000000000#64
  audRate := 0x40E5888000000000#64
  audCh := 2#64
  audLpHz := 0#64
  audHpHz := 0#64
  audPreHz := 0#64
  audDeHz := 0#64
  audBoostHz := 0#64
  audBoostGain := 0#64
  audBuzzGain := 0#64
  audHissLevel := 0#64
  audHpulseEnd := 0#64
  audVpulseEnd := 0#64

/-- Plane memory: the samples that are not zero, by address, addresses strictly rising. An
address that is not listed reads as sample 0, the value `SETUP` gives every sample (10_state.md R53). The
smallest unit the spec addresses is one whole sample; it has no bytes (20_memory.md R74, R75; log 9). -/
abbrev Memory := List (Nat × Sample)

/-- The three planes, `h` rows by `w` columns each (10_state.md R52). -/
structure Planes where
  w : Nat
  h : Nat
  cells : Memory
deriving DecidableEq, Repr

/-- A filter cell of the register files: `alpha` is present exactly when the cell is configured
(10_state.md R54 to R56; 93_implementation_defined.md U12; log 5). `.cfgd` is `alpha.isSome`. -/
structure StoredCell where
  alpha : Option F64
  prev : F64
deriving DecidableEq, Repr

/-- A stored cell at reset: no coefficient, `.prev = +0.0` (10_state.md R55, R56). -/
def StoredCell.reset : StoredCell := ⟨none, 0#64⟩

/-- The 15 audio cells of one channel (10_state.md R56). -/
structure AudioChannel where
  alp : Vector StoredCell Config.numAudioStages
  ahp : Vector StoredCell Config.numAudioStages
  apre : StoredCell
  ade : StoredCell
  aboost : StoredCell
deriving DecidableEq, Repr

/-- An audio channel at reset (10_state.md R56, R61). -/
def AudioChannel.reset : AudioChannel where
  alp := Vector.replicate _ StoredCell.reset
  ahp := Vector.replicate _ StoredCell.reset
  apre := StoredCell.reset
  ade := StoredCell.reset
  aboost := StoredCell.reset

/-- The environment that answers the draws (00_scope.md R16, log 3): the answers recorded so far, in order,
and how many draws have been answered. It is outside the block (10_state.md R59). -/
structure DrawSource where
  recorded : List Nat
  count : Nat
deriving DecidableEq, Repr

/-- What the host does next at the port: present a command (30_encoding.md R100), or assert the hardware
reset input (70_reset_and_hazards.md R400). -/
inductive HostEvent where
  | command (cmd : CmdWord) (wdata : DataWord)
  | hardReset
deriving DecidableEq, Repr

/-- The response to a command: `OK` with `RDATA`, or `FAULT`, which carries no data (30_encoding.md R100,
93_implementation_defined.md U11). -/
inductive Response where
  | ok (rdata : DataWord)
  | fault
deriving DecidableEq, Repr

/-- The state of the machine: the block's architectural state (10_state.md R20), the host port, and the
environment of the draws. -/
structure State where
  /-- `PHASE` (R21). -/
  phase : Phase
  /-- `FCODE` (R21). -/
  fcode : BitVec 8
  /-- `FINFO` (R21). -/
  finfo : BitVec 32
  /-- The configuration registers (R24). -/
  regs : Regs
  /-- `FIELD` (R50). -/
  field : BitVec 64
  /-- The planes, absent until `SETUP` creates them (R52, R53). -/
  planes : Option Planes
  /-- `GF[0]` to `GF[15]` (R54). -/
  gf : Vector StoredCell Config.numGeneralCells
  /-- The audio cells of channel 0 (R56). -/
  aud0 : AudioChannel
  /-- The audio cells of channel 1 (R56). -/
  aud1 : AudioChannel
  /-- `AUD_READY` (R25, R56). -/
  audReady : Bool
  /-- `AUD_T` (R57). -/
  audT : BitVec 64
  /-- The command word on the port: that of the command being executed or answered last (30_encoding.md
  R100, log 12). -/
  cmd : CmdWord
  /-- The data word on the port (30_encoding.md R100, log 12). -/
  wdata : DataWord
  /-- The last response on the port (30_encoding.md R100, log 12). -/
  resp : Option Response
  /-- What the host has still to present, in order (20_memory.md R80, R86; log 1). -/
  host : List HostEvent
  /-- The environment's draws (00_scope.md R16, log 3). -/
  draws : DrawSource
deriving DecidableEq, Repr

/-- The machine right after the hardware reset (10_state.md R61, 70_reset_and_hazards.md R400), nothing
presented on the port and no draw made. -/
def State.reset : State where
  phase := .setup
  fcode := 0#8
  finfo := 0#32
  regs := Regs.reset
  field := 0#64
  planes := none
  gf := Vector.replicate _ StoredCell.reset
  aud0 := AudioChannel.reset
  aud1 := AudioChannel.reset
  audReady := false
  audT := 0#64
  cmd := 0#32
  wdata := 0#64
  resp := none
  host := []
  draws := ⟨[], 0⟩

/-- The fault kinds of the spec, which a command reports in its response and records in `FCODE`
(60_exceptions.md R360). They are events of a running machine: taking one gives a next state. -/
inductive FaultCode where
  /-- Code 1, the command word decodes to no command (R361). -/
  | illegalCommand
  /-- Code 2, an operand or register value is out of its legal range (R362). -/
  | invalidArgument
  /-- Code 3, a filter is to be configured with an unusable rate or cutoff (R362). -/
  | invalidParameter
  /-- Code 4, the command is not accepted in the current phase (R364). -/
  | phaseError
  /-- Code 5, plane 3, a row `>= H` or a column `>= W` (R364). -/
  | planeAddress
  /-- Code 6, a value does not fit a plane sample, or a value to be converted is not finite (R363). -/
  | planeOverflow
  /-- Code 7, an unconfigured general cell is to be stepped (R364). -/
  | filterNotConfigured
deriving DecidableEq, Repr

/-- The reasons the machine itself stops with a fault: none. Every fault the spec describes is reported in
the command's response and leaves the block in the FAULTED phase, which is a next state (60_exceptions.md
R366, log 17). Safe: nothing is hidden behind a stop. -/
inductive Fault where
deriving DecidableEq, Repr

/-- The reasons the model refuses an instruction. -/
inductive Refusal where
  /-- Raised by an arm of `exec` whose instruction has no meaning in the model. Safe: nothing can be proved of
  what such an instruction does. No arm raises it. -/
  | notModelled (mnemonic : String)
deriving DecidableEq, Repr

end Sys2Proof.Machine
end

