-- ==== Sys2Proof/Machine/Operands.lean ====
section
/-!
DEFINITION. Every operand form: the fields of `WDATA` (30_encoding.md R102), the configuration registers by
index with their legal values (10_state.md R24 to R49), and the fields of `CTRL` and `DIM` (R26, R31).
-/
namespace Sys2Proof.Machine

/-! ## Fields of the data word (30_encoding.md R102) -/

/-- `w[lo + width - 1 : lo]` as a number (00_scope.md R10). -/
def dataField (w : DataWord) (lo width : Nat) : Nat := w.toNat / 2 ^ lo % 2 ^ width

/-- `WDATA[63:48]`, the row of `PWR`, `PRD`, `PIXW`, `PIXR`. -/
def wRow (w : DataWord) : Nat := dataField w 48 16

/-- `WDATA[47:32]`, the column of `PWR`, `PRD`, `PIXW`, `PIXR`. -/
def wCol (w : DataWord) : Nat := dataField w 32 16

/-- `WDATA[31:0]`, the sample of `PWR` as `S32`. -/
def wSample (w : DataWord) : Sample := BitVec.ofNat 32 (dataField w 0 32)

/-- `WDATA[23:16]`, `R` of `PIXW`. -/
def wRed (w : DataWord) : Nat := dataField w 16 8

/-- `WDATA[15:8]`, `G` of `PIXW`. -/
def wGreen (w : DataWord) : Nat := dataField w 8 8

/-- `WDATA[7:0]`, `B` of `PIXW`. -/
def wBlue (w : DataWord) : Nat := dataField w 0 8

/-- `WDATA[15:0]` as a signed PCM sample, channel 0 of `AUDF` (47_audio_chain.md R322). -/
def wPcm0 (w : DataWord) : Int := (BitVec.ofNat 16 (dataField w 0 16)).toInt

/-- `WDATA[31:16]` as a signed PCM sample, channel 1 of `AUDF` (47_audio_chain.md R322). -/
def wPcm1 (w : DataWord) : Int := (BitVec.ofNat 16 (dataField w 16 16)).toInt

/-- `WDATA[63:32]`, which must be zero for `AUDF` (47_audio_chain.md R322). -/
def wHigh (w : DataWord) : Nat := dataField w 32 32

/-- `sext_64` of a sample, the result of `PRD` (30_encoding.md R102). -/
def sextSample (v : Sample) : DataWord := BitVec.signExtend 64 v

/-- The pixel word `0xFF ++ R ++ G ++ B`, the result of `PIXR` (30_encoding.md R102, 20_memory.md R75). -/
def pixelWord (r g b : Int) : DataWord :=
  BitVec.ofNat 64 (((255 * 256 + r.toNat) * 256 + g.toNat) * 256 + b.toNat)

/-- `out[1][15:0] ++ out[0][15:0]`, the result of `AUDF` (47_audio_chain.md R322). -/
def pcmWord (out0 out1 : Int) : DataWord :=
  BitVec.ofNat 64 ((BitVec.ofInt 16 out1).toNat * 2 ^ 16 + (BitVec.ofInt 16 out0).toNat)

/-! ## The configuration registers by name and index (10_state.md R24 to R49) -/

/-- The writable registers: the 29 of `Regs` and `FIELD_INDEX` (R26 to R49). -/
inductive CfgReg where
  | ctrl | fieldIndex | dim | compPhase | compPhaseOffset | compPre | compCut | scAmp
  | videoNoise | chromaNoise | chromaPhaseNoise | chromaLoss | vhsSpeed | vhsSharpen
  | hswPoint | hswPhase | hswNoise | gfRate | audRate | audCh | audLpHz | audHpHz
  | audPreHz | audDeHz | audBoostHz | audBoostGain | audBuzzGain | audHissLevel
  | audHpulseEnd | audVpulseEnd
deriving DecidableEq, Repr

/-- The writable register of an index; `none` for `STATUS` and `FINFO` (R25) and for the unimplemented
indices (R40, R49). -/
def cfgRegOf (idx : Nat) : Option CfgReg :=
  match idx with
  | 0x00 => some .ctrl
  | 0x03 => some .fieldIndex
  | 0x04 => some .dim
  | 0x05 => some .compPhase
  | 0x06 => some .compPhaseOffset
  | 0x07 => some .compPre
  | 0x08 => some .compCut
  | 0x09 => some .scAmp
  | 0x0A => some .videoNoise
  | 0x0B => some .chromaNoise
  | 0x0C => some .chromaPhaseNoise
  | 0x0D => some .chromaLoss
  | 0x0E => some .vhsSpeed
  | 0x0F => some .vhsSharpen
  | 0x10 => some .hswPoint
  | 0x11 => some .hswPhase
  | 0x12 => some .hswNoise
  | 0x13 => some .gfRate
  | 0x18 => some .audRate
  | 0x19 => some .audCh
  | 0x1A => some .audLpHz
  | 0x1B => some .audHpHz
  | 0x1C => some .audPreHz
  | 0x1D => some .audDeHz
  | 0x1E => some .audBoostHz
  | 0x1F => some .audBoostGain
  | 0x20 => some .audBuzzGain
  | 0x21 => some .audHissLevel
  | 0x22 => some .audHpulseEnd
  | 0x23 => some .audVpulseEnd
  | _ => none

/-- `cfg[NAME]` (00_scope.md R14); `FIELD_INDEX` is the view of `FIELD` (10_state.md R27). -/
def readCfg (r : CfgReg) (s : State) : DataWord :=
  match r with
  | .ctrl => s.regs.ctrl
  | .fieldIndex => s.field
  | .dim => s.regs.dim
  | .compPhase => s.regs.compPhase
  | .compPhaseOffset => s.regs.compPhaseOffset
  | .compPre => s.regs.compPre
  | .compCut => s.regs.compCut
  | .scAmp => s.regs.scAmp
  | .videoNoise => s.regs.videoNoise
  | .chromaNoise => s.regs.chromaNoise
  | .chromaPhaseNoise => s.regs.chromaPhaseNoise
  | .chromaLoss => s.regs.chromaLoss
  | .vhsSpeed => s.regs.vhsSpeed
  | .vhsSharpen => s.regs.vhsSharpen
  | .hswPoint => s.regs.hswPoint
  | .hswPhase => s.regs.hswPhase
  | .hswNoise => s.regs.hswNoise
  | .gfRate => s.regs.gfRate
  | .audRate => s.regs.audRate
  | .audCh => s.regs.audCh
  | .audLpHz => s.regs.audLpHz
  | .audHpHz => s.regs.audHpHz
  | .audPreHz => s.regs.audPreHz
  | .audDeHz => s.regs.audDeHz
  | .audBoostHz => s.regs.audBoostHz
  | .audBoostGain => s.regs.audBoostGain
  | .audBuzzGain => s.regs.audBuzzGain
  | .audHissLevel => s.regs.audHissLevel
  | .audHpulseEnd => s.regs.audHpulseEnd
  | .audVpulseEnd => s.regs.audVpulseEnd

/-- `cfg[NAME] <- v` (00_scope.md R14); `FIELD_INDEX` writes `FIELD` (10_state.md R27). -/
def writeCfg (r : CfgReg) (v : DataWord) (s : State) : State :=
  match r with
  | .ctrl => { s with regs := { s.regs with ctrl := v } }
  | .fieldIndex => { s with field := v }
  | .dim => { s with regs := { s.regs with dim := v } }
  | .compPhase => { s with regs := { s.regs with compPhase := v } }
  | .compPhaseOffset => { s with regs := { s.regs with compPhaseOffset := v } }
  | .compPre => { s with regs := { s.regs with compPre := v } }
  | .compCut => { s with regs := { s.regs with compCut := v } }
  | .scAmp => { s with regs := { s.regs with scAmp := v } }
  | .videoNoise => { s with regs := { s.regs with videoNoise := v } }
  | .chromaNoise => { s with regs := { s.regs with chromaNoise := v } }
  | .chromaPhaseNoise => { s with regs := { s.regs with chromaPhaseNoise := v } }
  | .chromaLoss => { s with regs := { s.regs with chromaLoss := v } }
  | .vhsSpeed => { s with regs := { s.regs with vhsSpeed := v } }
  | .vhsSharpen => { s with regs := { s.regs with vhsSharpen := v } }
  | .hswPoint => { s with regs := { s.regs with hswPoint := v } }
  | .hswPhase => { s with regs := { s.regs with hswPhase := v } }
  | .hswNoise => { s with regs := { s.regs with hswNoise := v } }
  | .gfRate => { s with regs := { s.regs with gfRate := v } }
  | .audRate => { s with regs := { s.regs with audRate := v } }
  | .audCh => { s with regs := { s.regs with audCh := v } }
  | .audLpHz => { s with regs := { s.regs with audLpHz := v } }
  | .audHpHz => { s with regs := { s.regs with audHpHz := v } }
  | .audPreHz => { s with regs := { s.regs with audPreHz := v } }
  | .audDeHz => { s with regs := { s.regs with audDeHz := v } }
  | .audBoostHz => { s with regs := { s.regs with audBoostHz := v } }
  | .audBoostGain => { s with regs := { s.regs with audBoostGain := v } }
  | .audBuzzGain => { s with regs := { s.regs with audBuzzGain := v } }
  | .audHissLevel => { s with regs := { s.regs with audHissLevel := v } }
  | .audHpulseEnd => { s with regs := { s.regs with audHpulseEnd := v } }
  | .audVpulseEnd => { s with regs := { s.regs with audVpulseEnd := v } }

/-- A finite value in `[lo, hi]`, the ranged `F` registers (10_state.md R38, R49). -/
def finiteIn (lo hi v : F64) : Bool := isFinite v && fle lo v && fle v hi

/-- Whether a value is legal for a register: the register's own range, with the reserved or extension bits
as they must be (10_state.md R24 to R49). Conditions between registers are checked by `SETUP` (R132). -/
def legalCfg (r : CfgReg) (v : DataWord) : Bool :=
  match r with
  | .ctrl => decide (v.toNat < 2 ^ 13)
  | .fieldIndex => true
  | .dim => decide (v.toNat < 2 ^ 32 ∧ 1 ≤ dataField v 0 16 ∧ 1 ≤ dataField v 16 16)
  | .compPhase => decide (v.toNat < 4)
  | .compPhaseOffset => decide (v = BitVec.signExtend 64 (v.truncate 32))
  | .compPre => isFinite v
  | .compCut => isFinite v
  | .scAmp => decide (v.toNat ≤ 100)
  | .videoNoise => decide (v.toNat ≤ 65535)
  | .chromaNoise => decide (v.toNat ≤ 65535)
  | .chromaPhaseNoise => decide (v.toNat ≤ 65535)
  | .chromaLoss => decide (v.toNat ≤ 100000)
  | .vhsSpeed => decide (v.toNat ≤ 2)
  | .vhsSharpen => isFinite v
  | .hswPoint => finiteIn 0#64 f64One v
  | .hswPhase => finiteIn (fneg f64One) f64One v
  | .hswNoise => isFinite v
  | .gfRate => isFinite v
  | .audRate => isFinite v
  | .audCh => decide (v.toNat = 1 ∨ v.toNat = 2)
  | .audLpHz => isFinite v
  | .audHpHz => isFinite v
  | .audPreHz => isFinite v
  | .audDeHz => isFinite v
  | .audBoostHz => isFinite v
  | .audBoostGain => isFinite v
  | .audBuzzGain => isFinite v
  | .audHissLevel => decide (v.toNat < 2 ^ 31)
  | .audHpulseEnd => finiteIn 0#64 f64One v
  | .audVpulseEnd => isFinite v && fle 0#64 v

/-! ## Fields of CTRL and DIM (10_state.md R26, R31) -/

/-- One bit of `CTRL`. -/
def ctrlBit (g : Regs) (bit : Nat) : Bool := g.ctrl.getLsbD bit

def Regs.emuEn (g : Regs) : Bool := ctrlBit g 0
def Regs.pal (g : Regs) : Bool := ctrlBit g 1
def Regs.inClp (g : Regs) : Bool := ctrlBit g 2
def Regs.outClp (g : Regs) : Bool := ctrlBit g 3
def Regs.outLite (g : Regs) : Bool := ctrlBit g 4
def Regs.vhsEn (g : Regs) : Bool := ctrlBit g 5
def Regs.svideo (g : Regs) : Bool := ctrlBit g 6
def Regs.vblendEn (g : Regs) : Bool := ctrlBit g 7
def Regs.hswEn (g : Regs) : Bool := ctrlBit g 8
def Regs.hifi (g : Regs) : Bool := ctrlBit g 9
def Regs.audPre (g : Regs) : Bool := ctrlBit g 10
def Regs.audDe (g : Regs) : Bool := ctrlBit g 11
def Regs.audEn (g : Regs) : Bool := ctrlBit g 12

/-- `DIM[15:0] = W` (R31). -/
def Regs.dimW (g : Regs) : Nat := dataField g.dim 0 16

/-- `DIM[31:16] = H` (R31). -/
def Regs.dimH (g : Regs) : Nat := dataField g.dim 16 16

end Sys2Proof.Machine
end

