-- ==== Sys2Proof/Machine/Flags.lean ====
section
/-!
DEFINITION. The status bits. The block has no arithmetic flags (10_state.md R23); its only status bits are
those of `STATUS` (R25) and its two level outputs (60_exceptions.md R365).
-/
namespace Sys2Proof.Machine

/-- `PHASE` as a number (10_state.md R21). -/
def Phase.code : Phase → Nat
  | .setup => 0
  | .run => 1
  | .faulted => 2

/-- The `STATUS` word: `PHASE` in 1:0, `FCODE` in 15:8, `AUD_READY` in 16, every other bit 0
(10_state.md R25). -/
def statusWord (s : State) : DataWord :=
  BitVec.ofNat 64 (s.audReady.toNat * 2 ^ 16 + s.fcode.toNat * 2 ^ 8 + s.phase.code)

/-- The `FINFO` word: the faulting command word, bits 63:32 zero (10_state.md R25). -/
def finfoWord (s : State) : DataWord := s.finfo.setWidth 64

/-- The register an index reads, or `none` for an unimplemented index (10_state.md R24,
40_host_config_commands.md R133). -/
def readIndex (idx : Nat) (s : State) : Option DataWord :=
  if idx = 0x01 then some (statusWord s)
  else if idx = 0x02 then some (finfoWord s)
  else (cfgRegOf idx).map (readCfg · s)

/-- The level output `READY` (60_exceptions.md R365, log 20). -/
def readySignal (s : State) : Bool := decide (s.phase = .run)

/-- The level output `FAULTED` (60_exceptions.md R365, log 20). -/
def faultedSignal (s : State) : Bool := decide (s.phase = .faulted)

end Sys2Proof.Machine
end

