-- ==== Sys2Proof/Machine/Ops.lean ====
section
/-!
DEFINITION. The shared operations: answering a command, taking a fault and leaving FAULTED, the draws, plane
memory, the filter cell and its cascades, and the field pass every stage command is written over.
-/
namespace Sys2Proof.Machine

/-! ## Answers, faults and reset -/

/-- The response `OK` with `RDATA = v` (30_encoding.md R100). -/
def answer (v : DataWord) (s : State) : State := { s with resp := some (.ok v) }

/-- The code of a fault kind (60_exceptions.md R360). -/
def FaultCode.code : FaultCode → BitVec 8
  | .illegalCommand => 1#8
  | .invalidArgument => 2#8
  | .invalidParameter => 3#8
  | .phaseError => 4#8
  | .planeAddress => 5#8
  | .planeOverflow => 6#8
  | .filterNotConfigured => 7#8

/-- Taking a fault (60_exceptions.md R366): `FCODE`, `FINFO` and `PHASE` change and the response is `FAULT`;
nothing else changes (R367). In FAULTED the answer is `FAULT` with no change of state at all, so the first
fault is kept (R368). -/
def takeFault (c : FaultCode) (s : State) : State :=
  if s.phase = .faulted then { s with resp := some .fault }
  else { s with phase := .faulted, fcode := c.code, finfo := s.cmd, resp := some .fault }

/-- Every piece of the block's state takes its reset value (40_host_config_commands.md R131, 60_exceptions.md
R370, 70_reset_and_hazards.md R400). The port and the environment of the draws are outside the block
(10_state.md R59). -/
def resetBlock (s : State) : State :=
  { State.reset with cmd := s.cmd, wdata := s.wdata, resp := s.resp, host := s.host, draws := s.draws }

/-- The hardware reset input: the reset of the block, and no response is owed (70_reset_and_hazards.md R401,
log 2). -/
def hardReset (s : State) : State := { resetBlock s with resp := none }

/-- A command word and its data word are presented on the port (30_encoding.md R100). -/
def present (cmd : CmdWord) (wdata : DataWord) (rest : List HostEvent) (s : State) : State :=
  { s with cmd := cmd, wdata := wdata, host := rest }

/-- The phase check of a SETUP-only command (30_encoding.md R108). -/
def inSetup (body : State → State) (s : State) : State :=
  if s.phase = .setup then body s else takeFault .phaseError s

/-- The phase check of a RUN-only command (30_encoding.md R108). -/
def inRun (body : State → State) (s : State) : State :=
  if s.phase = .run then body s else takeFault .phaseError s

/-- The phase check of a command that reaches the planes: they exist in RUN (10_state.md R53); without them
the command raises `PhaseError` (20_memory.md R72, log 10). -/
def withPlanes (body : Planes → State → State) (s : State) : State :=
  inRun (fun s => match s.planes with
    | some p => body p s
    | none => takeFault .phaseError s) s

/-! ## Draws (00_scope.md R16, log 3) -/

/-- The environment's next answer: the next recorded one, or a free value where none is recorded. -/
def nextAnswer (d : DrawSource) : Nat × DrawSource :=
  match d.recorded with
  | a :: rest => (a, ⟨rest, d.count + 1⟩)
  | [] => (Config.freeDraw d.count, ⟨[], d.count + 1⟩)

/-- `Draw(lo, hi)`: an integer in `[lo, hi]` the environment chooses; when `lo = hi` nothing is asked. -/
def draw (lo hi : Int) (d : DrawSource) : Int × DrawSource :=
  if hi ≤ lo then (lo, d)
  else (lo + (nextAnswer d).1 % (hi - lo + 1), (nextAnswer d).2)

/-- The binary64 of `[-1, 1)` that an answer stands for: every such value stands for some answer. -/
def unitOfAnswer (a : Nat) : F64 :=
  let r := a % (2 * f64One.toNat + 1)
  if r < f64One.toNat then packBits false r else packBits true (r - f64One.toNat)

/-- `DrawUnit()`: a binary64 in `[-1, 1)` the environment chooses. -/
def drawUnit (d : DrawSource) : F64 × DrawSource :=
  (unitOfAnswer (nextAnswer d).1, (nextAnswer d).2)

/-! ## Plane memory (20_memory.md R70 to R74, log 9) -/

/-- The sample at an address; an address that is not listed reads as 0 (10_state.md R53). -/
def Memory.read : Memory → Nat → Sample
  | [], _ => 0#32
  | (k, v) :: rest, a => if k = a then v else Memory.read rest a

/-- The entries of consecutive samples from an address on, zeros left out. -/
def Memory.entries : Nat → List Sample → Memory
  | _, [] => []
  | a, v :: vs =>
    if v = 0#32 then Memory.entries (a + 1) vs else (a, v) :: Memory.entries (a + 1) vs

/-- Store consecutive samples from an address on (R73). -/
def Memory.writeRange (m : Memory) (base : Nat) (vs : List Sample) : Memory :=
  m.filter (fun e => decide (e.1 < base)) ++ Memory.entries base vs
    ++ m.filter (fun e => decide (base + vs.length ≤ e.1))

/-- The canonical form: addresses strictly rising, no entry equal to what an unlisted address reads as. -/
def Memory.wf (m : Memory) : Bool :=
  decide (m.Pairwise (fun a b => a.1 < b.1)) && m.all (fun e => decide (e.2 ≠ 0#32))

/-- The address of plane `p`, row `y`, column `x`, as one number; rows and columns are below 65536
(20_memory.md R70, 30_encoding.md R102). -/
def planeAddr (p y x : Nat) : Nat := (p * 65536 + y) * 65536 + x

/-- The planes as numbered by `CMD[1:0]` (20_memory.md R70). -/
def planeY : Nat := 0
def planeI : Nat := 1
def planeQ : Nat := 2

/-- Whether `(p, y, x)` is in the plane space (20_memory.md R71). -/
def Planes.inside (P : Planes) (p y x : Nat) : Bool := decide (p < 3 ∧ y < P.h ∧ x < P.w)

/-- `PlaneRead(p, y, x)` inside the plane space (20_memory.md R72). -/
def Planes.read (P : Planes) (p y x : Nat) : Sample := Memory.read P.cells (planeAddr p y x)

/-- `PlaneWrite(p, y, x, v)` inside the plane space, of a value of `S32` (20_memory.md R73). -/
def Planes.write (P : Planes) (p y x : Nat) (v : Sample) : Planes :=
  { P with cells := Memory.writeRange P.cells (planeAddr p y x) [v] }

/-- One row of one plane, `W` samples. -/
def Planes.readRow (P : Planes) (p y : Nat) : List Sample :=
  (List.range P.w).map (fun x => P.read p y x)

/-- Store one row of one plane; samples beyond column `W - 1` are dropped (20_memory.md R71: a stage never
leaves the planes). -/
def Planes.writeRow (P : Planes) (p y : Nat) (vs : List Sample) : Planes :=
  { P with cells := Memory.writeRange P.cells (planeAddr p y 0) (vs.take P.w) }

/-- The planes `SETUP` creates: every sample 0 (10_state.md R53). -/
def Planes.zero (w h : Nat) : Planes := ⟨w, h, []⟩

/-- The canonical form of the planes: 16-bit positive dimensions (10_state.md R31), canonical memory, and
every entry inside the plane space. -/
def Planes.wf (P : Planes) : Bool :=
  decide (1 ≤ P.w ∧ P.w < 65536 ∧ 1 ≤ P.h ∧ P.h < 65536) && Memory.wf P.cells
    && P.cells.all (fun e => P.inside (e.1 / 4294967296) (e.1 / 65536 % 65536) (e.1 % 65536))

/-- One row of the three planes. -/
structure Row where
  y : List Sample
  i : List Sample
  q : List Sample
deriving DecidableEq, Repr

def Planes.row (P : Planes) (y : Nat) : Row :=
  ⟨P.readRow planeY y, P.readRow planeI y, P.readRow planeQ y⟩

/-- The three planes of a row are written together (20_memory.md R77). -/
def Planes.setRow (P : Planes) (y : Nat) (r : Row) : Planes :=
  ((P.writeRow planeY y r.y).writeRow planeI y r.i).writeRow planeQ y r.q

/-! ## The filter cell (41_iir_filter.md R160 to R164, 00_scope.md R17) -/

/-- A filter cell with its coefficient: `{alpha, prev}` (R160). -/
structure Cell where
  alpha : F64
  prev : F64
deriving DecidableEq, Repr

/-- `ALPHA(rate, fc)` (R161, 00_scope.md R17). -/
def alphaOf (rate fc : F64) : F64 :=
  let dt := fdiv f64One rate
  let tau := fdiv f64One (fmul (fmul fc f64Two) f64Pi)
  fdiv dt (fadd tau dt)

/-- `configure(rate, cutoff_hz)`: the coefficient, or `none` where it raises `InvalidParameter` (R161). -/
def configure (rate fc : F64) : Option F64 :=
  if isPos rate && isPos fc && !isNaN (alphaOf rate fc) then some (alphaOf rate fc) else none

/-- A fresh scratch cell with a coefficient: `.prev = +0.0` (00_scope.md R17, 10_state.md R58). -/
def freshCell (alpha : F64) : Cell := ⟨alpha, 0#64⟩

/-- `LP(c, x)`: the cell after the call, and the value yielded (R163). -/
def lpStep (c : Cell) (x : F64) : Cell × F64 :=
  let y := fadd (fsub c.prev (fmul c.prev c.alpha)) (fmul x c.alpha)
  (⟨c.alpha, y⟩, y)

/-- `HP(c, x)`: the cell is advanced by the lowpass; the value yielded is `x` less the lowpass (R164). -/
def hpStep (c : Cell) (x : F64) : Cell × F64 :=
  ((lpStep c x).1, fsub x (lpStep c x).2)

/-- The operation applied to a cell decides which filter it is (R164). -/
inductive FilterOp where
  | lp
  | hp
deriving DecidableEq, Repr

def stepCell : FilterOp → Cell → F64 → Cell × F64
  | .lp => lpStep
  | .hp => hpStep

/-- A cascade: each cell receives the output of the one before it and all of them advance (R169). The result
lists each cell after the call with the value it yielded. -/
def runChain : List (FilterOp × Cell) → F64 → List (Cell × F64)
  | [], _ => []
  | (op, c) :: rest, x => stepCell op c x :: runChain rest (stepCell op c x).2

/-- The output of a cascade: what its last cell yielded, or the input of an empty one. -/
def chainOut (x : F64) (trace : List (Cell × F64)) : F64 :=
  match trace.getLast? with
  | some e => e.2
  | none => x

/-- A cascade of lowpass scratch cells as one step (43_composite_chroma.md R200). -/
def lpCascade (cells : List Cell) (x : F64) : List Cell × F64 :=
  let trace := runChain (cells.map (fun c => (FilterOp.lp, c))) x
  (trace.map Prod.fst, chainOut x trace)

/-- Filter a row of samples from left to right with a filter that keeps its cells: the outputs, one a
column (43_composite_chroma.md R200). -/
def filterRow {κ : Type} (op : κ → F64 → κ × F64) : κ → List Sample → List F64
  | _, [] => []
  | k, v :: vs => (op k (i2f v.toInt)).2 :: filterRow op (op k (i2f v.toInt)).1 vs

/-! ## The general filter bank (41_iir_filter.md R167 to R171, R174) -/

/-- The cells of a plan, with their coefficients, or `none` where one is not configured (10_state.md R55). -/
def bankCells (gf : Vector StoredCell Config.numGeneralCells) :
    List (FilterOp × Nat) → Option (List (FilterOp × Cell))
  | [] => some []
  | (op, k) :: rest =>
    match gf[k]?, bankCells gf rest with
    | some ⟨some alpha, prev⟩, some cells => some ((op, ⟨alpha, prev⟩) :: cells)
    | _, _ => none

/-- Store the advanced cells of a plan. -/
def bankStore (gf : Vector StoredCell Config.numGeneralCells) :
    List (FilterOp × Nat) → List (Cell × F64) → Vector StoredCell Config.numGeneralCells
  | (_, k) :: plan, (c, _) :: trace =>
    bankStore (gf.setIfInBounds k ⟨some c.alpha, c.prev⟩) plan trace
  | _, _ => gf

/-- Every new `.prev` and every stage output is finite (R174 (a)). -/
def traceFinite (trace : List (Cell × F64)) : Bool :=
  trace.all (fun e => isFinite e.1.prev && isFinite e.2)

/-- A filter command on the general cells, the checks in the order of R167 and R374: the cell range, the
operand's finiteness, the configured bits, the finiteness of the results. A fault changes no cell. -/
def bankCommand (rangeOk : Bool) (plan : List (FilterOp × Nat)) (s : State) : State :=
  inRun (fun s =>
    if !rangeOk then takeFault .invalidArgument s
    else if !isFinite s.wdata then takeFault .invalidArgument s
    else match bankCells s.gf plan with
      | none => takeFault .filterNotConfigured s
      | some cells =>
        let trace := runChain cells s.wdata
        if traceFinite trace then
          answer (chainOut s.wdata trace) { s with gf := bankStore s.gf plan trace }
        else takeFault .invalidArgument s) s

/-- `n` consecutive cells from `first` on, each with the same operation (R169). -/
def bankPlan (op : FilterOp) (first n : Nat) : List (FilterOp × Nat) :=
  (List.range n).map (fun k => (op, first + k))

/-! ## Field passes (20_memory.md R76, R77; 43_composite_chroma.md, introduction) -/

/-- `PAR = FIELD & 1` (00_scope.md R14). -/
def parity (field : BitVec 64) : Nat := field.toNat % 2

/-- `rows()`: the rows of the current parity below `H`, ascending (00_scope.md R14). -/
def fieldRows (field : BitVec 64) (h : Nat) : List Nat :=
  (List.range h).filter (fun y => decide (y % 2 = parity field))

/-- What a stage does with one row: a value carried to the next row, the new row, and the draws left; or a
fault. -/
inductive RowResult (κ : Type) where
  | done (carry : κ) (row : Row) (d : DrawSource)
  | fault (c : FaultCode) (d : DrawSource)

/-- What a stage does with the planes. A fault gives the planes as they are left (60_exceptions.md R367). -/
inductive StageResult where
  | done (p : Planes) (d : DrawSource)
  | fault (c : FaultCode) (p : Planes) (d : DrawSource)
deriving DecidableEq, Repr

/-- A stage: what it does with the planes, from the configuration, `FIELD`, the planes and the draws. -/
abbrev Stage := Regs → BitVec 64 → Planes → DrawSource → StageResult

/-- A row whose values do not all fit raises `PlaneOverflow` (60_exceptions.md R363). -/
def rowOrOverflow (d : DrawSource) : Option Row → RowResult Unit
  | some r => .done () r d
  | none => .fault .planeOverflow d

/-- Process a list of rows in order. -/
def passRows {κ : Type} (f : κ → DrawSource → Nat → Row → RowResult κ) :
    List Nat → κ → DrawSource → Planes → StageResult
  | [], _, d, P => .done P d
  | y :: ys, k, d, P =>
    match f k d y (P.row y) with
    | .done k' r d' => passRows f ys k' d' (P.setRow y r)
    | .fault c d' => .fault c P d'

/-- A field pass over `rows()`. It is atomic: a fault leaves the planes as they were before it, and only the
draws it made are spent (60_exceptions.md R367). -/
def fieldPass {κ : Type} (f : κ → DrawSource → Nat → Row → RowResult κ) (k : κ) (field : BitVec 64)
    (P : Planes) (d : DrawSource) : StageResult :=
  match passRows f (fieldRows field P.h) k d P with
  | .done P' d' => .done P' d'
  | .fault c _ d' => .fault c P d'

/-- Every value of a row, or `none` where one does not fit. -/
def allSome {α : Type} : List (Option α) → Option (List α)
  | [] => some []
  | none :: _ => none
  | some a :: rest => (allSome rest).map (a :: ·)

/-- Stages one after another; the first fault ends them, and the stages that completed keep their effects
(60_exceptions.md R367, 46_field_sequencer.md R300). -/
def runStages : List Stage → Stage
  | [], _, _, P, d => .done P d
  | st :: rest, g, field, P, d =>
    match st g field P d with
    | .done P' d' => runStages rest g field P' d'
    | .fault c P' d' => .fault c P' d'

/-- A stage or macro command: in RUN, the stage on the planes; `after` is what it does besides when the stage
completes (46_field_sequencer.md R302). `RDATA` is 0. -/
def stageCommand (st : Stage) (after : State → State) (s : State) : State :=
  withPlanes (fun p s =>
    match st s.regs s.field p s.draws with
    | .done p' d' => answer 0#64 (after { s with planes := some p', draws := d' })
    | .fault c p' d' => takeFault c { s with planes := some p', draws := d' }) s

end Sys2Proof.Machine
end

