-- ==== Sys2Proof/Machine/Composite.lean ====
section
/-!
DEFINITION. The composite chroma pipeline: CLPF, MOD, PRE, YNOISE, DEMOD, CNOISE, CPHASE, CDROP
(43_composite_chroma.md). Each is a field pass; a stage whose amount register is 0 does nothing and makes no
draw.
-/
namespace Sys2Proof.Machine

/-- A sample of a row as an integer; 0 outside the row (R217, R218). -/
def rowAt (row : List Sample) (x : Int) : Int :=
  if x < 0 then 0 else (row.getD x.toNat 0#32).toInt

/-! ## Chroma band-limiter (R200, R201) -/

/-- Three fresh lowpass cells at a cutoff of the video rate (R200). The cutoffs are positive constants and
cannot fail (40_host_config_commands.md R134, log 15). -/
def threeCells (fc : F64) : List Cell := List.replicate 3 (freshCell (alphaOf fsc4 fc))

/-- `LP3D(row, fc, d)`, or `none` on `PlaneOverflow`: the output for column `x` is stored at column `x - d`,
the first `d` outputs are dropped, the last `d` columns keep their old values (R200). -/
def lp3d (fc : F64) (d : Nat) (row : List Sample) : Option (List Sample) :=
  let outs := (filterRow lpCascade (threeCells fc) row).drop d
  (allSome (outs.map f2s)).map (fun kept => kept ++ row.drop (row.length - d))

/-- Lowpass the two chroma planes of a row (R201, 45_vhs_stage.md R274). -/
def chromaLowpassRow (fcI : F64) (dI : Nat) (fcQ : F64) (dQ : Nat) (r : Row) : Option Row :=
  match lp3d fcI dI r.i, lp3d fcQ dQ r.q with
  | some i, some q => some ⟨r.y, i, q⟩
  | _, _ => none

def hz1300000 : F64 := 0x4133D62000000000#64
def hz600000 : F64 := 0x41224F8000000000#64
def hz2600000 : F64 := 0x4143D62000000000#64

/-- One row of `CLPF m` (R201). -/
def clpfRow (lite : Bool) (r : Row) : Option Row :=
  if lite then chromaLowpassRow hz2600000 1 hz2600000 1 r
  else chromaLowpassRow hz1300000 2 hz600000 4 r

/-- The stage `CLPF m` (R201). -/
def clpfStage (lite : Bool) : Stage := fun _ field P d =>
  fieldPass (fun _ d _ r => rowOrOverflow d (clpfRow lite r)) () field P d

/-- `CLPF m` (R201). -/
def execClpf (m : Bool) (s : State) : Host.Outcome State Fault Refusal :=
  .next (stageCommand (clpfStage m) id s)

/-! ## Subcarrier phase (R203, R204) -/

/-- `xi(y)` (R203). -/
def subcarrierPhase (g : Regs) (field : BitVec 64) (y : Nat) : Nat :=
  let off : Int := g.compPhaseOffset.toInt
  let f : Int := field.toNat
  match g.compPhase.toNat with
  | 0 => (off % 4).toNat
  | 1 => ((f + off + (y / 2 : Nat)) % 4).toNat
  | 2 => (((f + y) / 2 % 2 * 2 + off) % 4).toNat
  | _ => ((f + off - (y / 2 : Nat)) % 4).toNat

/-- `U = [1, 0, -1, 0]` (R204). -/
def tableU (k : Nat) : Int :=
  match k % 4 with
  | 0 => 1
  | 2 => -1
  | _ => 0

/-- `V = [0, 1, 0, -1]` (R204). -/
def tableV (k : Nat) : Int :=
  match k % 4 with
  | 1 => 1
  | 3 => -1
  | _ => 0

/-! ## Modulator (R205) -/

/-- What `MOD` adds to luma: `tdiv(I*A*U[k] + Q*A*V[k], 50)` (R205). -/
def carrier (amp : Int) (k : Nat) (i q : Int) : Int :=
  tdiv (i * amp * tableU k + q * amp * tableV k) 50

/-- The luma value of column `x` after `MOD` (R205). -/
def modulatedLuma (amp : Int) (xi : Nat) (r : Row) (x : Nat) : Int :=
  rowAt r.y x + carrier amp (xi + x) (rowAt r.i x) (rowAt r.q x)

/-- One row of `MOD` (R205). -/
def modRow (amp : Int) (xi : Nat) (r : Row) : Option Row :=
  (allSome ((List.range r.y.length).map (fun x => toSample (modulatedLuma amp xi r x)))).map
    (fun y => ⟨y, List.replicate r.i.length 0#32, List.replicate r.q.length 0#32⟩)

/-- The stage `MOD` (R205). -/
def modStage : Stage := fun g field P d =>
  fieldPass (fun _ d y r => rowOrOverflow d (modRow g.scAmp.toNat (subcarrierPhase g field y) r))
    () field P d

/-- `MOD` (R205). -/
def execMod (s : State) : Host.Outcome State Fault Refusal := .next (stageCommand modStage id s)

/-! ## Composite preemphasis (R208) -/

/-- The filter of `PRE` on one sample: `fadd(s, fmul(HP(c, s), pre))` (R208). -/
def preStep (pre : F64) (c : Cell) (s : F64) : Cell × F64 :=
  ((hpStep c s).1, fadd s (fmul (hpStep c s).2 pre))

/-- One row of `PRE`. `NEWCELL` raises `InvalidParameter` on an unusable cutoff, which `SETUP` excludes
(R208, 00_scope.md R17). -/
def preRow (g : Regs) (d : DrawSource) (r : Row) : RowResult Unit :=
  match configure fsc4 g.compCut with
  | none => .fault .invalidParameter d
  | some alpha =>
    rowOrOverflow d
      ((allSome ((filterRow (preStep g.compPre) (freshCell alpha) r.y).map f2s)).map
        (fun y => ⟨y, r.i, r.q⟩))

/-- The stage `PRE` (R208). -/
def preStage : Stage := fun g field P d =>
  if isZero g.compPre then .done P d
  else fieldPass (fun _ d _ r => preRow g d r) () field P d

/-- `PRE` (R208). -/
def execPre (s : State) : Host.Outcome State Fault Refusal := .next (stageCommand preStage id s)

/-! ## Luma noise (R211) -/

/-- One step of a random walk: `tdiv(n + Draw(-v, v), 2)` (R211). -/
def walk (v n : Int) (d : DrawSource) : Int × DrawSource :=
  (tdiv (n + (draw (-v) v d).1) 2, (draw (-v) v d).2)

/-- One row of `YNOISE` from walk value `n`; a sample that does not fit ends it, its draw spent (R211,
60_exceptions.md R367). -/
def ynoiseRow (v : Int) : Int → DrawSource → List Sample → Option (List Sample) × DrawSource
  | _, d, [] => (some [], d)
  | n, d, y :: ys =>
    match toSample (y.toInt + (walk v n d).1) with
    | none => (none, (walk v n d).2)
    | some y' =>
      let rest := ynoiseRow v (walk v n d).1 (walk v n d).2 ys
      (rest.1.map (y' :: ·), rest.2)

/-- The stage `YNOISE` (R211). -/
def ynoiseStage : Stage := fun g field P d =>
  if g.videoNoise = 0#64 then .done P d
  else fieldPass (fun _ d _ r =>
    let out := ynoiseRow g.videoNoise.toNat 0 d r.y
    rowOrOverflow out.2 (out.1.map (fun y => ⟨y, r.i, r.q⟩))) () field P d

/-- `YNOISE` (R211). -/
def execYnoise (s : State) : Host.Outcome State Fault Refusal := .next (stageCommand ynoiseStage id s)

/-! ## Demodulator (R215 to R220) -/

def f50 : F64 := 0x4049000000000000#64

/-- `A_back`, or `none` on `PlaneOverflow` (R215). -/
def aBack (g : Regs) : Option Int :=
  if isZero g.compPre then some (g.scAmp.toNat : Int)
  else f2i (fadd (i2f (g.scAmp.toNat : Int))
    (fdiv (fmul (fmul f50 g.compPre) fsc) (fmul f64Two g.compCut)))

/-- The box blur `Ylf[x]` (R217). -/
def boxBlur (raw : List Sample) (x : Nat) : Int :=
  tdiv (rowAt raw ((x : Int) - 1) + rowAt raw x + rowAt raw ((x : Int) + 1) + rowAt raw ((x : Int) + 2)) 4

/-- The chroma residual with its sign corrected (R218). -/
def residual (raw : List Sample) (xi x : Nat) : Int :=
  let c := rowAt raw ((x : Int) + 2) - boxBlur raw x
  if 2 ≤ (xi + x) % 4 then -c else c

/-- The residual scaled by `50 / Ab` (R219), exact. -/
def scaledResidual (ab : Int) (raw : List Sample) (xi x : Nat) : Int :=
  tdiv (residual raw xi x * 50) ab

/-- Whether the scaled residual of every column of the row lies in `S32` (R216, R219); with `Ab = 0` nothing is scaled
(R219). Every column counts, those that R220 does not use too (log 8). -/
def residualsFit (ab : Int) (raw : List Sample) (xi : Nat) : Bool :=
  decide (ab = 0) || (List.range raw.length).all (fun x => inS32 (scaledResidual ab raw xi x))

/-- `In[x]` (`odd` 0) or `Qn[x]` (`odd` 1) at an even column (R220). -/
def demuxEven (ab : Int) (raw : List Sample) (xi odd x : Nat) : Int :=
  if x + xi + 1 < raw.length then -scaledResidual ab raw xi (x + xi + odd) else 0

/-- `In[x]` or `Qn[x]` at any column (R219, R220). -/
def demuxChroma (ab : Int) (raw : List Sample) (xi odd x : Nat) : Int :=
  if ab = 0 then 0
  else if x % 2 = 0 then demuxEven ab raw xi odd x
  else if x + 1 < raw.length then
    tdiv (demuxEven ab raw xi odd (x - 1) + demuxEven ab raw xi odd (x + 1)) 2
  else 0

/-- The values of all columns of a row as samples, or `none` on `PlaneOverflow`. -/
def rowOfInts (w : Nat) (f : Nat → Int) : Option (List Sample) :=
  allSome ((List.range w).map (fun x => toSample (f x)))

/-- One row of `DEMOD`, from the raw composite row alone; `none` on `PlaneOverflow`, where a scaled residual or a value
to be written leaves `S32` (R216, 60_exceptions.md R363). -/
def demodRow (ab : Int) (xi : Nat) (r : Row) : Option Row :=
  if residualsFit ab r.y xi then
    match rowOfInts r.y.length (boxBlur r.y), rowOfInts r.y.length (demuxChroma ab r.y xi 0),
        rowOfInts r.y.length (demuxChroma ab r.y xi 1) with
    | some y, some i, some q => some ⟨y, i, q⟩
    | _, _, _ => none
  else none

/-- The stage `DEMOD m`: mode 0 scales by `A_back`, mode 1 by `A` (R216). -/
def demodStage (plain : Bool) : Stage := fun g field P d =>
  match (if plain then some (g.scAmp.toNat : Int) else aBack g) with
  | none => .fault .planeOverflow P d
  | some ab =>
    fieldPass (fun _ d y r => rowOrOverflow d (demodRow ab (subcarrierPhase g field y) r)) () field P d

/-- `DEMOD m` (R216). -/
def execDemod (m : Bool) (s : State) : Host.Outcome State Fault Refusal :=
  .next (stageCommand (demodStage m) id s)

/-! ## Chroma noise (R223) -/

/-- One row of `CNOISE`, the I draw of a column before its Q draw (R223). -/
def cnoiseRow (c : Int) : Int → Int → DrawSource → List (Sample × Sample) →
    Option (List (Sample × Sample)) × DrawSource
  | _, _, d, [] => (some [], d)
  | nI, nQ, d, (i, q) :: rest =>
    match toSample (i.toInt + (walk c nI d).1) with
    | none => (none, (walk c nI d).2)
    | some i' =>
      match toSample (q.toInt + (walk c nQ (walk c nI d).2).1) with
      | none => (none, (walk c nQ (walk c nI d).2).2)
      | some q' =>
        let out := cnoiseRow c (walk c nI d).1 (walk c nQ (walk c nI d).2).1
          (walk c nQ (walk c nI d).2).2 rest
        (out.1.map ((i', q') :: ·), out.2)

/-- The stage `CNOISE` (R223). -/
def cnoiseStage : Stage := fun g field P d =>
  if g.chromaNoise = 0#64 then .done P d
  else fieldPass (fun _ d _ r =>
    let out := cnoiseRow g.chromaNoise.toNat 0 0 d (r.i.zip r.q)
    rowOrOverflow out.2 (out.1.map (fun iq => ⟨r.y, iq.map Prod.fst, iq.map Prod.snd⟩))) () field P d

/-- `CNOISE` (R223). -/
def execCnoise (s : State) : Host.Outcome State Fault Refusal := .next (stageCommand cnoiseStage id s)

/-! ## Chroma phase rotation (R225) -/

def f100 : F64 := 0x4059000000000000#64

/-- The angle of a walk value, `noise * PI / 100` (R225). -/
def phaseAngle (n : Int) : F64 := fdiv (fmul (i2f n) f64Pi) f100

/-- `I` after the rotation (R225). -/
def rotateI (sn cs : F64) (i q : Sample) : Option Sample :=
  f2s (fsub (fmul (i2f i.toInt) cs) (fmul (i2f q.toInt) sn))

/-- `Q` after the rotation (R225). -/
def rotateQ (sn cs : F64) (i q : Sample) : Option Sample :=
  f2s (fadd (fmul (i2f i.toInt) sn) (fmul (i2f q.toInt) cs))

/-- The rotation of one row by an angle (R225). -/
def rotateRow (th : F64) (r : Row) : Option Row :=
  match allSome (List.zipWith (rotateI (sinF th) (cosF th)) r.i r.q),
      allSome (List.zipWith (rotateQ (sinF th) (cosF th)) r.i r.q) with
  | some i, some q => some ⟨r.y, i, q⟩
  | _, _ => none

/-- One row of `CPHASE`: the walk is carried from row to row (R225). -/
def cphaseRow (p : Int) (n : Int) (d : DrawSource) (r : Row) : RowResult Int :=
  match rotateRow (phaseAngle (walk p n d).1) r with
  | none => .fault .planeOverflow (walk p n d).2
  | some r' => .done (walk p n d).1 r' (walk p n d).2

/-- The stage `CPHASE`; the walk starts from 0 in every command (R225). -/
def cphaseStage : Stage := fun g field P d =>
  if g.chromaPhaseNoise = 0#64 then .done P d
  else fieldPass (fun n d _ r => cphaseRow g.chromaPhaseNoise.toNat n d r) 0 field P d

/-- `CPHASE` (R225). -/
def execCphase (s : State) : Host.Outcome State Fault Refusal := .next (stageCommand cphaseStage id s)

/-! ## Chroma dropout (R228) -/

/-- One row of `CDROP`: one draw; the chroma of a dropped row is zero (R228). -/
def cdropRow (loss : Int) (d : DrawSource) (r : Row) : RowResult Unit :=
  if (draw 0 99999 d).1 < loss then
    .done () ⟨r.y, List.replicate r.i.length 0#32, List.replicate r.q.length 0#32⟩ (draw 0 99999 d).2
  else .done () r (draw 0 99999 d).2

/-- The stage `CDROP` (R228). -/
def cdropStage : Stage := fun g field P d =>
  if g.chromaLoss = 0#64 then .done P d
  else fieldPass (fun _ d _ r => cdropRow g.chromaLoss.toNat d r) () field P d

/-- `CDROP` (R228). -/
def execCdrop (s : State) : Host.Outcome State Fault Refusal := .next (stageCommand cdropStage id s)

end Sys2Proof.Machine
end

