-- ==== Sys2Proof/Machine/HeadSwitch.lean ====
section
/-!
DEFINITION. The VHS head-switching line shift: HSW (44_head_switching.md).
-/
namespace Sys2Proof.Machine

def f312_5 : F64 := 0x4073880000000000#64
def f262_5 : F64 := 0x4070680000000000#64

/-- Lines per field, 312.5 PAL and 262.5 NTSC (R251). The buzz uses the same number as its lines per
half-frame (47_audio_chain.md R328). -/
def linesPerField (pal : Bool) : F64 := if pal then f312_5 else f262_5

/-- `BL`, the field lines before the first picture line (R251). -/
def blankLines (pal : Bool) : Int := if pal then 24 else 22

/-- `tw`, the width of a virtual line (R251). -/
def virtualWidth (w : Nat) : Int := w + tdiv w 10

/-- `T`, the length of a field in virtual samples (R251). -/
def fieldLength (pal : Bool) (w : Nat) : F64 := fmul (i2f (virtualWidth w)) (linesPerField pal)

/-- `frac(v) = v - ffloor(v)` (R252). -/
def frac (v : F64) : F64 := fsub v (ffloor v)

/-- A position inside the field, `f2i(frac(at + noise) * T)`, or `none` on `PlaneOverflow` (R252). -/
def fieldPosition (at_ noise t : F64) : Option Int := f2i (fmul (frac (fadd at_ noise)) t)

/-- `noise`: one draw scaled by `HSW_NOISE`, none when `HSW_NOISE` is 0 (R252). -/
def switchNoise (g : Regs) (d : DrawSource) : F64 × DrawSource :=
  if isZero g.hswNoise then (0#64, d)
  else (fmul (drawUnit d).1 g.hswNoise, (drawUnit d).2)

/-- `y0`, the frame row of the head switch, from `p1` (R252). -/
def switchRow (pal : Bool) (par : Nat) (tw p1 : Int) : Int :=
  2 * tdiv p1 tw + par - 2 * blankLines pal

/-- `ishif`, the signed initial shift, from `p2` (R252). -/
def initialShift (tw p2 : Int) : Int :=
  if tdiv tw 2 ≤ p2 % tw then p2 % tw - tw else p2 % tw

/-- The decay of the shift from one visited row to the next (R253). -/
def decayShift (shif : Int) : Int := tdiv (shif * 7) 8

/-- A row shifted inside its virtual line, whose last `tw - W` samples are blanking zeros (R253). -/
def shiftRow (tw shif : Int) (row : List Sample) : List Sample :=
  (List.range row.length).map (fun x => row.getD (((x : Int) + tw + shif) % tw).toNat 0#32)

/-- The loop of R253 from row `y` with shift `shif`; the first argument bounds the number of rows visited. -/
def hswRows (tw : Int) : Nat → Int → Int → Planes → Planes
  | 0, _, _, P => P
  | n + 1, y, shif, P =>
    if y < P.h then
      hswRows tw n (y + 2) (decayShift shif)
        (if 0 ≤ y ∧ shif ≠ 0 then
          P.writeRow planeY y.toNat (shiftRow tw shif (P.readRow planeY y.toNat))
        else P)
    else P

/-- The stage `HSW` (R253). -/
def hswStage : Stage := fun g field P d =>
  let tw := virtualWidth P.w
  let t := fieldLength g.pal P.w
  let noise := (switchNoise g d).1
  let d' := (switchNoise g d).2
  match fieldPosition g.hswPoint noise t, fieldPosition g.hswPhase noise t with
  | some p1, some p2 =>
    let y0 := switchRow g.pal (parity field) tw p1
    .done (hswRows tw ((P.h : Int) - y0).toNat (y0 + 2) (initialShift tw p2) P) d'
  | _, _ => .fault .planeOverflow P d'

/-- `HSW` (R253). -/
def execHsw (s : State) : Host.Outcome State Fault Refusal := .next (stageCommand hswStage id s)

end Sys2Proof.Machine
end

