-- ==== Sys2Proof/Machine/HostCommands.lean ====
section
/-!
DEFINITION. The host, configuration and plane-access commands: NOP, RESET, CFGW, CFGR, SETUP, CATV, PWR, PRD
(40_host_config_commands.md).
-/
namespace Sys2Proof.Machine

/-- `NOP` (R130): legal in every phase, changes nothing. -/
def execNop (s : State) : Host.Outcome State Fault Refusal := .next (answer 0#64 s)

/-- `RESET` (R131): legal in every phase; the only way out of FAULTED (60_exceptions.md R370). -/
def execReset (s : State) : Host.Outcome State Fault Refusal := .next (answer 0#64 (resetBlock s))

/-- `CFGW idx, value` in SETUP (R132). -/
def writeRegister (idx : Nat) (s : State) : State :=
  match cfgRegOf idx with
  | none => takeFault .invalidArgument s
  | some r =>
    if legalCfg r s.wdata then answer 0#64 (writeCfg r s.wdata s) else takeFault .invalidArgument s

/-- `CFGW idx` (R132). -/
def execCfgw (idx : Nat) (s : State) : Host.Outcome State Fault Refusal :=
  .next (inSetup (writeRegister idx) s)

/-- `CFGR idx` (R133): legal in every phase, FAULTED included. -/
def execCfgr (idx : Nat) (s : State) : Host.Outcome State Fault Refusal :=
  .next (match readIndex idx s with
    | none => takeFault .invalidArgument s
    | some v => answer v s)

/-- Whether the high boost stage is used: `boost_used` (R135, 47_audio_chain.md R331). -/
def boostUsed (g : Regs) : Bool := !g.hifi && !isZero g.audBoostGain

/-- The coefficient of an auxiliary audio cell: configured only when its stage is in use, otherwise the cell
keeps what it has; the outer `none` raises `InvalidParameter` (R135). -/
def auxCell (used : Bool) (rate fc : F64) (c : StoredCell) : Option StoredCell :=
  if used then (configure rate fc).map (fun a => ⟨some a, 0#64⟩) else some c

/-- The audio cells of one channel as `SETUP` configures them, or `none` where it raises `InvalidParameter`
(R135). -/
def setupChannel (g : Regs) (ch : AudioChannel) : Option AudioChannel :=
  match configure g.audRate g.audLpHz, configure g.audRate g.audHpHz,
      auxCell g.audPre g.audRate g.audPreHz ch.apre,
      auxCell g.audDe g.audRate g.audDeHz ch.ade,
      auxCell (boostUsed g) g.audRate g.audBoostHz ch.aboost with
  | some lp, some hp, some apre, some ade, some aboost =>
    some
      { alp := Vector.replicate _ ⟨some lp, 0#64⟩
        ahp := Vector.replicate _ ⟨some hp, 0#64⟩
        apre := apre
        ade := ade
        aboost := aboost }
  | _, _, _, _, _ => none

/-- The audio part of `SETUP`, run only with `AUD_EN = 1`; `none` where it raises `InvalidParameter` (R135). -/
def setupAudio (s : State) : Option State :=
  if s.regs.audEn then
    match setupChannel s.regs s.aud0, setupChannel s.regs s.aud1 with
    | some c0, some c1 => some { s with aud0 := c0, aud1 := c1, audReady := true }
    | _, _ => none
  else some s

/-- The cross-register check of `SETUP`: a preemphasis that is on needs a cutoff that is positive (R134). -/
def preemphasisOk (g : Regs) : Bool := isZero g.compPre || isPos g.compCut

/-- `SETUP` in the SETUP phase (R134). -/
def setupBlock (s : State) : State :=
  if preemphasisOk s.regs then
    match setupAudio s with
    | none => takeFault .invalidParameter s
    | some s' =>
      answer 0#64
        { s' with
          planes := some (Planes.zero s.regs.dimW s.regs.dimH)
          audT := 0#64
          phase := .run }
  else takeFault .invalidParameter s

/-- `SETUP` (R134, R135). -/
def execSetup (s : State) : Host.Outcome State Fault Refusal := .next (inSetup setupBlock s)

/-- The cable-TV presets: `COMP_PRE`, `COMP_CUT`, `CHROMA_PHASE_NOISE` (R136, 90_conflicts.md C5). -/
def catvPreset (k : Nat) : Option (F64 × F64 × DataWord) :=
  match k with
  | 1 => some (0x401C000000000000#64, fmul f64One fsc, 2#64)
  | 2 => some (0x402E000000000000#64, fmul f64One fsc, 4#64)
  | 3 => some (0x4039000000000000#64, fmul f64Two fsc, 6#64)
  | 4 => some (0x4044000000000000#64, fmul 0x4010000000000000#64 fsc, 6#64)
  | _ => none

/-- `CATV k` in the SETUP phase (R136). -/
def loadPreset (k : Nat) (s : State) : State :=
  match catvPreset k with
  | none => takeFault .invalidArgument s
  | some (pre, cut, pn) =>
    answer 0#64
      { s with regs := { s.regs with compPre := pre, compCut := cut, chromaPhaseNoise := pn } }

/-- `CATV k` (R136). -/
def execCatv (k : Nat) (s : State) : Host.Outcome State Fault Refusal := .next (inSetup (loadPreset k) s)

/-- `PWR p, (y, x, v)` (R137). -/
def execPwr (p : Nat) (s : State) : Host.Outcome State Fault Refusal :=
  .next (withPlanes (fun P s =>
    if P.inside p (wRow s.wdata) (wCol s.wdata) then
      answer 0#64 { s with planes := some (P.write p (wRow s.wdata) (wCol s.wdata) (wSample s.wdata)) }
    else takeFault .planeAddress s) s)

/-- `PRD p, (y, x)` (R138). -/
def execPrd (p : Nat) (s : State) : Host.Outcome State Fault Refusal :=
  .next (withPlanes (fun P s =>
    if P.inside p (wRow s.wdata) (wCol s.wdata) then
      answer (sextSample (P.read p (wRow s.wdata) (wCol s.wdata))) s
    else takeFault .planeAddress s) s)

end Sys2Proof.Machine
end

