-- ==== Sys2Proof/Machine/Audio.lean ====
section
/-!
DEFINITION. The audio chain: AUDF (47_audio_chain.md).
-/
namespace Sys2Proof.Machine

def f32768 : F64 := 0x40E0000000000000#64
def f16 : F64 := 0x4030000000000000#64
def f15625 : F64 := 0x40CE848000000000#64
def f15734 : F64 := 0x40CEBB0000000000#64
def f20000 : F64 := 0x40D3880000000000#64

/-- An audio cell with its coefficient. After a `SETUP` with `AUD_EN = 1` every cell a step uses has one
(40_host_config_commands.md R135); a cell without one, which no run steps, has a free one (log 5). -/
def audioCell (c : StoredCell) : Cell := ⟨c.alpha.getD Config.freeAlpha, c.prev⟩

/-- The cell a step leaves behind: its coefficient is constant, only `.prev` changes (R321). -/
def storeAudio (c : StoredCell) (c' : Cell) : StoredCell := ⟨c.alpha, c'.prev⟩

/-- Step a bank of audio cells as a cascade: the bank after it, and the output (R324). -/
def audioBank {n : Nat} (op : FilterOp) (bank : Vector StoredCell n) (x : F64) :
    Vector StoredCell n × F64 :=
  let tr := runChain (bank.toList.map (fun c => (op, audioCell c))) x
  (Vector.ofFn (fun k : Fin n =>
    match tr[k.val]? with
    | some e => storeAudio bank[k] e.1
    | none => bank[k]), chainOut x tr)

/-- Step 1: PCM to binary64 (R323). -/
def pcmToFloat (pcm : Int) : F64 := fdiv (i2f pcm) f32768

/-- Step 3: preemphasis, the highpass added back (R325). -/
def preemphasis (g : Regs) (c : StoredCell) (v : F64) : StoredCell × F64 :=
  if g.audPre then
    (storeAudio c (hpStep (audioCell c) v).1, fadd v (hpStep (audioCell c) v).2)
  else (c, v)

/-- The lines a second, 15625 PAL and 15734 NTSC (R328). -/
def lineRate (pal : Bool) : F64 := if pal then f15625 else f15734

/-- `t`, the time of sub-sample `oi` of frame `audT` in lines (R328). -/
def buzzTime (g : Regs) (audT : BitVec 64) (oi : Nat) : F64 :=
  fdiv (fmul (i2f ((audT.toNat * 16 + oi : Nat) : Int)) (lineRate g.pal)) (fmul g.audRate f16)

/-- Whether a sub-sample lies in the HSYNC or the VSYNC window; one whose time is not finite lies in neither
(R328). -/
def inSyncWindow (g : Regs) (t : F64) : Bool :=
  isFinite t &&
    (flt (fsub t (ffloor t)) g.audHpulseEnd
      || flt (ffmod (ffloor t) (linesPerField g.pal)) g.audVpulseEnd)

/-- The sub-samples of step 4, in order (R328). -/
def buzzLoop (g : Regs) (audT : BitVec 64) : List Nat → F64 → F64
  | [], v => v
  | oi :: rest, v =>
    buzzLoop g audT rest
      (if inSyncWindow g (buzzTime g audT oi) then fsub v (fdiv (fdiv g.audBuzzGain f16) f64Two) else v)

/-- Step 4: the linear-track crosstalk buzz (R328). -/
def buzz (g : Regs) (audT : BitVec 64) (v : F64) : F64 :=
  if !g.hifi && !isZero g.audBuzzGain then
    buzzLoop g audT (List.range Config.buzzOversampling) v
  else v

/-- Step 5: the analog limiter (R329). A NaN passes, since it compares with nothing. -/
def limiter (v : F64) : F64 :=
  let v1 := if flt f64One v then f64One else v
  if flt v1 (fneg f64One) then fneg f64One else v1

/-- Step 6: hiss (R330). -/
def hiss (g : Regs) (v : F64) (d : DrawSource) : F64 × DrawSource :=
  if g.audHissLevel = 0#64 then (v, d)
  else
    let r := draw (-(g.audHissLevel.toNat : Int)) g.audHissLevel.toNat d
    (fadd v (fdiv (i2f r.1) f20000), r.2)

/-- Step 7: the post-VHS high boost, linear tracks only (R331). -/
def highBoost (g : Regs) (c : StoredCell) (v : F64) : StoredCell × F64 :=
  if boostUsed g then
    (storeAudio c (hpStep (audioCell c) v).1, fadd v (fmul (hpStep (audioCell c) v).2 g.audBoostGain))
  else (c, v)

/-- Step 8: deemphasis, the lowpass replacing the sample (R332). -/
def deemphasis (g : Regs) (c : StoredCell) (v : F64) : StoredCell × F64 :=
  if g.audDe then
    (storeAudio c (lpStep (audioCell c) v).1, (lpStep (audioCell c) v).2)
  else (c, v)

/-- Step 9: back to PCM with a saturating clip, or `none` on `PlaneOverflow` (R333). -/
def floatToPcm (v : F64) : Option Int :=
  if isFinite v then some (clampTrunc (fmul v f32768) (-32768) 32767) else none

/-- One channel of one frame: the channel's cells after it, the output sample or `none` on `PlaneOverflow`,
and the draws left (R320, R322). -/
def channelStep (g : Regs) (audT : BitVec 64) (ch : AudioChannel) (pcm : Int) (d : DrawSource) :
    AudioChannel × Option Int × DrawSource :=
  let low := audioBank .lp ch.alp (pcmToFloat pcm)
  let high := audioBank .hp ch.ahp low.2
  let pre := preemphasis g ch.apre high.2
  let noisy := hiss g (limiter (buzz g audT pre.2)) d
  let boost := highBoost g ch.aboost noisy.1
  let de := deemphasis g ch.ade boost.2
  (⟨low.1, high.1, pre.1, de.1, boost.1⟩, floatToPcm de.2, noisy.2)

/-- `AUD_T <- (AUD_T + 1) mod 2^64` (R322, R335). -/
def advanceAudio (s : State) : State := { s with audT := s.audT + 1#64 }

/-- Channel 1 of a stereo frame, after channel 0 has been processed (R322). -/
def secondChannel (c0 : AudioChannel) (out0 : Int) (d : DrawSource) (s : State) : State :=
  match channelStep s.regs s.audT s.aud1 (wPcm1 s.wdata) d with
  | (_, none, d') => takeFault .planeOverflow { s with draws := d' }
  | (c1, some out1, d') =>
    answer (pcmWord out0 out1) (advanceAudio { s with aud0 := c0, aud1 := c1, draws := d' })

/-- One frame: channel 0, then channel 1 unless `AUD_CH = 1`. A fault changes no cell; its draws are spent
(R322, R333, 60_exceptions.md R367). -/
def audioFrame (s : State) : State :=
  match channelStep s.regs s.audT s.aud0 (wPcm0 s.wdata) s.draws with
  | (_, none, d) => takeFault .planeOverflow { s with draws := d }
  | (c0, some out0, d) =>
    if s.regs.audCh = 1#64 then
      answer (pcmWord out0 0) (advanceAudio { s with aud0 := c0, draws := d })
    else secondChannel c0 out0 d s

/-- `AUDF` in RUN: the checks in the order of R322. -/
def audioCommand (s : State) : State :=
  if !s.audReady then takeFault .phaseError s
  else if wHigh s.wdata ≠ 0 then takeFault .invalidArgument s
  else audioFrame s

/-- `AUDF` (R322). -/
def execAudf (s : State) : Host.Outcome State Fault Refusal := .next (inRun audioCommand s)

end Sys2Proof.Machine
end

