-- ==== Sys2Proof/Machine/Color.lean ====
section
/-!
DEFINITION. RGB to YIQ conversion and back: PIXW, PIXR (42_color_conversion.md). The decimal constants are the
binary64 values nearest them (R191).
-/
namespace Sys2Proof.Machine

def c0_30 : F64 := 0x3FD3333333333333#64
def c0_59 : F64 := 0x3FE2E147AE147AE1#64
def c0_11 : F64 := 0x3FBC28F5C28F5C29#64
def cNeg0_27 : F64 := 0xBFD147AE147AE148#64
def c0_74 : F64 := 0x3FE7AE147AE147AE#64
def c0_41 : F64 := 0x3FDA3D70A3D70A3D#64
def c0_48 : F64 := 0x3FDEB851EB851EB8#64
def c0_956 : F64 := 0x3FEE978D4FDF3B64#64
def c0_621 : F64 := 0x3FE3DF3B645A1CAC#64
def cNeg0_272 : F64 := 0xBFD16872B020C49C#64
def cNeg0_647 : F64 := 0xBFE4B4395810624E#64
def cNeg1_106 : F64 := 0xBFF1B22D0E560419#64
def c1_703 : F64 := 0x3FFB3F7CED916873#64
def c256 : F64 := 0x4070000000000000#64

/-- `Y' = 0.30R + 0.59G + 0.11B`, unrounded to an integer (R191). -/
def lumaPrime (r g b : Nat) : F64 :=
  fadd (fadd (fmul c0_30 (i2f r)) (fmul c0_59 (i2f g))) (fmul c0_11 (i2f b))

/-- `Y` of RGB to YIQ (R191). -/
def rgbToY (r g b : Nat) : Int := roundAway (fmul c256 (lumaPrime r g b))

/-- One chroma plane of RGB to YIQ: `256 * (kb * (B - Y') + kr * (R - Y'))` (R191). -/
def rgbToChroma (kb kr : F64) (r g b : Nat) : Int :=
  roundAway (fmul c256
    (fadd (fmul kb (fsub (i2f b) (lumaPrime r g b))) (fmul kr (fsub (i2f r) (lumaPrime r g b)))))

/-- `I` of RGB to YIQ (R191). -/
def rgbToI (r g b : Nat) : Int := rgbToChroma cNeg0_27 c0_74 r g b

/-- `Q` of RGB to YIQ (R191). -/
def rgbToQ (r g b : Nat) : Int := rgbToChroma c0_41 c0_48 r g b

/-- One channel of YIQ to RGB: the matrix row `1.000, ki, kq`, divided by 256, truncated, clamped (R191). -/
def yiqToChannel (ki kq : F64) (y i q : Int) : Int :=
  clampTrunc (fdiv
    (fadd (fadd (fmul f64One (i2f y)) (fmul ki (i2f i))) (fmul kq (i2f q))) c256) 0 255

def yiqToR (y i q : Int) : Int := yiqToChannel c0_956 c0_621 y i q
def yiqToG (y i q : Int) : Int := yiqToChannel cNeg0_272 cNeg0_647 y i q
def yiqToB (y i q : Int) : Int := yiqToChannel cNeg1_106 c1_703 y i q

/-- Write the three planes of a pixel together (R192, 20_memory.md R77). The results always fit `S32` (R192),
so the write raises nothing (log 13). -/
def Planes.writePixel (P : Planes) (y x r g b : Nat) : Planes :=
  ((P.write planeY y x (sampleOfInt (rgbToY r g b))).write planeI y x
    (sampleOfInt (rgbToI r g b))).write planeQ y x (sampleOfInt (rgbToQ r g b))

/-- `PIXW (y, x, pixel)` (R192). -/
def execPixw (s : State) : Host.Outcome State Fault Refusal :=
  .next (withPlanes (fun P s =>
    if P.inside planeY (wRow s.wdata) (wCol s.wdata) then
      answer 0#64
        { s with planes := some (P.writePixel (wRow s.wdata) (wCol s.wdata)
            (wRed s.wdata) (wGreen s.wdata) (wBlue s.wdata)) }
    else takeFault .planeAddress s) s)

/-- The pixel word of a place in the planes (R193). -/
def Planes.readPixel (P : Planes) (y x : Nat) : DataWord :=
  let yv := (P.read planeY y x).toInt
  let iv := (P.read planeI y x).toInt
  let qv := (P.read planeQ y x).toInt
  pixelWord (yiqToR yv iv qv) (yiqToG yv iv qv) (yiqToB yv iv qv)

/-- `PIXR (y, x)` (R193). -/
def execPixr (s : State) : Host.Outcome State Fault Refusal :=
  .next (withPlanes (fun P s =>
    if P.inside planeY (wRow s.wdata) (wCol s.wdata) then
      answer (P.readPixel (wRow s.wdata) (wCol s.wdata)) s
    else takeFault .planeAddress s) s)

end Sys2Proof.Machine
end

