-- ==== Sys2Proof/Machine/FilterBank.lean ====
section
/-!
DEFINITION. The general filter bank: FCFG, FRST, FLP, FHP, FCASL, FCASH, HILO (41_iir_filter.md).
-/
namespace Sys2Proof.Machine

/-- Whether a cell number names a general cell (R165, 30_encoding.md R107). -/
def cellOk (cell : Nat) : Bool := decide (cell < Config.numGeneralCells)

/-- Whether `count` cells from `first` on are a range of general cells of length above 0 (R169, R171). -/
def bankOk (first n count : Nat) : Bool := decide (n ≠ 0 ∧ first + count ≤ Config.numGeneralCells)

/-- `FCFG cell, cutoff_hz` in the SETUP phase (R165); `.prev` is not changed. -/
def configureCell (cell : Nat) (s : State) : State :=
  match s.gf[cell]? with
  | none => takeFault .invalidArgument s
  | some c =>
    match configure s.regs.gfRate s.wdata with
    | none => takeFault .invalidParameter s
    | some alpha => answer alpha { s with gf := s.gf.setIfInBounds cell ⟨some alpha, c.prev⟩ }

/-- `FCFG cell` (R165). -/
def execFcfg (cell : Nat) (s : State) : Host.Outcome State Fault Refusal :=
  .next (inSetup (configureCell cell) s)

/-- `FRST cell, initial` in RUN (R166, R162); it works on an unconfigured cell. -/
def resetCell (cell : Nat) (s : State) : State :=
  match s.gf[cell]? with
  | none => takeFault .invalidArgument s
  | some c =>
    if isFinite s.wdata then
      answer 0#64 { s with gf := s.gf.setIfInBounds cell ⟨c.alpha, s.wdata⟩ }
    else takeFault .invalidArgument s

/-- `FRST cell` (R166). -/
def execFrst (cell : Nat) (s : State) : Host.Outcome State Fault Refusal :=
  .next (inRun (resetCell cell) s)

/-- `FLP cell, x` (R167). -/
def execFlp (cell : Nat) (s : State) : Host.Outcome State Fault Refusal :=
  .next (bankCommand (cellOk cell) [(.lp, cell)] s)

/-- `FHP cell, x` (R168). -/
def execFhp (cell : Nat) (s : State) : Host.Outcome State Fault Refusal :=
  .next (bankCommand (cellOk cell) [(.hp, cell)] s)

/-- `FCASL first, n, x` (R169). -/
def execFcasl (first n : Nat) (s : State) : Host.Outcome State Fault Refusal :=
  .next (bankCommand (bankOk first n n) (bankPlan .lp first n) s)

/-- `FCASH first, n, x` (R170). -/
def execFcash (first n : Nat) (s : State) : Host.Outcome State Fault Refusal :=
  .next (bankCommand (bankOk first n n) (bankPlan .hp first n) s)

/-- `HILO first, n, x`: `n` lowpass cells, then `n` highpass cells (R171, 90_conflicts.md C1). -/
def execHilo (first n : Nat) (s : State) : Host.Outcome State Fault Refusal :=
  .next (bankCommand (bankOk first n (2 * n)) (bankPlan .lp first n ++ bankPlan .hp (first + n) n) s)

end Sys2Proof.Machine
end

