-- ==== Sys2Proof/Machine/Vhs.lean ====
section
/-!
DEFINITION. The VHS stage: VLUMA, VCHROMA, VBLEND, VSHARP and the macro VHS (45_vhs_stage.md).
-/
namespace Sys2Proof.Machine

/-- A row of the tape-speed table (R270). -/
structure TapeSpeed where
  lumaCut : F64
  chromaCut : F64
  chromaDelay : Nat
deriving DecidableEq, Repr

/-- The tape-speed parameters selected by `VHS_SPEED`: 0 SP, 1 LP, 2 EP (R270). -/
def tapeSpeed (g : Regs) : TapeSpeed :=
  match g.vhsSpeed.toNat with
  | 0 => ⟨0x41424F8000000000#64, 0x4113880000000000#64, 9⟩
  | 1 => ⟨0x413CFDE000000000#64, 0x41124F8000000000#64, 12⟩
  | _ => ⟨0x41355CC000000000#64, 0x4111170000000000#64, 14⟩

def c1_6 : F64 := 0x3FF999999999999A#64
def f64Four : F64 := 0x4010000000000000#64

/-- The filter of `VLUMA` on one sample: three lowpass cells, then the highpass of the lowpassed sample added
back with scale 1.6 (R272). -/
def vlumaStep (k : List Cell × Cell) (s : F64) : (List Cell × Cell) × F64 :=
  let low := lpCascade k.1 s
  let high := hpStep k.2 low.2
  ((low.1, high.1), fadd low.2 (fmul high.2 c1_6))

/-- One row of `VLUMA` (R272). -/
def vlumaRow (lc : F64) (r : Row) : Option Row :=
  (allSome ((filterRow vlumaStep (threeCells lc, freshCell (alphaOf fsc4 lc)) r.y).map f2s)).map
    (fun y => ⟨y, r.i, r.q⟩)

/-- The stage `VLUMA` (R272). -/
def vlumaStage : Stage := fun g field P d =>
  fieldPass (fun _ d _ r => rowOrOverflow d (vlumaRow (tapeSpeed g).lumaCut r)) () field P d

/-- `VLUMA` (R272). -/
def execVluma (s : State) : Host.Outcome State Fault Refusal := .next (stageCommand vlumaStage id s)

/-- The stage `VCHROMA` (R274). -/
def vchromaStage : Stage := fun g field P d =>
  let ts := tapeSpeed g
  fieldPass (fun _ d _ r =>
    rowOrOverflow d (chromaLowpassRow ts.chromaCut ts.chromaDelay ts.chromaCut ts.chromaDelay r))
    () field P d

/-- `VCHROMA` (R274). -/
def execVchroma (s : State) : Host.Outcome State Fault Refusal := .next (stageCommand vchromaStage id s)

/-- The blend of a chroma sample with the one of the row before, `tdiv(prev + cur + 1, 2)`, which always fits
(R277). -/
def blend (prev cur : Sample) : Sample := sampleOfInt (tdiv (prev.toInt + cur.toInt + 1) 2)

/-- One row of `VBLEND`; the delay line holds the pre-blend chroma of the row before (R277). -/
def vblendRow (delay : List Sample × List Sample) (d : DrawSource) (r : Row) :
    RowResult (List Sample × List Sample) :=
  .done (r.i, r.q) ⟨r.y, List.zipWith blend delay.1 r.i, List.zipWith blend delay.2 r.q⟩ d

/-- The stage `VBLEND`; the delay line is zero at the start of every command (R277). -/
def vblendStage : Stage := fun _ field P d =>
  fieldPass (fun delay d _ r => vblendRow delay d r)
    (List.replicate P.w 0#32, List.replicate P.w 0#32) field P d

/-- `VBLEND` (R277). -/
def execVblend (s : State) : Host.Outcome State Fault Refusal := .next (stageCommand vblendStage id s)

/-- The filter of `VSHARP` on one sample: `Y + (Y - Y_lp) * g * 2` (R279). -/
def vsharpStep (gain : F64) (k : List Cell) (s : F64) : List Cell × F64 :=
  let low := lpCascade k s
  (low.1, fadd s (fmul (fmul (fsub s low.2) gain) f64Two))

/-- One row of `VSHARP` (R279). -/
def vsharpRow (gain lc : F64) (r : Row) : Option Row :=
  (allSome ((filterRow (vsharpStep gain) (threeCells (fmul lc f64Four)) r.y).map f2s)).map
    (fun y => ⟨y, r.i, r.q⟩)

/-- The stage `VSHARP` (R279). -/
def vsharpStage : Stage := fun g field P d =>
  fieldPass (fun _ d _ r => rowOrOverflow d (vsharpRow g.vhsSharpen (tapeSpeed g).lumaCut r)) () field P d

/-- `VSHARP` (R279). -/
def execVsharp (s : State) : Host.Outcome State Fault Refusal := .next (stageCommand vsharpStage id s)

/-- The steps of the macro `VHS` under a configuration (R281). -/
def vhsSteps (g : Regs) : List Stage :=
  [vlumaStage, vchromaStage]
    ++ (if g.vblendEn && !g.pal then [vblendStage] else [])
    ++ [vsharpStage]
    ++ (if g.svideo then [] else [modStage, demodStage true])

/-- The macro `VHS` as a stage (R281). -/
def vhsStage : Stage := fun g => runStages (vhsSteps g) g

/-- `VHS` (R281). -/
def execVhs (s : State) : Host.Outcome State Fault Refusal := .next (stageCommand vhsStage id s)

end Sys2Proof.Machine
end

