-- ==== Sys2Proof/Machine/Sequencer.lean ====
section
/-!
DEFINITION. The field sequencer: RUNFIELD, NEXTFIELD (46_field_sequencer.md).
-/
namespace Sys2Proof.Machine

/-- `FIELD <- (FIELD + 1) mod 2^64` (R302, R304, 10_state.md R50). -/
def advanceField (s : State) : State := { s with field := s.field + 1#64 }

/-- The steps of the macro `RUNFIELD` under a configuration (R302). -/
def runfieldSteps (g : Regs) : List Stage :=
  if g.emuEn then
    (if g.inClp then [clpfStage false] else [])
      ++ [modStage, preStage, ynoiseStage]
      ++ (if g.hswEn then [hswStage] else [])
      ++ [demodStage false, cnoiseStage, cphaseStage, cdropStage]
      ++ (if g.vhsEn then [vhsStage] else [])
      ++ (if g.outClp then [clpfStage g.outLite] else [])
  else []

/-- The stages of `RUNFIELD` (R302). -/
def runfieldStage : Stage := fun g => runStages (runfieldSteps g) g

/-- `RUNFIELD`: `FIELD` advances only when every step has completed (R302). -/
def execRunfield (s : State) : Host.Outcome State Fault Refusal :=
  .next (stageCommand runfieldStage advanceField s)

/-- `NEXTFIELD` (R304). -/
def execNextfield (s : State) : Host.Outcome State Fault Refusal :=
  .next (inRun (fun s => answer 0#64 (advanceField s)) s)

end Sys2Proof.Machine
end

