-- ==== Sys2Proof/Machine/Dispatch.lean ====
section
/-!
DEFINITION. The dispatch of a decoded command to its meaning, one arm per constructor of Instr.
-/
namespace Sys2Proof.Machine

def exec (i : Instr) (s : State) : Host.Outcome State Fault Refusal :=
  match i with
  | .nop => Sys2Proof.Machine.execNop s
  | .reset => Sys2Proof.Machine.execReset s
  | .cfgw idx => Sys2Proof.Machine.execCfgw idx s
  | .cfgr idx => Sys2Proof.Machine.execCfgr idx s
  | .setup => Sys2Proof.Machine.execSetup s
  | .catv k => Sys2Proof.Machine.execCatv k s
  | .pwr p => Sys2Proof.Machine.execPwr p s
  | .prd p => Sys2Proof.Machine.execPrd p s
  | .pixw => Sys2Proof.Machine.execPixw s
  | .pixr => Sys2Proof.Machine.execPixr s
  | .fcfg cell => Sys2Proof.Machine.execFcfg cell s
  | .frst cell => Sys2Proof.Machine.execFrst cell s
  | .flp cell => Sys2Proof.Machine.execFlp cell s
  | .fhp cell => Sys2Proof.Machine.execFhp cell s
  | .fcasl first n => Sys2Proof.Machine.execFcasl first n s
  | .fcash first n => Sys2Proof.Machine.execFcash first n s
  | .hilo first n => Sys2Proof.Machine.execHilo first n s
  | .clpf m => Sys2Proof.Machine.execClpf m s
  | .mod => Sys2Proof.Machine.execMod s
  | .pre => Sys2Proof.Machine.execPre s
  | .ynoise => Sys2Proof.Machine.execYnoise s
  | .hsw => Sys2Proof.Machine.execHsw s
  | .demod m => Sys2Proof.Machine.execDemod m s
  | .cnoise => Sys2Proof.Machine.execCnoise s
  | .cphase => Sys2Proof.Machine.execCphase s
  | .cdrop => Sys2Proof.Machine.execCdrop s
  | .vluma => Sys2Proof.Machine.execVluma s
  | .vchroma => Sys2Proof.Machine.execVchroma s
  | .vblend => Sys2Proof.Machine.execVblend s
  | .vsharp => Sys2Proof.Machine.execVsharp s
  | .vhs => Sys2Proof.Machine.execVhs s
  | .runfield => Sys2Proof.Machine.execRunfield s
  | .nextfield => Sys2Proof.Machine.execNextfield s
  | .audf => Sys2Proof.Machine.execAudf s

end Sys2Proof.Machine
end

