-- ==== Sys2Proof/Machine/Step.lean ====
section
/-!
DEFINITION. One step: what the host does next at the port, decoded and executed (30_encoding.md R100,
20_memory.md R80). With nothing presented nothing happens (60_exceptions.md R365).
-/
namespace Sys2Proof.Machine

/-- One step of the machine. An illegal command word raises `IllegalCommand` (60_exceptions.md R361). -/
def step (s : State) : Host.Outcome State Fault Refusal :=
  match s.host with
  | [] => .next s
  | .hardReset :: rest => .next (hardReset { s with host := rest })
  | .command cmd wdata :: rest =>
    match Sys2Proof.decode cmd with
    | none => .next (takeFault .illegalCommand (present cmd wdata rest s))
    | some i => exec i (present cmd wdata rest s)

/-- The state in which the next thing the host presents is the command word of `nbits` bits `w`, with a data
word of zeros (log 1). Every command is one 32-bit word (30_encoding.md R100). -/
def State.withFetchWord (s : State) (nbits w : Nat) : State :=
  { s with host := .command (BitVec.ofNat 32 (w % 2 ^ nbits)) 0#64 :: s.host }

end Sys2Proof.Machine
end

