-- ==== Sys2Proof/Safety.lean ====
section
/-!
DEFINITION. The terms in which statements about the machine are made: what a safe outcome is, the invariants of
the block, what a command's answer is, which addresses a field pass may touch, and commands issued one after
another.
-/
namespace Sys2Proof.Machine

/-- A safe outcome: the machine goes on. No fault and no refusal of the model stops it (60_exceptions.md R366:
the spec's faults are answered, log 17). -/
def Safe (o : Host.Outcome State Fault Refusal) : Prop := ∃ t, o = .next t

/-- Every register holds a value of its legal range; reserved and extension bits are as they must be
(10_state.md R24 to R49). -/
def State.RegsLegal (s : State) : Prop := ∀ r : CfgReg, legalCfg r (readCfg r s) = true

/-- The plane memory is in its canonical form, inside the plane space (20_memory.md R70, R71; log 9). -/
def State.PlanesCanonical (s : State) : Prop := ∀ P, s.planes = some P → P.wf = true

/-- How phase, planes, dimensions, audio and the fault record go together (10_state.md R21, R52, R53, R56;
60_exceptions.md R366). -/
structure State.LifeCycle (s : State) : Prop where
  /-- Before `SETUP` there are no planes and the audio cells are not ready. -/
  setup_bare : s.phase = .setup → s.planes = none ∧ s.audReady = false
  /-- In RUN the planes exist. -/
  run_planes : s.phase = .run → s.planes.isSome = true
  /-- The planes have the dimensions of `DIM`. -/
  dims : ∀ P, s.planes = some P → P.w = s.regs.dimW ∧ P.h = s.regs.dimH
  /-- No fault is recorded outside FAULTED. -/
  no_record : s.phase ≠ .faulted → s.fcode = 0#8 ∧ s.finfo = 0#32
  /-- In FAULTED a code from 1 to 7 is recorded. -/
  record : s.phase = .faulted → 1 ≤ s.fcode.toNat ∧ s.fcode.toNat ≤ 7
  /-- The audio cells are configured only with `AUD_EN = 1`. -/
  audio : s.audReady = true → s.regs.audEn = true

/-- No NaN and no infinity in a stored cell (41_iir_filter.md R174). -/
def StoredCell.Finite (c : StoredCell) : Prop :=
  isFinite c.prev = true ∧ ∀ a, c.alpha = some a → isFinite a = true

/-- No NaN and no infinity in the general cells (41_iir_filter.md R174). -/
def State.BankFinite (s : State) : Prop :=
  ∀ (k : Nat) (c : StoredCell), s.gf[k]? = some c → c.Finite

/-- The 15 cells of an audio channel (10_state.md R56). -/
def AudioChannel.cells (ch : AudioChannel) : List StoredCell :=
  ch.alp.toList ++ ch.ahp.toList ++ [ch.apre, ch.ade, ch.aboost]

/-- No NaN and no infinity in the audio cells (41_iir_filter.md R174, 47_audio_chain.md R333). -/
def State.AudioFinite (s : State) : Prop := ∀ ch ∈ [s.aud0, s.aud1], ∀ c ∈ ch.cells, c.Finite

/-- `-b <= v <= b`; a NaN lies in no bounds. -/
def within (b v : F64) : Bool := fle (fneg b) v && fle v b

/-- The coefficient of a cell, where it has one, lies in `[0, 1]` (41_iir_filter.md R161). -/
def StoredCell.AlphaInUnit (c : StoredCell) : Prop :=
  ∀ a, c.alpha = some a → fle 0#64 a = true ∧ fle a 0x3FF0000000000000#64 = true

/-- How large the contents of the audio cells can become: the samples lie in `[-1, 1]`, a lowpass with a coefficient in
`[0, 1]` stays in the bounds of its input, a highpass at most doubles them, and the limiter and the hiss stand before
the high boost (47_audio_chain.md R323 to R331). The cell of the deemphasis holds the sample step 9 tests (R332, R333). -/
structure AudioChannel.Bounded (ch : AudioChannel) : Prop where
  alphas : ∀ c ∈ ch.cells, c.AlphaInUnit
  low : ∀ (k : Nat) (c : StoredCell), ch.alp[k]? = some c → within (i2f 1) c.prev = true
  high : ∀ (k : Nat) (c : StoredCell), ch.ahp[k]? = some c → within (i2f (2 ^ k : Nat)) c.prev = true
  pre : within (i2f 64) ch.apre.prev = true
  de : isFinite ch.ade.prev = true
  boost : within (i2f (2 ^ 64 : Nat)) ch.aboost.prev = true

/-- Every cell a frame steps is configured (40_host_config_commands.md R135, 47_audio_chain.md R321). -/
def AudioChannel.configured (ch : AudioChannel) (g : Regs) : Bool :=
  ch.alp.toList.all (·.alpha.isSome) && ch.ahp.toList.all (·.alpha.isSome)
    && (!g.audPre || ch.apre.alpha.isSome) && (!g.audDe || ch.ade.alpha.isSome)
    && (g.hifi || isZero g.audBoostGain || ch.aboost.alpha.isSome)

/-- The invariant of the audio cells: bounded contents, and with `AUD_READY` everything configured that a frame steps,
which only happens outside SETUP (10_state.md R56, 40_host_config_commands.md R135). -/
structure State.AudioBounded (s : State) : Prop where
  channel0 : s.aud0.Bounded
  channel1 : s.aud1.Bounded
  ready0 : s.audReady = true → s.aud0.configured s.regs = true
  ready1 : s.audReady = true → s.aud1.configured s.regs = true
  setup_bare : s.phase = .setup → s.audReady = false

/-- An address a field pass may touch: a sample of a row of the current parity (20_memory.md R76). -/
def inField (field : BitVec 64) (P : Planes) (a : Nat) : Prop :=
  ∃ p y x, p < 3 ∧ y < P.h ∧ y % 2 = parity field ∧ x < P.w ∧ a = planeAddr p y x

/-- The planes after a field pass: same dimensions, the samples of the rows of the field as given by the three
functions of row and column, every other address as before (20_memory.md R76). -/
structure FieldResult (field : BitVec 64) (P P' : Planes) (Y I Q : Nat → Nat → Sample) : Prop where
  width : P'.w = P.w
  height : P'.h = P.h
  luma : ∀ y x, y < P.h → y % 2 = parity field → x < P.w → P'.read planeY y x = Y y x
  chromaI : ∀ y x, y < P.h → y % 2 = parity field → x < P.w → P'.read planeI y x = I y x
  chromaQ : ∀ y x, y < P.h → y % 2 = parity field → x < P.w → P'.read planeQ y x = Q y x
  frame : ∀ a, ¬ inField field P a → Memory.read P'.cells a = Memory.read P.cells a

/-- A command that completes a field pass: `RDATA` 0, new planes and draws, everything else as before
(43_composite_chroma.md, introduction). -/
def State.afterPass (s : State) (P : Planes) (d : DrawSource) : State :=
  { s with planes := some P, draws := d, resp := some (.ok 0#64) }

/-- The stage commands and the macro commands (46_field_sequencer.md R300). -/
def isFieldCommand : Instr → Bool
  | .clpf _ | .mod | .pre | .ynoise | .hsw | .demod _ | .cnoise | .cphase | .cdrop
  | .vluma | .vchroma | .vblend | .vsharp | .vhs | .runfield => true
  | .nop | .reset | .cfgw _ | .cfgr _ | .setup | .catv _ | .pwr _ | .prd _ | .pixw | .pixr
  | .fcfg _ | .frst _ | .flp _ | .fhp _ | .fcasl _ _ | .fcash _ _ | .hilo _ _
  | .nextfield | .audf => false

/-- The commands on the general cells (10_state.md R54). -/
def isBankCommand : Instr → Bool
  | .fcfg _ | .frst _ | .flp _ | .fhp _ | .fcasl _ _ | .fcash _ _ | .hilo _ _ => true
  | .nop | .reset | .cfgw _ | .cfgr _ | .setup | .catv _ | .pwr _ | .prd _ | .pixw | .pixr
  | .clpf _ | .mod | .pre | .ynoise | .hsw | .demod _ | .cnoise | .cphase | .cdrop
  | .vluma | .vchroma | .vblend | .vsharp | .vhs | .runfield | .nextfield | .audf => false

/-- Which phase accepts which command (30_encoding.md R108). -/
def accepted : Phase → Instr → Bool
  | .faulted, i => (i matches .nop | .reset | .cfgr _)
  | .setup, i => (i matches .nop | .reset | .cfgr _ | .cfgw _ | .setup | .catv _ | .fcfg _)
  | .run, i => !(i matches .cfgw _ | .setup | .catv _ | .fcfg _)

/-- One command issued by itself with the command and data word that stand on the port. -/
def issue (s : State) (i : Instr) : State :=
  match exec i s with
  | .next t => t
  | .fault _ => s
  | .refused _ => s

/-- Commands issued one after another (46_field_sequencer.md R300, R302; 45_vhs_stage.md R281). -/
def issueAll (l : List Instr) (s : State) : State := l.foldl issue s

/-- The commands the macro `VHS` is defined as, in order (45_vhs_stage.md R281). -/
def vhsProgram (g : Regs) : List Instr :=
  [.vluma, .vchroma] ++ (if g.vblendEn && !g.pal then [.vblend] else []) ++ [.vsharp]
    ++ (if g.svideo then [] else [.mod, .demod true])

/-- The commands the macro `RUNFIELD` is defined as, in order, with the advance of `FIELD` at the end
(46_field_sequencer.md R302). -/
def runfieldProgram (g : Regs) : List Instr :=
  (if g.emuEn then
    (if g.inClp then [.clpf false] else []) ++ [.mod, .pre, .ynoise]
      ++ (if g.hswEn then [.hsw] else []) ++ [.demod false, .cnoise, .cphase, .cdrop]
      ++ (if g.vhsEn then [.vhs] else [])
      ++ (if g.outClp then [.clpf g.outLite] else [])
  else []) ++ [.nextfield]

/-! ## Draws in order (00_scope.md R16, 70_reset_and_hazards.md R410) -/

/-- The environment's answer to the `n`-th draw from now on, counted from 0: the recorded one, or the free one
where none is recorded (log 3). -/
def answerAt (d : DrawSource) (n : Nat) : Nat :=
  match d.recorded[n]? with
  | some a => a
  | none => Config.freeDraw (d.count + n)

/-- The environment after `n` draws. -/
def afterDraws (d : DrawSource) (n : Nat) : DrawSource := ⟨d.recorded.drop n, d.count + n⟩

/-- `Draw(-v, v)` for `v` above 0, from the answer (00_scope.md R16, log 3). -/
def drawnSym (v : Int) (a : Nat) : Int := -v + (a : Int) % (2 * v + 1)

/-- The random walk after `k + 1` draws: it starts from 0, and every draw is added and the sum halved
(43_composite_chroma.md R211, R223, R225). -/
def walkAt (v : Int) (ans : Nat → Nat) : Nat → Int
  | 0 => tdiv (drawnSym v (ans 0)) 2
  | k + 1 => tdiv (walkAt v ans k + drawnSym v (ans (k + 1))) 2

/-- How many rows below `h` have the parity of the field. -/
def rowsOfField (field : BitVec 64) (h : Nat) : Nat := (h + 1 - parity field) / 2

/-! ## Filters over the columns of a row (41_iir_filter.md R163, R164) -/

/-- The new `.prev` of a lowpass: four roundings, in this order (41_iir_filter.md R163). -/
def lpValue (alpha prev x : F64) : F64 := fadd (fsub prev (fmul prev alpha)) (fmul x alpha)

/-- The output of a lowpass cell that starts from `+0.0`, column by column, for an input given column by column. -/
def lpSeq (alpha : F64) (input : Nat → F64) : Nat → F64
  | 0 => lpValue alpha 0#64 (input 0)
  | x + 1 => lpValue alpha (lpSeq alpha input x) (input (x + 1))

/-- Three lowpass cells in cascade (43_composite_chroma.md R200). -/
def lpSeq3 (alpha : F64) (input : Nat → F64) : Nat → F64 :=
  lpSeq alpha (lpSeq alpha (lpSeq alpha input))

/-- A row of a plane as binary64, column by column. -/
def rowInput (P : Planes) (p y x : Nat) : F64 := i2f (P.read p y x).toInt

/-- A sample of a row as an integer; 0 outside the row (43_composite_chroma.md R217, R218). -/
def sampleAt (P : Planes) (p y : Nat) (x : Int) : Int :=
  if 0 ≤ x ∧ x < P.w then (P.read p y x.toNat).toInt else 0

/-! ## The opcode table (30_encoding.md R103, R104) -/

/-- The mask and the match of every row of the opcode map, from its pattern (30_encoding.md R103): formats N; R, K
and F; P; B; M. -/
def opcodeRows : List (CmdWord × CmdWord) :=
  [0x00, 0x01, 0x04, 0x0A, 0x0B, 0x21, 0x22, 0x23, 0x24, 0x26, 0x27, 0x28, 0x30, 0x31, 0x32, 0x33, 0x34,
      0x38, 0x39, 0x40].map (fun op : CmdWord => (0xFFFFFFFF#32, op <<< 24))
    ++ [0x02, 0x03, 0x05, 0x10, 0x11, 0x12, 0x13].map (fun op : CmdWord => (0xFFFFFF00#32, op <<< 24))
    ++ [0x08, 0x09].map (fun op : CmdWord => (0xFFFFFFFC#32, op <<< 24))
    ++ [0x14, 0x15, 0x16].map (fun op : CmdWord => (0xFFFF0000#32, op <<< 24))
    ++ [0x20, 0x25].map (fun op : CmdWord => (0xFFFFFFFE#32, op <<< 24))

/-! ## The register space (10_state.md R24 to R49) -/

/-- Every implemented index with the word it reads as (10_state.md R25 to R49). -/
def registerView (s : State) : List (Nat × DataWord) :=
  [(0x00, s.regs.ctrl),
    (0x01, 0#47 ++ BitVec.ofBool s.audReady ++ s.fcode ++ 0#6 ++ BitVec.ofNat 2 s.phase.code),
    (0x02, 0#32 ++ s.finfo), (0x03, s.field), (0x04, s.regs.dim), (0x05, s.regs.compPhase),
    (0x06, s.regs.compPhaseOffset), (0x07, s.regs.compPre), (0x08, s.regs.compCut), (0x09, s.regs.scAmp),
    (0x0A, s.regs.videoNoise), (0x0B, s.regs.chromaNoise), (0x0C, s.regs.chromaPhaseNoise)]
  ++ [(0x0D, s.regs.chromaLoss), (0x0E, s.regs.vhsSpeed), (0x0F, s.regs.vhsSharpen), (0x10, s.regs.hswPoint),
    (0x11, s.regs.hswPhase), (0x12, s.regs.hswNoise), (0x13, s.regs.gfRate), (0x18, s.regs.audRate),
    (0x19, s.regs.audCh), (0x1A, s.regs.audLpHz), (0x1B, s.regs.audHpHz), (0x1C, s.regs.audPreHz)]
  ++ [(0x1D, s.regs.audDeHz), (0x1E, s.regs.audBoostHz), (0x1F, s.regs.audBoostGain),
    (0x20, s.regs.audBuzzGain), (0x21, s.regs.audHissLevel), (0x22, s.regs.audHpulseEnd),
    (0x23, s.regs.audVpulseEnd)]

/-- The values `CFGW` accepts, index by index (10_state.md R26 to R49). -/
def cfgwLegal (idx : Nat) (v : DataWord) : Prop :=
  (idx = 0x00 ∧ v.toNat < 8192)
  ∨ idx = 0x03
  ∨ (idx = 0x04 ∧ v.toNat < 4294967296 ∧ 1 ≤ v.toNat % 65536 ∧ 1 ≤ v.toNat / 65536)
  ∨ (idx = 0x05 ∧ v.toNat ≤ 3)
  ∨ (idx = 0x06 ∧ -2147483648 ≤ v.toInt ∧ v.toInt ≤ 2147483647)
  ∨ (idx = 0x09 ∧ v.toNat ≤ 100)
  ∨ (idx ∈ [0x0A, 0x0B, 0x0C] ∧ v.toNat ≤ 65535)
  ∨ (idx = 0x0D ∧ v.toNat ≤ 100000)
  ∨ (idx = 0x0E ∧ v.toNat ≤ 2)
  ∨ (idx ∈ [0x10, 0x22] ∧ isFinite v = true ∧ fle 0#64 v = true ∧ fle v 0x3FF0000000000000#64 = true)
  ∨ (idx = 0x11 ∧ isFinite v = true ∧ fle 0xBFF0000000000000#64 v = true
      ∧ fle v 0x3FF0000000000000#64 = true)
  ∨ (idx = 0x19 ∧ (v.toNat = 1 ∨ v.toNat = 2))
  ∨ (idx = 0x21 ∧ v.toNat ≤ 2147483647)
  ∨ (idx = 0x23 ∧ isFinite v = true ∧ fle 0#64 v = true)
  ∨ (idx ∈ [0x07, 0x08, 0x0F, 0x12, 0x13, 0x18, 0x1A, 0x1B, 0x1C, 0x1D, 0x1E, 0x1F, 0x20] ∧ isFinite v = true)

/-! ## Cascades of general cells (41_iir_filter.md R167 to R171, R174) -/

/-- The values of a cascade of `m` general cells from `first` on with input `x`: cell `k` has coefficient `a k`
and content `p k`, its lowpass gives `q k`, the cascade carries `v k` into it and `v (k + 1)` out of it, which is
the highpass where `high k` (41_iir_filter.md R163, R164, R169 to R171). -/
structure CascadeRun (gf : Vector StoredCell Config.numGeneralCells) (first m : Nat) (high : Nat → Bool)
    (x : F64) (a p q v : Nat → F64) : Prop where
  start : v 0 = x
  cells : ∀ k < m, gf[first + k]? = some ⟨some (a k), p k⟩
  prevs : ∀ k < m, q k = lpValue (a k) (p k) (v k)
  outs : ∀ k < m, v (k + 1) = if high k then fsub (v k) (q k) else q k

/-- What a filter command on `m` general cells from `first` on does in RUN: its checks in order, its result, and
the fault on a result that is not finite (41_iir_filter.md R167 to R171, R174). -/
def bankRule (i : Instr) (first m : Nat) (high : Nat → Bool) : Prop :=
  ∀ s : State, s.phase = .run →
    (m = 0 ∨ 16 < first + m → exec i s = .next (takeFault .invalidArgument s))
    ∧ (m ≠ 0 → first + m ≤ 16 → isFinite s.wdata = false → exec i s = .next (takeFault .invalidArgument s))
    ∧ (m ≠ 0 → first + m ≤ 16 → isFinite s.wdata = true →
        (∃ k c, k < m ∧ s.gf[first + k]? = some c ∧ c.alpha = none) →
        exec i s = .next (takeFault .filterNotConfigured s))
    ∧ (m ≠ 0 → first + m ≤ 16 → isFinite s.wdata = true →
        ∀ a p q v, CascadeRun s.gf first m high s.wdata a p q v →
          ((∀ k < m, isFinite (q k) = true ∧ isFinite (v (k + 1)) = true) →
            ∃ t, exec i s = .next t ∧ t = { s with gf := t.gf, resp := some (.ok (v m)) }
              ∧ (∀ k < m, t.gf[first + k]? = some ⟨some (a k), q k⟩)
              ∧ ∀ j, j < first ∨ first + m ≤ j → t.gf[j]? = s.gf[j]?)
          ∧ ((∃ k < m, isFinite (q k) = false ∨ isFinite (v (k + 1)) = false) →
            exec i s = .next (takeFault .invalidArgument s)))

/-! ## Field passes, sample by sample -/

/-- The machine is in RUN on the planes `P` (10_state.md R53). -/
def State.runsOn (s : State) (P : Planes) : Prop := s.phase = .run ∧ s.planes = some P ∧ P.wf = true

/-- The field command `i` completes with the given samples of the rows of the field, leaving draws `d`. -/
def passGives (i : Instr) (s : State) (P : Planes) (Y I Q : Nat → Nat → Sample) (d : DrawSource) : Prop :=
  ∃ P', exec i s = .next (s.afterPass P' d) ∧ FieldResult s.field P P' Y I Q

/-- `(y, x)` is the first sample of the field, in row-then-column order, whose value does not fit: the one that raises
`PlaneOverflow` (60_exceptions.md R363, R369). -/
structure FirstMisfit (field : BitVec 64) (P : Planes) (fits : Nat → Nat → Prop) (y x : Nat) : Prop where
  row : y < P.h ∧ y % 2 = parity field
  column : x < P.w
  misfit : ¬ fits y x
  first : ∀ z < P.h, ∀ u < P.w, z % 2 = parity field → (z < y ∨ (z = y ∧ u < x)) → fits z u

/-- Some sample of the field has a value that does not fit (60_exceptions.md R363). -/
def someMisfit (field : BitVec 64) (P : Planes) (fits : Nat → Nat → Prop) : Prop :=
  ∃ y x, y < P.h ∧ x < P.w ∧ y % 2 = parity field ∧ ¬ fits y x

/-- `out` is plane `p` lowpassed three times and shifted left by `delay` columns, the last `delay` columns kept
(43_composite_chroma.md R200). -/
def lowpassedPlane (P : Planes) (field : BitVec 64) (p : Nat) (alpha : F64) (delay : Nat)
    (out : Nat → Nat → Sample) : Prop :=
  ∀ y < P.h, ∀ x < P.w, y % 2 = parity field →
    if x + delay < P.w then f2s (lpSeq3 alpha (rowInput P p y) (x + delay)) = some (out y x)
    else out y x = P.read p y x

/-- What the carrier adds at subcarrier phase `k`, the quarter cycles `+I, +Q, -I, -Q` scaled by `A / 50`
(43_composite_chroma.md R204, R205). -/
def carrierAt (amp : Int) (k : Nat) (i q : Int) : Int :=
  if k % 4 = 0 then tdiv (i * amp) 50 else if k % 4 = 1 then tdiv (q * amp) 50
  else if k % 4 = 2 then tdiv (-(i * amp)) 50 else tdiv (-(q * amp)) 50

/-- `Y` after `MOD`, exact (43_composite_chroma.md R205). -/
def modValue (s : State) (P : Planes) (y x : Nat) : Int :=
  (P.read planeY y x).toInt
    + carrierAt s.regs.scAmp.toNat (subcarrierPhase s.regs s.field y + x) (P.read planeI y x).toInt
      (P.read planeQ y x).toInt

/-- `Ylf[x]` (43_composite_chroma.md R217). -/
def blurAt (P : Planes) (y : Nat) (x : Int) : Int :=
  tdiv (sampleAt P planeY y (x - 1) + sampleAt P planeY y x + sampleAt P planeY y (x + 1)
    + sampleAt P planeY y (x + 2)) 4

/-- `C[x]` with its sign corrected and scaled by `50 / Ab` (43_composite_chroma.md R218, R219). -/
def chromaAt (ab : Int) (P : Planes) (xi y x : Nat) : Int :=
  let c := sampleAt P planeY y ((x : Int) + 2) - blurAt P y x
  tdiv ((if (xi + x) % 4 < 2 then c else -c) * 50) ab

/-- `In[x]` (`odd` 0) or `Qn[x]` (`odd` 1) at an even column (43_composite_chroma.md R220). -/
def demuxAt (ab : Int) (P : Planes) (xi odd y x : Nat) : Int :=
  if x + xi + 1 < P.w then -chromaAt ab P xi y (x + xi + odd) else 0

/-- `I` (`odd` 0) or `Q` (`odd` 1) after `DEMOD`, exact (43_composite_chroma.md R219, R220). -/
def demodValue (ab : Int) (P : Planes) (xi odd y x : Nat) : Int :=
  if ab = 0 then 0
  else if x % 2 = 0 then demuxAt ab P xi odd y x
  else if x + 1 < P.w then tdiv (demuxAt ab P xi odd y (x - 1) + demuxAt ab P xi odd y (x + 1)) 2
  else 0

/-- Everything `DEMOD` computes at a column lies in `S32`: the scaled residual, where there is one, and the values of
`I` and `Q` (43_composite_chroma.md R216, R219, 60_exceptions.md R363). -/
def demodFits (ab : Int) (P : Planes) (xi y x : Nat) : Prop :=
  (ab ≠ 0 → inS32 (chromaAt ab P xi y x) = true)
    ∧ inS32 (demodValue ab P xi 0 y x) = true ∧ inS32 (demodValue ab P xi 1 y x) = true

/-- The amplitude `DEMOD m` scales by: `A` with `m` true, `A_back` with `m` false
(43_composite_chroma.md R215, R216). -/
def demodAmplitude (g : Regs) (m : Bool) : Option Int :=
  if m || isZero g.compPre then some (g.scAmp.toNat : Int)
  else f2i (fadd (i2f (g.scAmp.toNat : Int))
    (fdiv (fmul (fmul (i2f 50) g.compPre) fsc) (fmul (i2f 2) g.compCut)))

/-- The luma filter of `VLUMA` at a column (45_vhs_stage.md R272). -/
def vlumaValue (alpha : F64) (input : Nat → F64) (x : Nat) : F64 :=
  fadd (lpSeq3 alpha input x)
    (fmul (fsub (lpSeq3 alpha input x) (lpSeq alpha (lpSeq3 alpha input) x)) 0x3FF999999999999A#64)

/-- The sharpening of `VSHARP` at a column (45_vhs_stage.md R279). -/
def vsharpValue (alpha gain : F64) (input : Nat → F64) (x : Nat) : F64 :=
  fadd (input x) (fmul (fmul (fsub (input x) (lpSeq3 alpha input x)) gain) (i2f 2))

/-- The coefficients of a tape speed: of the luma lowpass, the chroma lowpass with its delay, and the sharpening
lowpass (45_vhs_stage.md R270, R271). -/
def speedRow (speed : Nat) : F64 × F64 × Nat × F64 :=
  if speed = 0 then (0x3FE06A183AF9EF76#64, 0x3FBF85AA1B360BBB#64, 9, 0x3FE9DC7622C31AFA#64)
  else if speed = 1 then (0x3FDD1965003F34A1#64, 0x3FBDC7FBBC3B637F#64, 12, 0x3FE89E4C44678431#64)
  else (0x3FD85B0F8A34ED4B#64, 0x3FBC0355CF6BCC54#64, 14, 0x3FE6BE9B0A3686BC#64)

/-- `frac(v) * T` truncated, a position inside the field (44_head_switching.md R252). -/
def switchPosition (pal : Bool) (tw : Int) (v : F64) : Option Int :=
  f2i (fmul (fsub v (ffloor v))
    (fmul (i2f tw) (if pal then 0x4073880000000000#64 else 0x4070680000000000#64)))

/-- The shift after `n` rows of decay (44_head_switching.md R253). -/
def decayed (shif : Int) : Nat → Int
  | 0 => shif
  | n + 1 => tdiv (decayed shif n * 7) 8

/-! ## The audio chain, step by step (47_audio_chain.md R323 to R333) -/

/-- The value after `k` lowpass cells of a bank (47_audio_chain.md R324). -/
def lowOut (bank : List StoredCell) (x : F64) : Nat → F64
  | 0 => x
  | k + 1 =>
    let c := audioCell (bank.getD k StoredCell.reset)
    lpValue c.alpha c.prev (lowOut bank x k)

/-- The value after `k` highpass cells of a bank (47_audio_chain.md R324). -/
def highOut (bank : List StoredCell) (x : F64) : Nat → F64
  | 0 => x
  | k + 1 =>
    let c := audioCell (bank.getD k StoredCell.reset)
    fsub (highOut bank x k) (lpValue c.alpha c.prev (highOut bank x k))

/-- The lowpass of one audio cell. -/
def cellLow (c : StoredCell) (v : F64) : F64 := lpValue (audioCell c).alpha (audioCell c).prev v

/-- After step 2 (47_audio_chain.md R323, R324). -/
def audioV2 (ch : AudioChannel) (pcm : Int) : F64 :=
  highOut ch.ahp.toList (lowOut ch.alp.toList (fdiv (i2f pcm) (i2f 32768)) 6) 6

/-- After step 3 (47_audio_chain.md R325). -/
def audioV3 (g : Regs) (ch : AudioChannel) (pcm : Int) : F64 :=
  let v := audioV2 ch pcm
  if g.audPre then fadd v (fsub v (cellLow ch.apre v)) else v

/-- `t`, the time in lines of sub-sample `oi` of frame `audT`, at 15625 lines a second PAL and 15734 NTSC
(47_audio_chain.md R328). -/
def lineTime (g : Regs) (audT : BitVec 64) (oi : Nat) : F64 :=
  fdiv (fmul (i2f (audT.toNat * 16 + oi : Nat)) (if g.pal then i2f 15625 else i2f 15734)) (fmul g.audRate (i2f 16))

/-- Whether a time in lines lies in the HSYNC window, by its position inside the line, or in the VSYNC window, by its
line inside the half-frame of 312.5 lines PAL and 262.5 NTSC; a time that is not finite lies in neither
(47_audio_chain.md R328). -/
def inWindow (g : Regs) (t : F64) : Bool :=
  let hpos := fsub t (ffloor t)
  let vl := ffmod (ffloor t) (if g.pal then decimal 3125 10 else decimal 2625 10)
  isFinite t && (flt hpos g.audHpulseEnd || flt vl g.audVpulseEnd)

/-- How many of the 16 sub-samples of a frame lie in a sync window (47_audio_chain.md R328). -/
def buzzCount (g : Regs) (audT : BitVec 64) : Nat :=
  ((List.range 16).filter (fun oi => inWindow g (lineTime g audT oi))).length

/-- After step 4: the same amount subtracted once for every sub-sample in a window (47_audio_chain.md R328). -/
def audioV4 (g : Regs) (audT : BitVec 64) (ch : AudioChannel) (pcm : Int) : F64 :=
  if !g.hifi && !isZero g.audBuzzGain then
    Nat.iterate (fun v => fsub v (fdiv (fdiv g.audBuzzGain (i2f 16)) (i2f 2))) (buzzCount g audT)
      (audioV3 g ch pcm)
  else audioV3 g ch pcm

/-- After step 6: the limiter, then the hiss of the answer to its draw (47_audio_chain.md R329, R330). -/
def audioV6 (g : Regs) (audT : BitVec 64) (ch : AudioChannel) (pcm : Int) (ans : Nat) : F64 :=
  let v := limiter (audioV4 g audT ch pcm)
  if g.audHissLevel = 0#64 then v
  else fadd v (fdiv (i2f (drawnSym g.audHissLevel.toNat ans)) (i2f 20000))

/-- After step 7 (47_audio_chain.md R331). -/
def audioV7 (g : Regs) (audT : BitVec 64) (ch : AudioChannel) (pcm : Int) (ans : Nat) : F64 :=
  let v := audioV6 g audT ch pcm ans
  if !g.hifi && !isZero g.audBoostGain then fadd v (fmul (fsub v (cellLow ch.aboost v)) g.audBoostGain) else v

/-- After step 8 (47_audio_chain.md R332). -/
def audioV8 (g : Regs) (audT : BitVec 64) (ch : AudioChannel) (pcm : Int) (ans : Nat) : F64 :=
  let v := audioV7 g audT ch pcm ans
  if g.audDe then cellLow ch.ade v else v

/-- The cells of a channel after a frame: every cell that was stepped holds its lowpass output
(47_audio_chain.md R324, R325, R331, R332). -/
def audioCellsAfter (g : Regs) (audT : BitVec 64) (ch : AudioChannel) (pcm : Int) (ans : Nat) : AudioChannel :=
  let x := fdiv (i2f pcm) (i2f 32768)
  let low := lowOut ch.alp.toList x 6
  { alp := Vector.ofFn (fun k => ⟨ch.alp[k].alpha, lowOut ch.alp.toList x (k.val + 1)⟩)
    ahp := Vector.ofFn (fun k => ⟨ch.ahp[k].alpha, cellLow ch.ahp[k] (highOut ch.ahp.toList low k.val)⟩)
    apre := if g.audPre then ⟨ch.apre.alpha, cellLow ch.apre (audioV2 ch pcm)⟩ else ch.apre
    ade := if g.audDe then ⟨ch.ade.alpha, cellLow ch.ade (audioV7 g audT ch pcm ans)⟩ else ch.ade
    aboost := if !g.hifi && !isZero g.audBoostGain then
        ⟨ch.aboost.alpha, cellLow ch.aboost (audioV6 g audT ch pcm ans)⟩ else ch.aboost }

/-- Step 9 of a finite sample: scaled, truncated and saturated (47_audio_chain.md R333). -/
def audioOut (v : F64) : Int := clampTrunc (fmul v (i2f 32768)) (-32768) 32767

/-- How many draws a channel makes in a frame (47_audio_chain.md R330). -/
def hissDraws (g : Regs) : Nat := if g.audHissLevel = 0#64 then 0 else 1

end Sys2Proof.Machine
end

