-- ==== Sys2Proof/Certificates/Slice0/Obligations.lean ====
section
/-!
DEFINITION. The statements for the provers. Each docstring names the rules of spec/ it rests on; what rests on a
choice of the model names its log entry.
-/
open Sys2Proof Sys2Proof.Machine

/-! ## Encoding (30_encoding.md) -/

/-- Decoding the encoding of a well-formed command gives the command back, for every command and every operand
(R101 to R104). -/
def Obligations.DecodeEncodeRoundTrip : Prop :=
  ∀ i : Instr, wellFormed i = true → decode (encode i) = some i

/-- A word is a command exactly when it matches a row of the opcode map under its mask; the rows do not overlap; and
a word that decodes is the encoding of its command (R101, R103, R104, R106). -/
def Obligations.DecodeMatchesOpcodeMap : Prop :=
  (∀ cmd : CmdWord, (∃ i, decode cmd = some i) ↔ ∃ row ∈ opcodeRows, cmd &&& row.1 = row.2)
  ∧ opcodeRows.Pairwise (fun a b => ∀ cmd : CmdWord, ¬ (cmd &&& a.1 = a.2 ∧ cmd &&& b.1 = b.2))
  ∧ ∀ cmd i, decode cmd = some i → wellFormed i = true ∧ encode i = cmd

/-- Words written out from the opcode map decode to the commands they stand for, one of every family, and the
illegal words of R361 do not decode (R103, R109, R361). -/
def Obligations.SampleWordsDecode : Prop :=
  decode 0x02000009#32 = some (.cfgw 0x09) ∧ decode 0x08000001#32 = some (.pwr 1)
  ∧ decode 0x0B000000#32 = some .pixr ∧ decode 0x12000003#32 = some (.flp 3)
  ∧ decode 0x16000200#32 = some (.hilo 0 2) ∧ decode 0x25000001#32 = some (.demod true)
  ∧ decode 0x33000000#32 = some .vsharp ∧ decode 0x38000000#32 = some .runfield
  ∧ decode 0x40000000#32 = some .audf ∧ decode 0x06000000#32 = none ∧ decode 0x21000001#32 = none

/-! ## The step -/

/-- A step on a presented word that decodes runs the decoded command, with the word and its data word on the port
and the rest of the host's events left; on a word that decodes to no command it takes the fault `IllegalCommand`, or in
FAULTED answers `FAULT` and changes nothing of the block; with nothing presented nothing happens (R100, R361, R366,
R368; the stream of events is the model's, log 1, as are the words kept on the port, log 12). -/
def Obligations.StepRunsDecodedCommand : Prop :=
  (∀ (s : State) (cmd : CmdWord) (w : DataWord) (rest : List HostEvent) (i : Instr),
    s.host = .command cmd w :: rest → decode cmd = some i →
    step s = exec i { s with cmd := cmd, wdata := w, host := rest })
  ∧ (∀ s : State, s.host = [] → step s = .next s)
  ∧ (∀ (s : State) (cmd : CmdWord) (w : DataWord) (rest : List HostEvent),
      s.host = .command cmd w :: rest → decode cmd = none → s.phase ≠ .faulted →
      step s = .next { s with cmd := cmd, wdata := w, host := rest, phase := .faulted, fcode := 1#8,
                              finfo := cmd, resp := some .fault })
  ∧ ∀ (s : State) (cmd : CmdWord) (w : DataWord) (rest : List HostEvent),
      s.host = .command cmd w :: rest → decode cmd = none → s.phase = .faulted →
      step s = .next { s with cmd := cmd, wdata := w, host := rest, resp := some .fault }

/-! ## Reset -/

/-- The block after `RESET` and after the hardware reset: `State.reset`, whose fields are those of the table of R61.
That the port's words, the host's events and the environment of the draws stay, being outside the block, and that the
hardware reset owes no response are the model's (log 1, log 2, log 3, log 12); R61 calls the coefficient of a cell that
is not configured unspecified, and the model holds none (log 5). -/
def Obligations.ResetValues : Prop :=
  (∀ s : State, exec .reset s = .next { State.reset with
      cmd := s.cmd, wdata := s.wdata, resp := some (.ok 0#64), host := s.host, draws := s.draws })
  ∧ (∀ (s : State) (rest : List HostEvent), s.host = .hardReset :: rest →
      step s = .next { State.reset with cmd := s.cmd, wdata := s.wdata, host := rest, draws := s.draws })
  ∧ State.reset.phase = .setup ∧ State.reset.fcode = 0#8 ∧ State.reset.finfo = 0#32
  ∧ State.reset.field = 0#64 ∧ State.reset.planes = none ∧ State.reset.audReady = false
  ∧ State.reset.audT = 0#64
  ∧ (∀ k < 16, State.reset.gf[k]? = some ⟨none, 0#64⟩)
  ∧ (∀ ch ∈ [State.reset.aud0, State.reset.aud1],
      (∀ k < 6, ch.alp[k]? = some ⟨none, 0#64⟩) ∧ (∀ k < 6, ch.ahp[k]? = some ⟨none, 0#64⟩)
      ∧ ch.apre = ⟨none, 0#64⟩ ∧ ch.ade = ⟨none, 0#64⟩ ∧ ch.aboost = ⟨none, 0#64⟩)
  ∧ registerView State.reset =
      [(0x00, 1#64), (0x01, 0#64), (0x02, 0#64), (0x03, 0#64), (0x04, 0x01E002D0#64), (0x05, 0#64),
        (0x06, 0#64), (0x07, 0#64), (0x08, 0#64), (0x09, 50#64), (0x0A, 0#64), (0x0B, 0#64), (0x0C, 0#64)]
      ++ [(0x0D, 0#64), (0x0E, 0#64), (0x0F, 0x3FF8000000000000#64), (0x10, 0#64), (0x11, 0#64),
        (0x12, 0#64), (0x13, 0x40E5888000000000#64), (0x18, 0x40E5888000000000#64), (0x19, 2#64),
        (0x1A, 0#64), (0x1B, 0#64), (0x1C, 0#64)]
      ++ [(0x1D, 0#64), (0x1E, 0#64), (0x1F, 0#64), (0x20, 0#64), (0x21, 0#64), (0x22, 0#64), (0x23, 0#64)]

/-- `RESET` gives every piece of state its reset value in every phase, and it is the only command that leaves
FAULTED and the only one that goes from RUN back to SETUP (R131, R370). That the port's words, the host's events and the environment of
the draws stay is the model's (log 1, log 3, log 12), as is the absent coefficient (log 5). -/
def Obligations.ResetIsTheOnlyWayBack : Prop :=
  decode 0x01000000#32 = some .reset
  ∧ (∀ s : State, exec .reset s = .next { State.reset with
      cmd := s.cmd, wdata := s.wdata, resp := some (.ok 0#64), host := s.host, draws := s.draws })
  ∧ (∀ (i : Instr) (s t : State), exec i s = .next t → s.phase = .faulted → t.phase ≠ .faulted → i = .reset)
  ∧ ∀ (i : Instr) (s t : State), exec i s = .next t → s.phase = .run → t.phase = .setup → i = .reset

/-- The state after reset meets every invariant stated below. -/
def Obligations.ResetMeetsInvariants : Prop :=
  State.reset.RegsLegal ∧ State.reset.PlanesCanonical ∧ State.reset.LifeCycle ∧ State.reset.BankFinite
    ∧ State.reset.AudioBounded

/-! ## Host and configuration commands (40_host_config_commands.md) -/

/-- `NOP` in every phase: answered `OK`, nothing else changes (R130). -/
def Obligations.NopChangesNothing : Prop :=
  decode 0x00000000#32 = some .nop
  ∧ ∀ s : State, exec .nop s = .next { s with resp := some (.ok 0#64) }

/-- `CFGR` in every phase: an implemented index answers its register and changes nothing; any other index raises
`InvalidArgument` (R133, R25, R27). -/
def Obligations.CfgrReadsRegister : Prop :=
  (∀ idx < 256, decode (0x03000000#32 + BitVec.ofNat 32 idx) = some (.cfgr idx))
  ∧ (∀ (s : State) (idx : Nat) (v : DataWord), (idx, v) ∈ registerView s →
      exec (.cfgr idx) s = .next { s with resp := some (.ok v) })
  ∧ ∀ (s : State) (idx : Nat), idx ∉ (registerView s).map Prod.fst →
      exec (.cfgr idx) s = .next (takeFault .invalidArgument s)

/-- `CFGW` in SETUP: a legal value is stored in its register, which then reads as written, and nothing else changes;
any other value, a read-only index or an unimplemented one raises `InvalidArgument`; in RUN it raises `PhaseError`
(R132, with the ranges of R26 to R49). -/
def Obligations.CfgwWritesLegalValue : Prop :=
  (∀ idx < 256, decode (0x02000000#32 + BitVec.ofNat 32 idx) = some (.cfgw idx))
  ∧ (∀ (s : State) (idx : Nat), s.phase = .setup → cfgwLegal idx s.wdata →
      ∃ t, exec (.cfgw idx) s = .next t
        ∧ t = { s with regs := t.regs, field := t.field, resp := some (.ok 0#64) }
        ∧ (idx, s.wdata) ∈ registerView t
        ∧ ∀ j v, j ≠ idx → ((j, v) ∈ registerView t ↔ (j, v) ∈ registerView s))
  ∧ (∀ (s : State) (idx : Nat), s.phase = .setup → ¬ cfgwLegal idx s.wdata →
      exec (.cfgw idx) s = .next (takeFault .invalidArgument s))
  ∧ ∀ (s : State) (idx : Nat), s.phase = .run → exec (.cfgw idx) s = .next (takeFault .phaseError s)

/-- `SETUP` creates the planes with every sample 0 in the dimensions of `DIM`, sets `AUD_T` to 0 and enters RUN; a
preemphasis without a positive cutoff raises `InvalidParameter`. With `AUD_EN = 0` nothing else changes. With
`AUD_EN = 1` both channels' cells are configured, the auxiliary ones only where their stage is in use, every configured
`.prev` is `+0.0`, `AUD_READY` is 1; a rate or cutoff in use that gives no coefficient raises `InvalidParameter` (R134,
R135, R53). -/
def Obligations.SetupConfiguresAndEntersRun : Prop :=
  (∀ s : State, s.phase = .setup → s.regs.audEn = false →
    isZero s.regs.compPre = true ∨ isPos s.regs.compCut = true →
    exec .setup s = .next { s with
      planes := some (Planes.zero (s.regs.dim.toNat % 65536) (s.regs.dim.toNat / 65536 % 65536)),
      audT := 0#64, phase := .run, resp := some (.ok 0#64) })
  ∧ (∀ w h p y x : Nat, (Planes.zero w h).read p y x = 0#32 ∧ (Planes.zero w h).w = w ∧ (Planes.zero w h).h = h)
  ∧ (∀ s : State, s.phase = .setup → isZero s.regs.compPre = false → isPos s.regs.compCut = false →
    exec .setup s = .next (takeFault .invalidParameter s))
  ∧ ∀ s : State, s.phase = .setup → s.regs.audEn = true →
      isZero s.regs.compPre = true ∨ isPos s.regs.compCut = true →
      (∀ lp hp pre de boost : F64,
        configure s.regs.audRate s.regs.audLpHz = some lp → configure s.regs.audRate s.regs.audHpHz = some hp →
        (s.regs.audPre = true → configure s.regs.audRate s.regs.audPreHz = some pre) →
        (s.regs.audDe = true → configure s.regs.audRate s.regs.audDeHz = some de) →
        ((s.regs.hifi = false ∧ isZero s.regs.audBoostGain = false) →
          configure s.regs.audRate s.regs.audBoostHz = some boost) →
        let cells (ch : AudioChannel) : AudioChannel :=
          { alp := Vector.replicate 6 ⟨some lp, 0#64⟩
            ahp := Vector.replicate 6 ⟨some hp, 0#64⟩
            apre := if s.regs.audPre then ⟨some pre, 0#64⟩ else ch.apre
            ade := if s.regs.audDe then ⟨some de, 0#64⟩ else ch.ade
            aboost := if s.regs.hifi = false ∧ isZero s.regs.audBoostGain = false then ⟨some boost, 0#64⟩
              else ch.aboost }
        exec .setup s = .next { s with
          aud0 := cells s.aud0, aud1 := cells s.aud1, audReady := true,
          planes := some (Planes.zero (s.regs.dim.toNat % 65536) (s.regs.dim.toNat / 65536 % 65536)),
          audT := 0#64, phase := .run, resp := some (.ok 0#64) })
      ∧ ((configure s.regs.audRate s.regs.audLpHz = none ∨ configure s.regs.audRate s.regs.audHpHz = none
          ∨ (s.regs.audPre = true ∧ configure s.regs.audRate s.regs.audPreHz = none)
          ∨ (s.regs.audDe = true ∧ configure s.regs.audRate s.regs.audDeHz = none)
          ∨ (s.regs.hifi = false ∧ isZero s.regs.audBoostGain = false
              ∧ configure s.regs.audRate s.regs.audBoostHz = none)) →
        exec .setup s = .next (takeFault .invalidParameter s))

/-- `CATV k` in SETUP: the preset's three registers, nothing else; `k` outside 1 to 4 raises `InvalidArgument`; in RUN
it raises `PhaseError` (R136). -/
def Obligations.CatvLoadsPreset : Prop :=
  (∀ k < 256, decode (0x05000000#32 + BitVec.ofNat 32 k) = some (.catv k))
  ∧ fsc = fdiv (i2f 315000000) (i2f 88)
  ∧ (∀ s : State, s.phase = .setup →
      ∀ row ∈ [((1, 7, 1, 2) : Nat × Int × Int × Nat), (2, 15, 1, 4), (3, 25, 2, 6), (4, 40, 4, 6)],
        exec (.catv row.1) s = .next { s with
          regs := { s.regs with compPre := i2f row.2.1, compCut := fmul (i2f row.2.2.1) fsc,
                                chromaPhaseNoise := BitVec.ofNat 64 row.2.2.2 },
          resp := some (.ok 0#64) })
  ∧ fmul (i2f 1) fsc = 0x414B4F4CBA2E8BA3#64 ∧ fmul (i2f 2) fsc = 0x415B4F4CBA2E8BA3#64
  ∧ fmul (i2f 4) fsc = 0x416B4F4CBA2E8BA3#64
  ∧ (∀ (s : State) (k : Nat), s.phase = .setup → k < 1 ∨ 4 < k →
      exec (.catv k) s = .next (takeFault .invalidArgument s))
  ∧ ∀ (s : State) (k : Nat), s.phase = .run → exec (.catv k) s = .next (takeFault .phaseError s)

/-- `PWR` in RUN: the sample at the address is the one given and every other address keeps its sample; plane 3, a row
`>= H` or a column `>= W` raises `PlaneAddress`; in SETUP it raises `PhaseError` (R137, R71, R73). -/
def Obligations.PwrStoresSample : Prop :=
  (∀ p < 4, decode (0x08000000#32 + BitVec.ofNat 32 p) = some (.pwr p))
  ∧ (∀ (s : State) (P : Planes) (p : Nat), s.phase = .run → s.planes = some P →
      let y := (s.wdata.extractLsb' 48 16).toNat
      let x := (s.wdata.extractLsb' 32 16).toNat
      (p < 3 ∧ y < P.h ∧ x < P.w →
        ∃ P', exec (.pwr p) s = .next { s with planes := some P', resp := some (.ok 0#64) }
          ∧ P'.w = P.w ∧ P'.h = P.h ∧ P'.read p y x = s.wdata.extractLsb' 0 32
          ∧ ∀ a, a ≠ planeAddr p y x → Memory.read P'.cells a = Memory.read P.cells a)
      ∧ (p = 3 ∨ P.h ≤ y ∨ P.w ≤ x → exec (.pwr p) s = .next (takeFault .planeAddress s)))
  ∧ ∀ (s : State) (p : Nat), s.phase = .setup → exec (.pwr p) s = .next (takeFault .phaseError s)

/-- `PRD` in RUN: the answer is the sample at the address, sign-extended, and nothing changes; plane 3, a row `>= H` or
a column `>= W` raises `PlaneAddress`; in SETUP it raises `PhaseError` (R138, R72). -/
def Obligations.PrdReadsSample : Prop :=
  (∀ p < 4, decode (0x09000000#32 + BitVec.ofNat 32 p) = some (.prd p))
  ∧ (∀ (s : State) (P : Planes) (p : Nat), s.phase = .run → s.planes = some P →
      let y := (s.wdata.extractLsb' 48 16).toNat
      let x := (s.wdata.extractLsb' 32 16).toNat
      (p < 3 ∧ y < P.h ∧ x < P.w →
        exec (.prd p) s = .next { s with resp := some (.ok (BitVec.ofInt 64 (P.read p y x).toInt)) })
      ∧ (p = 3 ∨ P.h ≤ y ∨ P.w ≤ x → exec (.prd p) s = .next (takeFault .planeAddress s)))
  ∧ ∀ (s : State) (p : Nat), s.phase = .setup → exec (.prd p) s = .next (takeFault .phaseError s)

/-! ## Colour conversion (42_color_conversion.md) -/

/-- `PIXW` in RUN: the three planes at the address hold the forward conversion of the pixel, every other address keeps
its sample; a row `>= H` or a column `>= W` raises `PlaneAddress` (R191, R192; that the stored words need no
overflow check is R192's remark, log 13). -/
def Obligations.PixwConvertsPixel : Prop :=
  ∀ (s : State) (P : Planes), s.runsOn P →
    let y := (s.wdata.extractLsb' 48 16).toNat
    let x := (s.wdata.extractLsb' 32 16).toNat
    let r := i2f (s.wdata.extractLsb' 16 8).toNat
    let g := i2f (s.wdata.extractLsb' 8 8).toNat
    let b := i2f (s.wdata.extractLsb' 0 8).toNat
    let yp := fadd (fadd (fmul (decimal 30 100) r) (fmul (decimal 59 100) g)) (fmul (decimal 11 100) b)
    (y < P.h ∧ x < P.w →
      ∃ P', exec .pixw s = .next { s with planes := some P', resp := some (.ok 0#64) }
        ∧ P'.w = P.w ∧ P'.h = P.h
        ∧ P'.read planeY y x = BitVec.ofInt 32 (roundAway (fmul (i2f 256) yp))
        ∧ P'.read planeI y x = BitVec.ofInt 32 (roundAway (fmul (i2f 256)
            (fadd (fmul (decimal (-27) 100) (fsub b yp)) (fmul (decimal 74 100) (fsub r yp)))))
        ∧ P'.read planeQ y x = BitVec.ofInt 32 (roundAway (fmul (i2f 256)
            (fadd (fmul (decimal 41 100) (fsub b yp)) (fmul (decimal 48 100) (fsub r yp)))))
        ∧ ∀ a, a ≠ planeAddr planeY y x → a ≠ planeAddr planeI y x → a ≠ planeAddr planeQ y x →
            Memory.read P'.cells a = Memory.read P.cells a)
    ∧ (P.h ≤ y ∨ P.w ≤ x → exec .pixw s = .next (takeFault .planeAddress s))

/-- `PIXR` in RUN: the answer is `0xFF ++ R ++ G ++ B` of the inverse conversion of the three samples, zero-extended,
and nothing changes; a row `>= H` or a column `>= W` raises `PlaneAddress` (R191, R193). -/
def Obligations.PixrConvertsSamples : Prop :=
  ∀ (s : State) (P : Planes), s.phase = .run → s.planes = some P →
    let y := (s.wdata.extractLsb' 48 16).toNat
    let x := (s.wdata.extractLsb' 32 16).toNat
    let yv := i2f (P.read planeY y x).toInt
    let iv := i2f (P.read planeI y x).toInt
    let qv := i2f (P.read planeQ y x).toInt
    let channel (ki kq : F64) : Int :=
      clampTrunc (fdiv (fadd (fadd (fmul (decimal 1000 1000) yv) (fmul ki iv)) (fmul kq qv)) (i2f 256)) 0 255
    (y < P.h ∧ x < P.w →
      exec .pixr s = .next { s with resp := some (.ok
        (0#32 ++ 0xFF#8 ++ BitVec.ofInt 8 (channel (decimal 956 1000) (decimal 621 1000))
          ++ BitVec.ofInt 8 (channel (decimal (-272) 1000) (decimal (-647) 1000))
          ++ BitVec.ofInt 8 (channel (decimal (-1106) 1000) (decimal 1703 1000)))) })
    ∧ (P.h ≤ y ∨ P.w ≤ x → exec .pixr s = .next (takeFault .planeAddress s))

/-! ## The filter cell and its banks (41_iir_filter.md) -/

/-- Every coefficient `configure` gives is finite and lies in `[0, 1]`, and it is given for a positive rate and a
positive cutoff only (R161). -/
def Obligations.CoefficientInUnitInterval : Prop :=
  ∀ rate fc a : F64, configure rate fc = some a →
    isPos rate = true ∧ isPos fc = true ∧ isFinite a = true ∧ fle 0#64 a = true
      ∧ fle a 0x3FF0000000000000#64 = true

/-- `FCFG` in SETUP: the coefficient of the cell is that of `GF_RATE` and the cutoff, and is the answer; `.prev` and
every other cell keep their values; a cell of 16 or more raises `InvalidArgument`, an unusable rate or cutoff
`InvalidParameter`, and in RUN it raises `PhaseError` (R165, R161). -/
def Obligations.FcfgConfiguresCell : Prop :=
  (∀ cell < 256, decode (0x10000000#32 + BitVec.ofNat 32 cell) = some (.fcfg cell))
  ∧ (∀ (s : State) (cell : Nat) (c : StoredCell), s.phase = .setup → s.gf[cell]? = some c →
      let dt := fdiv (i2f 1) s.regs.gfRate
      let tau := fdiv (i2f 1) (fmul (fmul s.wdata (i2f 2)) 0x400921FB54442D18#64)
      let a := fdiv dt (fadd tau dt)
      (isPos s.regs.gfRate = true ∧ isPos s.wdata = true ∧ isNaN a = false →
        ∃ t, exec (.fcfg cell) s = .next t ∧ t = { s with gf := t.gf, resp := some (.ok a) }
          ∧ t.gf[cell]? = some ⟨some a, c.prev⟩ ∧ ∀ j, j ≠ cell → t.gf[j]? = s.gf[j]?)
      ∧ (isPos s.regs.gfRate = false ∨ isPos s.wdata = false ∨ isNaN a = true →
        exec (.fcfg cell) s = .next (takeFault .invalidParameter s)))
  ∧ (∀ (s : State) (cell : Nat), s.phase = .setup → 16 ≤ cell →
      exec (.fcfg cell) s = .next (takeFault .invalidArgument s))
  ∧ ∀ (s : State) (cell : Nat), s.phase = .run → exec (.fcfg cell) s = .next (takeFault .phaseError s)

/-- `FRST` in RUN: `.prev` of the cell is the operand, whether the cell is configured or not, and nothing else changes;
a cell of 16 or more, a NaN or an infinity raises `InvalidArgument`; in SETUP it raises `PhaseError` (R166, R162). -/
def Obligations.FrstSetsPrev : Prop :=
  (∀ cell < 256, decode (0x11000000#32 + BitVec.ofNat 32 cell) = some (.frst cell))
  ∧ (∀ (s : State) (cell : Nat) (c : StoredCell), s.phase = .run → s.gf[cell]? = some c →
      isFinite s.wdata = true →
      ∃ t, exec (.frst cell) s = .next t ∧ t = { s with gf := t.gf, resp := some (.ok 0#64) }
        ∧ t.gf[cell]? = some ⟨c.alpha, s.wdata⟩ ∧ ∀ j, j ≠ cell → t.gf[j]? = s.gf[j]?)
  ∧ (∀ (s : State) (cell : Nat), s.phase = .run → 16 ≤ cell ∨ isFinite s.wdata = false →
      exec (.frst cell) s = .next (takeFault .invalidArgument s))
  ∧ ∀ (s : State) (cell : Nat), s.phase = .setup → exec (.frst cell) s = .next (takeFault .phaseError s)

/-- The filter commands in RUN: their checks in order, the lowpass or highpass of every cell of their plan, all of which
advance, the output of the last one as the answer, and the fault on a value that is not finite. `FLP` and `FHP` step one
cell, `FCASL` and `FCASH` a cascade of `n`, `HILO` `n` lowpass cells and then `n` highpass cells (R167 to R171, with
R163, R164, R174). -/
def Obligations.FilterCommandsStepTheirCells : Prop :=
  (∀ cell : Nat, bankRule (.flp cell) cell 1 (fun _ => false) ∧ bankRule (.fhp cell) cell 1 (fun _ => true))
  ∧ ∀ first n : Nat, bankRule (.fcasl first n) first n (fun _ => false)
    ∧ bankRule (.fcash first n) first n (fun _ => true)
    ∧ bankRule (.hilo first n) first (2 * n) (fun k => decide (n ≤ k))

/-! ## The composite pipeline (43_composite_chroma.md) -/

/-- The subcarrier phase in closed form, policy by policy, and how it steps from one row of the field to the next
(R203, R204). -/
def Obligations.SubcarrierPhasePolicy : Prop :=
  ∀ (g : Regs) (field : BitVec 64) (y : Nat),
    let f : Int := field.toNat
    let off : Int := g.compPhaseOffset.toInt
    let xi : Nat → Int := fun y => (subcarrierPhase g field y : Int)
    (0 ≤ xi y ∧ xi y < 4)
    ∧ (g.compPhase = 0#64 → xi y = off % 4)
    ∧ (g.compPhase = 1#64 → xi 0 = (f + off) % 4 ∧ xi 1 = (f + off) % 4 ∧ xi (y + 2) = (xi y + 1) % 4)
    ∧ (g.compPhase = 2#64 → xi 0 = (f / 2 % 2 * 2 + off) % 4 ∧ xi 1 = ((f + 1) / 2 % 2 * 2 + off) % 4
        ∧ xi (y + 2) = (xi y + 2) % 4)
    ∧ (g.compPhase = 3#64 → xi 0 = (f + off) % 4 ∧ xi 1 = (f + off) % 4 ∧ xi (y + 2) = (xi y - 1) % 4)
    ∧ subcarrierPhase g field y = subcarrierPhase g (BitVec.ofNat 64 (field.toNat % 4)) y

/-- `CLPF m` in RUN: `I` and `Q` of the rows of the field are lowpassed three times at the cutoffs and delays of the mode
(the coefficients are those of R173), `Y` and everything else keep their values (R200, R201). -/
def Obligations.ClpfLowpassesChroma : Prop :=
  ∀ (s : State) (P : Planes) (I Q : Nat → Nat → Sample), s.runsOn P →
    (lowpassedPlane P s.field planeI 0x3FD73F79F9C6BE70#64 2 I →
      lowpassedPlane P s.field planeQ 0x3FCAAD7D6E7E9479#64 4 Q →
      passGives (.clpf false) s P (P.read planeY) I Q s.draws)
    ∧ (lowpassedPlane P s.field planeI 0x3FE10DA7BF77EEE6#64 1 I →
      lowpassedPlane P s.field planeQ 0x3FE10DA7BF77EEE6#64 1 Q →
      passGives (.clpf true) s P (P.read planeY) I Q s.draws)

/-- The chroma lowpasses never overflow: `CLPF` and `VCHROMA` complete on all planes (R201, R274). -/
def Obligations.ChromaLowpassNeverOverflows : Prop :=
  ∀ (s : State) (P : Planes), s.runsOn P →
    (∀ m, ∃ P', exec (.clpf m) s = .next (s.afterPass P' s.draws) ∧ P'.w = P.w ∧ P'.h = P.h)
    ∧ ∃ P', exec .vchroma s = .next (s.afterPass P' s.draws) ∧ P'.w = P.w ∧ P'.h = P.h

/-- `MOD` in RUN: the carrier is added to `Y`, `I` and `Q` of the rows of the field become 0; a sum outside `S32` raises
`PlaneOverflow` and changes no sample (R205, R204). -/
def Obligations.ModAddsCarrier : Prop :=
  ∀ (s : State) (P : Planes), s.runsOn P →
    ((∀ y < P.h, ∀ x < P.w, y % 2 = parity s.field → inS32 (modValue s P y x) = true) →
      passGives .mod s P (fun y x => BitVec.ofInt 32 (modValue s P y x)) (fun _ _ => 0#32) (fun _ _ => 0#32)
        s.draws)
    ∧ ((∃ y x, y < P.h ∧ x < P.w ∧ y % 2 = parity s.field ∧ inS32 (modValue s P y x) = false) →
      exec .mod s = .next (takeFault .planeOverflow s))

/-- `PRE` in RUN with `COMP_PRE` not 0: the highpass of `Y` at `COMP_CUT`, scaled, is added back to `Y`; a value of the
field that does not fit raises `PlaneOverflow` and changes no sample (R208, R13, R363). -/
def Obligations.PreAddsHighpass : Prop :=
  ∀ (s : State) (P : Planes) (alpha : F64), s.runsOn P →
    isZero s.regs.compPre = false → configure fsc4 s.regs.compCut = some alpha →
    let boosted (y x : Nat) : F64 := fadd (rowInput P planeY y x)
      (fmul (fsub (rowInput P planeY y x) (lpSeq alpha (rowInput P planeY y) x)) s.regs.compPre)
    (∀ Y : Nat → Nat → Sample,
      (∀ y < P.h, ∀ x < P.w, y % 2 = parity s.field → f2s (boosted y x) = some (Y y x)) →
      passGives .pre s P Y (P.read planeI) (P.read planeQ) s.draws)
    ∧ (someMisfit s.field P (fun y x => (f2s (boosted y x)).isSome = true) →
      exec .pre s = .next (takeFault .planeOverflow s))

/-- A stage whose amount register is 0 completes, changes nothing and makes no draw (R208, R211, R223, R225, R228,
R300). -/
def Obligations.StageWithZeroAmountDoesNothing : Prop :=
  ∀ (s : State) (P : Planes), s.phase = .run → s.planes = some P →
    (isZero s.regs.compPre = true → exec .pre s = .next { s with resp := some (.ok 0#64) })
    ∧ (s.regs.videoNoise = 0#64 → exec .ynoise s = .next { s with resp := some (.ok 0#64) })
    ∧ (s.regs.chromaNoise = 0#64 → exec .cnoise s = .next { s with resp := some (.ok 0#64) })
    ∧ (s.regs.chromaPhaseNoise = 0#64 → exec .cphase s = .next { s with resp := some (.ok 0#64) })
    ∧ (s.regs.chromaLoss = 0#64 → exec .cdrop s = .next { s with resp := some (.ok 0#64) })

/-- `YNOISE` in RUN with `VIDEO_NOISE` not 0: one draw a sample in row-then-column order, the walk restarts on every
row, its value is added to `Y` and never exceeds the amplitude; the first sample that does not fit raises
`PlaneOverflow`, the draws up to and including its own spent, and changes no sample (R211, R363, R367, R369, R410; the
answers of the environment are log 3's, that no later draw is made log 19's). -/
def Obligations.YnoiseAddsWalk : Prop :=
  ∀ (s : State) (P : Planes), s.runsOn P → s.regs.videoNoise ≠ 0#64 →
    let v : Int := s.regs.videoNoise.toNat
    let n (y x : Nat) : Int := walkAt v (fun k => answerAt s.draws (y / 2 * P.w + k)) x
    let fits (y x : Nat) : Prop := inS32 ((P.read planeY y x).toInt + n y x) = true
    (∀ y x, -v ≤ n y x ∧ n y x ≤ v)
    ∧ ((∀ y < P.h, ∀ x < P.w, y % 2 = parity s.field → fits y x) →
      passGives .ynoise s P (fun y x => BitVec.ofInt 32 ((P.read planeY y x).toInt + n y x))
        (P.read planeI) (P.read planeQ) (afterDraws s.draws (rowsOfField s.field P.h * P.w)))
    ∧ ∀ y x, FirstMisfit s.field P fits y x →
      exec .ynoise s = .next (takeFault .planeOverflow
        { s with draws := afterDraws s.draws (y / 2 * P.w + x + 1) })

/-- `DEMOD m` in RUN: `Y` is the box blur of the raw row, `I` and `Q` are demultiplexed and interpolated from its
residual, all 0 where the amplitude is 0; a scaled residual or a value of `I` or `Q` outside `S32`, or an amplitude that
does not convert, raises `PlaneOverflow` and changes no sample (R215 to R220, R363; that the residual of every column
counts is log 8's). -/
def Obligations.DemodRecoversChroma : Prop :=
  ∀ (s : State) (P : Planes) (m : Bool), s.runsOn P →
    (∀ ab : Int, demodAmplitude s.regs m = some ab →
      let fits (y x : Nat) : Prop := demodFits ab P (subcarrierPhase s.regs s.field y) y x
      ((∀ y < P.h, ∀ x < P.w, y % 2 = parity s.field → fits y x) →
        passGives (.demod m) s P (fun y x => BitVec.ofInt 32 (blurAt P y x))
          (fun y x => BitVec.ofInt 32 (demodValue ab P (subcarrierPhase s.regs s.field y) 0 y x))
          (fun y x => BitVec.ofInt 32 (demodValue ab P (subcarrierPhase s.regs s.field y) 1 y x)) s.draws)
      ∧ (someMisfit s.field P fits → exec (.demod m) s = .next (takeFault .planeOverflow s)))
    ∧ (demodAmplitude s.regs m = none → exec (.demod m) s = .next (takeFault .planeOverflow s))

/-- `MOD` then `DEMOD` on a row of constant luma and chroma, without preemphasis: `Y` comes back on columns 1 to
`W - 3`, `I` and `Q` on the columns whose source samples and blur windows lie inside the row, for every phase (R221).
The bounds keep every value inside `S32`. -/
def Obligations.ModulationRoundTrip : Prop :=
  ∀ (s : State) (P : Planes) (m : Bool) (y : Nat) (y0 i0 q0 : Int), s.runsOn P →
    1 ≤ s.regs.scAmp.toNat → s.regs.scAmp.toNat ≤ 100 → (m = false → isZero s.regs.compPre = true) →
    (∀ p < 3, ∀ z < P.h, ∀ x < P.w,
      -1048576 ≤ (P.read p z x).toInt ∧ (P.read p z x).toInt ≤ 1048576) →
    y < P.h → y % 2 = parity s.field →
    (∀ x < P.w, (P.read planeY y x).toInt = y0 ∧ (P.read planeI y x).toInt = i0
      ∧ (P.read planeQ y x).toInt = q0) →
    50 ∣ i0 * (s.regs.scAmp.toNat : Int) → 50 ∣ q0 * (s.regs.scAmp.toNat : Int) →
    ∃ P', issueAll [.mod, .demod m] s = s.afterPass P' s.draws
      ∧ (∀ x, 1 ≤ x → x + 3 ≤ P.w → (P'.read planeY y x).toInt = y0)
      ∧ ∀ x, let xi := subcarrierPhase s.regs s.field y
          (x % 2 = 0 ∧ 1 ≤ x + xi ∧ x + xi + 4 ≤ P.w) ∨ (x % 2 = 1 ∧ 2 ≤ x + xi ∧ x + xi + 5 ≤ P.w) →
          (P'.read planeI y x).toInt = i0 ∧ (P'.read planeQ y x).toInt = q0

/-- `CNOISE` in RUN with `CHROMA_NOISE` not 0: two draws a sample, the `I` draw first, both walks restart on every row;
the first value that does not fit raises `PlaneOverflow`, the draws up to and including its own spent, and changes no
sample (R223, R363, R367, R369, R410; the answers of the environment are log 3's, that no later draw is made log
19's). -/
def Obligations.CnoiseAddsTwoWalks : Prop :=
  ∀ (s : State) (P : Planes), s.runsOn P → s.regs.chromaNoise ≠ 0#64 →
    let c : Int := s.regs.chromaNoise.toNat
    let nI (y x : Nat) : Int := walkAt c (fun k => answerAt s.draws (2 * (y / 2 * P.w + k))) x
    let nQ (y x : Nat) : Int := walkAt c (fun k => answerAt s.draws (2 * (y / 2 * P.w + k) + 1)) x
    let fitsI (y x : Nat) : Bool := inS32 ((P.read planeI y x).toInt + nI y x)
    let fitsQ (y x : Nat) : Bool := inS32 ((P.read planeQ y x).toInt + nQ y x)
    ((∀ y < P.h, ∀ x < P.w, y % 2 = parity s.field → fitsI y x = true ∧ fitsQ y x = true) →
      passGives .cnoise s P (P.read planeY)
        (fun y x => BitVec.ofInt 32 ((P.read planeI y x).toInt + nI y x))
        (fun y x => BitVec.ofInt 32 ((P.read planeQ y x).toInt + nQ y x))
        (afterDraws s.draws (2 * (rowsOfField s.field P.h * P.w))))
    ∧ ∀ y x, FirstMisfit s.field P (fun y x => fitsI y x = true ∧ fitsQ y x = true) y x →
      exec .cnoise s = .next (takeFault .planeOverflow
        { s with draws := afterDraws s.draws (2 * (y / 2 * P.w + x) + if fitsI y x then 2 else 1) })

/-- `CPHASE` in RUN with `CHROMA_PHASE_NOISE` not 0: one draw a row, the walk is carried from row to row, and every
sample of a row is rotated by its angle, for all functions `SIN` and `COS`; the first value that does not fit raises
`PlaneOverflow`, the draws up to and including its row's spent, and changes no sample (R225, R13, R363, R367, R369, R410;
the answers are log 3's, `SIN` and `COS` log 4's, that no later draw is made log 19's). -/
def Obligations.CphaseRotatesChroma : Prop :=
  ∀ (s : State) (P : Planes), s.runsOn P → s.regs.chromaPhaseNoise ≠ 0#64 →
    let th (y : Nat) : F64 :=
      fdiv (fmul (i2f (walkAt s.regs.chromaPhaseNoise.toNat (answerAt s.draws) (y / 2))) 0x400921FB54442D18#64)
        (i2f 100)
    let rotI (y x : Nat) : F64 :=
      fsub (fmul (rowInput P planeI y x) (cosF (th y))) (fmul (rowInput P planeQ y x) (sinF (th y)))
    let rotQ (y x : Nat) : F64 :=
      fadd (fmul (rowInput P planeI y x) (sinF (th y))) (fmul (rowInput P planeQ y x) (cosF (th y)))
    (∀ I Q : Nat → Nat → Sample,
      (∀ y < P.h, ∀ x < P.w, y % 2 = parity s.field →
        f2s (rotI y x) = some (I y x) ∧ f2s (rotQ y x) = some (Q y x)) →
      passGives .cphase s P (P.read planeY) I Q (afterDraws s.draws (rowsOfField s.field P.h)))
    ∧ ∀ y x, FirstMisfit s.field P
        (fun y x => (f2s (rotI y x)).isSome = true ∧ (f2s (rotQ y x)).isSome = true) y x →
      exec .cphase s = .next (takeFault .planeOverflow { s with draws := afterDraws s.draws (y / 2 + 1) })

/-- `CDROP` in RUN with `CHROMA_LOSS` not 0: one draw a row; a row whose draw lies below `CHROMA_LOSS` loses its chroma,
and with `CHROMA_LOSS = 100000` every row does (R228, R410; the answers of the environment are log 3's). -/
def Obligations.CdropZeroesDroppedRows : Prop :=
  ∀ (s : State) (P : Planes), s.runsOn P → s.regs.chromaLoss ≠ 0#64 →
    let dropped (y : Nat) : Bool := decide (answerAt s.draws (y / 2) % 100000 < s.regs.chromaLoss.toNat)
    passGives .cdrop s P (P.read planeY)
      (fun y x => if dropped y then 0#32 else P.read planeI y x)
      (fun y x => if dropped y then 0#32 else P.read planeQ y x)
      (afterDraws s.draws (rowsOfField s.field P.h))
    ∧ (s.regs.chromaLoss = 100000#64 → ∀ y, dropped y = true)

/-! ## Head switching (44_head_switching.md) -/

/-- `HSW` in RUN: the rows of the field from two below the switch row on are shifted inside their virtual line by a
shift that decays by 7/8 a row, the same noise entering both positions, with one draw where `HSW_NOISE` is not 0
(R251, R252, R253; the answer of the environment is log 3's). -/
def Obligations.HswShiftsRows : Prop :=
  ∀ (s : State) (P : Planes) (p1 p2 : Int), s.runsOn P →
    let tw : Int := P.w + P.w / 10
    let noise := if isZero s.regs.hswNoise then 0#64
      else fmul (unitOfAnswer (answerAt s.draws 0)) s.regs.hswNoise
    switchPosition s.regs.pal tw (fadd s.regs.hswPoint noise) = some p1 →
    switchPosition s.regs.pal tw (fadd s.regs.hswPhase noise) = some p2 →
    let y0 : Int := 2 * tdiv p1 tw + parity s.field - 2 * (if s.regs.pal then 24 else 22)
    let xs := p2 % tw
    let ishif := if tdiv tw 2 ≤ xs then xs - tw else xs
    let column (y x : Nat) : Nat := (((x : Int) + tw + decayed ishif (((y : Int) - y0 - 2) / 2).toNat) % tw).toNat
    passGives .hsw s P
      (fun y x => if y0 + 2 ≤ (y : Int) then (if column y x < P.w then P.read planeY y (column y x) else 0#32)
        else P.read planeY y x)
      (P.read planeI) (P.read planeQ)
      (if isZero s.regs.hswNoise then s.draws else afterDraws s.draws 1)

/-! ## The VHS stage (45_vhs_stage.md) -/

/-- `VLUMA` in RUN: three lowpass cells at the luma cutoff of the tape speed, the highpass of their output added back
with scale 1.6 (the coefficients are those of R271); a value of the field that does not fit raises `PlaneOverflow` and
changes no sample (R270, R272, R13, R363). For a `VHS_SPEED` above 2, which no run reaches, the coefficients are the
model's choice (log 14). -/
def Obligations.VlumaBandlimitsLuma : Prop :=
  ∀ (s : State) (P : Planes), s.runsOn P →
    let limited (y x : Nat) : F64 := vlumaValue (speedRow s.regs.vhsSpeed.toNat).1 (rowInput P planeY y) x
    (∀ Y : Nat → Nat → Sample,
      (∀ y < P.h, ∀ x < P.w, y % 2 = parity s.field → f2s (limited y x) = some (Y y x)) →
      passGives .vluma s P Y (P.read planeI) (P.read planeQ) s.draws)
    ∧ (someMisfit s.field P (fun y x => (f2s (limited y x)).isSome = true) →
      exec .vluma s = .next (takeFault .planeOverflow s))

/-- `VCHROMA` in RUN: `I` and `Q` lowpassed three times at the chroma cutoff of the tape speed and shifted left by its
delay (the coefficients are those of R271) (R270, R274, R200). For a `VHS_SPEED` above 2, which no run reaches, the
coefficients are the model's choice (log 14). -/
def Obligations.VchromaLowpassesChroma : Prop :=
  ∀ (s : State) (P : Planes) (I Q : Nat → Nat → Sample), s.runsOn P →
    let row := speedRow s.regs.vhsSpeed.toNat
    lowpassedPlane P s.field planeI row.2.1 row.2.2.1 I →
    lowpassedPlane P s.field planeQ row.2.1 row.2.2.1 Q →
    passGives .vchroma s P (P.read planeY) I Q s.draws

/-- `VBLEND` in RUN always completes: every chroma sample of the field becomes the rounded mean of itself and the
sample two rows above as it was before the command, 0 above the first row; in SETUP it raises `PhaseError` (R277). -/
def Obligations.VblendAveragesRows : Prop :=
  decode 0x32000000#32 = some .vblend
  ∧ (∀ (s : State) (P : Planes), s.runsOn P →
      let above (p y x : Nat) : Int := if y < 2 then 0 else (P.read p (y - 2) x).toInt
      passGives .vblend s P (P.read planeY)
        (fun y x => BitVec.ofInt 32 (tdiv (above planeI y x + (P.read planeI y x).toInt + 1) 2))
        (fun y x => BitVec.ofInt 32 (tdiv (above planeQ y x + (P.read planeQ y x).toInt + 1) 2)) s.draws
      ∧ ∀ p y x, inS32 (tdiv (above p y x + (P.read p y x).toInt + 1) 2) = true)
  ∧ ∀ s : State, s.phase = .setup → exec .vblend s = .next (takeFault .phaseError s)

/-- `VSHARP` in RUN: the difference from three lowpass cells at four times the luma cutoff, times the gain, times 2, is
added to `Y` (the coefficients are those of R271); a value of the field that does not fit raises `PlaneOverflow` and
changes no sample (R270, R279, R13, R363). For a `VHS_SPEED` above 2, which no run reaches, the coefficients are the
model's choice (log 14). -/
def Obligations.VsharpSharpensLuma : Prop :=
  ∀ (s : State) (P : Planes), s.runsOn P →
    let sharpened (y x : Nat) : F64 :=
      vsharpValue (speedRow s.regs.vhsSpeed.toNat).2.2.2 s.regs.vhsSharpen (rowInput P planeY y) x
    (∀ Y : Nat → Nat → Sample,
      (∀ y < P.h, ∀ x < P.w, y % 2 = parity s.field → f2s (sharpened y x) = some (Y y x)) →
      passGives .vsharp s P Y (P.read planeI) (P.read planeQ) s.draws)
    ∧ (someMisfit s.field P (fun y x => (f2s (sharpened y x)).isSome = true) →
      exec .vsharp s = .next (takeFault .planeOverflow s))

/-- `VHS` completes where none of the commands it is made of faults: `RDATA` 0, new planes of the same dimensions, no
draw, nothing else changed. On rows of the field that are all 0 it completes for every configuration and leaves the
planes as they were (R281, with R272, R274, R277, R279, R205, R216 to R220). -/
def Obligations.VhsCompletes : Prop :=
  ∀ (s : State) (P : Planes), s.runsOn P →
    ((issueAll (vhsProgram s.regs) s).resp = some (.ok 0#64) →
      ∃ P', exec .vhs s = .next (s.afterPass P' s.draws) ∧ P'.w = P.w ∧ P'.h = P.h)
    ∧ (isFinite s.regs.vhsSharpen = true →
      (∀ p < 3, ∀ y < P.h, ∀ x < P.w, y % 2 = parity s.field → P.read p y x = 0#32) →
      exec .vhs s = .next (s.afterPass P s.draws))

/-- `VHS` completes on picture content, for every configuration: with samples of at most `2^17` in magnitude, `SC_AMP` of
at most 100 and a sharpening gain of at most 4 in magnitude no step overflows; only the rows of the field change (R281,
R363, with R272, R274, R277, R279, R205, R216). The bounds are the statement's; a `VHS_SPEED` above 2 acts as log 14
says. -/
def Obligations.VhsCompletesOnPictureContent : Prop :=
  ∀ (s : State) (P : Planes), s.runsOn P → s.regs.scAmp.toNat ≤ 100 → within (i2f 4) s.regs.vhsSharpen = true →
    (∀ p < 3, ∀ y < P.h, ∀ x < P.w, -131072 ≤ (P.read p y x).toInt ∧ (P.read p y x).toInt ≤ 131072) →
    ∃ P', exec .vhs s = .next (s.afterPass P' s.draws) ∧ P'.w = P.w ∧ P'.h = P.h
      ∧ ∀ a, ¬ inField s.field P a → Memory.read P'.cells a = Memory.read P.cells a

/-! ## The field sequencer (46_field_sequencer.md) -/

/-- A macro is its steps issued one after another: `VHS` and `RUNFIELD` leave the state their programs leave, faults
and draws included; in SETUP they raise `PhaseError` (R281, R300, R302, R367). That the steps inside `VHS` are the units of
atomicity where `RUNFIELD` contains it is log 18's reading; in RUN the planes exist in every reachable state (log 10). -/
def Obligations.MacrosAreTheirPrograms : Prop :=
  decode 0x34000000#32 = some .vhs ∧ decode 0x38000000#32 = some .runfield
  ∧ (∀ s : State, (s.phase = .run → s.planes.isSome = true) →
      exec .vhs s = .next (issueAll (vhsProgram s.regs) s)
      ∧ exec .runfield s = .next (issueAll (runfieldProgram s.regs) s))
  ∧ ∀ s : State, s.phase = .setup → exec .vhs s = .next (takeFault .phaseError s)
      ∧ exec .runfield s = .next (takeFault .phaseError s)

/-- `RUNFIELD` completes and advances `FIELD`: with `EMU_EN = 0` it changes nothing else; with `EMU_EN = 1` and no
filter, noise, preemphasis, head switching or VHS enabled it completes on all samples within 21 bits (R302, R306). -/
def Obligations.RunfieldCompletesAndAdvances : Prop :=
  (∀ (s : State) (P : Planes), s.phase = .run → s.planes = some P → s.regs.emuEn = false →
    exec .runfield s = .next { s with field := s.field + 1#64, resp := some (.ok 0#64) })
  ∧ ∀ (s : State) (P : Planes), s.runsOn P → s.regs.emuEn = true →
    s.regs.inClp = false → s.regs.outClp = false → s.regs.hswEn = false → s.regs.vhsEn = false →
    isZero s.regs.compPre = true → s.regs.videoNoise = 0#64 → s.regs.chromaNoise = 0#64 →
    s.regs.chromaPhaseNoise = 0#64 → s.regs.chromaLoss = 0#64 → s.regs.scAmp.toNat ≤ 100 →
    (∀ p < 3, ∀ y < P.h, ∀ x < P.w, -1048576 ≤ (P.read p y x).toInt ∧ (P.read p y x).toInt ≤ 1048576) →
    ∃ P', exec .runfield s = .next
        { s with planes := some P', field := s.field + 1#64, resp := some (.ok 0#64) }
      ∧ issueAll [.mod, .demod false] s = s.afterPass P' s.draws
      ∧ P'.w = P.w ∧ P'.h = P.h
      ∧ ∀ a, ¬ inField s.field P a → Memory.read P'.cells a = Memory.read P.cells a

/-- `NEXTFIELD` in RUN: `FIELD` advances by 1 modulo `2^64`, nothing else changes; in SETUP it raises `PhaseError`
(R304). -/
def Obligations.NextfieldAdvances : Prop :=
  decode 0x39000000#32 = some .nextfield
  ∧ (∀ s : State, s.phase = .run → ∃ t, exec .nextfield s = .next t
      ∧ t = { s with field := t.field, resp := some (.ok 0#64) }
      ∧ t.field.toNat = (s.field.toNat + 1) % 18446744073709551616)
  ∧ ∀ s : State, s.phase = .setup → exec .nextfield s = .next (takeFault .phaseError s)

/-! ## The audio chain (47_audio_chain.md) -/

/-- `AUDF` in RUN: without ready cells it raises `PhaseError`, with `WDATA[63:32]` not 0 `InvalidArgument`; otherwise
the nine steps (`audioV2` to `audioOut`, the buzz of R328 by `lineTime` and `inWindow`) for channel 0 and then, with
`AUD_CH = 2`, for channel 1: the outputs, the cells after the frame, the draws, `AUD_T` advanced by 1; a sample that is
not finite raises `PlaneOverflow`, its draws spent (R322 to R333, R335, R336; the answers of the environment are log
3's, the spent draws log 19's; `AUD_CH` is 1 or 2 in every reachable state). -/
def Obligations.AudfProcessesFrame : Prop :=
  ∀ s : State, s.phase = .run →
    (s.audReady = false → exec .audf s = .next (takeFault .phaseError s))
    ∧ (s.audReady = true → s.wdata.extractLsb' 32 32 ≠ 0#32 → exec .audf s = .next (takeFault .invalidArgument s))
    ∧ (s.audReady = true → s.wdata.extractLsb' 32 32 = 0#32 →
        let pcm0 := (s.wdata.extractLsb' 0 16).toInt
        let pcm1 := (s.wdata.extractLsb' 16 16).toInt
        let v0 := audioV8 s.regs s.audT s.aud0 pcm0 (answerAt s.draws 0)
        let v1 := audioV8 s.regs s.audT s.aud1 pcm1 (answerAt s.draws (hissDraws s.regs))
        let d1 := afterDraws s.draws (hissDraws s.regs)
        let d2 := afterDraws s.draws (2 * hissDraws s.regs)
        (isFinite v0 = false → exec .audf s = .next (takeFault .planeOverflow { s with draws := d1 }))
        ∧ (isFinite v0 = true → s.regs.audCh = 1#64 →
            exec .audf s = .next { s with
              aud0 := audioCellsAfter s.regs s.audT s.aud0 pcm0 (answerAt s.draws 0)
              draws := d1, audT := s.audT + 1#64
              resp := some (.ok (0#48 ++ BitVec.ofInt 16 (audioOut v0))) })
        ∧ (isFinite v0 = true → isFinite v1 = false → s.regs.audCh = 2#64 →
            exec .audf s = .next (takeFault .planeOverflow { s with draws := d2 }))
        ∧ (isFinite v0 = true → isFinite v1 = true → s.regs.audCh = 2#64 →
            exec .audf s = .next { s with
              aud0 := audioCellsAfter s.regs s.audT s.aud0 pcm0 (answerAt s.draws 0)
              aud1 := audioCellsAfter s.regs s.audT s.aud1 pcm1 (answerAt s.draws (hissDraws s.regs))
              draws := d2, audT := s.audT + 1#64
              resp := some (.ok (0#32 ++ BitVec.ofInt 16 (audioOut v1) ++ BitVec.ofInt 16 (audioOut v0))) }))

/-- Each channel is independent: what a channel gives and keeps does not depend on the other channel's cells or sample,
for the same answers of the environment; channel 1's draw is the second one where there is a hiss (R320, R330; the
answers are log 3's). -/
def Obligations.AudioChannelsIndependent : Prop :=
  ∀ (s s' t t' : State) (v v' : DataWord), s.phase = .run →
    exec .audf s = .next t → exec .audf s' = .next t' → t.resp = some (.ok v) → t'.resp = some (.ok v') →
    (s' = { s with aud1 := s'.aud1, wdata := s'.wdata } → s.wdata.extractLsb' 0 16 = s'.wdata.extractLsb' 0 16 →
      v.extractLsb' 0 16 = v'.extractLsb' 0 16 ∧ t.aud0 = t'.aud0 ∧ t.audT = t'.audT)
    ∧ (s' = { s with aud0 := s'.aud0, wdata := s'.wdata } → s.wdata.extractLsb' 16 16 = s'.wdata.extractLsb' 16 16 →
      v.extractLsb' 16 16 = v'.extractLsb' 16 16 ∧ t.aud1 = t'.aud1 ∧ t.audT = t'.audT)

/-- The analog limiter gives 1 above 1, -1 below -1 and every other number as it is; step 9 scales, truncates and
saturates, so its output lies in the range of 16 bits (R329, R333, R13). -/
def Obligations.LimiterAndOutputRange : Prop :=
  (∀ v : F64, isNaN v = false →
    (flt 0x3FF0000000000000#64 v = true → limiter v = 0x3FF0000000000000#64)
    ∧ (flt v 0xBFF0000000000000#64 = true → limiter v = 0xBFF0000000000000#64)
    ∧ (fle 0xBFF0000000000000#64 v = true → fle v 0x3FF0000000000000#64 = true → limiter v = v)
    ∧ fle 0xBFF0000000000000#64 (limiter v) = true ∧ fle (limiter v) 0x3FF0000000000000#64 = true)
  ∧ ∀ v : F64, -32768 ≤ audioOut v ∧ audioOut v ≤ 32767
    ∧ (isFinite (fmul v (i2f 32768)) = true →
        audioOut v = max (-32768) (min 32767 (truncInt (fmul v (i2f 32768)))))
    ∧ (isInf (fmul v (i2f 32768)) = true → audioOut v = if isNeg v then -32768 else 32767)

/-! ## Faults and phases (60_exceptions.md, 30_encoding.md) -/

/-- Which phase accepts which command: SETUP and RUN answer every other command with `PhaseError`, recorded and entering
FAULTED; FAULTED answers it with `FAULT` and no change; an accepted command raises no `PhaseError`, but for `AUDF`
without ready cells (R108, R364, R368). In RUN the planes exist in every reachable state (log 10). -/
def Obligations.PhaseAcceptsCommands : Prop :=
  (∀ (i : Instr) (s : State), accepted s.phase i = false → s.phase ≠ .faulted →
    exec i s = .next { s with phase := .faulted, fcode := 4#8, finfo := s.cmd, resp := some .fault })
  ∧ (∀ (i : Instr) (s : State), accepted s.phase i = false → s.phase = .faulted →
    exec i s = .next { s with resp := some .fault })
  ∧ ∀ (i : Instr) (s t : State), accepted s.phase i = true → s.phase ≠ .faulted →
    (s.phase = .run → s.planes.isSome = true) → (i = .audf → s.audReady = true) →
    exec i s = .next t → t.resp = some .fault → t.fcode ≠ 4#8

/-- Taking a fault outside FAULTED records the code, the command word and the phase, the response is `FAULT`, nothing
else changes; in FAULTED nothing of the block changes and the first fault is kept. So a command other than a macro
that answers `FAULT` has changed nothing but the fault record and the phase; only draws can have been spent (R360,
R366, R367, R368). -/
def Obligations.FaultIsPrecise : Prop :=
  (∀ (c : FaultCode) (s : State), s.phase ≠ .faulted → takeFault c s =
    { s with phase := .faulted, fcode := c.code, finfo := s.cmd, resp := some .fault })
  ∧ (∀ (c : FaultCode) (s : State), s.phase = .faulted → takeFault c s = { s with resp := some .fault })
  ∧ ([.illegalCommand, .invalidArgument, .invalidParameter, .phaseError, .planeAddress, .planeOverflow,
      .filterNotConfigured] : List FaultCode).map FaultCode.code = [1#8, 2#8, 3#8, 4#8, 5#8, 6#8, 7#8]
  ∧ ∀ (i : Instr) (s t : State), s.phase ≠ .faulted → i ≠ .vhs → i ≠ .runfield →
    exec i s = .next t → t.resp = some .fault →
    t = { s with phase := .faulted, fcode := t.fcode, finfo := s.cmd, resp := some .fault, draws := t.draws }
      ∧ 1 ≤ t.fcode.toNat ∧ t.fcode.toNat ≤ 7

/-- Every command is answered and completes or faults: `exec` gives a next state with a response, for
every command in every state (R100, R365). That the port's words and the host's events are left alone is the model's
(log 1, log 12), as is that every fault of the spec is a next state (log 17). -/
def Obligations.EveryCommandIsAnswered : Prop :=
  ∀ (i : Instr) (s : State), ∃ t, exec i s = .next t ∧ t.resp.isSome = true
    ∧ t.cmd = s.cmd ∧ t.wdata = s.wdata ∧ t.host = s.host
    ∧ (t.resp = some .fault → t.phase = .faulted)

/-! ## Rules of the whole machine -/

/-- Which command can change which state: the configuration only `CFGW` and `CATV` in SETUP (R24, R407); `FIELD` only a
`CFGW` in SETUP and, in RUN, `RUNFIELD` and `NEXTFIELD`, which add 1 (R50); the general cells only the commands of the
filter bank (R54, R409); the audio cells only `SETUP` and `AUDF` (R56, R409); `AUD_T` only `SETUP` and `AUDF` (R335);
the planes only `SETUP`, `PWR`, `PIXW` and the field commands (R53); and `RESET` all of it. -/
def Obligations.WhoChangesWhat : Prop :=
  ∀ (i : Instr) (s t : State), exec i s = .next t → i ≠ .reset →
    (t.regs ≠ s.regs → s.phase = .setup ∧ ((∃ idx, i = .cfgw idx) ∨ ∃ k, i = .catv k))
    ∧ (t.field ≠ s.field → (s.phase = .setup ∧ i = .cfgw 0x03)
        ∨ (s.phase = .run ∧ (i = .runfield ∨ i = .nextfield) ∧ t.field = s.field + 1#64))
    ∧ (t.gf ≠ s.gf → isBankCommand i = true)
    ∧ (t.aud0 ≠ s.aud0 ∨ t.aud1 ≠ s.aud1 → i = .setup ∨ i = .audf)
    ∧ (t.audT ≠ s.audT → i = .setup ∨ i = .audf)
    ∧ (t.audReady ≠ s.audReady → i = .setup)
    ∧ (t.planes ≠ s.planes → i = .setup ∨ (∃ p, i = .pwr p) ∨ i = .pixw ∨ isFieldCommand i = true)

/-- A stage or macro command leaves every row of the other parity, and every address outside the planes' rows of the
field, as it was, whether it completes or faults (R76, R303). -/
def Obligations.OtherRowsKeepTheirValues : Prop :=
  ∀ (i : Instr) (s t : State) (P : Planes), isFieldCommand i = true → s.planes = some P → exec i s = .next t →
    ∃ P', t.planes = some P' ∧ P'.w = P.w ∧ P'.h = P.h
      ∧ ∀ a, ¬ inField s.field P a → Memory.read P'.cells a = Memory.read P.cells a

/-- With every amount register 0 no command makes a draw; and whatever the registers, only the commands that draw by
their rule make one (R306, R410). -/
def Obligations.SilentCommandsMakeNoDraw : Prop :=
  ∀ (i : Instr) (s t : State), exec i s = .next t →
    (s.regs.videoNoise = 0#64 ∧ s.regs.chromaNoise = 0#64 ∧ s.regs.chromaPhaseNoise = 0#64
      ∧ s.regs.chromaLoss = 0#64 ∧ isZero s.regs.hswNoise = true ∧ s.regs.audHissLevel = 0#64)
      ∨ i ∉ [Instr.ynoise, .hsw, .cnoise, .cphase, .cdrop, .runfield, .audf] →
    t.draws = s.draws

/-- `Draw(lo, hi)` lies in its range, takes every value of it for some answer, and asks nothing when `lo = hi`;
`DrawUnit()` is finite and lies in `[-1, 1)` (R16; how an answer stands for a value is log 3's). -/
def Obligations.DrawsLieInTheirRange : Prop :=
  (∀ (lo hi : Int) (d : DrawSource), lo ≤ hi → lo ≤ (draw lo hi d).1 ∧ (draw lo hi d).1 ≤ hi)
  ∧ (∀ (lo hi v : Int) (rest : List Nat) (n : Nat), lo ≤ v → v ≤ hi →
      ∃ a, (draw lo hi ⟨a :: rest, n⟩).1 = v)
  ∧ (∀ (lo : Int) (d : DrawSource), draw lo lo d = (lo, d))
  ∧ ∀ d : DrawSource, isFinite (drawUnit d).1 = true ∧ fle 0xBFF0000000000000#64 (drawUnit d).1 = true
      ∧ flt (drawUnit d).1 0x3FF0000000000000#64 = true

/-! ## Binary64 (00_scope.md R12) -/

/-- Addition, multiplication and division of finite values are rounded to the nearest binary64: no finite value lies
nearer the exact result (held in units of `2^-1074`) than a finite result does, and at equal distance from another
value the result is the even one (R12). -/
def Obligations.OperationsRoundToNearestEven : Prop :=
  ∀ a b q : F64, isFinite a = true → isFinite b = true → isFinite q = true →
    (isFinite (fadd a b) = true →
      let err (r : F64) : Nat := (toUnits a + toUnits b - toUnits r).natAbs
      err (fadd a b) ≤ err q ∧ (err q = err (fadd a b) → toUnits q ≠ toUnits (fadd a b) → (fadd a b).toNat % 2 = 0))
    ∧ (isFinite (fmul a b) = true →
      let err (r : F64) : Nat := (toUnits a * toUnits b - toUnits r * unitsPerOne).natAbs
      err (fmul a b) ≤ err q ∧ (err q = err (fmul a b) → toUnits q ≠ toUnits (fmul a b) → (fmul a b).toNat % 2 = 0))
    ∧ (isZero b = false → isFinite (fdiv a b) = true →
      let err (r : F64) : Nat := (toUnits a * unitsPerOne - toUnits r * toUnits b).natAbs
      err (fdiv a b) ≤ err q ∧ (err q = err (fdiv a b) → toUnits q ≠ toUnits (fdiv a b) → (fdiv a b).toNat % 2 = 0))

/-- What the operations give beyond finite results: a result is finite exactly when the exact result lies below the
halfway point above the largest finite value, and otherwise an infinity of its sign; an exact zero sum is `+0` unless
both operands are negative; products and quotients have the sign of the operands' signs, zeros included; infinities and
NaNs as operands (R12, R174). Exact results are held in units of `2^-1074`. -/
def Obligations.OperationsOnSpecialValues : Prop :=
  let limit : Nat := (2 ^ 54 - 1) * 2 ^ 2044
  let infinite (neg : Bool) : F64 := if neg then 0xFFF0000000000000#64 else 0x7FF0000000000000#64
  let zero (neg : Bool) : F64 := if neg then 0x8000000000000000#64 else 0#64
  (∀ a b : F64, isFinite a = true → isFinite b = true →
    (isFinite (fadd a b) = true ↔ (toUnits a + toUnits b).natAbs < limit)
    ∧ (isFinite (fadd a b) = false → fadd a b = infinite (decide (toUnits a + toUnits b < 0)))
    ∧ (toUnits a + toUnits b = 0 → fadd a b = zero (isNeg a && isNeg b))
    ∧ (isFinite (fmul a b) = true ↔ (toUnits a * toUnits b).natAbs < limit * unitsPerOne)
    ∧ (isFinite (fmul a b) = false → fmul a b = infinite (isNeg a != isNeg b))
    ∧ isNeg (fmul a b) = (isNeg a != isNeg b)
    ∧ (isZero b = false →
      (isFinite (fdiv a b) = true ↔ (toUnits a).natAbs * unitsPerOne < limit * (toUnits b).natAbs)
      ∧ (isFinite (fdiv a b) = false → fdiv a b = infinite (isNeg a != isNeg b))
      ∧ isNeg (fdiv a b) = (isNeg a != isNeg b))
    ∧ (isZero b = true →
      if isZero a then isNaN (fdiv a b) = true else fdiv a b = infinite (isNeg a != isNeg b)))
  ∧ (∀ a b : F64, isNaN a = true ∨ isNaN b = true →
    isNaN (fadd a b) = true ∧ isNaN (fmul a b) = true ∧ isNaN (fdiv a b) = true)
  ∧ (∀ a b : F64, isInf a = true → isFinite b = true →
    fadd a b = a ∧ fadd b a = a ∧ fdiv a b = infinite (isNeg a != isNeg b)
    ∧ fdiv b a = zero (isNeg a != isNeg b)
    ∧ if isZero b then isNaN (fmul a b) = true ∧ isNaN (fmul b a) = true
      else fmul a b = infinite (isNeg a != isNeg b) ∧ fmul b a = infinite (isNeg a != isNeg b))
  ∧ (∀ a b : F64, isInf a = true → isInf b = true →
    (if isNeg a = isNeg b then fadd a b = a else isNaN (fadd a b) = true)
    ∧ fmul a b = infinite (isNeg a != isNeg b) ∧ isNaN (fdiv a b) = true)
  ∧ ∀ a b : F64, fsub a b = fadd a (b ^^^ 0x8000000000000000#64)

/-- The conversions: `trunc` rounds toward zero, `f2i` is it where it lies in `S32` and faults otherwise, `rnd` is the
nearest integer with ties away from zero, `ffloor` the largest integral value not above, `ffmod` the exact remainder,
`i2f` exact up to `2^53` and the nearest binary64, ties to even, beyond; `clamp` of a truncation (R12, R13). Values are
held in units of `2^-1074`. -/
def Obligations.ConversionsFollowTheirRules : Prop :=
  let one : Int := unitsPerOne
  (∀ v : F64, isFinite v = true →
    (0 ≤ toUnits v → truncInt v * one ≤ toUnits v ∧ toUnits v < (truncInt v + 1) * one)
    ∧ (toUnits v ≤ 0 → toUnits v ≤ truncInt v * one ∧ (truncInt v - 1) * one < toUnits v)
    ∧ (-2147483648 ≤ truncInt v ∧ truncInt v ≤ 2147483647 → f2i v = some (truncInt v))
    ∧ (truncInt v < -2147483648 ∨ 2147483647 < truncInt v → f2i v = none)
    ∧ 2 * (roundAway v * one - toUnits v).natAbs ≤ unitsPerOne
    ∧ (2 * (roundAway v * one - toUnits v).natAbs = unitsPerOne → (toUnits v).natAbs ≤ (roundAway v * one).natAbs)
    ∧ isFinite (ffloor v) = true
    ∧ (∃ n : Int, toUnits (ffloor v) = n * one ∧ n * one ≤ toUnits v ∧ toUnits v < (n + 1) * one)
    ∧ ∀ lo hi : Int, lo ≤ hi → clampTrunc v lo hi = max lo (min hi (truncInt v)))
  ∧ (∀ v : F64, isFinite v = false → f2i v = none)
  ∧ (∀ v : F64, isInf v = true → ∀ lo hi : Int, clampTrunc v lo hi = if isNeg v then lo else hi)
  ∧ (∀ a b : F64, isFinite a = true → isFinite b = true → fle 0#64 a = true → flt 0#64 b = true →
    isFinite (ffmod a b) = true ∧ toUnits (ffmod a b) = toUnits a % toUnits b)
  ∧ (∀ n : Int, n.natAbs ≤ 2 ^ 53 → isFinite (i2f n) = true ∧ toUnits (i2f n) = n * one)
  ∧ ∀ (n : Int) (q : F64), isFinite (i2f n) = true → isFinite q = true →
    let err (r : F64) : Nat := (n * one - toUnits r).natAbs
    err (i2f n) ≤ err q ∧ (err q = err (i2f n) → toUnits q ≠ toUnits (i2f n) → (i2f n).toNat % 2 = 0)

/-! ## Invariants that every step keeps -/

/-- Every register keeps a legal value (R24 to R49, R132, R136). -/
def Obligations.RegistersStayLegal : Prop :=
  ∀ s t : State, s.RegsLegal → step s = .next t → t.RegsLegal

/-- The plane memory keeps its canonical form inside the plane space (R70, R71; the form is log 9's). -/
def Obligations.PlanesStayCanonical : Prop :=
  ∀ s t : State, s.RegsLegal → s.PlanesCanonical → step s = .next t → t.PlanesCanonical

/-- Phase, planes, dimensions, audio and the fault record keep going together (R21, R52, R53, R56, R366, R367, R370). -/
def Obligations.LifeCycleIsKept : Prop :=
  ∀ s t : State, s.LifeCycle → step s = .next t → t.LifeCycle

/-- No NaN and no infinity enters a general cell (R174, R161, R166). -/
def Obligations.GeneralCellsStayFinite : Prop :=
  ∀ s t : State, s.BankFinite → step s = .next t → t.BankFinite

/-- No NaN and no infinity enters an audio cell: the contents stay in their bounds, and the bounds hold only finite
values (R174, R333, R135). The bounds are the model's own reasoning from R323 to R332. -/
def Obligations.AudioCellsStayFinite : Prop :=
  (∀ s : State, s.AudioBounded → s.AudioFinite)
  ∧ ∀ s t : State, s.AudioBounded → step s = .next t → t.AudioBounded
end

