-- ==== Sys2Proof/Laws/Memory.lean ====
section
/-!
SUPPORT. Plane memory: what a read gives after a write, and that every memory operation keeps the canonical form.
-/
namespace Sys2Proof.Machine

/-! ## Reading -/

theorem read_append_left (l r : Memory) (a : Nat) (h : ∀ e ∈ r, e.1 ≠ a) :
    Memory.read (l ++ r) a = Memory.read l a := by
  induction l with
  | nil =>
    induction r with
    | nil => rfl
    | cons e r ih =>
      have hne : e.1 ≠ a := h e (by simp)
      have hr : ∀ e ∈ r, e.1 ≠ a := fun e he => h e (by simp [he])
      simpa [Memory.read, hne] using ih hr
  | cons e l ih => simp [Memory.read, ih]

theorem read_append_right (l r : Memory) (a : Nat) (h : ∀ e ∈ l, e.1 ≠ a) :
    Memory.read (l ++ r) a = Memory.read r a := by
  induction l with
  | nil => rfl
  | cons e l ih =>
    have hne : e.1 ≠ a := h e (by simp)
    have hl : ∀ e ∈ l, e.1 ≠ a := fun e he => h e (by simp [he])
    simpa [Memory.read, hne] using ih hl

theorem read_filter (m : Memory) (p : Nat → Bool) (a : Nat) (h : p a = true) :
    Memory.read (m.filter (fun e => p e.1)) a = Memory.read m a := by
  induction m with
  | nil => rfl
  | cons e m ih =>
    by_cases he : e.1 = a
    · simp [Memory.read, he, h]
    · by_cases hp : p e.1 = true
      · simp [Memory.read, he, hp, ih]
      · simp [Memory.read, he, hp, ih]

theorem entries_range {base : Nat} {vs : List Sample} {e : Nat × Sample}
    (he : e ∈ Memory.entries base vs) : base ≤ e.1 ∧ e.1 < base + vs.length ∧ e.2 ≠ 0#32 := by
  induction vs generalizing base with
  | nil => simp [Memory.entries] at he
  | cons v vs ih =>
    by_cases hv : v = 0#32
    · rw [Memory.entries, if_pos hv] at he
      have := ih he
      simp only [List.length_cons]
      exact ⟨by omega, by omega, this.2.2⟩
    · rw [Memory.entries, if_neg hv, List.mem_cons] at he
      simp only [List.length_cons]
      rcases he with rfl | he
      · exact ⟨Nat.le_refl _, by omega, hv⟩
      · have := ih he
        exact ⟨by omega, by omega, this.2.2⟩

theorem read_entries (base : Nat) (vs : List Sample) (a : Nat) (h : base ≤ a) :
    Memory.read (Memory.entries base vs) a = vs.getD (a - base) 0#32 := by
  induction vs generalizing base with
  | nil => simp [Memory.entries, Memory.read]
  | cons v vs ih =>
    rcases Nat.eq_or_lt_of_le h with rfl | hlt
    · by_cases hv : v = 0#32
      · rw [Memory.entries, if_pos hv]
        have hno : ∀ e ∈ Memory.entries (base + 1) vs, e.1 ≠ base := fun e he => by
          have := (entries_range he).1; omega
        have := read_append_left [] (Memory.entries (base + 1) vs) base hno
        simpa [Memory.read, hv] using this
      · simp [Memory.entries, hv, Memory.read]
    · have ha : a - base = (a - (base + 1)) + 1 := by omega
      rw [ha, List.getD_cons_succ, ← ih (base + 1) hlt]
      by_cases hv : v = 0#32
      · rw [Memory.entries, if_pos hv]
      · rw [Memory.entries, if_neg hv, Memory.read, if_neg (by omega)]

/-- What a read gives after samples were stored (20_memory.md R73, R80). -/
theorem read_writeRange (m : Memory) (base : Nat) (vs : List Sample) (a : Nat) :
    Memory.read (Memory.writeRange m base vs) a
      = if base ≤ a ∧ a < base + vs.length then vs.getD (a - base) 0#32 else Memory.read m a := by
  unfold Memory.writeRange
  have hlo : ∀ e ∈ m.filter (fun e => decide (e.1 < base)), e.1 < base := fun e he => by
    simpa using (List.mem_filter.mp he).2
  have hhi : ∀ e ∈ m.filter (fun e => decide (base + vs.length ≤ e.1)), base + vs.length ≤ e.1 :=
    fun e he => by simpa using (List.mem_filter.mp he).2
  by_cases h : base ≤ a ∧ a < base + vs.length
  · rw [if_pos h, read_append_left _ _ _ (fun e he => by have := hhi e he; omega),
      read_append_right _ _ _ (fun e he => by have := hlo e he; omega), read_entries _ _ _ h.1]
  · rw [if_neg h]
    by_cases hb : a < base
    · rw [read_append_left _ _ _ (fun e he => by have := hhi e he; omega),
        read_append_left _ _ _ (fun e he => by have := (entries_range he).1; omega)]
      exact read_filter m (fun k => decide (k < base)) a (by simpa using hb)
    · rw [read_append_right]
      · exact read_filter m (fun k => decide (base + vs.length ≤ k)) a (by simp; omega)
      · intro e he
        rcases List.mem_append.mp he with he | he
        · have := hlo e he; omega
        · have := (entries_range he).2.1; omega

/-! ## The canonical form -/

theorem wf_iff (m : Memory) :
    Memory.wf m = true ↔ m.Pairwise (fun a b => a.1 < b.1) ∧ ∀ e ∈ m, e.2 ≠ 0#32 := by
  simp only [Memory.wf, Bool.and_eq_true, decide_eq_true_eq, List.all_eq_true]

theorem pairwise_entries (base : Nat) (vs : List Sample) :
    (Memory.entries base vs).Pairwise (fun a b => a.1 < b.1) := by
  induction vs generalizing base with
  | nil => simp [Memory.entries]
  | cons v vs ih =>
    by_cases hv : v = 0#32
    · rw [Memory.entries, if_pos hv]; exact ih _
    · rw [Memory.entries, if_neg hv, List.pairwise_cons]
      exact ⟨fun e he => by have := (entries_range he).1; simp only; omega, ih _⟩

/-- Storing samples keeps the canonical form. -/
theorem wf_writeRange (m : Memory) (base : Nat) (vs : List Sample) (h : Memory.wf m = true) :
    Memory.wf (Memory.writeRange m base vs) = true := by
  obtain ⟨hp, hz⟩ := (wf_iff m).mp h
  refine (wf_iff _).mpr ⟨?_, ?_⟩
  · unfold Memory.writeRange
    refine List.pairwise_append.mpr ⟨List.pairwise_append.mpr ⟨hp.filter _, pairwise_entries _ _, ?_⟩,
      hp.filter _, ?_⟩
    · intro a ha b hb
      have h1 : a.1 < base := by simpa using (List.mem_filter.mp ha).2
      have h2 := (entries_range hb).1
      omega
    · intro a ha b hb
      have h2 : base + vs.length ≤ b.1 := by simpa using (List.mem_filter.mp hb).2
      rcases List.mem_append.mp ha with ha | ha
      · have h1 : a.1 < base := by simpa using (List.mem_filter.mp ha).2
        omega
      · have := (entries_range ha).2.1; omega
  · intro e he
    rcases List.mem_append.mp he with he | he
    · rcases List.mem_append.mp he with he | he
      · exact hz e (List.mem_filter.mp he).1
      · exact (entries_range he).2.2
    · exact hz e (List.mem_filter.mp he).1

theorem mem_writeRange {m : Memory} {base : Nat} {vs : List Sample} {e : Nat × Sample}
    (he : e ∈ Memory.writeRange m base vs) : e ∈ m ∨ (base ≤ e.1 ∧ e.1 < base + vs.length) := by
  rcases List.mem_append.mp he with he | he
  · rcases List.mem_append.mp he with he | he
    · exact .inl (List.mem_filter.mp he).1
    · exact .inr ⟨(entries_range he).1, (entries_range he).2.1⟩
  · exact .inl (List.mem_filter.mp he).1

/-! ## Addresses (20_memory.md R70) -/

theorem planeAddr_parts (p y x : Nat) (hy : y < 65536) (hx : x < 65536) :
    planeAddr p y x / 4294967296 = p ∧ planeAddr p y x / 65536 % 65536 = y
      ∧ planeAddr p y x % 65536 = x := by
  unfold planeAddr; omega

/-- Different places have different addresses. -/
theorem planeAddr_inj {p y x p' y' x' : Nat} (hy : y < 65536) (hx : x < 65536) (hy' : y' < 65536)
    (hx' : x' < 65536) (h : planeAddr p y x = planeAddr p' y' x') : p = p' ∧ y = y' ∧ x = x' := by
  have h1 := planeAddr_parts p y x hy hx
  have h2 := planeAddr_parts p' y' x' hy' hx'
  rw [h] at h1
  exact ⟨h1.1.symm.trans h2.1, h1.2.1.symm.trans h2.2.1, h1.2.2.symm.trans h2.2.2⟩

/-! ## The planes -/

theorem planes_wf_iff (P : Planes) :
    P.wf = true ↔ (1 ≤ P.w ∧ P.w < 65536 ∧ 1 ≤ P.h ∧ P.h < 65536) ∧ Memory.wf P.cells = true
      ∧ ∀ e ∈ P.cells, P.inside (e.1 / 4294967296) (e.1 / 65536 % 65536) (e.1 % 65536) = true := by
  simp only [Planes.wf, Bool.and_eq_true, decide_eq_true_eq, List.all_eq_true, and_assoc]

@[simp] theorem write_w (P : Planes) (p y x : Nat) (v : Sample) : (P.write p y x v).w = P.w := rfl
@[simp] theorem write_h (P : Planes) (p y x : Nat) (v : Sample) : (P.write p y x v).h = P.h := rfl
@[simp] theorem writeRow_w (P : Planes) (p y : Nat) (vs : List Sample) : (P.writeRow p y vs).w = P.w := rfl
@[simp] theorem writeRow_h (P : Planes) (p y : Nat) (vs : List Sample) : (P.writeRow p y vs).h = P.h := rfl
@[simp] theorem setRow_w (P : Planes) (y : Nat) (r : Row) : (P.setRow y r).w = P.w := rfl
@[simp] theorem setRow_h (P : Planes) (y : Nat) (r : Row) : (P.setRow y r).h = P.h := rfl

/-- A store of samples inside one row of the plane space keeps the canonical form of the planes. -/
theorem planes_wf_store (P : Planes) (p y x : Nat) (vs : List Sample) (h : P.wf = true) (hp : p < 3)
    (hy : y < P.h) (hx : x + vs.length ≤ P.w) :
    Planes.wf { P with cells := Memory.writeRange P.cells (planeAddr p y x) vs } = true := by
  obtain ⟨hd, hm, hin⟩ := (planes_wf_iff P).mp h
  refine (planes_wf_iff _).mpr ⟨hd, wf_writeRange _ _ _ hm, fun e he => ?_⟩
  rcases mem_writeRange he with he | ⟨h1, h2⟩
  · exact hin e he
  · obtain ⟨k, hk⟩ := Nat.exists_eq_add_of_le h1
    have haddr : e.1 = planeAddr p y (x + k) := by rw [hk]; unfold planeAddr; omega
    obtain ⟨hp', hy', hx'⟩ := planeAddr_parts p y (x + k) (by omega) (by omega)
    rw [haddr, hp', hy', hx']
    simp only [Planes.inside, decide_eq_true_eq]
    omega

/-- `PlaneWrite` keeps the canonical form (20_memory.md R73). -/
theorem wf_write (P : Planes) (p y x : Nat) (v : Sample) (h : P.wf = true) (hi : P.inside p y x = true) :
    (P.write p y x v).wf = true := by
  simp only [Planes.inside, decide_eq_true_eq] at hi
  exact planes_wf_store P p y x [v] h hi.1 hi.2.1 (by simp; omega)

/-- Storing a row keeps the canonical form. -/
theorem wf_writeRow (P : Planes) (p y : Nat) (vs : List Sample) (h : P.wf = true) (hp : p < 3)
    (hy : y < P.h) : (P.writeRow p y vs).wf = true :=
  planes_wf_store P p y 0 (vs.take P.w) h hp hy (by simp)

/-- Storing the three planes of a row keeps the canonical form (20_memory.md R77). -/
theorem wf_setRow (P : Planes) (y : Nat) (r : Row) (h : P.wf = true) (hy : y < P.h) :
    (P.setRow y r).wf = true :=
  wf_writeRow _ _ _ _ (wf_writeRow _ _ _ _ (wf_writeRow _ _ _ _ h (by decide) hy) (by decide) hy)
    (by decide) hy

/-- The planes `SETUP` creates are canonical (10_state.md R31, R53). -/
theorem wf_zero (w h : Nat) (hw : 1 ≤ w ∧ w < 65536) (hh : 1 ≤ h ∧ h < 65536) :
    (Planes.zero w h).wf = true := by
  refine (planes_wf_iff _).mpr ⟨⟨hw.1, hw.2, hh.1, hh.2⟩, rfl, ?_⟩
  intro e he
  simp [Planes.zero] at he

@[simp] theorem read_zero (w h p y x : Nat) : (Planes.zero w h).read p y x = 0#32 := rfl

/-- A read after a write of one sample (20_memory.md R80). -/
theorem read_write (P : Planes) (p y x : Nat) (v : Sample) (a : Nat) :
    Memory.read (P.write p y x v).cells a
      = if a = planeAddr p y x then v else Memory.read P.cells a := by
  unfold Planes.write
  simp only [read_writeRange, List.length_singleton]
  by_cases h : a = planeAddr p y x
  · simp [h]
  · rw [if_neg (by omega), if_neg h]

/-- A read after a row was stored. -/
theorem read_writeRow (P : Planes) (p y : Nat) (vs : List Sample) (hl : vs.length = P.w) (a : Nat) :
    Memory.read (P.writeRow p y vs).cells a
      = if planeAddr p y 0 ≤ a ∧ a < planeAddr p y 0 + P.w then vs.getD (a - planeAddr p y 0) 0#32
        else Memory.read P.cells a := by
  unfold Planes.writeRow
  rw [List.take_of_length_le (by omega)]
  simp only [read_writeRange, hl]

@[simp] theorem length_readRow (P : Planes) (p y : Nat) : (P.readRow p y).length = P.w := by
  simp [Planes.readRow]

theorem getD_readRow (P : Planes) (p y x : Nat) (hx : x < P.w) :
    (P.readRow p y).getD x 0#32 = P.read p y x := by
  simp [Planes.readRow, List.getD, hx]

/-- A row reads back as it was stored. -/
theorem readRow_writeRow_same (P : Planes) (p y : Nat) (vs : List Sample) (hl : vs.length = P.w) :
    (P.writeRow p y vs).readRow p y = vs := by
  apply List.ext_getElem
  · simp [hl]
  · intro x hx hx'
    have hxw : x < P.w := by simpa using hx
    have h := read_writeRow P p y vs hl (planeAddr p y x)
    rw [if_pos (by unfold planeAddr; omega)] at h
    have hs : planeAddr p y x - planeAddr p y 0 = x := by unfold planeAddr; omega
    rw [hs] at h
    simp only [Planes.readRow, List.getElem_map, List.getElem_range]
    rw [show (P.writeRow p y vs).read p y x = _ from h]
    simp [List.getD, hx']

/-- A row of another plane, or another row, reads as before. -/
theorem readRow_writeRow_other (P : Planes) (p y p' y' : Nat) (vs : List Sample) (hl : vs.length = P.w)
    (hw : P.w < 65536) (hy : y < 65536) (hy' : y' < 65536) (hne : p ≠ p' ∨ y ≠ y') :
    (P.writeRow p y vs).readRow p' y' = P.readRow p' y' := by
  simp only [Planes.readRow, writeRow_w]
  apply List.map_congr_left
  intro x hx
  have hx : x < P.w := by simpa using hx
  have h := read_writeRow P p y vs hl (planeAddr p' y' x)
  rw [if_neg (by unfold planeAddr; omega)] at h
  exact h

/-- The three planes of a row have one width (10_state.md R52). -/
def Row.Wide (r : Row) (w : Nat) : Prop := r.y.length = w ∧ r.i.length = w ∧ r.q.length = w

theorem wide_row (P : Planes) (y : Nat) : (P.row y).Wide P.w := by
  simp [Planes.row, Row.Wide]

/-- A row reads back as it was stored, all three planes of it (20_memory.md R77). -/
theorem row_setRow_same (P : Planes) (y : Nat) (r : Row) (hr : r.Wide P.w) (hw : P.w < 65536)
    (hy : y < 65536) : (P.setRow y r).row y = r := by
  obtain ⟨h1, h2, h3⟩ := hr
  unfold Planes.row Planes.setRow
  rw [readRow_writeRow_same _ _ _ _ (by simpa using h3),
    readRow_writeRow_other _ planeQ _ planeY _ _ (by simpa using h3) (by simpa using hw) hy hy
      (.inl (by decide)),
    readRow_writeRow_other _ planeI _ planeY _ _ (by simpa using h2) (by simpa using hw) hy hy
      (.inl (by decide)),
    readRow_writeRow_same _ _ _ _ h1,
    readRow_writeRow_other _ planeQ _ planeI _ _ (by simpa using h3) (by simpa using hw) hy hy
      (.inl (by decide)),
    readRow_writeRow_same _ _ _ _ (by simpa using h2)]

/-- Another row reads as before. -/
theorem row_setRow_other (P : Planes) (y y' : Nat) (r : Row) (hr : r.Wide P.w) (hw : P.w < 65536)
    (hy : y < 65536) (hy' : y' < 65536) (hne : y ≠ y') : (P.setRow y r).row y' = P.row y' := by
  obtain ⟨h1, h2, h3⟩ := hr
  unfold Planes.row Planes.setRow
  simp only [readRow_writeRow_other _ _ _ _ _ _
      (show r.q.length = ((P.writeRow planeY y r.y).writeRow planeI y r.i).w by simpa using h3)
      (by simpa using hw) hy hy' (.inr hne),
    readRow_writeRow_other _ _ _ _ _ _ (show r.i.length = (P.writeRow planeY y r.y).w by simpa using h2)
      (by simpa using hw) hy hy' (.inr hne),
    readRow_writeRow_other _ _ _ _ _ _ h1 hw hy hy' (.inr hne)]

/-- An address outside a stored row reads as before. -/
theorem read_writeRow_frame (P : Planes) (p y : Nat) (vs : List Sample) (a : Nat)
    (ha : ∀ x, x < P.w → a ≠ planeAddr p y x) :
    Memory.read (P.writeRow p y vs).cells a = Memory.read P.cells a := by
  unfold Planes.writeRow
  simp only [read_writeRange]
  rw [if_neg]
  intro h
  have hl : (vs.take P.w).length ≤ P.w := by simp
  refine ha (a - planeAddr p y 0) (by omega) ?_
  have : planeAddr p y (a - planeAddr p y 0) = planeAddr p y 0 + (a - planeAddr p y 0) := by
    unfold planeAddr; omega
  omega

/-- An address outside the three planes of a row reads as before. -/
theorem read_setRow_frame (P : Planes) (y : Nat) (r : Row) (a : Nat)
    (ha : ∀ p x, p < 3 → x < P.w → a ≠ planeAddr p y x) :
    Memory.read (P.setRow y r).cells a = Memory.read P.cells a := by
  unfold Planes.setRow
  rw [read_writeRow_frame ((P.writeRow planeY y r.y).writeRow planeI y r.i) planeQ y r.q a
      (fun x hx => ha planeQ x (by decide) hx),
    read_writeRow_frame (P.writeRow planeY y r.y) planeI y r.i a (fun x hx => ha planeI x (by decide) hx),
    read_writeRow_frame P planeY y r.y a (fun x hx => ha planeY x (by decide) hx)]

end Sys2Proof.Machine
end

