-- ==== Sys2Proof/Laws/State.lean ====
section
/-!
SUPPORT. One lemma per field per update of the state, so that no later proof unfolds a record update.
-/
namespace Sys2Proof.Machine

/-! ## answer -/

@[simp] theorem answer_phase (v : DataWord) (s : State) : (answer v s).phase = s.phase := rfl
@[simp] theorem answer_fcode (v : DataWord) (s : State) : (answer v s).fcode = s.fcode := rfl
@[simp] theorem answer_finfo (v : DataWord) (s : State) : (answer v s).finfo = s.finfo := rfl
@[simp] theorem answer_regs (v : DataWord) (s : State) : (answer v s).regs = s.regs := rfl
@[simp] theorem answer_field (v : DataWord) (s : State) : (answer v s).field = s.field := rfl
@[simp] theorem answer_planes (v : DataWord) (s : State) : (answer v s).planes = s.planes := rfl
@[simp] theorem answer_gf (v : DataWord) (s : State) : (answer v s).gf = s.gf := rfl
@[simp] theorem answer_aud0 (v : DataWord) (s : State) : (answer v s).aud0 = s.aud0 := rfl
@[simp] theorem answer_aud1 (v : DataWord) (s : State) : (answer v s).aud1 = s.aud1 := rfl
@[simp] theorem answer_audReady (v : DataWord) (s : State) : (answer v s).audReady = s.audReady := rfl
@[simp] theorem answer_audT (v : DataWord) (s : State) : (answer v s).audT = s.audT := rfl
@[simp] theorem answer_cmd (v : DataWord) (s : State) : (answer v s).cmd = s.cmd := rfl
@[simp] theorem answer_wdata (v : DataWord) (s : State) : (answer v s).wdata = s.wdata := rfl
@[simp] theorem answer_resp (v : DataWord) (s : State) : (answer v s).resp = some (.ok v) := rfl
@[simp] theorem answer_host (v : DataWord) (s : State) : (answer v s).host = s.host := rfl
@[simp] theorem answer_draws (v : DataWord) (s : State) : (answer v s).draws = s.draws := rfl

/-! ## takeFault: what every fault leaves unchanged (60_exceptions.md R366, R367) -/

@[simp] theorem takeFault_regs (c : FaultCode) (s : State) :
    (takeFault c s).regs = s.regs := by
  unfold takeFault; split <;> rfl
@[simp] theorem takeFault_field (c : FaultCode) (s : State) :
    (takeFault c s).field = s.field := by
  unfold takeFault; split <;> rfl
@[simp] theorem takeFault_planes (c : FaultCode) (s : State) :
    (takeFault c s).planes = s.planes := by
  unfold takeFault; split <;> rfl
@[simp] theorem takeFault_gf (c : FaultCode) (s : State) :
    (takeFault c s).gf = s.gf := by
  unfold takeFault; split <;> rfl
@[simp] theorem takeFault_aud0 (c : FaultCode) (s : State) :
    (takeFault c s).aud0 = s.aud0 := by
  unfold takeFault; split <;> rfl
@[simp] theorem takeFault_aud1 (c : FaultCode) (s : State) :
    (takeFault c s).aud1 = s.aud1 := by
  unfold takeFault; split <;> rfl
@[simp] theorem takeFault_audReady (c : FaultCode) (s : State) :
    (takeFault c s).audReady = s.audReady := by
  unfold takeFault; split <;> rfl
@[simp] theorem takeFault_audT (c : FaultCode) (s : State) :
    (takeFault c s).audT = s.audT := by
  unfold takeFault; split <;> rfl
@[simp] theorem takeFault_cmd (c : FaultCode) (s : State) :
    (takeFault c s).cmd = s.cmd := by
  unfold takeFault; split <;> rfl
@[simp] theorem takeFault_wdata (c : FaultCode) (s : State) :
    (takeFault c s).wdata = s.wdata := by
  unfold takeFault; split <;> rfl
@[simp] theorem takeFault_host (c : FaultCode) (s : State) :
    (takeFault c s).host = s.host := by
  unfold takeFault; split <;> rfl
@[simp] theorem takeFault_draws (c : FaultCode) (s : State) :
    (takeFault c s).draws = s.draws := by
  unfold takeFault; split <;> rfl
@[simp] theorem takeFault_resp (c : FaultCode) (s : State) :
    (takeFault c s).resp = some .fault := by
  unfold takeFault; split <;> rfl
@[simp] theorem takeFault_phase (c : FaultCode) (s : State) :
    (takeFault c s).phase = .faulted := by
  unfold takeFault; split <;> simp_all

/-- The code a fault records: its own outside FAULTED, the first one inside (60_exceptions.md R366, R368). -/
theorem takeFault_fcode (c : FaultCode) (s : State) :
    (takeFault c s).fcode = if s.phase = .faulted then s.fcode else c.code := by
  unfold takeFault; split <;> rfl

/-- The command word a fault records (60_exceptions.md R366, R368). -/
theorem takeFault_finfo (c : FaultCode) (s : State) :
    (takeFault c s).finfo = if s.phase = .faulted then s.finfo else s.cmd := by
  unfold takeFault; split <;> rfl

/-! ## present -/

@[simp] theorem present_phase (cmd : CmdWord) (wdata : DataWord) (rest : List HostEvent) (s : State) :
    (present cmd wdata rest s).phase = s.phase := rfl
@[simp] theorem present_fcode (cmd : CmdWord) (wdata : DataWord) (rest : List HostEvent) (s : State) :
    (present cmd wdata rest s).fcode = s.fcode := rfl
@[simp] theorem present_finfo (cmd : CmdWord) (wdata : DataWord) (rest : List HostEvent) (s : State) :
    (present cmd wdata rest s).finfo = s.finfo := rfl
@[simp] theorem present_regs (cmd : CmdWord) (wdata : DataWord) (rest : List HostEvent) (s : State) :
    (present cmd wdata rest s).regs = s.regs := rfl
@[simp] theorem present_field (cmd : CmdWord) (wdata : DataWord) (rest : List HostEvent) (s : State) :
    (present cmd wdata rest s).field = s.field := rfl
@[simp] theorem present_planes (cmd : CmdWord) (wdata : DataWord) (rest : List HostEvent) (s : State) :
    (present cmd wdata rest s).planes = s.planes := rfl
@[simp] theorem present_gf (cmd : CmdWord) (wdata : DataWord) (rest : List HostEvent) (s : State) :
    (present cmd wdata rest s).gf = s.gf := rfl
@[simp] theorem present_aud0 (cmd : CmdWord) (wdata : DataWord) (rest : List HostEvent) (s : State) :
    (present cmd wdata rest s).aud0 = s.aud0 := rfl
@[simp] theorem present_aud1 (cmd : CmdWord) (wdata : DataWord) (rest : List HostEvent) (s : State) :
    (present cmd wdata rest s).aud1 = s.aud1 := rfl
@[simp] theorem present_audReady (cmd : CmdWord) (wdata : DataWord) (rest : List HostEvent) (s : State) :
    (present cmd wdata rest s).audReady = s.audReady := rfl
@[simp] theorem present_audT (cmd : CmdWord) (wdata : DataWord) (rest : List HostEvent) (s : State) :
    (present cmd wdata rest s).audT = s.audT := rfl
@[simp] theorem present_cmd (cmd : CmdWord) (wdata : DataWord) (rest : List HostEvent) (s : State) :
    (present cmd wdata rest s).cmd = cmd := rfl
@[simp] theorem present_wdata (cmd : CmdWord) (wdata : DataWord) (rest : List HostEvent) (s : State) :
    (present cmd wdata rest s).wdata = wdata := rfl
@[simp] theorem present_resp (cmd : CmdWord) (wdata : DataWord) (rest : List HostEvent) (s : State) :
    (present cmd wdata rest s).resp = s.resp := rfl
@[simp] theorem present_host (cmd : CmdWord) (wdata : DataWord) (rest : List HostEvent) (s : State) :
    (present cmd wdata rest s).host = rest := rfl
@[simp] theorem present_draws (cmd : CmdWord) (wdata : DataWord) (rest : List HostEvent) (s : State) :
    (present cmd wdata rest s).draws = s.draws := rfl

/-! ## resetBlock, hardReset -/

@[simp] theorem resetBlock_phase (s : State) : (resetBlock s).phase = State.reset.phase := rfl
@[simp] theorem resetBlock_fcode (s : State) : (resetBlock s).fcode = State.reset.fcode := rfl
@[simp] theorem resetBlock_finfo (s : State) : (resetBlock s).finfo = State.reset.finfo := rfl
@[simp] theorem resetBlock_regs (s : State) : (resetBlock s).regs = State.reset.regs := rfl
@[simp] theorem resetBlock_field (s : State) : (resetBlock s).field = State.reset.field := rfl
@[simp] theorem resetBlock_planes (s : State) : (resetBlock s).planes = State.reset.planes := rfl
@[simp] theorem resetBlock_gf (s : State) : (resetBlock s).gf = State.reset.gf := rfl
@[simp] theorem resetBlock_aud0 (s : State) : (resetBlock s).aud0 = State.reset.aud0 := rfl
@[simp] theorem resetBlock_aud1 (s : State) : (resetBlock s).aud1 = State.reset.aud1 := rfl
@[simp] theorem resetBlock_audReady (s : State) : (resetBlock s).audReady = State.reset.audReady := rfl
@[simp] theorem resetBlock_audT (s : State) : (resetBlock s).audT = State.reset.audT := rfl
@[simp] theorem resetBlock_cmd (s : State) : (resetBlock s).cmd = s.cmd := rfl
@[simp] theorem resetBlock_wdata (s : State) : (resetBlock s).wdata = s.wdata := rfl
@[simp] theorem resetBlock_resp (s : State) : (resetBlock s).resp = s.resp := rfl
@[simp] theorem resetBlock_host (s : State) : (resetBlock s).host = s.host := rfl
@[simp] theorem resetBlock_draws (s : State) : (resetBlock s).draws = s.draws := rfl
@[simp] theorem hardReset_phase (s : State) : (hardReset s).phase = State.reset.phase := rfl
@[simp] theorem hardReset_fcode (s : State) : (hardReset s).fcode = State.reset.fcode := rfl
@[simp] theorem hardReset_finfo (s : State) : (hardReset s).finfo = State.reset.finfo := rfl
@[simp] theorem hardReset_regs (s : State) : (hardReset s).regs = State.reset.regs := rfl
@[simp] theorem hardReset_field (s : State) : (hardReset s).field = State.reset.field := rfl
@[simp] theorem hardReset_planes (s : State) : (hardReset s).planes = State.reset.planes := rfl
@[simp] theorem hardReset_gf (s : State) : (hardReset s).gf = State.reset.gf := rfl
@[simp] theorem hardReset_aud0 (s : State) : (hardReset s).aud0 = State.reset.aud0 := rfl
@[simp] theorem hardReset_aud1 (s : State) : (hardReset s).aud1 = State.reset.aud1 := rfl
@[simp] theorem hardReset_audReady (s : State) : (hardReset s).audReady = State.reset.audReady := rfl
@[simp] theorem hardReset_audT (s : State) : (hardReset s).audT = State.reset.audT := rfl
@[simp] theorem hardReset_cmd (s : State) : (hardReset s).cmd = s.cmd := rfl
@[simp] theorem hardReset_wdata (s : State) : (hardReset s).wdata = s.wdata := rfl
@[simp] theorem hardReset_resp (s : State) : (hardReset s).resp = none := rfl
@[simp] theorem hardReset_host (s : State) : (hardReset s).host = s.host := rfl
@[simp] theorem hardReset_draws (s : State) : (hardReset s).draws = s.draws := rfl

/-! ## advanceField, advanceAudio -/

@[simp] theorem advanceField_phase (s : State) : (advanceField s).phase = s.phase := rfl
@[simp] theorem advanceField_fcode (s : State) : (advanceField s).fcode = s.fcode := rfl
@[simp] theorem advanceField_finfo (s : State) : (advanceField s).finfo = s.finfo := rfl
@[simp] theorem advanceField_regs (s : State) : (advanceField s).regs = s.regs := rfl
@[simp] theorem advanceField_field (s : State) : (advanceField s).field = s.field + 1#64 := rfl
@[simp] theorem advanceField_planes (s : State) : (advanceField s).planes = s.planes := rfl
@[simp] theorem advanceField_gf (s : State) : (advanceField s).gf = s.gf := rfl
@[simp] theorem advanceField_aud0 (s : State) : (advanceField s).aud0 = s.aud0 := rfl
@[simp] theorem advanceField_aud1 (s : State) : (advanceField s).aud1 = s.aud1 := rfl
@[simp] theorem advanceField_audReady (s : State) : (advanceField s).audReady = s.audReady := rfl
@[simp] theorem advanceField_audT (s : State) : (advanceField s).audT = s.audT := rfl
@[simp] theorem advanceField_cmd (s : State) : (advanceField s).cmd = s.cmd := rfl
@[simp] theorem advanceField_wdata (s : State) : (advanceField s).wdata = s.wdata := rfl
@[simp] theorem advanceField_resp (s : State) : (advanceField s).resp = s.resp := rfl
@[simp] theorem advanceField_host (s : State) : (advanceField s).host = s.host := rfl
@[simp] theorem advanceField_draws (s : State) : (advanceField s).draws = s.draws := rfl
@[simp] theorem advanceAudio_phase (s : State) : (advanceAudio s).phase = s.phase := rfl
@[simp] theorem advanceAudio_fcode (s : State) : (advanceAudio s).fcode = s.fcode := rfl
@[simp] theorem advanceAudio_finfo (s : State) : (advanceAudio s).finfo = s.finfo := rfl
@[simp] theorem advanceAudio_regs (s : State) : (advanceAudio s).regs = s.regs := rfl
@[simp] theorem advanceAudio_field (s : State) : (advanceAudio s).field = s.field := rfl
@[simp] theorem advanceAudio_planes (s : State) : (advanceAudio s).planes = s.planes := rfl
@[simp] theorem advanceAudio_gf (s : State) : (advanceAudio s).gf = s.gf := rfl
@[simp] theorem advanceAudio_aud0 (s : State) : (advanceAudio s).aud0 = s.aud0 := rfl
@[simp] theorem advanceAudio_aud1 (s : State) : (advanceAudio s).aud1 = s.aud1 := rfl
@[simp] theorem advanceAudio_audReady (s : State) : (advanceAudio s).audReady = s.audReady := rfl
@[simp] theorem advanceAudio_audT (s : State) : (advanceAudio s).audT = s.audT + 1#64 := rfl
@[simp] theorem advanceAudio_cmd (s : State) : (advanceAudio s).cmd = s.cmd := rfl
@[simp] theorem advanceAudio_wdata (s : State) : (advanceAudio s).wdata = s.wdata := rfl
@[simp] theorem advanceAudio_resp (s : State) : (advanceAudio s).resp = s.resp := rfl
@[simp] theorem advanceAudio_host (s : State) : (advanceAudio s).host = s.host := rfl
@[simp] theorem advanceAudio_draws (s : State) : (advanceAudio s).draws = s.draws := rfl

/-! ## writeCfg -/

@[simp] theorem writeCfg_phase (r : CfgReg) (v : DataWord) (s : State) :
    (writeCfg r v s).phase = s.phase := by
  cases r <;> rfl
@[simp] theorem writeCfg_fcode (r : CfgReg) (v : DataWord) (s : State) :
    (writeCfg r v s).fcode = s.fcode := by
  cases r <;> rfl
@[simp] theorem writeCfg_finfo (r : CfgReg) (v : DataWord) (s : State) :
    (writeCfg r v s).finfo = s.finfo := by
  cases r <;> rfl
@[simp] theorem writeCfg_planes (r : CfgReg) (v : DataWord) (s : State) :
    (writeCfg r v s).planes = s.planes := by
  cases r <;> rfl
@[simp] theorem writeCfg_gf (r : CfgReg) (v : DataWord) (s : State) :
    (writeCfg r v s).gf = s.gf := by
  cases r <;> rfl
@[simp] theorem writeCfg_aud0 (r : CfgReg) (v : DataWord) (s : State) :
    (writeCfg r v s).aud0 = s.aud0 := by
  cases r <;> rfl
@[simp] theorem writeCfg_aud1 (r : CfgReg) (v : DataWord) (s : State) :
    (writeCfg r v s).aud1 = s.aud1 := by
  cases r <;> rfl
@[simp] theorem writeCfg_audReady (r : CfgReg) (v : DataWord) (s : State) :
    (writeCfg r v s).audReady = s.audReady := by
  cases r <;> rfl
@[simp] theorem writeCfg_audT (r : CfgReg) (v : DataWord) (s : State) :
    (writeCfg r v s).audT = s.audT := by
  cases r <;> rfl
@[simp] theorem writeCfg_cmd (r : CfgReg) (v : DataWord) (s : State) :
    (writeCfg r v s).cmd = s.cmd := by
  cases r <;> rfl
@[simp] theorem writeCfg_wdata (r : CfgReg) (v : DataWord) (s : State) :
    (writeCfg r v s).wdata = s.wdata := by
  cases r <;> rfl
@[simp] theorem writeCfg_resp (r : CfgReg) (v : DataWord) (s : State) :
    (writeCfg r v s).resp = s.resp := by
  cases r <;> rfl
@[simp] theorem writeCfg_host (r : CfgReg) (v : DataWord) (s : State) :
    (writeCfg r v s).host = s.host := by
  cases r <;> rfl
@[simp] theorem writeCfg_draws (r : CfgReg) (v : DataWord) (s : State) :
    (writeCfg r v s).draws = s.draws := by
  cases r <;> rfl

/-- A register reads as what was written to it last (40_host_config_commands.md R132). -/
@[simp] theorem readCfg_writeCfg_same (r : CfgReg) (v : DataWord) (s : State) :
    readCfg r (writeCfg r v s) = v := by
  cases r <;> rfl

/-- A register depends on `regs` and `field` alone. -/
theorem readCfg_congr (r : CfgReg) {s t : State} (hr : t.regs = s.regs) (hf : t.field = s.field) :
    readCfg r t = readCfg r s := by
  cases r <;> simp [readCfg, hr, hf]

/-! ## withFetchWord -/

@[simp] theorem withFetchWord_phase (s : State) (nbits w : Nat) : (s.withFetchWord nbits w).phase = s.phase := rfl
@[simp] theorem withFetchWord_fcode (s : State) (nbits w : Nat) : (s.withFetchWord nbits w).fcode = s.fcode := rfl
@[simp] theorem withFetchWord_finfo (s : State) (nbits w : Nat) : (s.withFetchWord nbits w).finfo = s.finfo := rfl
@[simp] theorem withFetchWord_regs (s : State) (nbits w : Nat) : (s.withFetchWord nbits w).regs = s.regs := rfl
@[simp] theorem withFetchWord_field (s : State) (nbits w : Nat) : (s.withFetchWord nbits w).field = s.field := rfl
@[simp] theorem withFetchWord_planes (s : State) (nbits w : Nat) :
    (s.withFetchWord nbits w).planes = s.planes := rfl
@[simp] theorem withFetchWord_gf (s : State) (nbits w : Nat) : (s.withFetchWord nbits w).gf = s.gf := rfl
@[simp] theorem withFetchWord_aud0 (s : State) (nbits w : Nat) : (s.withFetchWord nbits w).aud0 = s.aud0 := rfl
@[simp] theorem withFetchWord_aud1 (s : State) (nbits w : Nat) : (s.withFetchWord nbits w).aud1 = s.aud1 := rfl
@[simp] theorem withFetchWord_audReady (s : State) (nbits w : Nat) :
    (s.withFetchWord nbits w).audReady = s.audReady := rfl
@[simp] theorem withFetchWord_audT (s : State) (nbits w : Nat) : (s.withFetchWord nbits w).audT = s.audT := rfl
@[simp] theorem withFetchWord_cmd (s : State) (nbits w : Nat) : (s.withFetchWord nbits w).cmd = s.cmd := rfl
@[simp] theorem withFetchWord_wdata (s : State) (nbits w : Nat) : (s.withFetchWord nbits w).wdata = s.wdata := rfl
@[simp] theorem withFetchWord_resp (s : State) (nbits w : Nat) : (s.withFetchWord nbits w).resp = s.resp := rfl
@[simp] theorem withFetchWord_host (s : State) (nbits w : Nat) :
    (s.withFetchWord nbits w).host = .command (BitVec.ofNat 32 (w % 2 ^ nbits)) 0#64 :: s.host := rfl
@[simp] theorem withFetchWord_draws (s : State) (nbits w : Nat) : (s.withFetchWord nbits w).draws = s.draws := rfl

end Sys2Proof.Machine
end

