-- ==== Sys2Proof/Laws/Ops.lean ====
section
/-!
SUPPORT. The shared operations: for each, once, everything it can do. Later proofs cite these lemmas and never unfold
the operation.
-/
namespace Sys2Proof.Machine

/-! ## Phase checks (30_encoding.md R108) -/

/-- A SETUP-only command runs its body in SETUP and raises `PhaseError` elsewhere. -/
theorem inSetup_cases (body : State → State) (s : State) :
    (s.phase = .setup ∧ inSetup body s = body s)
      ∨ (s.phase ≠ .setup ∧ inSetup body s = takeFault .phaseError s) := by
  unfold inSetup
  split
  · exact .inl ⟨by assumption, rfl⟩
  · exact .inr ⟨by assumption, rfl⟩

/-- A RUN-only command runs its body in RUN and raises `PhaseError` elsewhere. -/
theorem inRun_cases (body : State → State) (s : State) :
    (s.phase = .run ∧ inRun body s = body s)
      ∨ (s.phase ≠ .run ∧ inRun body s = takeFault .phaseError s) := by
  unfold inRun
  split
  · exact .inl ⟨by assumption, rfl⟩
  · exact .inr ⟨by assumption, rfl⟩

/-- A command on the planes runs its body in RUN on the planes and raises `PhaseError` elsewhere. -/
theorem withPlanes_cases (body : Planes → State → State) (s : State) :
    (∃ P, s.phase = .run ∧ s.planes = some P ∧ withPlanes body s = body P s)
      ∨ ((s.phase ≠ .run ∨ s.planes = none) ∧ withPlanes body s = takeFault .phaseError s) := by
  unfold withPlanes inRun
  by_cases hp : s.phase = .run
  · rw [if_pos hp]
    cases hP : s.planes with
    | none => exact .inr ⟨.inr rfl, by simp only [hP]⟩
    | some P => exact .inl ⟨P, hp, rfl, by simp only [hP]⟩
  · exact .inr ⟨.inl hp, if_neg hp⟩

/-- In RUN with planes the body runs. -/
theorem withPlanes_run (body : Planes → State → State) {s : State} {P : Planes} (hp : s.phase = .run)
    (hP : s.planes = some P) : withPlanes body s = body P s := by
  simp [withPlanes, inRun, hp, hP]

/-! ## Draws (00_scope.md R16, log 3) -/

theorem afterDraws_zero (d : DrawSource) : afterDraws d 0 = d := rfl

theorem afterDraws_add (d : DrawSource) (m n : Nat) :
    afterDraws (afterDraws d m) n = afterDraws d (m + n) := by
  simp [afterDraws, List.drop_drop, Nat.add_assoc]

theorem answerAt_afterDraws (d : DrawSource) (m n : Nat) :
    answerAt (afterDraws d m) n = answerAt d (m + n) := by
  simp [answerAt, afterDraws, List.getElem?_drop, Nat.add_assoc]

/-- The next answer is answer 0, and one draw is spent. -/
theorem nextAnswer_eq (d : DrawSource) : nextAnswer d = (answerAt d 0, afterDraws d 1) := by
  obtain ⟨r, c⟩ := d
  cases r <;> rfl

/-- What a draw can do: nothing where the range is one value, otherwise one draw. -/
theorem draw_cases (lo hi : Int) (d : DrawSource) :
    (hi ≤ lo ∧ draw lo hi d = (lo, d))
      ∨ (lo < hi ∧ draw lo hi d = (lo + (answerAt d 0 : Int) % (hi - lo + 1), afterDraws d 1)) := by
  unfold draw
  split
  · exact .inl ⟨by assumption, rfl⟩
  · exact .inr ⟨by omega, by rw [nextAnswer_eq]⟩

/-- A draw between `-v` and `v` for a positive `v`. -/
theorem draw_sym (v : Int) (hv : 0 < v) (d : DrawSource) :
    draw (-v) v d = (drawnSym v (answerAt d 0), afterDraws d 1) := by
  rcases draw_cases (-v) v d with ⟨h, _⟩ | ⟨_, h⟩
  · omega
  · rw [h, drawnSym, show v - -v + 1 = 2 * v + 1 by omega]

theorem drawUnit_eq (d : DrawSource) :
    drawUnit d = (unitOfAnswer (answerAt d 0), afterDraws d 1) := by
  rw [drawUnit, nextAnswer_eq]

/-! ## Conversions to samples (00_scope.md R13, R14) -/

theorem toSample_eq_some {v : Int} {x : Sample} :
    toSample v = some x ↔ inS32 v = true ∧ x = BitVec.ofInt 32 v := by
  unfold toSample sampleOfInt
  cases h : inS32 v
  · simp
  · simp only [if_true, Option.some.injEq, true_and]
    exact eq_comm

/-- A value of `S32` reads back from its sample. -/
theorem toInt_sampleOfInt {v : Int} (h : inS32 v = true) : (sampleOfInt v).toInt = v := by
  simp only [inS32, decide_eq_true_eq] at h
  rw [sampleOfInt, BitVec.toInt_ofInt, Int.bmod_eq_of_le] <;> omega

/-- All values of a row are there exactly when each of them is. -/
theorem allSome_eq_some {α : Type} (l : List (Option α)) (r : List α) :
    allSome l = some r ↔ l = r.map some := by
  induction l generalizing r with
  | nil => cases r <;> simp [allSome]
  | cons a l ih =>
    cases a with
    | none => cases r <;> simp [allSome]
    | some a =>
      cases r with
      | nil => simp [allSome]
      | cons b r => simp [allSome, ih, and_comm]

/-! ## Cascades (41_iir_filter.md R163, R164, R169) -/

theorem lpStep_eq (c : Cell) (x : F64) :
    lpStep c x = (⟨c.alpha, lpValue c.alpha c.prev x⟩, lpValue c.alpha c.prev x) := rfl

theorem hpStep_eq (c : Cell) (x : F64) :
    hpStep c x = (⟨c.alpha, lpValue c.alpha c.prev x⟩, fsub x (lpValue c.alpha c.prev x)) := rfl

/-- A step of a cell keeps its coefficient and leaves its lowpass in `.prev`. -/
theorem stepCell_fst (op : FilterOp) (c : Cell) (x : F64) :
    (stepCell op c x).1 = ⟨c.alpha, lpValue c.alpha c.prev x⟩ := by
  cases op <;> rfl

@[simp] theorem length_runChain (cells : List (FilterOp × Cell)) (x : F64) :
    (runChain cells x).length = cells.length := by
  induction cells generalizing x with
  | nil => rfl
  | cons c cells ih => obtain ⟨op, c⟩ := c; simp [runChain, ih]

/-- A cascade keeps the coefficients of its cells. -/
theorem runChain_alpha (cells : List (FilterOp × Cell)) (x : F64) :
    (runChain cells x).map (fun e => e.1.alpha) = cells.map (fun c => c.2.alpha) := by
  induction cells generalizing x with
  | nil => rfl
  | cons c cells ih =>
    obtain ⟨op, c⟩ := c
    simp [runChain, ih, stepCell_fst]

/-! ## The general bank (41_iir_filter.md R167 to R171) -/

/-- What a filter command on the general cells can do: one of its faults, or the cells of its plan advance and the
answer is the output of the cascade. -/
theorem bankCommand_cases (ok : Bool) (plan : List (FilterOp × Nat)) (s : State) :
    (s.phase ≠ .run ∧ bankCommand ok plan s = takeFault .phaseError s)
      ∨ (s.phase = .run ∧ (ok = false ∨ isFinite s.wdata = false)
          ∧ bankCommand ok plan s = takeFault .invalidArgument s)
      ∨ (s.phase = .run ∧ ok = true ∧ isFinite s.wdata = true ∧ bankCells s.gf plan = none
          ∧ bankCommand ok plan s = takeFault .filterNotConfigured s)
      ∨ ∃ cells, s.phase = .run ∧ ok = true ∧ isFinite s.wdata = true ∧ bankCells s.gf plan = some cells
          ∧ ((traceFinite (runChain cells s.wdata) = false
                ∧ bankCommand ok plan s = takeFault .invalidArgument s)
            ∨ (traceFinite (runChain cells s.wdata) = true
                ∧ bankCommand ok plan s = answer (chainOut s.wdata (runChain cells s.wdata))
                    { s with gf := bankStore s.gf plan (runChain cells s.wdata) })) := by
  unfold bankCommand
  rcases inRun_cases _ s with ⟨hp, h⟩ | ⟨hp, h⟩
  · rw [h]
    refine .inr ?_
    cases ok
    · exact .inl ⟨hp, .inl rfl, rfl⟩
    · cases hf : isFinite s.wdata
      · exact .inl ⟨hp, .inr rfl, by simp⟩
      · refine .inr ?_
        cases hc : bankCells s.gf plan with
        | none => exact .inl ⟨hp, rfl, rfl, rfl, by simp⟩
        | some cells =>
          refine .inr ⟨cells, hp, rfl, rfl, rfl, ?_⟩
          cases ht : traceFinite (runChain cells s.wdata)
          · exact .inl ⟨rfl, by simp [ht]⟩
          · exact .inr ⟨rfl, by simp [ht]⟩
  · exact .inl ⟨hp, h⟩

/-- A cell outside the plan is not touched. -/
theorem bankStore_other (gf : Vector StoredCell Config.numGeneralCells) (plan : List (FilterOp × Nat))
    (trace : List (Cell × F64)) (j : Nat) (hj : ∀ op k, (op, k) ∈ plan → k ≠ j) :
    (bankStore gf plan trace)[j]? = gf[j]? := by
  induction plan generalizing gf trace with
  | nil => cases trace <;> rfl
  | cons e plan ih =>
    obtain ⟨op, k⟩ := e
    have hk : k ≠ j := hj op k (by simp)
    cases trace with
    | nil => rfl
    | cons c trace =>
      obtain ⟨c, v⟩ := c
      rw [bankStore, ih _ _ (fun op k he => hj op k (by simp [he])), Vector.getElem?_setIfInBounds_ne hk]

/-! ## Field passes (20_memory.md R76, 60_exceptions.md R367) -/

theorem mem_fieldRows {field : BitVec 64} {h y : Nat} :
    y ∈ fieldRows field h ↔ y < h ∧ y % 2 = parity field := by
  simp [fieldRows]

theorem nodup_fieldRows (field : BitVec 64) (h : Nat) : (fieldRows field h).Nodup :=
  List.nodup_range.filter _

/-- A list of rows keeps the dimensions and the canonical form, and touches only those rows. -/
theorem passRows_frame {κ : Type} (f : κ → DrawSource → Nat → Row → RowResult κ) (ys : List Nat) (k : κ)
    (d : DrawSource) (P P' : Planes) (d' : DrawSource) (h : passRows f ys k d P = .done P' d') :
    P'.w = P.w ∧ P'.h = P.h ∧ (P.wf = true → (∀ y ∈ ys, y < P.h) → P'.wf = true)
      ∧ ∀ a, (∀ p y x, p < 3 → y ∈ ys → x < P.w → a ≠ planeAddr p y x) →
          Memory.read P'.cells a = Memory.read P.cells a := by
  induction ys generalizing k d P with
  | nil =>
    simp only [passRows, StageResult.done.injEq] at h
    obtain ⟨rfl, rfl⟩ := h
    exact ⟨rfl, rfl, fun hw _ => hw, fun _ _ => rfl⟩
  | cons y ys ih =>
    rw [passRows] at h
    cases hf : f k d y (P.row y) with
    | fault c d1 => simp [hf] at h
    | done k1 r d1 =>
      simp only [hf] at h
      obtain ⟨h1, h2, h3, h4⟩ := ih _ _ _ h
      refine ⟨by simpa using h1, by simpa using h2, fun hw hy => h3 (wf_setRow _ _ _ hw (hy y (by simp)))
        (fun z hz => by simpa using hy z (by simp [hz])), fun a ha => ?_⟩
      rw [h4 a (fun p z x hp hz hx => ha p z x hp (by simp [hz]) (by simpa using hx))]
      exact read_setRow_frame P y r a (fun p x hp hx => ha p y x hp (by simp) hx)

/-- A field pass keeps the dimensions and the canonical form, and touches only the rows of the field. -/
theorem fieldPass_frame {κ : Type} (f : κ → DrawSource → Nat → Row → RowResult κ) (k : κ)
    (field : BitVec 64) (P P' : Planes) (d d' : DrawSource) (h : fieldPass f k field P d = .done P' d') :
    P'.w = P.w ∧ P'.h = P.h ∧ (P.wf = true → P'.wf = true)
      ∧ ∀ a, ¬ inField field P a → Memory.read P'.cells a = Memory.read P.cells a := by
  unfold fieldPass at h
  cases hp : passRows f (fieldRows field P.h) k d P with
  | fault c P1 d1 => simp [hp] at h
  | done P1 d1 =>
    simp only [hp, StageResult.done.injEq] at h
    obtain ⟨rfl, rfl⟩ := h
    obtain ⟨h1, h2, h3, h4⟩ := passRows_frame f _ k d P P1 d1 hp
    refine ⟨h1, h2, fun hw => h3 hw (fun y hy => (mem_fieldRows.mp hy).1), fun a ha => h4 a ?_⟩
    intro p y x hp3 hy hx heq
    exact ha ⟨p, y, x, hp3, (mem_fieldRows.mp hy).1, (mem_fieldRows.mp hy).2, hx, heq⟩

/-- A field pass that faults leaves the planes as they were (60_exceptions.md R367). -/
theorem fieldPass_fault {κ : Type} (f : κ → DrawSource → Nat → Row → RowResult κ) (k : κ)
    (field : BitVec 64) (P P' : Planes) (d d' : DrawSource) (c : FaultCode)
    (h : fieldPass f k field P d = .fault c P' d') : P' = P := by
  unfold fieldPass at h
  cases hp : passRows f (fieldRows field P.h) k d P with
  | fault c1 P1 d1 =>
    simp only [hp, StageResult.fault.injEq] at h
    exact h.2.1.symm
  | done P1 d1 => simp [hp] at h

/-- Rows processed with a known carry, known draws and known results, one after another: every row holds its result,
every other row is as before. -/
theorem passRows_done {κ : Type} (f : κ → DrawSource → Nat → Row → RowResult κ) (rowOf : Nat → Row)
    (ys : List Nat) (kf : Nat → κ) (df : Nat → DrawSource) (P : Planes) (hw : P.w < 65536)
    (hnd : ys.Nodup) (hy : ∀ y ∈ ys, y < 65536) (hr : ∀ y ∈ ys, (rowOf y).Wide P.w)
    (hf : ∀ j (hj : j < ys.length),
      f (kf j) (df j) ys[j] (P.row ys[j]) = .done (kf (j + 1)) (rowOf ys[j]) (df (j + 1))) :
    ∃ P', passRows f ys (kf 0) (df 0) P = .done P' (df ys.length)
      ∧ (∀ y ∈ ys, P'.row y = rowOf y) ∧ ∀ y, y < 65536 → y ∉ ys → P'.row y = P.row y := by
  induction ys generalizing kf df P with
  | nil => exact ⟨P, rfl, by simp, fun _ _ _ => rfl⟩
  | cons y ys ih =>
    have h0 := hf 0 (by simp)
    simp only [List.getElem_cons_zero] at h0
    obtain ⟨hyn, hnd'⟩ := List.nodup_cons.mp hnd
    have hy0 : y < 65536 := hy y (by simp)
    have hwide : (rowOf y).Wide P.w := hr y (by simp)
    obtain ⟨P', h1, h2, h3⟩ := ih (fun j => kf (j + 1)) (fun j => df (j + 1)) (P.setRow y (rowOf y))
      (by simpa using hw) hnd' (fun z hz => hy z (by simp [hz])) (fun z hz => hr z (by simp [hz]))
      (by
        intro j hj
        have hz : ys[j] ∈ ys := List.getElem_mem hj
        rw [row_setRow_other P y ys[j] (rowOf y) hwide hw hy0 (hy _ (by simp [hz]))
          (fun he => hyn (he ▸ hz))]
        have := hf (j + 1) (by simpa using hj)
        simpa using this)
    refine ⟨P', ?_, ?_, ?_⟩
    · rw [passRows, h0]
      simpa using h1
    · intro z hz
      rcases List.mem_cons.mp hz with rfl | hz
      · rw [h3 z hy0 hyn, row_setRow_same P z (rowOf z) hwide hw hy0]
      · exact h2 z hz
    · intro z hz65 hz
      rw [h3 z hz65 (fun hm => hz (by simp [hm])),
        row_setRow_other P y z (rowOf y) hwide hw hy0 hz65 (fun he => hz (by simp [he]))]

/-- Rows processed with known results up to row `j`, which faults: the fault and its draws are those of that row. -/
theorem passRows_fault {κ : Type} (f : κ → DrawSource → Nat → Row → RowResult κ) (rowOf : Nat → Row)
    (ys : List Nat) (kf : Nat → κ) (df : Nat → DrawSource) (P : Planes) (c : FaultCode) (d' : DrawSource)
    (hw : P.w < 65536) (hnd : ys.Nodup) (hy : ∀ y ∈ ys, y < 65536) (hr : ∀ y ∈ ys, (rowOf y).Wide P.w)
    (j : Nat) (hj : j < ys.length)
    (hf : ∀ i (_ : i < j),
      f (kf i) (df i) ys[i] (P.row ys[i]) = .done (kf (i + 1)) (rowOf ys[i]) (df (i + 1)))
    (hfault : f (kf j) (df j) ys[j] (P.row ys[j]) = .fault c d') :
    ∃ P', passRows f ys (kf 0) (df 0) P = .fault c P' d' := by
  induction ys generalizing kf df P j with
  | nil => simp at hj
  | cons y ys ih =>
    obtain ⟨hyn, hnd'⟩ := List.nodup_cons.mp hnd
    cases j with
    | zero =>
      simp only [List.getElem_cons_zero] at hfault
      exact ⟨P, by rw [passRows, hfault]⟩
    | succ j =>
      have h0 := hf 0 (by omega)
      simp only [List.getElem_cons_zero] at h0
      have hy0 : y < 65536 := hy y (by simp)
      have hwide : (rowOf y).Wide P.w := hr y (by simp)
      have other : ∀ i (hi : i < ys.length), (P.setRow y (rowOf y)).row ys[i] = P.row ys[i] := fun i hi => by
        have hz : ys[i] ∈ ys := List.getElem_mem hi
        exact row_setRow_other P y ys[i] (rowOf y) hwide hw hy0 (hy _ (by simp [hz])) (fun he => hyn (he ▸ hz))
      simp only [List.length_cons, Nat.add_lt_add_iff_right] at hj
      obtain ⟨P', h⟩ := ih (fun i => kf (i + 1)) (fun i => df (i + 1)) (P.setRow y (rowOf y))
        (by simpa using hw) hnd' (fun z hz => hy z (by simp [hz])) (fun z hz => hr z (by simp [hz])) j hj
        (fun i hi => by rw [other i (by omega)]; simpa using hf (i + 1) (by omega))
        (by rw [other j hj]; simpa using hfault)
      exact ⟨P', by rw [passRows, h0]; simpa using h⟩

/-! ## Sequences of stages (46_field_sequencer.md R300) -/

/-- Stages one after another, in two parts. -/
theorem runStages_append (l r : List Stage) (g : Regs) (field : BitVec 64) (P : Planes) (d : DrawSource) :
    runStages (l ++ r) g field P d =
      match runStages l g field P d with
      | .done P' d' => runStages r g field P' d'
      | .fault c P' d' => .fault c P' d' := by
  induction l generalizing P d with
  | nil => rfl
  | cons st l ih =>
    simp only [List.cons_append, runStages]
    cases st g field P d with
    | done P' d' => exact ih P' d'
    | fault c P' d' => rfl

/-- What a stage or macro command can do: `PhaseError`, completion, or the fault of its stage. -/
theorem stageCommand_cases (st : Stage) (after : State → State) (s : State) :
    ((s.phase ≠ .run ∨ s.planes = none) ∧ stageCommand st after s = takeFault .phaseError s)
      ∨ ∃ P, s.phase = .run ∧ s.planes = some P
          ∧ ((∃ P' d', st s.regs s.field P s.draws = .done P' d'
                ∧ stageCommand st after s
                    = answer 0#64 (after { s with planes := some P', draws := d' }))
            ∨ ∃ c P' d', st s.regs s.field P s.draws = .fault c P' d'
                ∧ stageCommand st after s = takeFault c { s with planes := some P', draws := d' }) := by
  unfold stageCommand
  rcases withPlanes_cases _ s with ⟨P, hp, hP, h⟩ | ⟨hp, h⟩
  · refine .inr ⟨P, hp, hP, ?_⟩
    rw [h]
    cases hs : st s.regs s.field P s.draws with
    | done P' d' => exact .inl ⟨P', d', rfl, rfl⟩
    | fault c P' d' => exact .inr ⟨c, P', d', rfl, rfl⟩
  · exact .inl ⟨hp, h⟩

end Sys2Proof.Machine
end

