-- ==== Sys2Proof/Laws/PerInstr.lean ====
section
/-!
SUPPORT. Statements about every command, one lemma per constructor of Instr.
-/
namespace Sys2Proof.Laws

/-- The word of a well-formed command has the command's opcode in `CMD[31:24]` and its operand fields, and nothing
else, in `CMD[23:0]` (30_encoding.md R101, R103). -/
def EncodeOpcode.Statement (i : Instr) : Prop :=
  wellFormed i = true →
    (encode i).toNat / 2 ^ 24 = opcode i ∧ (encode i).toNat % 2 ^ 24 = operandBits i

/-- A word made of an 8-bit opcode and 24 operand bits has both where they belong. -/
theorem encode_parts (i : Instr) (ho : opcode i < 2 ^ 8)
    (hb : wellFormed i = true → operandBits i < 2 ^ 24) : EncodeOpcode.Statement i := by
  intro h
  have := hb h
  simp only [encode, BitVec.toNat_ofNat]
  omega

/-- A field of at most 8 bits leaves the opcode alone. -/
theorem field_lt {bits n : Nat} (hb : bits ≤ 8) (h : fits bits n = true) : n < 2 ^ 24 := by
  simp only [fits, decide_eq_true_eq] at h
  exact Nat.lt_of_lt_of_le h (Nat.pow_le_pow_right (by decide) (by omega))

/-- Two 8-bit fields leave the opcode alone. -/
theorem fields_lt {first n : Nat} (h : (fits 8 first && fits 8 n) = true) : n * 2 ^ 8 + first < 2 ^ 24 := by
  simp only [fits, Bool.and_eq_true, decide_eq_true_eq] at h
  omega

/-- A mode bit leaves the opcode alone. -/
theorem mode_lt (m : Bool) : m.toNat < 2 ^ 24 := by
  cases m <;> decide

theorem EncodeOpcode.nop : EncodeOpcode.Statement .nop :=
  encode_parts _ (Nat.le_of_ble_eq_true rfl) (fun _ => Nat.le_of_ble_eq_true rfl)

theorem EncodeOpcode.reset : EncodeOpcode.Statement .reset :=
  encode_parts _ (Nat.le_of_ble_eq_true rfl) (fun _ => Nat.le_of_ble_eq_true rfl)

theorem EncodeOpcode.cfgw (n : Nat) : EncodeOpcode.Statement (.cfgw n) :=
  encode_parts _ (Nat.le_of_ble_eq_true rfl) (field_lt (Nat.le_refl 8))

theorem EncodeOpcode.cfgr (n : Nat) : EncodeOpcode.Statement (.cfgr n) :=
  encode_parts _ (Nat.le_of_ble_eq_true rfl) (field_lt (Nat.le_refl 8))

theorem EncodeOpcode.setup : EncodeOpcode.Statement .setup :=
  encode_parts _ (Nat.le_of_ble_eq_true rfl) (fun _ => Nat.le_of_ble_eq_true rfl)

theorem EncodeOpcode.catv (n : Nat) : EncodeOpcode.Statement (.catv n) :=
  encode_parts _ (Nat.le_of_ble_eq_true rfl) (field_lt (Nat.le_refl 8))

theorem EncodeOpcode.pwr (p : Nat) : EncodeOpcode.Statement (.pwr p) :=
  encode_parts _ (Nat.le_of_ble_eq_true rfl) (field_lt (Nat.le_of_ble_eq_true rfl))

theorem EncodeOpcode.prd (p : Nat) : EncodeOpcode.Statement (.prd p) :=
  encode_parts _ (Nat.le_of_ble_eq_true rfl) (field_lt (Nat.le_of_ble_eq_true rfl))

theorem EncodeOpcode.pixw : EncodeOpcode.Statement .pixw :=
  encode_parts _ (Nat.le_of_ble_eq_true rfl) (fun _ => Nat.le_of_ble_eq_true rfl)

theorem EncodeOpcode.pixr : EncodeOpcode.Statement .pixr :=
  encode_parts _ (Nat.le_of_ble_eq_true rfl) (fun _ => Nat.le_of_ble_eq_true rfl)

theorem EncodeOpcode.fcfg (n : Nat) : EncodeOpcode.Statement (.fcfg n) :=
  encode_parts _ (Nat.le_of_ble_eq_true rfl) (field_lt (Nat.le_refl 8))

theorem EncodeOpcode.frst (n : Nat) : EncodeOpcode.Statement (.frst n) :=
  encode_parts _ (Nat.le_of_ble_eq_true rfl) (field_lt (Nat.le_refl 8))

theorem EncodeOpcode.flp (n : Nat) : EncodeOpcode.Statement (.flp n) :=
  encode_parts _ (Nat.le_of_ble_eq_true rfl) (field_lt (Nat.le_refl 8))

theorem EncodeOpcode.fhp (n : Nat) : EncodeOpcode.Statement (.fhp n) :=
  encode_parts _ (Nat.le_of_ble_eq_true rfl) (field_lt (Nat.le_refl 8))

theorem EncodeOpcode.fcasl (first n : Nat) : EncodeOpcode.Statement (.fcasl first n) :=
  encode_parts _ (Nat.le_of_ble_eq_true rfl) fields_lt

theorem EncodeOpcode.fcash (first n : Nat) : EncodeOpcode.Statement (.fcash first n) :=
  encode_parts _ (Nat.le_of_ble_eq_true rfl) fields_lt

theorem EncodeOpcode.hilo (first n : Nat) : EncodeOpcode.Statement (.hilo first n) :=
  encode_parts _ (Nat.le_of_ble_eq_true rfl) fields_lt

theorem EncodeOpcode.clpf (m : Bool) : EncodeOpcode.Statement (.clpf m) :=
  encode_parts _ (Nat.le_of_ble_eq_true rfl) (fun _ => mode_lt m)

theorem EncodeOpcode.mod : EncodeOpcode.Statement .mod :=
  encode_parts _ (Nat.le_of_ble_eq_true rfl) (fun _ => Nat.le_of_ble_eq_true rfl)

theorem EncodeOpcode.pre : EncodeOpcode.Statement .pre :=
  encode_parts _ (Nat.le_of_ble_eq_true rfl) (fun _ => Nat.le_of_ble_eq_true rfl)

theorem EncodeOpcode.ynoise : EncodeOpcode.Statement .ynoise :=
  encode_parts _ (Nat.le_of_ble_eq_true rfl) (fun _ => Nat.le_of_ble_eq_true rfl)

theorem EncodeOpcode.hsw : EncodeOpcode.Statement .hsw :=
  encode_parts _ (Nat.le_of_ble_eq_true rfl) (fun _ => Nat.le_of_ble_eq_true rfl)

theorem EncodeOpcode.demod (m : Bool) : EncodeOpcode.Statement (.demod m) :=
  encode_parts _ (Nat.le_of_ble_eq_true rfl) (fun _ => mode_lt m)

theorem EncodeOpcode.cnoise : EncodeOpcode.Statement .cnoise :=
  encode_parts _ (Nat.le_of_ble_eq_true rfl) (fun _ => Nat.le_of_ble_eq_true rfl)

theorem EncodeOpcode.cphase : EncodeOpcode.Statement .cphase :=
  encode_parts _ (Nat.le_of_ble_eq_true rfl) (fun _ => Nat.le_of_ble_eq_true rfl)

theorem EncodeOpcode.cdrop : EncodeOpcode.Statement .cdrop :=
  encode_parts _ (Nat.le_of_ble_eq_true rfl) (fun _ => Nat.le_of_ble_eq_true rfl)

theorem EncodeOpcode.vluma : EncodeOpcode.Statement .vluma :=
  encode_parts _ (Nat.le_of_ble_eq_true rfl) (fun _ => Nat.le_of_ble_eq_true rfl)

theorem EncodeOpcode.vchroma : EncodeOpcode.Statement .vchroma :=
  encode_parts _ (Nat.le_of_ble_eq_true rfl) (fun _ => Nat.le_of_ble_eq_true rfl)

theorem EncodeOpcode.vblend : EncodeOpcode.Statement .vblend :=
  encode_parts _ (Nat.le_of_ble_eq_true rfl) (fun _ => Nat.le_of_ble_eq_true rfl)

theorem EncodeOpcode.vsharp : EncodeOpcode.Statement .vsharp :=
  encode_parts _ (Nat.le_of_ble_eq_true rfl) (fun _ => Nat.le_of_ble_eq_true rfl)

theorem EncodeOpcode.vhs : EncodeOpcode.Statement .vhs :=
  encode_parts _ (Nat.le_of_ble_eq_true rfl) (fun _ => Nat.le_of_ble_eq_true rfl)

theorem EncodeOpcode.runfield : EncodeOpcode.Statement .runfield :=
  encode_parts _ (Nat.le_of_ble_eq_true rfl) (fun _ => Nat.le_of_ble_eq_true rfl)

theorem EncodeOpcode.nextfield : EncodeOpcode.Statement .nextfield :=
  encode_parts _ (Nat.le_of_ble_eq_true rfl) (fun _ => Nat.le_of_ble_eq_true rfl)

theorem EncodeOpcode.audf : EncodeOpcode.Statement .audf :=
  encode_parts _ (Nat.le_of_ble_eq_true rfl) (fun _ => Nat.le_of_ble_eq_true rfl)

end Sys2Proof.Laws
end

