-- ==== Sys2Proof/Laws/Stages.lean ====
section
/-!
SUPPORT. The stages: every one keeps the dimensions and the canonical form of the planes and touches only the rows of
the field, whether it completes or faults (20_memory.md R76).
-/
namespace Sys2Proof.Machine

/-- The values of a row are there exactly when each of them lies in `S32`. -/
theorem rowOfInts_eq_some {w : Nat} {f : Nat → Int} {l : List Sample} :
    rowOfInts w f = some l ↔ (∀ x < w, inS32 (f x) = true) ∧ l = (List.range w).map (fun x => sampleOfInt (f x)) := by
  rw [rowOfInts, allSome_eq_some]
  constructor
  · intro h
    have hl : l.length = w := by simpa using (congrArg List.length h).symm
    have hx : ∀ x (hx : x < w), inS32 (f x) = true ∧ l[x]'(hl ▸ hx) = sampleOfInt (f x) := fun x hx => by
      have := List.getElem_of_eq h (i := x) (by simpa using hx)
      simp only [List.getElem_map, List.getElem_range] at this
      exact toSample_eq_some.mp this
    refine ⟨fun x h => (hx x h).1, List.ext_getElem (by simp [hl]) fun x h1 _ => ?_⟩
    simpa using (hx x (hl ▸ h1)).2
  · rintro ⟨h, rfl⟩
    rw [List.map_map]
    exact List.map_congr_left fun x hx => toSample_eq_some.mpr ⟨h x (List.mem_range.mp hx), rfl⟩

/-- The scaled residuals fit exactly when nothing is scaled or each of them lies in `S32`. -/
theorem residualsFit_iff {ab : Int} {raw : List Sample} {xi : Nat} :
    residualsFit ab raw xi = true ↔ (ab ≠ 0 → ∀ x < raw.length, inS32 (scaledResidual ab raw xi x) = true) := by
  simp only [residualsFit, Bool.or_eq_true, decide_eq_true_eq, List.all_eq_true, List.mem_range]
  by_cases h : ab = 0 <;> simp [h]

/-- What `DEMOD` can give for a row: everything fits and the row holds the exact values, or something does not. -/
theorem demodRow_eq_some {ab : Int} {xi : Nat} {r r' : Row} :
    demodRow ab xi r = some r' ↔ residualsFit ab r.y xi = true
      ∧ rowOfInts r.y.length (boxBlur r.y) = some r'.y ∧ rowOfInts r.y.length (demuxChroma ab r.y xi 0) = some r'.i
      ∧ rowOfInts r.y.length (demuxChroma ab r.y xi 1) = some r'.q := by
  obtain ⟨y', i', q'⟩ := r'
  unfold demodRow
  cases residualsFit ab r.y xi
  · simp
  · cases rowOfInts r.y.length (boxBlur r.y) <;> cases rowOfInts r.y.length (demuxChroma ab r.y xi 0) <;>
      cases rowOfInts r.y.length (demuxChroma ab r.y xi 1) <;> simp

/-- What every stage keeps between the planes before and after it. -/
structure PlanesKept (field : BitVec 64) (P P' : Planes) : Prop where
  width : P'.w = P.w
  height : P'.h = P.h
  canonical : P.wf = true → P'.wf = true
  frame : ∀ a, ¬ inField field P a → Memory.read P'.cells a = Memory.read P.cells a

theorem PlanesKept.refl (field : BitVec 64) (P : Planes) : PlanesKept field P P :=
  ⟨rfl, rfl, id, fun _ _ => rfl⟩

theorem inField_congr {field : BitVec 64} {P P' : Planes} (hw : P'.w = P.w) (hh : P'.h = P.h) (a : Nat) :
    inField field P' a ↔ inField field P a := by
  simp only [inField, hw, hh]

theorem PlanesKept.trans {field : BitVec 64} {P P' P'' : Planes} (h : PlanesKept field P P')
    (h' : PlanesKept field P' P'') : PlanesKept field P P'' where
  width := h'.width.trans h.width
  height := h'.height.trans h.height
  canonical := fun hw => h'.canonical (h.canonical hw)
  frame := fun a ha =>
    (h'.frame a (fun hc => ha ((inField_congr h.width h.height a).mp hc))).trans (h.frame a ha)

/-- The planes a stage result holds. -/
def StageResult.planes : StageResult → Planes
  | .done P _ => P
  | .fault _ P _ => P

theorem fieldPass_kept {κ : Type} (f : κ → DrawSource → Nat → Row → RowResult κ) (k : κ)
    (field : BitVec 64) (P : Planes) (d : DrawSource) :
    PlanesKept field P (fieldPass f k field P d).planes := by
  cases h : fieldPass f k field P d with
  | done P' d' =>
    obtain ⟨h1, h2, h3, h4⟩ := fieldPass_frame f k field P P' d d' h
    exact ⟨h1, h2, h3, h4⟩
  | fault c P' d' =>
    rw [fieldPass_fault f k field P P' d d' c h]
    exact PlanesKept.refl field P

/-- A stage keeps the planes' form under every configuration. -/
def StageKeeps (st : Stage) : Prop := ∀ g field P d, PlanesKept field P (st g field P d).planes

theorem clpfStage_keeps (m : Bool) : StageKeeps (clpfStage m) := fun _ _ _ _ => fieldPass_kept ..

theorem modStage_keeps : StageKeeps modStage := fun _ _ _ _ => fieldPass_kept ..

theorem preStage_keeps : StageKeeps preStage := fun g field P d => by
  unfold preStage; split
  · exact PlanesKept.refl field P
  · exact fieldPass_kept ..

theorem ynoiseStage_keeps : StageKeeps ynoiseStage := fun g field P d => by
  unfold ynoiseStage; split
  · exact PlanesKept.refl field P
  · exact fieldPass_kept ..

theorem demodStage_keeps (m : Bool) : StageKeeps (demodStage m) := fun g field P d => by
  unfold demodStage; split
  · exact PlanesKept.refl field P
  · exact fieldPass_kept ..

theorem cnoiseStage_keeps : StageKeeps cnoiseStage := fun g field P d => by
  unfold cnoiseStage; split
  · exact PlanesKept.refl field P
  · exact fieldPass_kept ..

theorem cphaseStage_keeps : StageKeeps cphaseStage := fun g field P d => by
  unfold cphaseStage; split
  · exact PlanesKept.refl field P
  · exact fieldPass_kept ..

theorem cdropStage_keeps : StageKeeps cdropStage := fun g field P d => by
  unfold cdropStage; split
  · exact PlanesKept.refl field P
  · exact fieldPass_kept ..

theorem vlumaStage_keeps : StageKeeps vlumaStage := fun _ _ _ _ => fieldPass_kept ..

theorem vchromaStage_keeps : StageKeeps vchromaStage := fun _ _ _ _ => fieldPass_kept ..

theorem vblendStage_keeps : StageKeeps vblendStage := fun _ _ _ _ => fieldPass_kept ..

theorem vsharpStage_keeps : StageKeeps vsharpStage := fun _ _ _ _ => fieldPass_kept ..

/-- The rows the head-switching loop visits have the parity of its first row (44_head_switching.md R253). -/
theorem hswRows_kept (field : BitVec 64) (tw : Int) (n : Nat) (y shif : Int) (P : Planes)
    (hpar : y % 2 = (parity field : Int)) : PlanesKept field P (hswRows tw n y shif P) := by
  induction n generalizing y shif P with
  | zero => exact PlanesKept.refl field P
  | succ n ih =>
    rw [hswRows]
    split
    · refine PlanesKept.trans ?_ (ih (y + 2) (decayShift shif) _ (by omega))
      split
      · rename_i hy h0
        refine ⟨rfl, rfl, fun hw => wf_writeRow P planeY y.toNat _ hw (by decide) (by omega), fun a ha => ?_⟩
        refine read_writeRow_frame P planeY y.toNat _ a fun x hx heq => ha ?_
        exact ⟨planeY, y.toNat, x, by decide, by omega, by omega, hx, heq⟩
      · exact PlanesKept.refl field P
    · exact PlanesKept.refl field P

theorem hswStage_keeps : StageKeeps hswStage := fun g field P d => by
  unfold hswStage
  dsimp only
  split
  · refine hswRows_kept field _ _ _ _ P ?_
    have : parity field < 2 := Nat.mod_lt _ (by decide)
    simp only [switchRow, blankLines]
    split <;> omega
  · exact PlanesKept.refl field P

/-- Stages one after another keep what each of them keeps. -/
theorem runStages_keeps (l : List Stage) (h : ∀ st ∈ l, StageKeeps st) : StageKeeps (runStages l) := by
  induction l with
  | nil => exact fun g field P d => PlanesKept.refl field P
  | cons st l ih =>
    intro g field P d
    have h1 := h st (by simp) g field P d
    rw [runStages]
    cases hs : st g field P d with
    | done P' d' =>
      rw [hs] at h1
      exact PlanesKept.trans h1 (ih (fun st hst => h st (by simp [hst])) g field P' d')
    | fault c P' d' =>
      rw [hs] at h1
      exact h1

theorem vhsStage_keeps : StageKeeps vhsStage := fun g => by
  refine runStages_keeps (vhsSteps g) (fun st hst => ?_) g
  simp only [vhsSteps, List.mem_append, List.mem_cons, List.not_mem_nil, or_false] at hst
  rcases hst with (((rfl | rfl) | hst) | rfl) | hst
  · exact vlumaStage_keeps
  · exact vchromaStage_keeps
  · split at hst
    · simp only [List.mem_cons, List.not_mem_nil, or_false] at hst
      exact hst ▸ vblendStage_keeps
    · simp at hst
  · exact vsharpStage_keeps
  · split at hst
    · simp at hst
    · simp only [List.mem_cons, List.not_mem_nil, or_false] at hst
      rcases hst with rfl | rfl
      · exact modStage_keeps
      · exact demodStage_keeps true

theorem runfieldStage_keeps : StageKeeps runfieldStage := fun g => by
  refine runStages_keeps (runfieldSteps g) (fun st hst => ?_) g
  unfold runfieldSteps at hst
  split at hst
  · simp only [List.mem_append, List.mem_cons, List.not_mem_nil, or_false] at hst
    rcases hst with ((((hst | rfl | rfl | rfl) | hst) | rfl | rfl | rfl | rfl) | hst) | hst
    · split at hst <;> simp only [List.mem_cons, List.not_mem_nil, or_false] at hst
      exact hst ▸ clpfStage_keeps false
    · exact modStage_keeps
    · exact preStage_keeps
    · exact ynoiseStage_keeps
    · split at hst <;> simp only [List.mem_cons, List.not_mem_nil, or_false] at hst
      exact hst ▸ hswStage_keeps
    · exact demodStage_keeps false
    · exact cnoiseStage_keeps
    · exact cphaseStage_keeps
    · exact cdropStage_keeps
    · split at hst <;> simp only [List.mem_cons, List.not_mem_nil, or_false] at hst
      exact hst ▸ vhsStage_keeps
    · split at hst <;> simp only [List.mem_cons, List.not_mem_nil, or_false] at hst
      exact hst ▸ clpfStage_keeps g.outLite
  · simp at hst

end Sys2Proof.Machine
end

