-- ==== Sys2Proof/Tests/Slice0.lean ====
section
/-!
SUPPORT. Tests. Expected values are those of the spec: the command words of 30_encoding.md R103, the examples of the
rules, the values the rules give by hand. One command each, on small states.
-/
namespace Sys2Proof.Tests

set_option Elab.async false
open Sys2Proof Sys2Proof.Machine

/-! ## WellFormed: an ill-formed term for each check -/

theorem test_ill_formed_refused :
    ([.cfgw 256, .cfgr 256, .catv 256, .pwr 4, .prd 4, .fcfg 256, .frst 256, .flp 256] : List Instr).all (fun i => !wellFormed i) = true := by decide
theorem test_ill_formed_pairs_refused :
    ([.fhp 256, .fcasl 256 1, .fcasl 0 256, .fcash 256 1, .fcash 0 256, .hilo 256 1, .hilo 0 256] : List Instr).all (fun i => !wellFormed i) = true := by decide
theorem test_widest_accepted :
    ([.cfgw 255, .catv 255, .pwr 3, .fcfg 255, .fcasl 255 255, .hilo 255 255] : List Instr).all wellFormed = true := by decide

/-! ## Decode: a word written out for every command (30_encoding.md R103) -/

theorem test_decode_host :
    decode 0b00000000000000000000000000000000#32 = some .nop
      ∧ decode 0b00000001000000000000000000000000#32 = some .reset
      ∧ decode 0b00000010000000000000000000001001#32 = some (.cfgw 0x09)
      ∧ decode 0b00000011000000000000000000100011#32 = some (.cfgr 0x23)
      ∧ decode 0b00000100000000000000000000000000#32 = some .setup
      ∧ decode 0b00000101000000000000000000000100#32 = some (.catv 4)
      ∧ decode 0b00001000000000000000000000000001#32 = some (.pwr 1)
      ∧ decode 0b00001001000000000000000000000010#32 = some (.prd 2) := by decide
theorem test_decode_colour :
    decode 0b00001010000000000000000000000000#32 = some .pixw
      ∧ decode 0b00001011000000000000000000000000#32 = some .pixr := by decide
theorem test_decode_filter_bank :
    decode 0b00010000000000000000000000001111#32 = some (.fcfg 15)
      ∧ decode 0b00010001000000000000000010000001#32 = some (.frst 0x81)
      ∧ decode 0b00010010000000000000000000000011#32 = some (.flp 3)
      ∧ decode 0b00010011000000000000000000000010#32 = some (.fhp 2)
      ∧ decode 0b00010100000000000000001000001110#32 = some (.fcasl 14 2)
      ∧ decode 0b00010101000000001000000000000001#32 = some (.fcash 1 128)
      ∧ decode 0b00010110000000000000001000000000#32 = some (.hilo 0 2) := by decide
theorem test_decode_composite :
    decode 0b00100000000000000000000000000001#32 = some (.clpf true)
      ∧ decode 0b00100001000000000000000000000000#32 = some .mod
      ∧ decode 0b00100010000000000000000000000000#32 = some .pre
      ∧ decode 0b00100011000000000000000000000000#32 = some .ynoise
      ∧ decode 0b00100100000000000000000000000000#32 = some .hsw
      ∧ decode 0b00100101000000000000000000000001#32 = some (.demod true)
      ∧ decode 0b00100110000000000000000000000000#32 = some .cnoise
      ∧ decode 0b00100111000000000000000000000000#32 = some .cphase
      ∧ decode 0b00101000000000000000000000000000#32 = some .cdrop := by decide
theorem test_decode_vhs :
    decode 0b00110000000000000000000000000000#32 = some .vluma
      ∧ decode 0b00110001000000000000000000000000#32 = some .vchroma
      ∧ decode 0b00110010000000000000000000000000#32 = some .vblend
      ∧ decode 0b00110011000000000000000000000000#32 = some .vsharp
      ∧ decode 0b00110100000000000000000000000000#32 = some .vhs := by decide
theorem test_decode_sequencer_audio :
    decode 0b00111000000000000000000000000000#32 = some .runfield
      ∧ decode 0b00111001000000000000000000000000#32 = some .nextfield
      ∧ decode 0b01000000000000000000000000000000#32 = some .audf := by decide
theorem test_decode_illegal :
    decode 0x06000000#32 = none ∧ decode 0x21000001#32 = none ∧ decode 0x08000004#32 = none
      ∧ decode 0x14010000#32 = none ∧ decode 0xFF000000#32 = none := by decide
theorem test_mode_zero :
    decode 0x20000000#32 = some (.clpf false) ∧ decode 0x25000000#32 = some (.demod false) := by decide
theorem test_table_word :
    decodeTableWord 32 0x16000200 = some (.hilo 0 2) ∧ decodeTableWord 32 0x41000000 = none := by decide

/-! ## Constants: the hexadecimal of the model against the decimals and quotients of the spec -/

theorem test_colour_constants :
    c0_30 = decimal 30 100 ∧ c0_59 = decimal 59 100 ∧ c0_11 = decimal 11 100
      ∧ cNeg0_27 = decimal (-27) 100 ∧ c0_74 = decimal 74 100 ∧ c0_41 = decimal 41 100 ∧ c0_48 = decimal 48 100
      ∧ c0_956 = decimal 956 1000 ∧ c0_621 = decimal 621 1000 ∧ cNeg0_272 = decimal (-272) 1000
      ∧ cNeg0_647 = decimal (-647) 1000 ∧ cNeg1_106 = decimal (-1106) 1000 ∧ c1_703 = decimal 1703 1000 := by decide +kernel
theorem test_rate_constants :
    fsc = fdiv (i2f 315000000) (i2f 88) ∧ fsc4 = fdiv (fmul (i2f 315000000) (i2f 4)) (i2f 88)
      ∧ c1_6 = decimal 16 10 ∧ f312_5 = decimal 3125 10 ∧ f262_5 = decimal 2625 10 := by decide +kernel
theorem test_whole_constants :
    c256 = i2f 256 ∧ f50 = i2f 50 ∧ f100 = i2f 100 ∧ f64One = i2f 1 ∧ f64Two = i2f 2 ∧ f64Four = i2f 4
      ∧ f16 = i2f 16 ∧ f32768 = i2f 32768 ∧ f15625 = i2f 15625 ∧ f15734 = i2f 15734 ∧ f20000 = i2f 20000
      ∧ hz1300000 = i2f 1300000 ∧ hz600000 = i2f 600000 ∧ hz2600000 = i2f 2600000 := by decide +kernel

/-- The coefficients of 41_iir_filter.md R173. -/
theorem test_coefficients :
    alphaOf fsc4 hz1300000 = 0x3FD73F79F9C6BE70#64 ∧ alphaOf fsc4 hz600000 = 0x3FCAAD7D6E7E9479#64
      ∧ alphaOf fsc4 hz2600000 = 0x3FE10DA7BF77EEE6#64 := by decide +kernel

/-- The tape speeds of 45_vhs_stage.md R270 with the coefficients of R271. -/
theorem test_tape_speeds :
    ∀ k ∈ [0, 1, 2], speedRow k =
      (alphaOf fsc4 (tapeSpeed { Regs.reset with vhsSpeed := BitVec.ofNat 64 k }).lumaCut,
        alphaOf fsc4 (tapeSpeed { Regs.reset with vhsSpeed := BitVec.ofNat 64 k }).chromaCut,
        (tapeSpeed { Regs.reset with vhsSpeed := BitVec.ofNat 64 k }).chromaDelay,
        alphaOf fsc4 (fmul (tapeSpeed { Regs.reset with vhsSpeed := BitVec.ofNat 64 k }).lumaCut (i2f 4))) := by decide +kernel

/-- The integer notation of 00_scope.md R11 and R13. -/
theorem test_tdiv : tdiv 7 2 = 3 ∧ tdiv (-7) 2 = -3 ∧ tdiv (-1) 8 = 0 ∧ tdiv 7 (-2) = -3 := by decide
theorem test_rounding :
    roundAway (decimal 5 2) = 3 ∧ roundAway (decimal (-5) 2) = -3 ∧ f2i (decimal (-39) 10) = some (-3)
      ∧ f2i (i2f 2147483648) = none ∧ f2i (i2f (-2147483648)) = some (-2147483648) := by decide +kernel

/-! ## One command on a small state -/

/-- The state after one presented command. -/
def run1 (cmd : CmdWord) (w : DataWord) (s : State) : State :=
  match step { s with host := [.command cmd w] } with
  | .next t => t
  | .fault _ => s
  | .refused _ => s

/-- `RDATA` of an `OK` response. -/
def rdata (s : State) : Option DataWord :=
  match s.resp with
  | some (.ok v) => some v
  | some .fault => none
  | none => none

/-- Planes of `w` columns and `h` rows, row 0 as given, the other rows zero. -/
def planes0 (w h : Nat) (y i q : List Int) : Planes :=
  (Planes.zero w h).setRow 0 ⟨y.map sampleOfInt, i.map sampleOfInt, q.map sampleOfInt⟩

/-- A machine in RUN on given planes. -/
def running (P : Planes) : State := { State.reset with phase := .run, planes := some P }

/-- The draws `Draw(-v, v)` given one by one. -/
def drawing (v : Int) (ds : List Int) (s : State) : State :=
  { s with draws := ⟨ds.map (fun d => (d + v).toNat), 0⟩ }

/-- A row of a plane as integers. -/
def rowOf (p y : Nat) (s : State) : List Int :=
  match s.planes with
  | some P => (P.readRow p y).map BitVec.toInt
  | none => []

/-- What a command word with no operand does to a state (for the stages). -/
def stage (op : CmdWord) (s : State) : State := run1 op 0#64 s


/-! Host commands (40_host_config_commands.md) -/

theorem test_nop_after_reset : rdata (run1 0x00000000#32 0#64 State.reset) = some 0#64 := by decide +kernel
theorem test_reset_after_fault :
    let s := run1 0x01000000#32 0#64 (run1 0x06000000#32 0#64 State.reset)
    rdata (run1 0x03000001#32 0#64 s) = some 0#64 ∧ s.phase = .setup := by decide +kernel
theorem test_illegal_word :
    let s := run1 0x06000000#32 0#64 State.reset
    s.resp = some .fault ∧ s.fcode = 1#8 ∧ s.finfo = 0x06000000#32 ∧ s.phase = .faulted := by decide +kernel
theorem test_first_fault_kept :
    let s := run1 0x21000001#32 0#64 (run1 0x06000000#32 0#64 State.reset)
    s.resp = some .fault ∧ s.fcode = 1#8 ∧ s.finfo = 0x06000000#32 := by decide +kernel
theorem test_cfgw_too_large :
    let s := run1 0x02000009#32 101#64 State.reset
    s.fcode = 2#8 ∧ s.regs.scAmp = 50#64 := by decide +kernel
theorem test_cfgw_minus_zero :
    (run1 0x02000007#32 0x8000000000000000#64 State.reset).regs.compPre = 0x8000000000000000#64 := by decide +kernel
theorem test_cfgr_sharpen :
    rdata (run1 0x0300000F#32 0#64 State.reset) = some 0x3FF8000000000000#64 := by decide +kernel
theorem test_cfgr_dim_fetched :
    (match step (State.reset.withFetchWord 32 0x03000004) with
      | .next t => rdata t | .fault _ => none | .refused _ => none) = some 0x01E002D0#64 := by decide +kernel
theorem test_setup_from_reset :
    let s := run1 0x04000000#32 0#64 State.reset
    s.phase = .run ∧ s.planes = some (Planes.zero 720 480) ∧ s.audReady = false := by decide +kernel
theorem test_setup_needs_cutoff :
    (run1 0x04000000#32 0#64 { State.reset with regs := { Regs.reset with compPre := f64One } }).fcode = 3#8 := by decide +kernel
theorem test_catv3 :
    let s := run1 0x05000003#32 0#64 State.reset
    rdata (run1 0x03000007#32 0#64 s) = some 0x4039000000000000#64 ∧ s.regs.compCut = 0x415B4F4CBA2E8BA3#64
      ∧ s.regs.chromaPhaseNoise = 6#64 := by decide +kernel
theorem test_catv5_refused : (run1 0x05000005#32 0#64 State.reset).fcode = 2#8 := by decide +kernel
theorem test_pwr_then_prd :
    rdata (run1 0x09000002#32 0x0000000300000000#64
      (run1 0x08000002#32 0x00000003FFFFFFF9#64 (running (Planes.zero 4 2)))) = some 0xFFFFFFFFFFFFFFF9#64 := by decide +kernel
theorem test_pwr_outside :
    (run1 0x08000003#32 0#64 (running (Planes.zero 4 2))).fcode = 5#8
      ∧ (run1 0x08000000#32 0x0002000000000000#64 (running (Planes.zero 4 2))).fcode = 5#8 := by decide +kernel
theorem test_prd_outside :
    (run1 0x09000000#32 0x0000000400000000#64 (running (Planes.zero 4 2))).fcode = 5#8 := by decide +kernel
theorem test_prd_in_setup : (run1 0x09000000#32 0#64 State.reset).fcode = 4#8 := by decide +kernel

/-! Colour (42_color_conversion.md R192, R193) -/

theorem test_pixw_red :
    let s := run1 0x0A000000#32 0x00000000FFFF0000#64 (running (Planes.zero 1 1))
    rowOf 0 0 s = [19584] ∧ rowOf 1 0 s = [39103] ∧ rowOf 2 0 s = [13905] := by decide +kernel
theorem test_pixw_grey :
    let s := run1 0x0A000000#32 0x0000000000808080#64 (running (Planes.zero 1 1))
    rowOf 0 0 s = [32768] ∧ rowOf 1 0 s = [0] ∧ rowOf 2 0 s = [0] := by decide +kernel
theorem test_pixr_red :
    rdata (run1 0x0B000000#32 0#64 (running (planes0 1 1 [19584] [39103] [13905]))) = some 0xFFFF0000#64 := by decide +kernel
theorem test_pixr_clamps :
    rdata (run1 0x0B000000#32 0#64 (running (planes0 1 1 [70000] [0] [0]))) = some 0xFFFFFFFF#64 := by decide +kernel

/-! The general bank (41_iir_filter.md R165 to R171) -/


/-- A machine in RUN whose first four cells have given coefficients and `.prev` values. -/
def bank (cells : List (F64 × F64)) : State :=
  { State.reset with
    phase := .run
    planes := some (Planes.zero 1 1)
    gf := Vector.ofFn (fun k => match cells[k.val]? with
      | some (a, p) => ⟨some a, p⟩
      | none => ⟨none, 0#64⟩) }

/-- `configure(44100, 1000)` (41_iir_filter.md R161). -/
def a1000 : F64 := 0x3FBFECDCBB3152A9#64

theorem test_fcfg_1000 :
    let s := run1 0x10000000#32 0x408F400000000000#64 State.reset
    rdata s = some a1000 ∧ s.gf[0] = ⟨some a1000, 0#64⟩ := by decide +kernel
theorem test_fcfg_cutoff_zero :
    (run1 0x10000000#32 0#64 State.reset).fcode = 3#8 ∧ (run1 0x10000010#32 f64One State.reset).fcode = 2#8 := by decide +kernel
theorem test_frst_unconfigured :
    (run1 0x11000000#32 0x4059000000000000#64 (bank [])).gf[0] = ⟨none, 0x4059000000000000#64⟩ := by decide +kernel
theorem test_frst_infinity :
    (run1 0x11000000#32 0x7FF0000000000000#64 (bank [])).fcode = 2#8 := by decide +kernel
theorem test_flp_first_and_second :
    let s := run1 0x12000000#32 f64One (bank [(a1000, 0#64)])
    rdata s = some a1000 ∧ rdata (run1 0x12000000#32 f64One s) = some 0x3FCDEF406CAA9F0C#64 := by decide +kernel
theorem test_flp_unconfigured : (run1 0x12000005#32 f64One (bank [])).fcode = 7#8 := by decide +kernel
theorem test_fhp_first :
    let s := run1 0x13000000#32 f64One (bank [(a1000, 0#64)])
    rdata s = some 0x3FEC02646899D5AB#64 ∧ s.gf[0] = ⟨some a1000, a1000⟩ := by decide +kernel
theorem test_fhp_overflow :
    let s := run1 0x13000000#32 0x7FEFFFFFFFFFFFFF#64 (bank [(0x3FE0000000000000#64, 0xFFEFFFFFFFFFFFFF#64)])
    s.phase = .run ∧ s.gf[0] = ⟨some 0x3FE0000000000000#64, 0#64⟩ := by decide +kernel
theorem test_fcasl_two :
    let s := run1 0x14000200#32 f64One (bank [(a1000, 0#64), (f64One, 0#64)])
    rdata s = some a1000 ∧ s.gf[1] = ⟨some f64One, a1000⟩ := by decide +kernel
theorem test_fcasl_past_cell_15 :
    (run1 0x1400020F#32 f64One (bank [])).fcode = 2#8 ∧ (run1 0x14000000#32 f64One (bank [])).fcode = 2#8 := by decide +kernel
theorem test_fcash_one :
    rdata (run1 0x15000100#32 f64One (bank [(a1000, 0#64)])) = some 0x3FEC02646899D5AB#64 := by decide +kernel
theorem test_fcash_not_finite_operand :
    (run1 0x15000100#32 0x7FF8000000000000#64 (bank [(a1000, 0#64)])).fcode = 2#8 := by decide +kernel
theorem test_hilo_two :
    let s := bank [(0x3FE2CD84F1F58D99#64, 0#64), (0x3FE2CD84F1F58D99#64, 0#64),
        (0x3F8CC4E7F5F0B074#64, 0#64), (0x3F8CC4E7F5F0B074#64, 0#64)]
    rdata (run1 0x16000200#32 f64One s) = some 0x3FD57AEBEB7E3EC9#64
      ∧ rdata (run1 0x16000200#32 f64One (run1 0x16000200#32 f64One s)) = some 0x3FE34C098BD3FF66#64 := by decide +kernel
theorem test_hilo_nine : (run1 0x16000900#32 f64One (bank [])).fcode = 2#8 := by decide +kernel

/-! The composite pipeline (43_composite_chroma.md) -/

theorem test_clpf_full :
    let s := stage 0x20000000#32 (running (planes0 8 2 [] [0, 0, 1000, 0, 0, 0, 0, 0] [0, 0, 1000, 0, 0, 0, 0, 0]))
    rowOf 1 0 s = [47, 91, 116, 123, 118, 105, 0, 0] ∧ rowOf 2 0 s = [34, 44, 53, 59, 0, 0, 0, 0] := by decide +kernel
theorem test_clpf_lite :
    rowOf 1 0 (stage 0x20000001#32 (running (planes0 4 1 [] [1000, 1000, 1000, 1000] []))) = [363, 561, 715, 1000] := by decide +kernel
theorem test_mod_50 :
    let s := stage 0x21000000#32 (running (planes0 8 2 [1000, 1000, 1000, 1000, 1000, 1000, 1000, 1000] [100, 100, 100, 100, 100, 100, 100, 100] [40, 40, 40, 40, 40, 40, 40, 40]))
    rowOf 0 0 s = [1100, 1040, 900, 960, 1100, 1040, 900, 960] ∧ rowOf 1 0 s = [0, 0, 0, 0, 0, 0, 0, 0] ∧ rowOf 2 0 s = [0, 0, 0, 0, 0, 0, 0, 0] := by decide +kernel
theorem test_mod_75_offset :
    let s := running (planes0 4 1 [1000, 1000, 1000, 1000] [100, 100, 100, 100] [40, 40, 40, 40])
    rowOf 0 0 (stage 0x21000000#32 { s with regs := { s.regs with scAmp := 75#64, compPhaseOffset := 1#64 } })
      = [1060, 850, 940, 1150] := by decide +kernel
theorem test_pre_catv1 :
    let s := running (planes0 8 1 [0, 0, 1000, 1000, 1000, 1000, 0, 0] [] [])
    rowOf 0 0 (stage 0x22000000#32 { s with regs := { s.regs with compPre := i2f 7, compCut := fsc } })
      = [0, 0, 3722, 2059, 1411, 1160, -2660, -1034] := by decide +kernel
theorem test_ynoise_walk :
    let s := drawing 10 [10, 10, -10, -10, 0, 3, -3, 1] (running (planes0 8 2 [1000, 1000, 1000, 1000, 1000, 1000, 1000, 1000] [] []))
    let t := stage 0x23000000#32 { s with regs := { s.regs with videoNoise := 10#64 } }
    rowOf 0 0 t = [1005, 1007, 999, 995, 998, 1000, 999, 1000] ∧ t.draws = ⟨[], 8⟩ := by decide +kernel
theorem test_demod_ramp :
    let s := stage 0x25000000#32 (running (planes0 8 1 [0, 100, 200, 300, 400, 500, 600, 700] [] []))
    rowOf 0 0 s = [75, 150, 250, 350, 450, 550, 450, 325] ∧ rowOf 1 0 s = [-125, 12, 150, 0, -150, -300, -450, 0]
      ∧ rowOf 2 0 s = [-150, 0, 150, 0, -150, -237, -325, 0] := by decide +kernel
theorem test_demod_negative :
    let s := stage 0x25000001#32 (running (planes0 8 1 [-1, -2, -3, -5, -7, -1, -1, -1] [] []))
    rowOf 0 0 s = [-1, -2, -4, -4, -3, -2, 0, 0] ∧ rowOf 1 0 s = [2, 0, -3, -2, -2, -1, 0, 0]
      ∧ rowOf 2 0 s = [3, 3, 3, 1, -1, 0, 0, 0] := by decide +kernel
theorem test_back_amplitude :
    [(7, 1), (15, 1), (25, 2), (40, 4), (-2, 1), (-4, 1)].map (fun e : Int × Int =>
      aBack { Regs.reset with compPre := i2f e.1, compCut := fmul (i2f e.2) fsc })
      = [some 225, some 425, some 362, some 300, some 0, some (-50)] := by decide +kernel
theorem test_cnoise_walks :
    let s := drawing 8 [8, -8, 8, -8, -8, 8, 0, 0] (running (planes0 4 2 [] [100, 100, 100, 100] [40, 40, 40, 40]))
    let t := stage 0x26000000#32 { s with regs := { s.regs with chromaNoise := 8#64 } }
    rowOf 1 0 t = [104, 106, 99, 100] ∧ rowOf 2 0 t = [36, 34, 41, 40] := by decide +kernel
theorem test_cphase_zero_angle :
    let s := drawing 1 [1] (running (planes0 4 2 [] [100, -100, 0, 1000] [40, 40, -7, 0]))
    let t := stage 0x27000000#32 { s with regs := { s.regs with chromaPhaseNoise := 1#64 } }
    rowOf 1 0 t = [100, -100, 0, 1000] ∧ rowOf 2 0 t = [40, 40, -7, 0] ∧ t.draws = ⟨[], 1⟩ := by decide +kernel
theorem test_cdrop_boundary :
    let P := ((Planes.zero 1 3).setRow 0 ⟨[1#32], [2#32], [3#32]⟩).setRow 2 ⟨[1#32], [2#32], [3#32]⟩
    let s := { running P with draws := ⟨[49999, 50000], 0⟩ }
    let t := stage 0x28000000#32 { s with regs := { s.regs with chromaLoss := 50000#64 } }
    rowOf 1 0 t = [0] ∧ rowOf 0 0 t = [1] ∧ rowOf 1 2 t = [2] ∧ rowOf 2 2 t = [3] := by decide +kernel
theorem test_subcarrier_phase :
    [0, 2, 4, 6].map (subcarrierPhase { Regs.reset with compPhase := 1#64 } 0#64) = [0, 1, 2, 3]
      ∧ [1, 3, 5, 7].map (subcarrierPhase { Regs.reset with compPhase := 1#64 } 1#64) = [1, 2, 3, 0]
      ∧ [0, 2, 4, 6].map (subcarrierPhase { Regs.reset with compPhase := 2#64 } 0#64) = [0, 2, 0, 2]
      ∧ [0, 2, 4, 6].map (subcarrierPhase { Regs.reset with compPhase := 3#64 } 0#64) = [0, 3, 2, 1]
      ∧ subcarrierPhase { Regs.reset with compPhaseOffset := 0xFFFFFFFFFFFFFFFF#64 } 0#64 0 = 3 := by decide +kernel

/-! Head switching (44_head_switching.md R257) -/


/-- `W = 20`, `H = 8`, `Y[y][x] = 100 y + x`, `HSW_POINT = 0.085` (44_head_switching.md R257). -/
def switching (phase : F64) : State :=
  let P := (List.range 8).foldl (fun P y =>
    P.writeRow planeY y ((List.range 20).map (fun x => BitVec.ofNat 32 (100 * y + x)))) (Planes.zero 20 8)
  let s := running P
  { s with regs := { s.regs with hswPoint := decimal 85 1000, hswPhase := phase } }

theorem test_hsw_left :
    let t := stage 0x24000000#32 (switching (decimal 1 1000))
    (rowOf 0 2 t).drop 13 = [218, 219, 0, 0, 200, 201, 202] ∧ (rowOf 0 2 t).take 2 = [205, 206]
      ∧ (rowOf 0 6 t).drop 16 = [619, 0, 0, 600] ∧ (rowOf 0 3 t).take 2 = [300, 301] := by decide +kernel
theorem test_hsw_right :
    let t := stage 0x24000000#32 (switching (decimal 3 1000))
    (rowOf 0 2 t).take 6 = [217, 218, 219, 0, 0, 200] ∧ (rowOf 0 6 t).take 4 = [619, 0, 0, 600]
      ∧ (rowOf 0 0 t).take 2 = [0, 1] := by decide +kernel

/-! The VHS stage (45_vhs_stage.md) -/

theorem test_vluma_step :
    rowOf 0 0 (stage 0x30000000#32 (running (planes0 8 1 [0, 0, 0, 0, 1000, 1000, 1000, 1000] [] [])))
      = [0, 0, 0, 0, 240, 537, 773, 923] := by decide +kernel
theorem test_vchroma_delay :
    let s := stage 0x31000000#32 (running (planes0 10 1 [] [1000, 1000, 1000, 1000, 1000, 1000, 1000, 1000, 1000, 1000] [-1000, -1000, -1000, -1000, -1000, -1000, -1000, -1000, -1000, -1000]))
    rowOf 1 0 s = [176, 1000, 1000, 1000, 1000, 1000, 1000, 1000, 1000, 1000] ∧ (rowOf 2 0 s).take 2 = [-176, -1000] := by decide +kernel
theorem test_vblend_rows :
    let P := ((Planes.zero 4 3).setRow 0 ⟨[], [100, -100, 7, -7].map sampleOfInt, [0, 1, -1, -2].map sampleOfInt⟩).setRow
      2 ⟨[], [200, -300, 8, -8].map sampleOfInt, [0, -1, -1, -2].map sampleOfInt⟩
    let s := stage 0x32000000#32 (running P)
    rowOf 1 0 s = [50, -49, 4, -3] ∧ rowOf 1 2 s = [150, -199, 8, -7] ∧ rowOf 2 0 s = [0, 1, 0, 0]
      ∧ rowOf 2 2 s = [0, 0, 0, -1] := by decide +kernel
theorem test_vsharp_step :
    rowOf 0 0 (stage 0x33000000#32 (running (planes0 6 1 [0, 0, 0, 0, 1000, 1000] [] [])))
      = [0, 0, 0, 0, 2416, 1505] := by decide +kernel
theorem test_vhs_svideo :
    let s := running (planes0 6 1 [0, 0, 0, 0, 1000, 1000] [500, 500, 500, 500, 500, 500] [])
    let t := stage 0x34000000#32 { s with regs := { s.regs with ctrl := 0x41#64 } }
    rowOf 0 0 t = [0, 0, 0, 0, 579, 1078] ∧ rowOf 1 0 t = [500, 500, 500, 500, 500, 500] := by decide +kernel

/-! The sequencer (46_field_sequencer.md) -/

theorem test_runfield_grey :
    let s := stage 0x38000000#32 (running (planes0 16 2 [32768, 32768, 32768, 32768, 32768, 32768, 32768, 32768, 32768, 32768, 32768, 32768, 32768, 32768, 32768, 32768] [] []))
    (rowOf 0 0 s).drop 12 = [32768, 32768, 24576, 16384] ∧ (rowOf 1 0 s).take 3 = [-8192, -4096, 0]
      ∧ (rowOf 2 0 s).drop 13 = [-8192, -16384, 0] ∧ s.field = 1#64 := by decide +kernel
theorem test_runfield_off :
    let s := running (planes0 2 1 [7, 8] [] [])
    let t := stage 0x38000000#32 { s with regs := { s.regs with ctrl := 0#64 } }
    t.planes = s.planes ∧ t.field = 1#64 := by decide +kernel
theorem test_nextfield_wraps :
    (stage 0x39000000#32 { running (Planes.zero 1 1) with field := 0xFFFFFFFFFFFFFFFF#64 }).field = 0#64 := by decide +kernel

/-! Audio (47_audio_chain.md R337) -/


/-- The configuration of R337 (a), Hi-Fi stereo, the cells configured (47_audio_chain.md R337). -/
def hifi : State :=
  let ch : AudioChannel :=
    { AudioChannel.reset with
      alp := Vector.replicate 6 ⟨some 0x3FE7AFF0DEB5BC63#64, 0#64⟩
      ahp := Vector.replicate 6 ⟨some 0x3F6746E3FFBD0B9C#64, 0#64⟩ }
  { running (Planes.zero 1 1) with
    regs := { Regs.reset with ctrl := 0x1200#64 }, audReady := true, aud0 := ch, aud1 := ch }

theorem test_audf_stereo :
    let s := run1 0x40000000#32 0x00000000C0004000#64 hifi
    rdata s = some 0x00000000F5A70A59#64 ∧ s.audT = 1#64 ∧ s.aud0.ahp[5].prev ≠ 0#64 := by decide +kernel
theorem test_audf_refused :
    (run1 0x40000000#32 0x0000000100000000#64 hifi).fcode = 2#8
      ∧ (run1 0x40000000#32 0#64 { hifi with audReady := false }).fcode = 4#8 := by decide +kernel
theorem test_setup_audio_coefficients :
    let s := run1 0x04000000#32 0#64 { State.reset with
      regs := { Regs.reset with ctrl := 0x1200#64, audLpHz := i2f 20000, audHpHz := i2f 20 } }
    s.phase = .run ∧ s.aud0.alp = hifi.aud0.alp ∧ s.aud1.ahp = hifi.aud1.ahp ∧ s.audReady = true := by decide +kernel

/-! ## Witnesses: for every statement with hypotheses, a state and operands that meet them, at boundary values -/

def infinity : F64 := 0x7FF0000000000000#64

/-- Planes of 4 columns and 3 rows with some content in rows 0 and 2. -/
def wP : Planes :=
  ((Planes.zero 4 3).setRow 0 ⟨[1000, -7, 3, 9].map sampleOfInt, [100, -100, 0, 1000].map sampleOfInt,
    [40, 40, -7, 0].map sampleOfInt⟩).setRow 2 ⟨[5, 6, 7, 8].map sampleOfInt, [1, 2, 3, 4].map sampleOfInt,
    [-1, -2, -3, -4].map sampleOfInt⟩

/-- A machine in RUN on them. -/
def wS : State := running wP

/-- The hypothesis of `ChromaLowpassNeverOverflows` and `VblendAveragesRows`, and the first one of every statement on a
field pass. -/
theorem witness_runsOn : wS.runsOn wP := ⟨rfl, rfl, by decide +kernel⟩

theorem witness_DecodeEncodeRoundTrip : wellFormed (.hilo 255 255) = true ∧ wellFormed (.pwr 3) = true := by decide

theorem witness_DecodeMatchesOpcodeMap : decode 0x0300FFFF#32 = none ∧ decode 0x030000FF#32 = some (.cfgr 255) := by
  decide

theorem witness_StepRunsDecodedCommand :
    ({ wS with host := [.command 0x09000002#32 5#64] } : State).host = .command 0x09000002#32 5#64 :: []
      ∧ decode 0x09000002#32 = some (.prd 2) := ⟨rfl, by decide⟩

theorem witness_StepRunsDecodedCommand_illegal :
    wS.host = [] ∧ ({ wS with host := [.command 0x06000000#32 0#64] } : State).host = .command 0x06000000#32 0#64 :: []
      ∧ decode 0x06000000#32 = none ∧ wS.phase ≠ .faulted
      ∧ ({ wS with phase := .faulted, host := [.command 0x06000000#32 0#64] } : State).phase = .faulted :=
  ⟨rfl, rfl, by decide, by decide, rfl⟩

theorem witness_ResetValues : ({ wS with host := [.hardReset] } : State).host = .hardReset :: [] := rfl

theorem witness_ResetIsTheOnlyWayBack :
    (run1 0x01000000#32 0#64 { wS with phase := .faulted }).phase ≠ .faulted ∧ wS.phase = .run
      ∧ (run1 0x01000000#32 0#64 wS).phase = .setup := by decide +kernel

theorem witness_CfgrReadsRegister : (0x23, 0#64) ∈ registerView State.reset ∧ (0x00, 1#64) ∈ registerView State.reset
    ∧ 0x24 ∉ (registerView State.reset).map Prod.fst ∧ 0x14 ∉ (registerView State.reset).map Prod.fst
    ∧ 0x17 ∉ (registerView State.reset).map Prod.fst := by decide +kernel

theorem witness_CfgwWritesLegalValue_legal :
    (∀ e ∈ ([(0x00, 8191#64), (0x03, 0xFFFFFFFFFFFFFFFF#64), (0x04, 0xFFFFFFFF#64), (0x04, 0x00010001#64), (0x05,
        3#64), (0x06, 0xFFFFFFFF80000000#64), (0x06, 0x7FFFFFFF#64), (0x09, 100#64), (0x0C, 65535#64), (0x0D,
        100000#64), (0x0E, 2#64), (0x10, f64One), (0x22, 0#64), (0x11, (fneg f64One)), (0x19, 1#64), (0x21,
        2147483647#64), (0x23, 0x7FEFFFFFFFFFFFFF#64), (0x07, 0xFFEFFFFFFFFFFFFF#64), (0x20, 0x8000000000000000#64)]
        : List (Nat × DataWord)),
      cfgwLegal e.1 e.2) := by
  unfold cfgwLegal; decide +kernel

theorem witness_CfgwWritesLegalValue_illegal :
    (∀ e ∈ ([(0x00, 8192#64), (0x01, 0#64), (0x02, 0#64), (0x04, 0x00010000#64), (0x04, 0x0000FFFF#64), (0x05,
        4#64), (0x06, 0x80000000#64), (0x09, 101#64), (0x0A, 65536#64), (0x0D, 100001#64), (0x0E, 3#64), (0x10,
        0x3FF0000000000001#64), (0x11, 0xBFF0000000000001#64), (0x14, 0#64), (0x19, 3#64), (0x21, 2147483648#64),
        (0x23, 0x8000000000000001#64), (0x07, 0x7FF0000000000000#64), (0x24, 0#64)] : List (Nat × DataWord)),
      ¬ cfgwLegal e.1 e.2) ∧ State.reset.phase = .setup := by
  unfold cfgwLegal; decide +kernel

theorem witness_SetupConfiguresAndEntersRun :
    State.reset.phase = .setup ∧ State.reset.regs.audEn = false ∧ isZero State.reset.regs.compPre = true
      ∧ isPos 0x0000000000000001#64 = true ∧ isZero 0x0000000000000001#64 = false ∧ isPos 0x8000000000000000#64 = false := by
  decide +kernel

/-- `AUD_EN`, `AUD_PRE`, `AUD_DE` on, linear track with a boost, every cutoff positive. -/
def wAudio : State := { State.reset with regs := { Regs.reset with
  ctrl := 0x1C00#64, audLpHz := i2f 20000, audHpHz := i2f 20, audPreHz := i2f 10000, audDeHz := i2f 10000,
  audBoostHz := i2f 10000, audBoostGain := f64One } }

theorem witness_SetupConfiguresAndEntersRun_audio :
    wAudio.phase = .setup ∧ wAudio.regs.audEn = true ∧ isZero wAudio.regs.compPre = true
      ∧ configure wAudio.regs.audRate wAudio.regs.audLpHz = some 0x3FE7AFF0DEB5BC63#64
      ∧ configure wAudio.regs.audRate wAudio.regs.audHpHz = some 0x3F6746E3FFBD0B9C#64
      ∧ configure wAudio.regs.audRate wAudio.regs.audPreHz = some 0x3FE2CD84F1F58D99#64
      ∧ configure wAudio.regs.audRate wAudio.regs.audDeHz = some 0x3FE2CD84F1F58D99#64
      ∧ configure wAudio.regs.audRate wAudio.regs.audBoostHz = some 0x3FE2CD84F1F58D99#64
      ∧ wAudio.regs.hifi = false ∧ isZero wAudio.regs.audBoostGain = false
      ∧ wAudio.regs.audPre = true ∧ wAudio.regs.audDe = true ∧ configure wAudio.regs.audRate 0#64 = none := by
  decide +kernel

theorem witness_CatvLoadsPreset : State.reset.phase = .setup ∧ (0 < 1 ∨ 4 < 0) ∧ (5 < 1 ∨ 4 < 5) ∧ wS.phase = .run := by
  decide +kernel

/-- The data word of a row and a column at the corner of the planes, and just outside. -/
theorem witness_PwrPrdPixwPixr :
    wS.phase = .run ∧ wS.planes = some wP
      ∧ ((0x0002000300000000#64 : DataWord).extractLsb' 48 16).toNat < wP.h
      ∧ ((0x0002000300000000#64 : DataWord).extractLsb' 32 16).toNat < wP.w
      ∧ wP.h ≤ ((0x0003000000000000#64 : DataWord).extractLsb' 48 16).toNat
      ∧ wP.w ≤ ((0x0000000400000000#64 : DataWord).extractLsb' 32 16).toNat ∧ State.reset.phase = .setup := by
  decide +kernel

theorem witness_CoefficientInUnitInterval :
    configure (i2f 44100) (i2f 1000) = some a1000 ∧ configure f64One infinity = some f64One
      ∧ configure (i2f 44100) 0x0000000000000001#64 = some 0#64 := by decide +kernel

theorem witness_FcfgConfiguresCell :
    State.reset.phase = .setup ∧ State.reset.gf[15]? = some ⟨none, 0#64⟩ ∧ isPos State.reset.regs.gfRate = true
      ∧ isPos (i2f 1000) = true ∧ isNaN (alphaOf State.reset.regs.gfRate (i2f 1000)) = false ∧ isPos 0#64 = false
      ∧ 16 ≤ 16 ∧ wS.phase = .run := by decide +kernel

theorem witness_FrstSetsPrev :
    wS.phase = .run ∧ wS.gf[15]? = some ⟨none, 0#64⟩ ∧ isFinite 0x7FEFFFFFFFFFFFFF#64 = true
      ∧ isFinite infinity = false ∧ State.reset.phase = .setup := by decide +kernel

/-- A cascade of one cell at the end of the bank that completes; it meets the last clause of `bankRule` for `FLP 0`
and, of length 1, for `FCASL 0, 1`. -/
theorem witness_FilterCommandsStepTheirCells :
    (bank [(a1000, 0#64)]).phase = .run ∧ isFinite f64One = true
      ∧ CascadeRun (bank [(a1000, 0#64)]).gf 0 1 (fun _ => false) f64One (fun _ => a1000) (fun _ => 0#64)
          (fun _ => a1000) (fun k => if k = 0 then f64One else a1000)
      ∧ isFinite a1000 = true := by
  refine ⟨rfl, by decide, ⟨rfl, ?_, ?_, ?_⟩, by decide⟩ <;> decide +kernel

/-- The other clauses of `bankRule`: a range that is empty or passes cell 15, an operand that is not finite, a cell
that is not configured, a result that is not finite. -/
theorem witness_bankRule_faults :
    16 < 15 + 2 ∧ isFinite infinity = false ∧ (bank []).gf[0 + 0]? = some ⟨none, 0#64⟩
      ∧ isFinite (fsub 0x7FEFFFFFFFFFFFFF#64 (lpValue 0#64 0xFFEFFFFFFFFFFFFF#64 0x7FEFFFFFFFFFFFFF#64)) = false
      ∧ isFinite (lpValue 0#64 0xFFEFFFFFFFFFFFFF#64 0x7FEFFFFFFFFFFFFF#64) = true := by decide +kernel

theorem witness_FilterCommandsStepTheirCells_cascade :
    CascadeRun (bank [(a1000, 0#64), (f64One, 0#64)]).gf 0 2 (fun _ => true) f64One
        (fun k => if k = 0 then a1000 else f64One) (fun _ => 0#64)
        (fun k => if k = 0 then a1000 else 0x3FEC02646899D5AB#64)
        (fun k => if k = 0 then f64One else if k = 1 then 0x3FEC02646899D5AB#64 else 0#64) := by
  refine ⟨rfl, ?_, ?_, ?_⟩ <;> decide +kernel

theorem witness_FilterCommandsStepTheirCells_hilo :
    CascadeRun (bank [(a1000, 0#64), (f64One, 0#64)]).gf 0 (2 * 1) (fun k => decide (1 ≤ k)) f64One
        (fun k => if k = 0 then a1000 else f64One) (fun _ => 0#64) (fun _ => a1000)
        (fun k => if k = 0 then f64One else if k = 1 then a1000 else 0#64) := by
  refine ⟨rfl, ?_, ?_, ?_⟩ <;> decide +kernel

theorem witness_SubcarrierPhasePolicy :
    Regs.reset.compPhase = 0#64 ∧ ∀ k ∈ [1#64, 2#64, 3#64], ({ Regs.reset with compPhase := k } : Regs).compPhase = k :=
  ⟨rfl, fun _ _ => rfl⟩

/-- The lowpassed samples themselves. -/
def wLow (p : Nat) (alpha : F64) (delay : Nat) (y x : Nat) : Sample :=
  if x + delay < wP.w then (f2s (lpSeq3 alpha (rowInput wP p y) (x + delay))).getD 0#32 else wP.read p y x

/-- `lowpassedPlane` as a check that can be evaluated. -/
def lowpassedCheck (p : Nat) (alpha : F64) (delay : Nat) (out : Nat → Nat → Sample) : Bool :=
  (List.range wP.h).all fun y => (List.range wP.w).all fun x => y % 2 != parity wS.field ||
    (if x + delay < wP.w then f2s (lpSeq3 alpha (rowInput wP p y) (x + delay)) == some (out y x)
      else out y x == wP.read p y x)

theorem lowpassedCheck_sound {p : Nat} {alpha : F64} {delay : Nat} {out : Nat → Nat → Sample}
    (h : lowpassedCheck p alpha delay out = true) : lowpassedPlane wP wS.field p alpha delay out := by
  intro y hy x hx hp
  have := List.all_eq_true.mp (List.all_eq_true.mp h y (List.mem_range.mpr hy)) x (List.mem_range.mpr hx)
  split <;> simp_all

theorem witness_ClpfLowpassesChroma :
    lowpassedPlane wP wS.field planeI 0x3FD73F79F9C6BE70#64 2 (wLow planeI 0x3FD73F79F9C6BE70#64 2)
      ∧ lowpassedPlane wP wS.field planeQ 0x3FCAAD7D6E7E9479#64 4 (wLow planeQ 0x3FCAAD7D6E7E9479#64 4)
      ∧ lowpassedPlane wP wS.field planeI 0x3FE10DA7BF77EEE6#64 1 (wLow planeI 0x3FE10DA7BF77EEE6#64 1)
      ∧ lowpassedPlane wP wS.field planeQ 0x3FE10DA7BF77EEE6#64 1 (wLow planeQ 0x3FE10DA7BF77EEE6#64 1) := by
  refine ⟨?_, ?_, ?_, ?_⟩ <;> exact lowpassedCheck_sound (by decide +kernel)

theorem witness_VchromaLowpassesChroma :
    lowpassedPlane wP wS.field planeI 0x3FBF85AA1B360BBB#64 9 (wLow planeI 0x3FBF85AA1B360BBB#64 9)
      ∧ lowpassedPlane wP wS.field planeQ 0x3FBF85AA1B360BBB#64 9 (wLow planeQ 0x3FBF85AA1B360BBB#64 9) := by
  refine ⟨?_, ?_⟩ <;> exact lowpassedCheck_sound (by decide +kernel)

theorem witness_ModAddsCarrier :
    (∀ y < wP.h, ∀ x < wP.w, y % 2 = parity wS.field → inS32 (modValue wS wP y x) = true)
      ∧ inS32 (modValue (running (planes0 1 1 [2147483647] [1] [0])) (planes0 1 1 [2147483647] [1] [0]) 0 0) = false
      ∧ inS32 (modValue (running (planes0 1 1 [2147483647] [0] [0])) (planes0 1 1 [2147483647] [0] [0]) 0 0) = true := by
  decide +kernel

theorem witness_PreAddsHighpass :
    isZero (i2f 7) = false ∧ (configure fsc4 fsc).isSome = true
      ∧ ∀ y < wP.h, ∀ x < wP.w, y % 2 = parity wS.field →
        (f2s (fadd (rowInput wP planeY y x) (fmul (fsub (rowInput wP planeY y x)
          (lpSeq (alphaOf fsc4 fsc) (rowInput wP planeY y) x)) (i2f 7)))).isSome = true := by decide +kernel

/-- A row of the extremes of `S32`, on which every amplifying stage overflows, and one sample of the top value, on
which every noise of at least 1 does. -/
def wEdge : Planes :=
  planes0 8 1 [-2147483648, -2147483648, -2147483648, -2147483648, 2147483647, 2147483647, 2147483647, 2147483647]
    [2147483647, 2147483647] [2147483647, 2147483647]

theorem witness_PreAddsHighpass_misfit : someMisfit (running wEdge).field wEdge (fun y x =>
    (f2s (fadd (rowInput wEdge planeY y x) (fmul (fsub (rowInput wEdge planeY y x)
      (lpSeq (alphaOf fsc4 fsc) (rowInput wEdge planeY y) x)) (i2f 7)))).isSome = true) :=
  ⟨0, 0, by decide +kernel⟩

theorem witness_StageWithZeroAmountDoesNothing :
    isZero wS.regs.compPre = true ∧ wS.regs.videoNoise = 0#64 ∧ wS.regs.chromaNoise = 0#64
      ∧ wS.regs.chromaPhaseNoise = 0#64 ∧ wS.regs.chromaLoss = 0#64 := by decide +kernel

/-- Recorded draws and every amount at 1. -/
def wNoisy : State := { wS with
  regs := { Regs.reset with videoNoise := 1#64, chromaNoise := 1#64, chromaPhaseNoise := 1#64, chromaLoss := 1#64 },
  draws := ⟨[1, 1, 1, 1, 1, 1, 1, 1, 1, 1, 1, 1, 1, 1, 1, 1], 0⟩ }

theorem witness_YnoiseAddsWalk :
    wNoisy.runsOn wP ∧ wNoisy.regs.videoNoise ≠ 0#64
      ∧ ∀ y < wP.h, ∀ x < wP.w, y % 2 = parity wNoisy.field →
        inS32 ((wP.read planeY y x).toInt + walkAt 1 (fun k => answerAt wNoisy.draws (y / 2 * wP.w + k)) x) = true :=
  ⟨⟨rfl, rfl, by decide +kernel⟩, by decide, by decide +kernel⟩

/-- The answer 4 is the draw 2 for the amplitude 2, and the walk after it is 1. -/
theorem witness_YnoiseAddsWalk_misfit :
    FirstMisfit (running wEdge).field wEdge (fun y x => inS32 ((wEdge.read planeY y x).toInt
      + walkAt 2 (fun k => answerAt ⟨[2, 2, 2, 2, 4], 0⟩ (y / 2 * wEdge.w + k)) x) = true) 0 4 :=
  ⟨by decide +kernel, by decide +kernel, by decide +kernel, by decide +kernel⟩

theorem witness_CnoiseAddsTwoWalks :
    wNoisy.regs.chromaNoise ≠ 0#64
      ∧ ∀ y < wP.h, ∀ x < wP.w, y % 2 = parity wNoisy.field →
        inS32 ((wP.read planeI y x).toInt + walkAt 1 (fun k => answerAt wNoisy.draws (2 * (y / 2 * wP.w + k))) x) = true
          ∧ inS32 ((wP.read planeQ y x).toInt
            + walkAt 1 (fun k => answerAt wNoisy.draws (2 * (y / 2 * wP.w + k) + 1)) x) = true :=
  ⟨by decide, by decide +kernel⟩

/-- The misfit in `I`, its `Q` draw not made, and the misfit in `Q`. -/
theorem witness_CnoiseAddsTwoWalks_misfit :
    FirstMisfit (running wEdge).field wEdge (fun y x =>
        inS32 ((wEdge.read planeI y x).toInt
          + walkAt 2 (fun k => answerAt ⟨[2, 2, 4], 0⟩ (2 * (y / 2 * wEdge.w + k))) x) = true
        ∧ inS32 ((wEdge.read planeQ y x).toInt
          + walkAt 2 (fun k => answerAt ⟨[2, 2, 4], 0⟩ (2 * (y / 2 * wEdge.w + k) + 1)) x) = true) 0 1
      ∧ FirstMisfit (running wEdge).field wEdge (fun y x =>
        inS32 ((wEdge.read planeI y x).toInt
          + walkAt 2 (fun k => answerAt ⟨[2, 4], 0⟩ (2 * (y / 2 * wEdge.w + k))) x) = true
        ∧ inS32 ((wEdge.read planeQ y x).toInt
          + walkAt 2 (fun k => answerAt ⟨[2, 4], 0⟩ (2 * (y / 2 * wEdge.w + k) + 1)) x) = true) 0 0 := by
  have stuck : ∀ f : Nat → Nat → Prop, ¬ f 0 1 → f 0 0 → FirstMisfit (running wEdge).field wEdge f 0 1 :=
    fun f h1 h0 => ⟨by decide +kernel, by decide +kernel, h1, fun z _ u _ _ hlt => by
      obtain ⟨rfl, rfl⟩ : z = 0 ∧ u = 0 := by omega
      exact h0⟩
  have zero : ∀ f : Nat → Nat → Prop, ¬ f 0 0 → FirstMisfit (running wEdge).field wEdge f 0 0 :=
    fun f h0 => ⟨by decide +kernel, by decide +kernel, h0, fun z _ u _ _ hlt => by omega⟩
  exact ⟨stuck _ (by decide +kernel) (by decide +kernel), zero _ (by decide +kernel)⟩

/-- With the answer 1 the walk stays at 0, where `SIN` and `COS` are pinned. -/
theorem witness_CphaseRotatesChroma :
    wNoisy.regs.chromaPhaseNoise ≠ 0#64
      ∧ ∀ y < wP.h, ∀ x < wP.w, y % 2 = parity wNoisy.field →
        let th := fdiv (fmul (i2f (walkAt 1 (answerAt wNoisy.draws) (y / 2))) f64Pi) (i2f 100)
        f2s (fsub (fmul (rowInput wP planeI y x) (cosF th)) (fmul (rowInput wP planeQ y x) (sinF th)))
            = some (wP.read planeI y x)
          ∧ f2s (fadd (fmul (rowInput wP planeI y x) (sinF th)) (fmul (rowInput wP planeQ y x) (cosF th)))
            = some (wP.read planeQ y x) :=
  ⟨by decide, by decide +kernel⟩

/-- `SIN` and `COS` are free away from zero, so a misfit is shown for the functions that are 1 at the angle of the walk
1: then `Q` becomes the sum of two samples of the top value. -/
theorem witness_CphaseRotatesChroma_misfit
    (hs : Config.freeSin (fdiv (fmul (i2f 1) f64Pi) (i2f 100)) = f64One)
    (hc : Config.freeCos (fdiv (fmul (i2f 1) f64Pi) (i2f 100)) = f64One) :
    let th := fdiv (fmul (i2f (walkAt 2 (answerAt ⟨[4], 0⟩) (0 / 2))) f64Pi) (i2f 100)
    (f2s (fadd (fmul (rowInput wEdge planeI 0 0) (sinF th)) (fmul (rowInput wEdge planeQ 0 0) (cosF th)))).isSome
      = false := by
  have hn : walkAt 2 (answerAt ⟨[4], 0⟩) (0 / 2) = 1 := by decide +kernel
  have hz : isZero (fdiv (fmul (i2f 1) f64Pi) (i2f 100)) = false := by decide +kernel
  intro th
  have hth : th = fdiv (fmul (i2f 1) f64Pi) (i2f 100) := by simp only [th, hn]
  rw [hth, sinF, cosF, hz, hs, hc]
  decide +kernel

theorem witness_CdropZeroesDroppedRows :
    wNoisy.regs.chromaLoss ≠ 0#64 ∧ ({ Regs.reset with chromaLoss := 100000#64 } : Regs).chromaLoss ≠ 0#64 := by decide

theorem witness_DemodRecoversChroma :
    demodAmplitude wS.regs false = some 50
      ∧ (∀ y < wP.h, ∀ x < wP.w, y % 2 = parity wS.field →
        ((50 : Int) ≠ 0 → inS32 (chromaAt 50 wP (subcarrierPhase wS.regs wS.field y) y x) = true)
          ∧ inS32 (demodValue 50 wP (subcarrierPhase wS.regs wS.field y) 0 y x) = true
          ∧ inS32 (demodValue 50 wP (subcarrierPhase wS.regs wS.field y) 1 y x) = true)
      ∧ demodAmplitude { Regs.reset with scAmp := 0#64 } true = some 0
      ∧ demodAmplitude { Regs.reset with compPre := 0x7FE0000000000000#64, compCut := f64One } false = none := by
  decide +kernel

/-- One column, `Y = 2^30`, amplitude 1: the scaled residual leaves `S32` at a column that R220 does not use, and the
command faults. -/
theorem witness_DemodRecoversChroma_misfit :
    inS32 (chromaAt 1 (planes0 1 1 [1073741824] [] []) 0 0 0) = false
      ∧ inS32 (demodValue 1 (planes0 1 1 [1073741824] [] []) 0 0 0 0) = true
      ∧ (stage 0x25000001#32 { running (planes0 1 1 [1073741824] [] []) with
          regs := { Regs.reset with scAmp := 1#64 } }).fcode = 6#8 := by decide +kernel

/-- Constant rows of 8 columns. -/
def wFlat : Planes :=
  planes0 8 1 (List.replicate 8 1000) (List.replicate 8 100) (List.replicate 8 40)

theorem witness_ModulationRoundTrip :
    (running wFlat).runsOn wFlat ∧ 1 ≤ (running wFlat).regs.scAmp.toNat ∧ (running wFlat).regs.scAmp.toNat ≤ 100
      ∧ isZero (running wFlat).regs.compPre = true
      ∧ (∀ p < 3, ∀ z < wFlat.h, ∀ x < wFlat.w,
        -1048576 ≤ (wFlat.read p z x).toInt ∧ (wFlat.read p z x).toInt ≤ 1048576)
      ∧ 0 < wFlat.h ∧ 0 % 2 = parity (running wFlat).field
      ∧ (∀ x < wFlat.w, (wFlat.read planeY 0 x).toInt = 1000 ∧ (wFlat.read planeI 0 x).toInt = 100
        ∧ (wFlat.read planeQ 0 x).toInt = 40)
      ∧ (50 : Int) ∣ 100 * 50 ∧ (50 : Int) ∣ 40 * 50 ∧ 1 ≤ 4 + subcarrierPhase Regs.reset 0#64 0
      ∧ 4 + subcarrierPhase Regs.reset 0#64 0 + 4 ≤ wFlat.w ∧ 3 + subcarrierPhase Regs.reset 0#64 0 + 5 ≤ wFlat.w :=
  ⟨⟨rfl, rfl, by decide +kernel⟩, by decide +kernel⟩

theorem witness_HswShiftsRows :
    switchPosition false (4 + 4 / 10) (fadd (decimal 85 1000) 0#64) = some 89
      ∧ switchPosition false (4 + 4 / 10) (fadd (decimal 1 1000) 0#64) = some 1 ∧ isZero wS.regs.hswNoise = true := by
  decide +kernel

theorem witness_HswShiftsRows_noise :
    (switchPosition false (4 + 4 / 10) (fadd (decimal 85 1000) (fmul (unitOfAnswer 0) f64One))).isSome = true
      ∧ isZero f64One = false := by decide +kernel

theorem witness_VlumaBandlimitsLuma : ∀ y < wP.h, ∀ x < wP.w, y % 2 = parity wS.field →
    (f2s (vlumaValue (speedRow 0).1 (rowInput wP planeY y) x)).isSome = true := by decide +kernel

/-- A row of the top value: the band-limiter overshoots. -/
def wTop : Planes := planes0 8 1 (List.replicate 8 2147483647) [] []

theorem witness_VlumaBandlimitsLuma_misfit : someMisfit (running wTop).field wTop (fun y x =>
    (f2s (vlumaValue (speedRow 0).1 (rowInput wTop planeY y) x)).isSome = true) := ⟨0, 7, by decide +kernel⟩

theorem witness_VsharpSharpensLuma : ∀ y < wP.h, ∀ x < wP.w, y % 2 = parity wS.field →
    (f2s (vsharpValue (speedRow 0).2.2.2 wS.regs.vhsSharpen (rowInput wP planeY y) x)).isSome = true := by
  decide +kernel

theorem witness_VsharpSharpensLuma_misfit : someMisfit (running wEdge).field wEdge (fun y x =>
    (f2s (vsharpValue (speedRow 0).2.2.2 wS.regs.vhsSharpen (rowInput wEdge planeY y) x)).isSome = true) :=
  ⟨0, 0, by decide +kernel⟩

theorem witness_VhsCompletes : (issueAll (vhsProgram wS.regs) wS).resp = some (.ok 0#64) := by decide +kernel

/-- Rows 0 and 2 of `wP` hold content; in field 1 the rows are 1 alone, which is all 0. -/
theorem witness_VhsCompletes_zero :
    isFinite wS.regs.vhsSharpen = true ∧ parity 1#64 = 1
      ∧ ∀ p < 3, ∀ y < wP.h, ∀ x < wP.w, y % 2 = parity 1#64 → wP.read p y x = 0#32 := by decide +kernel

theorem witness_VhsCompletesOnPictureContent :
    wS.regs.scAmp.toNat ≤ 100 ∧ within (i2f 4) wS.regs.vhsSharpen = true
      ∧ ∀ p < 3, ∀ y < wP.h, ∀ x < wP.w, -131072 ≤ (wP.read p y x).toInt ∧ (wP.read p y x).toInt ≤ 131072 := by
  decide +kernel

theorem witness_MacrosAreTheirPrograms :
    (wS.phase = .run → wS.planes.isSome = true) ∧ State.reset.phase = .setup := by decide +kernel

theorem witness_RunfieldCompletesAndAdvances :
    wS.regs.emuEn = true ∧ wS.regs.inClp = false ∧ wS.regs.outClp = false ∧ wS.regs.hswEn = false
      ∧ wS.regs.vhsEn = false ∧ wS.regs.scAmp.toNat ≤ 100
      ∧ (∀ p < 3, ∀ y < wP.h, ∀ x < wP.w, -1048576 ≤ (wP.read p y x).toInt ∧ (wP.read p y x).toInt ≤ 1048576)
      ∧ ({ Regs.reset with ctrl := 0#64 } : Regs).emuEn = false := by decide +kernel

theorem witness_NextfieldAdvances : wS.phase = .run ∧ State.reset.phase = .setup := ⟨rfl, rfl⟩

/-- A mono frame at full scale, a frame whose boost overflows, and the two refusals. -/
theorem witness_AudfProcessesFrame :
    hifi.phase = .run ∧ hifi.audReady = true ∧ hifi.wdata.extractLsb' 32 32 = 0#32 ∧ hifi.regs.audCh = 2#64
      ∧ isFinite (audioV8 hifi.regs 0#64 hifi.aud0 32767 0) = true
      ∧ isFinite (audioV8 hifi.regs 0#64 hifi.aud1 (-32768) 0) = true
      ∧ (0x0000000100000000#64 : DataWord).extractLsb' 32 32 ≠ 0#32 ∧ wS.audReady = false := by decide +kernel

theorem witness_AudfProcessesFrame_overflow :
    isFinite (audioV8 { Regs.reset with audBoostGain := 0x7FEFFFFFFFFFFFFF#64, audHissLevel := 0x7FFFFFFF#64 } 0#64
      { hifi.aud0 with aboost := ⟨some 0#64, 0#64⟩ } 0 0) = false := by decide +kernel

theorem witness_AudioChannelsIndependent :
    let s := { hifi with wdata := 0xC0004000#64 }
    let s1 := { s with aud1 := AudioChannel.reset, wdata := 0x4000#64 }
    let s0 := { s with aud0 := { s.aud0 with apre := ⟨none, f64One⟩ }, wdata := 0xC0000000#64 }
    s.phase = .run ∧ s1 = { s with aud1 := s1.aud1, wdata := s1.wdata }
      ∧ s0 = { s with aud0 := s0.aud0, wdata := s0.wdata } ∧ s0.aud0 ≠ s.aud0
      ∧ s.wdata.extractLsb' 0 16 = s1.wdata.extractLsb' 0 16 ∧ s.wdata.extractLsb' 16 16 = s0.wdata.extractLsb' 16 16
      ∧ (rdata (run1 0x40000000#32 0xC0004000#64 s)).isSome = true
      ∧ (rdata (run1 0x40000000#32 0xC0000000#64 s0)).isSome = true := by
  decide +kernel

/-- With channel 1 configured otherwise the frame completes too. -/
theorem witness_AudioChannelsIndependent_completes :
    (rdata (run1 0x40000000#32 0x4000#64 { hifi with aud1 := { hifi.aud1 with alp := hifi.aud1.ahp } })).isSome = true := by
  decide +kernel

theorem witness_LimiterAndOutputRange :
    isNaN infinity = false ∧ flt f64One infinity = true ∧ flt 0xBFF0000000000001#64 (fneg f64One) = true
      ∧ fle (fneg f64One) 0x8000000000000000#64 = true ∧ isFinite (fmul f64One (i2f 32768)) = true
      ∧ isInf (fmul infinity (i2f 32768)) = true ∧ audioOut f64One = 32767 := by decide +kernel

theorem witness_PhaseAcceptsCommands :
    accepted .setup .mod = false ∧ accepted .run .setup = false ∧ accepted .faulted .setup = false
      ∧ accepted .run (.prd 3) = true ∧ (run1 0x09000003#32 0#64 wS).resp = some .fault := by decide +kernel

theorem witness_FaultIsPrecise :
    wS.phase ≠ .faulted ∧ (run1 0x08000003#32 0#64 wS).resp = some .fault
      ∧ (run1 0x08000003#32 0#64 wS).phase = .faulted := by decide +kernel

/-- A change of each piece of state. -/
theorem witness_WhoChangesWhat :
    (run1 0x02000009#32 7#64 State.reset).regs ≠ State.reset.regs
      ∧ (run1 0x02000003#32 7#64 State.reset).field ≠ State.reset.field
      ∧ (run1 0x39000000#32 0#64 wS).field ≠ wS.field ∧ (run1 0x11000000#32 f64One wS).gf ≠ wS.gf
      ∧ (run1 0x40000000#32 1#64 hifi).aud0 ≠ hifi.aud0 ∧ (run1 0x40000000#32 1#64 hifi).audT ≠ hifi.audT
      ∧ (run1 0x04000000#32 0#64 wAudio).audReady ≠ wAudio.audReady
      ∧ (run1 0x0A000000#32 0xFF#64 wS).planes ≠ wS.planes := by decide +kernel

theorem witness_OtherRowsKeepTheirValues :
    isFieldCommand .mod = true ∧ wS.planes = some wP ∧ (run1 0x21000000#32 0#64 wS).planes ≠ wS.planes := by
  decide +kernel

theorem witness_SilentCommandsMakeNoDraw :
    (wS.regs.videoNoise = 0#64 ∧ wS.regs.chromaNoise = 0#64 ∧ wS.regs.chromaPhaseNoise = 0#64
      ∧ wS.regs.chromaLoss = 0#64 ∧ isZero wS.regs.hswNoise = true ∧ wS.regs.audHissLevel = 0#64)
      ∧ Instr.vhs ∉ [Instr.ynoise, .hsw, .cnoise, .cphase, .cdrop, .runfield, .audf] := by decide +kernel

theorem witness_DrawsLieInTheirRange :
    (-3 : Int) ≤ 3 ∧ (draw (-3) 3 ⟨[6], 0⟩).1 = 3 ∧ (draw (-3) 3 ⟨[0], 0⟩).1 = -3 := by decide +kernel

theorem witness_OperationsRoundToNearestEven :
    isFinite f64One = true ∧ isFinite (fdiv f64One (i2f 3)) = true ∧ isFinite (fmul (i2f 3) (fdiv f64One (i2f 3))) = true
      ∧ isZero (i2f 3) = false ∧ isFinite (fadd 0x7FEFFFFFFFFFFFFF#64 0x0000000000000001#64) = true := by decide +kernel

/-- The largest finite value plus half a unit in its last place, a tie, is an infinity; a little less is not. -/
theorem witness_OperationsOnSpecialValues :
    fadd 0x7FEFFFFFFFFFFFFF#64 0x7C90000000000000#64 = infinity
      ∧ isFinite (fadd 0x7FEFFFFFFFFFFFFF#64 0x7C8FFFFFFFFFFFFF#64) = true
      ∧ isFinite (fmul 0x7FEFFFFFFFFFFFFF#64 0x7FEFFFFFFFFFFFFF#64) = false
      ∧ isFinite (fdiv 0x7FEFFFFFFFFFFFFF#64 0x0000000000000001#64) = false ∧ isZero (0x8000000000000000#64 : F64) = true
      ∧ isNaN nanValue = true ∧ isInf infinity = true ∧ isFinite f64One = true := by decide +kernel

theorem witness_ConversionsFollowTheirRules :
    isFinite (decimal (-5) 2) = true ∧ truncInt (decimal (-5) 2) = -2 ∧ roundAway (decimal (-5) 2) = -3
      ∧ ffloor (decimal (-5) 2) = i2f (-3) ∧ 2147483647 < truncInt (i2f 2147483648) ∧ isFinite infinity = false
      ∧ isInf infinity = true ∧ flt 0#64 (decimal 2625 10) = true ∧ ffmod (i2f 263) (decimal 2625 10) = decimal 1 2
      ∧ isFinite (i2f 9007199254740993) = true := by decide +kernel

/-- A machine of 4 columns and 3 rows after its `SETUP`, with some content and a configured general cell. -/
def wRun : State := { bank [(a1000, f64One)] with regs := { Regs.reset with dim := 0x00030004#64 }, planes := some wP }

theorem witness_RegistersStayLegal : wRun.RegsLegal := fun r => by cases r <;> decide +kernel

theorem witness_PlanesStayCanonical : wRun.PlanesCanonical := by
  intro P h; obtain rfl : wP = P := Option.some.inj h; decide +kernel

theorem witness_LifeCycleIsKept : wRun.LifeCycle where
  setup_bare := fun h => nomatch h
  run_planes := fun _ => rfl
  dims := by intro P h; obtain rfl : wP = P := Option.some.inj h; decide +kernel
  no_record := fun _ => ⟨rfl, rfl⟩
  record := fun h => nomatch h
  audio := fun h => nomatch h

theorem witness_GeneralCellsStayFinite : wRun.BankFinite := by
  have h : wRun.gf.toList.all (fun c => isFinite c.prev && c.alpha.all isFinite) = true := by decide +kernel
  intro k c hk
  have := List.all_eq_true.mp h c (Vector.mem_toList_iff.mpr (Vector.mem_of_getElem? hk))
  simp only [Bool.and_eq_true] at this
  exact ⟨this.1, fun a ha => by simpa [ha] using this.2⟩

theorem witness_AudioCellsStayFinite : hifi.AudioBounded := by
  have cells : ∀ ch ∈ [hifi.aud0, hifi.aud1], ch.cells.all (fun c =>
      c.alpha.all (fun a => fle 0#64 a && fle a 0x3FF0000000000000#64) && c.prev == 0#64) = true := by decide +kernel
  have bounded : ∀ ch ∈ [hifi.aud0, hifi.aud1], ch.Bounded := fun ch hch => by
    have hall : ∀ c ∈ ch.cells, c.AlphaInUnit ∧ c.prev = 0#64 := fun c hc => by
      have := List.all_eq_true.mp (cells ch hch) c hc
      simp only [Bool.and_eq_true, beq_iff_eq] at this
      exact ⟨fun a ha => by simpa [ha] using this.1, this.2⟩
    have hk : ∀ k < 6, within (i2f (2 ^ k : Nat)) 0#64 = true := by decide +kernel
    refine ⟨fun c hc => (hall c hc).1, fun k c hc => ?_, fun k c hc => ?_, ?_, ?_, ?_⟩
    · rw [(hall c (by simp [AudioChannel.cells, Vector.mem_of_getElem? hc])).2]; decide +kernel
    · rw [(hall c (by simp [AudioChannel.cells, Vector.mem_of_getElem? hc])).2]
      exact hk k (by have := (Vector.getElem?_eq_some_iff.mp hc).1; simpa using this)
    · rw [(hall ch.apre (by simp [AudioChannel.cells])).2]; decide +kernel
    · rw [(hall ch.ade (by simp [AudioChannel.cells])).2]; decide +kernel
    · rw [(hall ch.aboost (by simp [AudioChannel.cells])).2]; decide +kernel
  exact ⟨bounded _ (by simp), bounded _ (by simp), fun _ => by decide +kernel, fun _ => by decide +kernel,
    fun h => nomatch h⟩

end Sys2Proof.Tests
end

section
/-!
PROOFS. Binary64 patterns (00_scope.md R12): the sign, the significand and the exponent of a pattern, and what its
parts say of its value in units.
-/
namespace Sys2Proof.Machine

/-! ## The parts of a pattern -/

theorem magBits_lt (v : F64) : magBits v < 2 ^ 63 := Nat.mod_lt _ (by decide)

theorem expField_eq (v : F64) : expField v = magBits v / 2 ^ 52 := by
  unfold expField magBits; omega

theorem fracField_eq (v : F64) : fracField v = magBits v % 2 ^ 52 := by
  unfold fracField magBits; omega

theorem isFinite_iff (v : F64) : isFinite v = true ↔ magBits v < infMag := by
  have hlt := magBits_lt v
  simp only [isFinite, expField_eq, infMag, decide_eq_true_eq]
  omega

theorem isInf_iff (v : F64) : isInf v = true ↔ magBits v = infMag := by
  simp only [isInf, expField_eq, fracField_eq, infMag, decide_eq_true_eq]
  omega

theorem isNaN_iff (v : F64) : isNaN v = true ↔ infMag < magBits v := by
  have hlt := magBits_lt v
  simp only [isNaN, expField_eq, fracField_eq, infMag, decide_eq_true_eq]
  omega

theorem isNaN_of_isFinite {v : F64} (h : isFinite v = true) : isNaN v = false := by
  rw [isFinite_iff] at h
  rw [Bool.eq_false_iff, ne_eq, isNaN_iff]; omega

theorem isInf_of_isFinite {v : F64} (h : isFinite v = true) : isInf v = false := by
  rw [isFinite_iff] at h
  rw [Bool.eq_false_iff, ne_eq, isInf_iff]; omega

theorem isNaN_of_isInf {v : F64} (h : isInf v = true) : isNaN v = false := by
  rw [isInf_iff] at h
  rw [Bool.eq_false_iff, ne_eq, isNaN_iff]; omega

theorem isFinite_of_isInf {v : F64} (h : isInf v = true) : isFinite v = false := by
  rw [isInf_iff] at h
  rw [Bool.eq_false_iff, ne_eq, isFinite_iff]; omega

theorem isZero_of_isInf {v : F64} (h : isInf v = true) : isZero v = false := by
  rw [isInf_iff] at h
  simp [isZero, h, infMag]

/-! ## Building a pattern from a sign and its other bits -/

section
variable {neg : Bool} {mag : Nat}

theorem toNat_packBits (h : mag < 2 ^ 63) :
    (packBits neg mag).toNat = if neg then 2 ^ 63 + mag else mag := by
  cases neg <;> simp only [packBits, BitVec.toNat_ofNat, if_true, Bool.false_eq_true, if_false] <;> omega

@[simp] theorem magBits_packBits (h : mag < 2 ^ 63) : magBits (packBits neg mag) = mag := by
  rw [magBits, toNat_packBits h]
  cases neg <;> simp only [if_true, Bool.false_eq_true, if_false] <;> omega

@[simp] theorem isNeg_packBits (h : mag < 2 ^ 63) : isNeg (packBits neg mag) = neg := by
  rw [isNeg, toNat_packBits h]
  cases neg <;> simp only [if_true, Bool.false_eq_true, if_false, decide_eq_true_eq, decide_eq_false_iff_not] <;> omega

theorem isFinite_packBits (h : mag < 2 ^ 63) : isFinite (packBits neg mag) = true ↔ mag < infMag := by
  rw [isFinite_iff, magBits_packBits h]

theorem toNat_packBits_mod_two (h : mag < 2 ^ 63) : (packBits neg mag).toNat % 2 = mag % 2 := by
  rw [toNat_packBits h]
  cases neg
  · rfl
  · rw [if_pos rfl]; omega

end

/-- A pattern is its sign bit above its other bits. -/
theorem toNat_eq_sign_add_magBits (v : F64) : v.toNat = (if isNeg v then 2 ^ 63 else 0) + magBits v := by
  have hlt := v.isLt
  simp only [isNeg, magBits, decide_eq_true_eq]
  split <;> omega

theorem packBits_isNeg_magBits (v : F64) : packBits (isNeg v) (magBits v) = v := by
  apply BitVec.eq_of_toNat_eq
  rw [toNat_packBits (magBits_lt v), toNat_eq_sign_add_magBits v]
  cases isNeg v <;> simp

/-- Negation flips the sign bit alone. -/
theorem fneg_eq_xor (v : F64) : fneg v = v ^^^ 0x8000000000000000#64 := by
  have low : (v.toNat ^^^ 2 ^ 63) % 2 ^ 63 = magBits v := by
    rw [Nat.xor_mod_two_pow, Nat.mod_self, Nat.xor_zero, magBits]
  have high : (v.toNat ^^^ 2 ^ 63) / 2 ^ 63 = if isNeg v then 0 else 1 := by
    have hv : v.toNat / 2 ^ 63 = if isNeg v then 1 else 0 := by
      have hlt := v.isLt
      simp only [isNeg, decide_eq_true_eq]
      split <;> omega
    rw [Nat.xor_div_two_pow, hv]
    cases isNeg v <;> rfl
  apply BitVec.eq_of_toNat_eq
  rw [fneg, toNat_packBits (magBits_lt v), BitVec.toNat_xor, show (0x8000000000000000#64).toNat = 2 ^ 63 from rfl,
    ← Nat.div_add_mod (v.toNat ^^^ 2 ^ 63) (2 ^ 63), low, high]
  cases isNeg v <;> simp

/-! ## Significands: a pattern `k * 2 ^ 52 + R` stands for `R * 2 ^ k` units -/

/-- `R` is a significand for the exponent `k`: 53 digits, or fewer at the least exponent. `R = 2 ^ 53` is the carry
into the next exponent, which stands for the same value. -/
structure Significand (k R : Nat) : Prop where
  le : R ≤ 2 ^ 53
  ge : k = 0 ∨ 2 ^ 52 ≤ R

/-- The exponent field and the fraction are one number: a carry out of the fraction steps the exponent. -/
theorem Significand.magUnits_eq {k R : Nat} (h : Significand k R) {v : F64} (hv : magBits v = k * 2 ^ 52 + R) :
    magUnits v = R * 2 ^ k := by
  obtain ⟨hle, hge⟩ := h
  rw [magUnits, expField_eq, fracField_eq, hv]
  rcases Nat.lt_or_ge R (2 ^ 52) with hR | hR
  · obtain rfl : k = 0 := by omega
    rw [if_pos (by omega), Nat.pow_zero]; omega
  · rw [if_neg (by omega)]
    rcases Nat.lt_or_ge R (2 ^ 53) with hR' | hR'
    · rw [show (k * 2 ^ 52 + R) / 2 ^ 52 - 1 = k by omega]
      congr 1; omega
    · obtain rfl : R = 2 ^ 53 := by omega
      rw [show (k * 2 ^ 52 + 2 ^ 53) / 2 ^ 52 - 1 = k + 1 by omega,
        show (k * 2 ^ 52 + 2 ^ 53) % 2 ^ 52 = 0 by omega, Nat.pow_succ]
      omega

/-- Every pattern has a significand below the carry. -/
theorem exists_significand (v : F64) :
    ∃ k R, Significand k R ∧ R < 2 ^ 53 ∧ magBits v = k * 2 ^ 52 + R ∧ magUnits v = R * 2 ^ k := by
  have hs : Significand (magBits v / 2 ^ 52 - 1) (magBits v - (magBits v / 2 ^ 52 - 1) * 2 ^ 52) :=
    ⟨by omega, by omega⟩
  have hv : magBits v =
      (magBits v / 2 ^ 52 - 1) * 2 ^ 52 + (magBits v - (magBits v / 2 ^ 52 - 1) * 2 ^ 52) := by omega
  exact ⟨_, _, hs, by omega, hv, hs.magUnits_eq hv⟩

theorem magUnits_eq_zero_iff (v : F64) : magUnits v = 0 ↔ magBits v = 0 := by
  obtain ⟨k, R, hs, -, hv, hu⟩ := exists_significand v
  have hpow : 2 ^ k ≠ 0 := by positivity
  rw [hu, hv, Nat.mul_eq_zero, or_iff_left hpow]
  have := hs.ge
  omega

theorem isZero_iff_magUnits (v : F64) : isZero v = true ↔ magUnits v = 0 := by
  rw [magUnits_eq_zero_iff, isZero, decide_eq_true_eq]

theorem magUnits_pos {v : F64} (h : isZero v = false) : 0 < magUnits v := by
  rw [Bool.eq_false_iff, ne_eq, isZero_iff_magUnits] at h
  omega

/-! ## Signed values -/

/-- The integer of a sign and a magnitude. -/
def signed (neg : Bool) (n : Nat) : Int := if neg then -(n : Int) else n

theorem toUnits_eq_signed (v : F64) : toUnits v = signed (isNeg v) (magUnits v) := rfl

@[simp] theorem natAbs_signed (neg : Bool) (n : Nat) : (signed neg n).natAbs = n := by
  cases neg <;> simp [signed]

theorem natAbs_toUnits (v : F64) : (toUnits v).natAbs = magUnits v := natAbs_signed _ _

theorem signed_mul_signed (s t : Bool) (m n : Nat) : signed s m * signed t n = signed (s != t) (m * n) := by
  cases s <;> cases t <;> simp [signed]

theorem signed_mul_natCast (s : Bool) (m n : Nat) : signed s m * n = signed s (m * n) := by
  cases s <;> simp [signed]

/-- An integer is its sign and its size. -/
theorem signed_natAbs (n : Int) : signed (decide (n < 0)) n.natAbs = n := by
  simp only [signed, decide_eq_true_eq]
  split <;> omega

end Sys2Proof.Machine
end

section
/-!
PROOFS. Rounding (00_scope.md R12): the one rounding of every operation is to the nearest value, ties to even, and
overflows exactly from the halfway point above the largest finite value on.
-/
namespace Sys2Proof.Machine

/-! ## Rounding to an integer -/

theorem roundHalfEven_near (N : Nat) {D : Nat} (hD : 0 < D) :
    2 * ((N : Int) - roundHalfEven N D * D).natAbs ≤ D := by
  have hdiv : (D : Int) * (N / D : Nat) + (N % D : Nat) = N := by exact_mod_cast Nat.div_add_mod N D
  have hmod := Nat.mod_lt N hD
  simp only [roundHalfEven]
  split
  · have hq : (((N / D + 1 : Nat) : Int)) * D = D * (N / D : Nat) + D := by push_cast; ring
    rw [hq]; omega
  · rw [Int.mul_comm]; omega

theorem roundHalfEven_tie (N : Nat) {D : Nat} (hD : 0 < D)
    (h : 2 * ((N : Int) - roundHalfEven N D * D).natAbs = D) : roundHalfEven N D % 2 = 0 := by
  have hdiv : (D : Int) * (N / D : Nat) + (N % D : Nat) = N := by exact_mod_cast Nat.div_add_mod N D
  have hmod := Nat.mod_lt N hD
  simp only [roundHalfEven] at h ⊢
  split at h
  · have hq : (((N / D + 1 : Nat) : Int)) * D = D * (N / D : Nat) + D := by push_cast; ring
    rw [hq] at h
    rw [if_pos (by assumption)]; omega
  · rw [Int.mul_comm] at h
    rw [if_neg (by assumption)]; omega

/-- A multiple of `D` within half of `D` has no other multiple nearer, and one as near only at a tie. -/
theorem nearest_multiple {N R j D : Int} (hnear : 2 * (N - R * D).natAbs ≤ D) :
    (N - R * D).natAbs ≤ (N - j * D).natAbs
      ∧ ((N - j * D).natAbs = (N - R * D).natAbs → j ≠ R → 2 * ((N - R * D).natAbs : Int) = D) := by
  have hD : 0 ≤ D := by omega
  have hsplit : N - j * D = N - R * D + (R - j) * D := by ring
  rcases Int.lt_trichotomy j R with hj | hj | hj
  · have hgap : 1 * D ≤ (R - j) * D := Int.mul_le_mul_of_nonneg_right (by omega) hD
    omega
  · subst hj
    exact ⟨le_refl _, fun _ hne => absurd rfl hne⟩
  · have hgap : 1 * D ≤ (j - R) * D := Int.mul_le_mul_of_nonneg_right (by omega) hD
    have hneg : (R - j) * D = -((j - R) * D) := by ring
    omega

/-! ## The significand of a rounded quotient -/

theorem lt_of_ulpExp_bitLen (q : Nat) : q < 2 ^ 53 * 2 ^ ulpExp (bitLen q) := by
  unfold ulpExp bitLen
  split
  · subst q; positivity
  · rw [← Nat.pow_add]
    exact Nat.lt_log2_self.trans_le (Nat.pow_le_pow_right (by decide) (by omega))

theorem le_of_ulpExp_bitLen (q : Nat) :
    ulpExp (bitLen q) = 0 ∨ 2 ^ 52 * 2 ^ ulpExp (bitLen q) ≤ q := by
  unfold ulpExp bitLen
  split
  · exact .inl rfl
  · rw [or_iff_not_imp_left, ← Nat.pow_add]
    intro hk
    exact (Nat.pow_le_pow_right (by decide) (by omega)).trans (Nat.log2_self_le (by assumption))

/-- `R` is the significand and `k` the exponent of `num / den` rounded to nearest, ties to even: the quotient lies in
the binade of `k`, and no other multiple of `2 ^ k` is nearer. -/
structure RoundsTo (num den k R : Nat) : Prop extends Significand k R where
  lt : num < 2 ^ 53 * (den * 2 ^ k)
  binade : k = 0 ∨ 2 ^ 52 * (den * 2 ^ k) ≤ num
  near : 2 * ((num : Int) - R * (den * 2 ^ k : Nat)).natAbs ≤ den * 2 ^ k
  tie : 2 * ((num : Int) - R * (den * 2 ^ k : Nat)).natAbs = den * 2 ^ k → R % 2 = 0

/-- What `roundMag` can do: round to a significand, and turn what is too large into infinity. -/
theorem roundMag_cases (num : Nat) {den : Nat} (hden : 0 < den) :
    ∃ k R, RoundsTo num den k R ∧ roundMag num den = min infMag (k * 2 ^ 52 + R) := by
  let k := ulpExp (bitLen (num / den))
  have hD : 0 < den * 2 ^ k := by positivity
  have hlt : num < 2 ^ 53 * (den * 2 ^ k) := by
    have h := (Nat.div_lt_iff_lt_mul hden).mp (lt_of_ulpExp_bitLen (num / den))
    rwa [Nat.mul_assoc, Nat.mul_comm (2 ^ _) den] at h
  have hge : k = 0 ∨ 2 ^ 52 * (den * 2 ^ k) ≤ num := by
    refine (le_of_ulpExp_bitLen (num / den)).imp_right fun h => ?_
    have h' := (Nat.le_div_iff_mul_le hden).mp h
    rwa [Nat.mul_assoc, Nat.mul_comm (2 ^ _) den] at h'
  have hquot : num / (den * 2 ^ k) ≤ roundHalfEven num (den * 2 ^ k)
      ∧ roundHalfEven num (den * 2 ^ k) ≤ num / (den * 2 ^ k) + 1 := by
    simp only [roundHalfEven]
    split <;> omega
  refine ⟨k, roundHalfEven num (den * 2 ^ k),
    { le := ?_, ge := ?_, lt := hlt, binade := hge, near := roundHalfEven_near num hD, tie := roundHalfEven_tie num hD },
    rfl⟩
  · have := (Nat.div_lt_iff_lt_mul hD).mpr hlt
    omega
  · exact hge.imp_right fun h => ((Nat.le_div_iff_mul_le hD).mpr h).trans hquot.1

/-- The largest finite value ends below this many units: half a last place above it. -/
def overflowLimit : Nat := (2 ^ 54 - 1) * 2 ^ 2044

section
variable {num den k R : Nat}

/-- Which roundings stay below the pattern of exponent `e + 2` and no fraction: above `e + 1` no exponent does, at
`e + 1` all but the carry do. -/
theorem RoundsTo.lt_pattern_iff (h : RoundsTo num den k R) (hden : 0 < den) (e : Nat) :
    k * 2 ^ 52 + R < (e + 3) * 2 ^ 52 ↔ num < (2 ^ 54 - 1) * (den * 2 ^ e) := by
  have hpos : 0 < den * 2 ^ e := by positivity
  obtain ⟨⟨hle, hge⟩, hlt, hbinade, hnear, htie⟩ := h
  rcases Nat.lt_trichotomy k (e + 1) with hk | hk | hk
  · have hpow : den * 2 ^ k ≤ den * 2 ^ e :=
      Nat.mul_le_mul_left den (Nat.pow_le_pow_right (by decide) (by omega))
    omega
  · have hpow : den * 2 ^ k = 2 * (den * 2 ^ e) := by rw [hk, Nat.pow_succ]; ring
    rw [hpow] at hlt hnear htie
    generalize den * 2 ^ e = E at *
    rcases Nat.lt_or_ge R (2 ^ 53) with hR | hR
    · refine iff_of_true (by omega) ?_
      by_contra hnum
      have hbound : ∀ m : Int, R ≤ m → (R : Int) * (2 * E : Nat) ≤ m * (2 * E : Nat) :=
        fun m hm => Int.mul_le_mul_of_nonneg_right hm (by omega)
      have hmax := hbound (2 ^ 53 - 1) (by omega)
      have hodd : R = 2 ^ 53 - 1 := by
        by_contra hne
        have := hbound (2 ^ 53 - 2) (by omega)
        omega
      subst hodd
      have := htie (by push_cast at *; omega)
      omega
    · obtain rfl : R = 2 ^ 53 := by omega
      refine iff_of_false (by omega) ?_
      push_cast at hnear
      omega
  · have hpow : den * 2 ^ (e + 2) ≤ den * 2 ^ k :=
      Nat.mul_le_mul_left den (Nat.pow_le_pow_right (by decide) (by omega))
    have hpow' : den * 2 ^ (e + 2) = 4 * (den * 2 ^ e) := by ring
    omega

theorem RoundsTo.lt_infMag_iff (h : RoundsTo num den k R) (hden : 0 < den) :
    k * 2 ^ 52 + R < infMag ↔ num < overflowLimit * den := by
  rw [overflowLimit, Nat.mul_assoc, Nat.mul_comm (2 ^ _) den]
  exact h.lt_pattern_iff hden 2044

/-- No value of the format is nearer `num / den` than its rounding, and one as near leaves the significand even: a
value of the binade or above is a multiple of `2 ^ k`, and any other lies below the binade's least value. -/
theorem RoundsTo.nearest (h : RoundsTo num den k R) (hden : 0 < den) {u : Int} {v : F64} (hu : u.natAbs = magUnits v) :
    ((num : Int) - (R * 2 ^ k : Nat) * den).natAbs ≤ ((num : Int) - u * den).natAbs
      ∧ (((num : Int) - u * den).natAbs = ((num : Int) - (R * 2 ^ k : Nat) * den).natAbs →
        u ≠ (R * 2 ^ k : Nat) → R % 2 = 0) := by
  have hmult (j : Int) : j * (2 ^ k : Nat) * den = j * (den * 2 ^ k : Nat) := by push_cast; ring
  have hnear : 2 * (((num : Int) - R * (den * 2 ^ k : Nat)).natAbs : Int) ≤ (den * 2 ^ k : Nat) := by
    exact_mod_cast h.near
  rw [Nat.cast_mul R, hmult]
  obtain ⟨k', R', -, hR', -, hmag⟩ := exists_significand v
  rw [hmag] at hu
  rcases Nat.lt_or_ge k' k with hk | hk
  · have hbinade := h.binade.resolve_left (by omega)
    have hsmall : u.natAbs < 2 ^ 52 * 2 ^ k := by
      have hpow : 2 ^ (k' + 1) ≤ 2 ^ k := Nat.pow_le_pow_right (by decide) hk
      have hlt : R' * 2 ^ k' < 2 ^ 53 * 2 ^ k' := Nat.mul_lt_mul_of_pos_right hR' (by positivity)
      omega
    have hbelow : u * den < 2 ^ 52 * (den * 2 ^ k : Nat) := by
      rw [← hmult]
      exact Int.mul_lt_mul_of_pos_right (by omega) (by exact_mod_cast hden)
    have hleast := (nearest_multiple (j := 2 ^ 52) hnear).1
    omega
  · obtain ⟨j, rfl⟩ : ((2 ^ k : Nat) : Int) ∣ u := by
      rw [Int.natCast_dvd, hu]
      exact Dvd.dvd.mul_left (Nat.pow_dvd_pow 2 hk) R'
    rw [Int.mul_comm _ j, hmult]
    obtain ⟨hle, heq⟩ := nearest_multiple (j := j) hnear
    refine ⟨hle, fun he hne => h.tie ?_⟩
    have hjR : j ≠ R := fun hj => hne (by rw [hj])
    exact_mod_cast heq he hjR

end

/-! ## The rounded value -/

section
variable {num den : Nat}

theorem roundMag_lt (num den : Nat) : roundMag num den < 2 ^ 63 := by
  have h : roundMag num den ≤ infMag := Nat.min_le_left _ _
  unfold infMag at h
  omega

@[simp] theorem isNeg_roundUnits (neg : Bool) (num den : Nat) : isNeg (roundUnits neg num den) = neg :=
  isNeg_packBits (roundMag_lt num den)

@[simp] theorem magBits_roundUnits (neg : Bool) (num den : Nat) :
    magBits (roundUnits neg num den) = roundMag num den :=
  magBits_packBits (roundMag_lt num den)

/-- A rounding is finite exactly below the halfway point above the largest finite value. -/
theorem isFinite_roundUnits_iff (neg : Bool) (hden : 0 < den) :
    isFinite (roundUnits neg num den) = true ↔ num < overflowLimit * den := by
  obtain ⟨k, R, h, hmag⟩ := roundMag_cases num hden
  rw [isFinite_iff, magBits_roundUnits, hmag, ← h.lt_infMag_iff hden]
  omega

/-- Where it is not finite it is the infinity of its sign. -/
theorem roundUnits_of_not_finite {neg : Bool} (h : isFinite (roundUnits neg num den) = false) :
    roundUnits neg num den = packBits neg infMag := by
  have hle : roundMag num den ≤ infMag := Nat.min_le_left _ _
  rw [Bool.eq_false_iff, ne_eq, isFinite_iff, magBits_roundUnits] at h
  rw [roundUnits, show roundMag num den = infMag by omega]

/-- A finite rounding has the significand and exponent of its quotient, and its last bit is the significand's. -/
theorem toUnits_roundUnits {neg : Bool} (hden : 0 < den) (h : isFinite (roundUnits neg num den) = true) :
    ∃ k R, RoundsTo num den k R ∧ toUnits (roundUnits neg num den) = signed neg (R * 2 ^ k)
      ∧ (roundUnits neg num den).toNat % 2 = R % 2 := by
  obtain ⟨k, R, hr, hmag⟩ := roundMag_cases num hden
  rw [isFinite_iff, magBits_roundUnits] at h
  have hval : roundMag num den = k * 2 ^ 52 + R := by omega
  refine ⟨k, R, hr, ?_, ?_⟩
  · rw [toUnits_eq_signed, isNeg_roundUnits,
      hr.toSignificand.magUnits_eq ((magBits_roundUnits neg num den).trans hval)]
  · rw [roundUnits, toNat_packBits_mod_two (roundMag_lt num den), hval]
    omega

/-- `r` is the value nearest `exact / den`: no value `q` is nearer, and where one is as near, `r` is even. -/
def NearestEven (exact : Int) (den : Nat) (r : F64) : Prop :=
  ∀ q : F64, (exact - toUnits r * den).natAbs ≤ (exact - toUnits q * den).natAbs
    ∧ ((exact - toUnits q * den).natAbs = (exact - toUnits r * den).natAbs →
      toUnits q ≠ toUnits r → r.toNat % 2 = 0)

/-- Rounding is to nearest, ties to even (R12). -/
theorem nearestEven_roundUnits {neg : Bool} (hden : 0 < den) (hf : isFinite (roundUnits neg num den) = true) :
    NearestEven (signed neg num) den (roundUnits neg num den) := by
  intro q
  obtain ⟨k, R, hr, hval, hpar⟩ := toUnits_roundUnits hden hf
  rw [hval, hpar]
  cases neg
  · exact hr.nearest hden (natAbs_toUnits q)
  · have hflip : ∀ t : Int, (signed true num - t * den).natAbs = ((num : Int) - -t * den).natAbs := fun t => by
      rw [signed, if_pos rfl, ← Int.natAbs_neg]
      congr 1
      ring
    have hsigned : -signed true (R * 2 ^ k) = (R * 2 ^ k : Nat) := by simp [signed]
    rw [hflip, hflip, hsigned]
    obtain ⟨hle, heq⟩ := hr.nearest hden (u := -toUnits q) (by rw [Int.natAbs_neg, natAbs_toUnits])
    exact ⟨hle, fun he hne => heq he fun hq => hne (by rw [← Int.neg_neg (toUnits q), hq, ← hsigned, Int.neg_neg])⟩

/-- A value of at most 53 digits and an exponent of the format is finite and kept exactly. -/
theorem roundUnits_exact {neg : Bool} {k : Nat} (hlim : num < overflowLimit) (hle : num ≤ 2 ^ 53 * 2 ^ k)
    (hdvd : 2 ^ k ∣ num) :
    isFinite (roundUnits neg num 1) = true ∧ toUnits (roundUnits neg num 1) = signed neg num := by
  have hf : isFinite (roundUnits neg num 1) = true := by
    rwa [isFinite_roundUnits_iff neg Nat.one_pos, Nat.mul_one]
  obtain ⟨j, R, hr, hval, -⟩ := toUnits_roundUnits Nat.one_pos hf
  have hnear := hr.near
  have hbinade := hr.binade
  rw [Nat.one_mul] at hnear hbinade
  obtain ⟨c, hc⟩ : 2 ^ j ∣ num := by
    rcases Nat.lt_or_ge k j with hj | hj
    · have hpow : 2 ^ (k + 1) ≤ 2 ^ j := Nat.pow_le_pow_right (by decide) hj
      exact ⟨2 ^ 52, by omega⟩
    · exact (Nat.pow_dvd_pow 2 hj).trans hdvd
  have hc' : (num : Int) = c * (2 ^ j : Nat) := by rw [hc]; push_cast; ring
  have hzero := (nearest_multiple (N := num) (R := R) (D := (2 ^ j : Nat)) (j := c) (by omega)).1
  rw [← hc', Int.sub_self] at hzero
  refine ⟨hf, ?_⟩
  rw [hval, show R * 2 ^ j = num by rw [← Int.natCast_inj, Nat.cast_mul]; omega]

/-- A value of the format rounds to itself. -/
theorem roundsTo_magUnits (v : F64) :
    ∃ k R, RoundsTo (magUnits v) 1 k R ∧ magBits v = k * 2 ^ 52 + R := by
  obtain ⟨k, R, hs, hR, hbits, hunits⟩ := exists_significand v
  have hpos : 0 < 2 ^ k := by positivity
  have herr : ((magUnits v : Int) - R * (1 * 2 ^ k : Nat)).natAbs = 0 := by
    rw [hunits, Nat.one_mul]; push_cast; simp
  refine ⟨k, R, { hs with lt := ?_, binade := ?_, near := ?_, tie := ?_ }, hbits⟩
  · rw [hunits, Nat.one_mul]; exact Nat.mul_lt_mul_of_pos_right hR hpos
  · rw [hunits, Nat.one_mul]; exact hs.ge.imp_right (Nat.mul_le_mul_right _)
  · omega
  · omega

theorem isFinite_iff_magUnits (v : F64) : isFinite v = true ↔ magUnits v < overflowLimit := by
  obtain ⟨k, R, hr, hbits⟩ := roundsTo_magUnits v
  rw [isFinite_iff, hbits, hr.lt_infMag_iff Nat.one_pos, Nat.mul_one]

end

end Sys2Proof.Machine
end

section
/-!
PROOFS. The operations on finite values and on the special ones (00_scope.md R12, 41_iir_filter.md R174), and the two
obligations on them.
-/
namespace Sys2Proof.Machine

/-! ## What each operation does -/

theorem toUnits_packBits_zero (neg : Bool) : toUnits (packBits neg 0) = 0 := by
  cases neg <;> decide

section
variable {a b : F64}

/-- The sum of finite values: an exact zero with its sign rule, or one rounding. -/
theorem fadd_finite (ha : isFinite a = true) (hb : isFinite b = true) :
    (toUnits a + toUnits b = 0 ∧ fadd a b = packBits (isNeg a && isNeg b) 0)
      ∨ (toUnits a + toUnits b ≠ 0 ∧
        fadd a b = roundUnits (decide (toUnits a + toUnits b < 0)) (toUnits a + toUnits b).natAbs 1) := by
  by_cases hsum : toUnits a + toUnits b = 0 <;>
    simp [fadd, isNaN_of_isFinite, isInf_of_isFinite, ha, hb, hsum]

/-- The product of finite values is one rounding. -/
theorem fmul_finite (ha : isFinite a = true) (hb : isFinite b = true) :
    fmul a b = roundUnits (isNeg a != isNeg b) (magUnits a * magUnits b) unitsPerOne := by
  simp [fmul, isNaN_of_isFinite, isInf_of_isFinite, ha, hb]

/-- The quotient of finite values by one that is not zero is one rounding. -/
theorem fdiv_finite (ha : isFinite a = true) (hb : isFinite b = true) (hz : isZero b = false) :
    fdiv a b = roundUnits (isNeg a != isNeg b) (magUnits a * unitsPerOne) (magUnits b) := by
  simp [fdiv, isNaN_of_isFinite, isInf_of_isFinite, ha, hb, hz]

/-- The units of 1 are a power of two whose 53-digit multiples are finite; proofs use this and never the
power itself. -/
theorem exists_unitsPerOne_eq_two_pow : ∃ e, unitsPerOne = 2 ^ e ∧ 2 ^ 53 * 2 ^ e < overflowLimit := by
  have hlt : ∀ {e E : Nat}, e ≤ E → 2 ^ 53 * 2 ^ e < (2 ^ 54 - 1) * 2 ^ E := fun {e E} h => by
    have hpow : 2 ^ e ≤ 2 ^ E := Nat.pow_le_pow_right (by decide) h
    have hpos := Nat.two_pow_pos e
    omega
  exact ⟨1074, by rw [unitsPerOne], hlt (by decide)⟩

theorem unitsPerOne_pos : 0 < unitsPerOne := by
  obtain ⟨e, he, -⟩ := exists_unitsPerOne_eq_two_pow
  rw [he]
  exact Nat.two_pow_pos e

/-! ## Rounding to nearest even (R12) -/

theorem nearestEven_fadd (ha : isFinite a = true) (hb : isFinite b = true) (hf : isFinite (fadd a b) = true) :
    NearestEven (toUnits a + toUnits b) 1 (fadd a b) := by
  rcases fadd_finite ha hb with ⟨hsum, heq⟩ | ⟨-, heq⟩
  · intro q
    rw [heq, hsum, toUnits_packBits_zero]
    refine ⟨by simp, fun he hne => absurd ?_ hne⟩
    omega
  · rw [heq] at hf ⊢
    have h := nearestEven_roundUnits Nat.one_pos hf
    rwa [signed_natAbs] at h

theorem nearestEven_fmul (ha : isFinite a = true) (hb : isFinite b = true) (hf : isFinite (fmul a b) = true) :
    NearestEven (toUnits a * toUnits b) unitsPerOne (fmul a b) := by
  rw [fmul_finite ha hb] at hf ⊢
  rw [toUnits_eq_signed a, toUnits_eq_signed b, signed_mul_signed]
  exact nearestEven_roundUnits unitsPerOne_pos hf

/-- The distance of `t` from a quotient, cleared of the divisor, does not depend on the divisor's sign. -/
theorem natAbs_sub_mul_signed (s n : Bool) (m d : Nat) (t : Int) :
    (signed s m - t * signed n d).natAbs = (signed (s != n) m - t * d).natAbs := by
  cases n
  · simp [signed]
  · rw [← Int.natAbs_neg]
    congr 1
    cases s <;> simp [signed] <;> ring

theorem nearestEven_fdiv (ha : isFinite a = true) (hb : isFinite b = true) (hz : isZero b = false)
    (hf : isFinite (fdiv a b) = true) (q : F64) :
    let err (r : F64) : Nat := (toUnits a * unitsPerOne - toUnits r * toUnits b).natAbs
    err (fdiv a b) ≤ err q ∧ (err q = err (fdiv a b) → toUnits q ≠ toUnits (fdiv a b) →
      (fdiv a b).toNat % 2 = 0) := by
  rw [fdiv_finite ha hb hz] at hf ⊢
  simp only [toUnits_eq_signed a, toUnits_eq_signed b, signed_mul_natCast, natAbs_sub_mul_signed]
  exact nearestEven_roundUnits (magUnits_pos hz) hf q

/-- Settles O53: each operation on finite values is one rounding, which is to the nearest value, ties to even. -/
theorem operationsRoundToNearestEven : Obligations.OperationsRoundToNearestEven := by
  intro a b q ha hb _
  refine ⟨fun hf => ?_, fun hf => nearestEven_fmul ha hb hf q, fun hz hf => nearestEven_fdiv ha hb hz hf q⟩
  have h := nearestEven_fadd ha hb hf q
  simpa only [Nat.cast_one, Int.mul_one] using h

/-! ## Overflow and signs (R12, R174) -/

/-- The infinity of a sign. -/
theorem packBits_infMag (neg : Bool) :
    packBits neg infMag = if neg then 0xFFF0000000000000#64 else 0x7FF0000000000000#64 := by
  cases neg <;> rfl

/-- The zero of a sign. -/
theorem packBits_zero (neg : Bool) : packBits neg 0 = if neg then 0x8000000000000000#64 else 0#64 := by
  cases neg <;> rfl

theorem isFinite_fadd_iff (ha : isFinite a = true) (hb : isFinite b = true) :
    isFinite (fadd a b) = true ↔ (toUnits a + toUnits b).natAbs < overflowLimit := by
  rcases fadd_finite ha hb with ⟨hsum, heq⟩ | ⟨-, heq⟩
  · rw [heq, hsum, isFinite_packBits (by decide)]
    exact iff_of_true (by decide) (by unfold overflowLimit; positivity)
  · rw [heq, isFinite_roundUnits_iff _ Nat.one_pos, Nat.mul_one]

theorem fadd_of_not_finite (ha : isFinite a = true) (hb : isFinite b = true) (hf : isFinite (fadd a b) = false) :
    fadd a b = packBits (decide (toUnits a + toUnits b < 0)) infMag := by
  rcases fadd_finite ha hb with ⟨hsum, heq⟩ | ⟨-, heq⟩
  · rw [Bool.eq_false_iff, ne_eq, heq, isFinite_packBits (by decide)] at hf
    exact absurd (by decide) hf
  · rw [heq] at hf ⊢
    exact roundUnits_of_not_finite hf

theorem fadd_of_sum_zero (ha : isFinite a = true) (hb : isFinite b = true) (hsum : toUnits a + toUnits b = 0) :
    fadd a b = packBits (isNeg a && isNeg b) 0 := by
  rcases fadd_finite ha hb with ⟨-, heq⟩ | ⟨hne, -⟩
  · exact heq
  · exact absurd hsum hne

theorem isFinite_fmul_iff (ha : isFinite a = true) (hb : isFinite b = true) :
    isFinite (fmul a b) = true ↔ (toUnits a * toUnits b).natAbs < overflowLimit * unitsPerOne := by
  rw [fmul_finite ha hb, isFinite_roundUnits_iff _ unitsPerOne_pos, Int.natAbs_mul, natAbs_toUnits, natAbs_toUnits]

theorem fmul_of_not_finite (ha : isFinite a = true) (hb : isFinite b = true) (hf : isFinite (fmul a b) = false) :
    fmul a b = packBits (isNeg a != isNeg b) infMag := by
  rw [fmul_finite ha hb] at hf ⊢
  exact roundUnits_of_not_finite hf

theorem isNeg_fmul (ha : isFinite a = true) (hb : isFinite b = true) :
    isNeg (fmul a b) = (isNeg a != isNeg b) := by
  rw [fmul_finite ha hb, isNeg_roundUnits]

theorem isFinite_fdiv_iff (ha : isFinite a = true) (hb : isFinite b = true) (hz : isZero b = false) :
    isFinite (fdiv a b) = true ↔ (toUnits a).natAbs * unitsPerOne < overflowLimit * (toUnits b).natAbs := by
  rw [fdiv_finite ha hb hz, isFinite_roundUnits_iff _ (magUnits_pos hz), natAbs_toUnits, natAbs_toUnits]

theorem fdiv_of_not_finite (ha : isFinite a = true) (hb : isFinite b = true) (hz : isZero b = false)
    (hf : isFinite (fdiv a b) = false) : fdiv a b = packBits (isNeg a != isNeg b) infMag := by
  rw [fdiv_finite ha hb hz] at hf ⊢
  exact roundUnits_of_not_finite hf

theorem isNeg_fdiv (ha : isFinite a = true) (hb : isFinite b = true) (hz : isZero b = false) :
    isNeg (fdiv a b) = (isNeg a != isNeg b) := by
  rw [fdiv_finite ha hb hz, isNeg_roundUnits]

/-- A finite value over zero: a NaN for a zero, else an infinity. -/
theorem fdiv_zero (ha : isFinite a = true) (hb : isFinite b = true) (hz : isZero b = true) :
    fdiv a b = if isZero a then nanValue else packBits (isNeg a != isNeg b) infMag := by
  simp [fdiv, isNaN_of_isFinite, isInf_of_isFinite, ha, hb, hz]

/-! ## Infinities and NaNs as operands (R12) -/

theorem isNaN_of_operand_isNaN (h : isNaN a = true ∨ isNaN b = true) :
    isNaN (fadd a b) = true ∧ isNaN (fmul a b) = true ∧ isNaN (fdiv a b) = true := by
  have h' : (isNaN a || isNaN b) = true := by rwa [Bool.or_eq_true]
  rw [fadd, fmul, fdiv]
  simp only [h', if_true]
  exact ⟨rfl, rfl, rfl⟩

/-- An infinite operand beside a finite one: it is the sum, and the quotient is an infinity or a zero. -/
theorem fadd_fdiv_inf_finite (ha : isInf a = true) (hb : isFinite b = true) :
    fadd a b = a ∧ fadd b a = a ∧ fdiv a b = packBits (isNeg a != isNeg b) infMag
      ∧ fdiv b a = packBits (isNeg a != isNeg b) 0 := by
  simp [fadd, fdiv, isNaN_of_isInf, isNaN_of_isFinite, isInf_of_isFinite, ha, hb, bne_comm (a := isNeg b)]

/-- An infinity times a finite value: a NaN for a zero, else an infinity. -/
theorem fmul_inf_finite (ha : isInf a = true) (hb : isFinite b = true) :
    fmul a b = (if isZero b then nanValue else packBits (isNeg a != isNeg b) infMag) ∧ fmul b a = fmul a b := by
  simp [fmul, isNaN_of_isInf, isNaN_of_isFinite, isInf_of_isFinite, isZero_of_isInf, ha, hb,
    bne_comm (a := isNeg b)]

/-- Two infinities: their sum is either where the signs agree, their product an infinity, their quotient a NaN. -/
theorem operations_inf_inf (ha : isInf a = true) (hb : isInf b = true) :
    fadd a b = (if isNeg a = isNeg b then a else nanValue)
      ∧ fmul a b = packBits (isNeg a != isNeg b) infMag ∧ fdiv a b = nanValue := by
  simp [fadd, fmul, fdiv, isNaN_of_isInf, isZero_of_isInf, ha, hb]

theorem fsub_eq_fadd_xor (a b : F64) : fsub a b = fadd a (b ^^^ 0x8000000000000000#64) := by
  rw [fsub, fneg_eq_xor]

end

/-- Settles O54: the operations case by case over the kinds of their operands. -/
theorem operationsOnSpecialValues : Obligations.OperationsOnSpecialValues := by
  unfold Obligations.OperationsOnSpecialValues
  intro limit infinite zero
  have hinf (n : Bool) : infinite n = packBits n infMag := (packBits_infMag n).symm
  have hzero (n : Bool) : zero n = packBits n 0 := (packBits_zero n).symm
  have hnan : isNaN nanValue = true := by decide
  simp only [hinf, hzero]
  refine ⟨fun a b ha hb => ⟨isFinite_fadd_iff ha hb, fadd_of_not_finite ha hb, fadd_of_sum_zero ha hb,
    isFinite_fmul_iff ha hb, fmul_of_not_finite ha hb, isNeg_fmul ha hb,
    fun hz => ⟨isFinite_fdiv_iff ha hb hz, fdiv_of_not_finite ha hb hz, isNeg_fdiv ha hb hz⟩, fun hz => ?_⟩,
    fun a b => isNaN_of_operand_isNaN, fun a b ha hb => ?_, fun a b ha hb => ?_, fsub_eq_fadd_xor⟩
  · rw [fdiv_zero ha hb hz]
    split
    · exact hnan
    · rfl
  · obtain ⟨hadd, hadd', hdiv, hdiv'⟩ := fadd_fdiv_inf_finite ha hb
    obtain ⟨hmul, hcomm⟩ := fmul_inf_finite ha hb
    refine ⟨hadd, hadd', hdiv, hdiv', ?_⟩
    rw [hcomm, hmul]
    split
    · exact ⟨hnan, hnan⟩
    · exact ⟨rfl, rfl⟩
  · obtain ⟨hadd, hmul, hdiv⟩ := operations_inf_inf ha hb
    refine ⟨?_, hmul, by rw [hdiv]; exact hnan⟩
    rw [hadd]
    split
    · rfl
    · exact hnan

end Sys2Proof.Machine
end

section
/-!
PROOFS. The draws (00_scope.md R16) and the conversions between binary64 and integers (R12, R13), with the obligation on
each.
-/
namespace Sys2Proof.Machine

/-! ## Draws (R16) -/

/-- The answer that stands for a value of the range. -/
theorem draw_answer {lo hi v : Int} (hlo : lo ≤ v) (hhi : v ≤ hi) (rest : List Nat) (n : Nat) :
    (draw lo hi ⟨(v - lo).toNat :: rest, n⟩).1 = v := by
  rcases draw_cases lo hi ⟨(v - lo).toNat :: rest, n⟩ with ⟨h, hd⟩ | ⟨-, hd⟩
  · rw [hd]; omega
  · have ha : answerAt ⟨(v - lo).toNat :: rest, n⟩ 0 = (v - lo).toNat := rfl
    rw [hd, ha, Int.emod_eq_of_lt (by omega) (by omega)]
    omega

theorem draw_mem_range {lo hi : Int} (h : lo ≤ hi) (d : DrawSource) :
    lo ≤ (draw lo hi d).1 ∧ (draw lo hi d).1 ≤ hi := by
  rcases draw_cases lo hi d with ⟨-, hd⟩ | ⟨hlt, hd⟩
  · rw [hd]; exact ⟨le_refl _, h⟩
  · have hnonneg := Int.emod_nonneg (answerAt d 0 : Int) (show hi - lo + 1 ≠ 0 by omega)
    have hlt' := Int.emod_lt_of_pos (answerAt d 0 : Int) (show 0 < hi - lo + 1 by omega)
    rw [hd]
    omega

theorem orderKey_packBits {neg : Bool} {mag : Nat} (h : mag < 2 ^ 63) :
    orderKey (packBits neg mag) = signed neg mag := by
  rw [orderKey, isNeg_packBits h, magBits_packBits h, signed]

/-- An answer stands for a value of `[0, 1)` or, with the sign bit set, of `[-1, -0]`. -/
theorem unitOfAnswer_cases (a : Nat) :
    ∃ neg mag, unitOfAnswer a = packBits neg mag ∧ mag ≤ f64One.toNat ∧ (neg = false → mag < f64One.toNat) := by
  have hmod := Nat.mod_lt a (show 0 < 2 * f64One.toNat + 1 by omega)
  simp only [unitOfAnswer]
  split
  · exact ⟨false, _, rfl, by omega, fun _ => by assumption⟩
  · exact ⟨true, _, rfl, by omega, fun h => nomatch h⟩

theorem unitOfAnswer_mem_range (a : Nat) :
    isFinite (unitOfAnswer a) = true ∧ fle 0xBFF0000000000000#64 (unitOfAnswer a) = true
      ∧ flt (unitOfAnswer a) 0x3FF0000000000000#64 = true := by
  obtain ⟨neg, mag, heq, hle, hlt⟩ := unitOfAnswer_cases a
  have hone : f64One.toNat = 0x3FF0000000000000 := rfl
  rw [hone] at hle hlt
  have h63 : mag < 2 ^ 63 := by omega
  have hf : isFinite (packBits neg mag) = true := by rw [isFinite_packBits h63, infMag]; omega
  have hlow : isNaN 0xBFF0000000000000#64 = false ∧ orderKey 0xBFF0000000000000#64 = -0x3FF0000000000000 := by decide
  have hhigh : isNaN 0x3FF0000000000000#64 = false ∧ orderKey 0x3FF0000000000000#64 = 0x3FF0000000000000 := by decide
  rw [heq]
  simp only [hf, fle, flt, hlow, hhigh, isNaN_of_isFinite hf, orderKey_packBits h63, true_and, Bool.not_false,
    Bool.true_and, decide_eq_true_eq]
  cases neg
  · have := hlt rfl
    simp only [signed, Bool.false_eq_true, if_false]; omega
  · simp only [signed, if_true]; omega

/-- Settles O52: a draw is the least value plus a remainder by the size of the range. -/
theorem drawsLieInTheirRange : Obligations.DrawsLieInTheirRange := by
  refine ⟨fun lo hi d h => draw_mem_range h d, fun lo hi v rest n hlo hhi => ⟨_, draw_answer hlo hhi rest n⟩,
    fun lo d => ?_, fun d => ?_⟩
  · rcases draw_cases lo lo d with ⟨-, hd⟩ | ⟨hlt, -⟩
    · exact hd
    · omega
  · rw [drawUnit_eq]
    exact unitOfAnswer_mem_range _

/-! ## Truncation and `f2i` (R13) -/

section
variable {v : F64}

theorem truncInt_of_nonneg (h : 0 ≤ toUnits v) :
    truncInt v * unitsPerOne ≤ toUnits v ∧ toUnits v < (truncInt v + 1) * unitsPerOne := by
  have hpos : (0 : Int) < unitsPerOne := by exact_mod_cast unitsPerOne_pos
  rw [truncInt, Int.tdiv_eq_ediv_of_nonneg h]
  exact ⟨Int.ediv_mul_le _ hpos.ne', Int.lt_ediv_add_one_mul_self _ hpos⟩

theorem truncInt_of_nonpos (h : toUnits v ≤ 0) :
    toUnits v ≤ truncInt v * unitsPerOne ∧ (truncInt v - 1) * unitsPerOne < toUnits v := by
  have hpos : (0 : Int) < unitsPerOne := by exact_mod_cast unitsPerOne_pos
  have hquot : truncInt v = -(-toUnits v / unitsPerOne) := by
    rw [truncInt, ← Int.tdiv_eq_ediv_of_nonneg (by omega), Int.neg_tdiv, Int.neg_neg]
  have hle := Int.ediv_mul_le (-toUnits v) hpos.ne'
  have hlt := Int.lt_ediv_add_one_mul_self (-toUnits v) hpos
  rw [hquot]
  constructor <;> linarith

theorem f2i_of_mem (hv : isFinite v = true) (h : -2147483648 ≤ truncInt v ∧ truncInt v ≤ 2147483647) :
    f2i v = some (truncInt v) := by
  simp [f2i, inS32, hv, h]

theorem f2i_of_not_mem (h : truncInt v < -2147483648 ∨ 2147483647 < truncInt v) : f2i v = none := by
  have hout : inS32 (truncInt v) = false := decide_eq_false (by omega)
  simp [f2i, hout]

theorem f2i_of_not_finite (h : isFinite v = false) : f2i v = none := by simp [f2i, h]

/-! ## `rnd` (R13) -/

/-- The nearest integer to a magnitude, a half counted up. -/
theorem round_half_up (m : Nat) {d : Nat} (hd : 0 < d) :
    2 * m < 2 * ((2 * m + d) / (2 * d) * d) + d ∧ 2 * ((2 * m + d) / (2 * d) * d) ≤ 2 * m + d := by
  have hdiv := Nat.div_add_mod (2 * m + d) (2 * d)
  have hmod := Nat.mod_lt (2 * m + d) (show 0 < 2 * d by omega)
  have hassoc : 2 * d * ((2 * m + d) / (2 * d)) = 2 * ((2 * m + d) / (2 * d) * d) := by ring
  omega

theorem roundAway_nearest (v : F64) :
    2 * (roundAway v * unitsPerOne - toUnits v).natAbs ≤ unitsPerOne
      ∧ (2 * (roundAway v * unitsPerOne - toUnits v).natAbs = unitsPerOne →
        (toUnits v).natAbs ≤ (roundAway v * unitsPerOne).natAbs) := by
  obtain ⟨hlow, hhigh⟩ := round_half_up (magUnits v) unitsPerOne_pos
  have hround : roundAway v * unitsPerOne =
      signed (isNeg v) ((2 * magUnits v + unitsPerOne) / (2 * unitsPerOne) * unitsPerOne) := by
    rw [← signed_mul_natCast]; rfl
  rw [hround, natAbs_signed, natAbs_toUnits, toUnits_eq_signed]
  generalize (2 * magUnits v + unitsPerOne) / (2 * unitsPerOne) * unitsPerOne = n at *
  cases isNeg v <;> simp only [signed, if_true, Bool.false_eq_true, if_false] <;> omega

/-! ## `clamp` of a truncation (R13) -/

theorem clampTrunc_of_finite (hv : isFinite v = true) {lo hi : Int} (h : lo ≤ hi) :
    clampTrunc v lo hi = max lo (min hi (truncInt v)) := by
  simp only [clampTrunc, hv, if_true, clampInt]
  split
  · omega
  · split <;> omega

theorem clampTrunc_of_isInf (hv : isInf v = true) (lo hi : Int) :
    clampTrunc v lo hi = if isNeg v then lo else hi := by
  simp [clampTrunc, isFinite_of_isInf hv]

/-! ## `i2f` and `ffloor` (R12) -/

theorem nearestEven_i2f {n : Int} (hf : isFinite (i2f n) = true) : NearestEven (n * unitsPerOne) 1 (i2f n) := by
  have h := nearestEven_roundUnits Nat.one_pos hf
  rwa [← signed_mul_natCast, signed_natAbs] at h

theorem i2f_exact_of_roundUnits {n : Int} {k : Nat} (hlim : n.natAbs * unitsPerOne < overflowLimit)
    (hle : n.natAbs * unitsPerOne ≤ 2 ^ 53 * 2 ^ k) (hdvd : 2 ^ k ∣ n.natAbs * unitsPerOne) :
    isFinite (i2f n) = true ∧ toUnits (i2f n) = n * unitsPerOne := by
  have h := roundUnits_exact (neg := decide (n < 0)) hlim hle hdvd
  rwa [← signed_mul_natCast, signed_natAbs] at h

/-- Every integer of at most 53 digits is a binary64. -/
theorem i2f_exact {n : Int} (h : n.natAbs ≤ 2 ^ 53) :
    isFinite (i2f n) = true ∧ toUnits (i2f n) = n * unitsPerOne := by
  obtain ⟨e, he, hlt⟩ := exists_unitsPerOne_eq_two_pow
  have hle : n.natAbs * unitsPerOne ≤ 2 ^ 53 * 2 ^ e := by rw [he]; exact Nat.mul_le_mul_right _ h
  exact i2f_exact_of_roundUnits (hle.trans_lt hlt) hle (he ▸ Nat.dvd_mul_left _ _)

/-- An integer that some finite binary64 is converts exactly. -/
theorem i2f_exact_of_toUnits (hv : isFinite v = true) {n : Int} (h : toUnits v = n * unitsPerOne) :
    isFinite (i2f n) = true ∧ toUnits (i2f n) = n * unitsPerOne := by
  have hmag : n.natAbs * unitsPerOne = magUnits v := by
    rw [← natAbs_toUnits, h, Int.natAbs_mul, Int.natAbs_natCast]
  obtain ⟨k, R, hs, -, -, hunits⟩ := exists_significand v
  apply i2f_exact_of_roundUnits (k := k)
  · rw [hmag]; exact (isFinite_iff_magUnits v).mp hv
  · rw [hmag, hunits]; exact Nat.mul_le_mul_right _ hs.le
  · rw [hmag, hunits]; exact Nat.dvd_mul_left _ _

/-- A value is a whole number, or its whole part has at most 53 digits. -/
theorem isWhole_or_fdiv_le (v : F64) :
    toUnits v = toUnits v / unitsPerOne * unitsPerOne ∨ (toUnits v / unitsPerOne).natAbs ≤ 2 ^ 53 := by
  have hpos : (0 : Int) < unitsPerOne := by exact_mod_cast unitsPerOne_pos
  obtain ⟨k, R, -, hR, -, hunits⟩ := exists_significand v
  rw [← natAbs_toUnits] at hunits
  obtain ⟨e, he, -⟩ := exists_unitsPerOne_eq_two_pow
  rcases Nat.lt_or_ge k e with hk | hk
  · right
    have hlt : (toUnits v).natAbs < 2 ^ 53 * unitsPerOne := by
      rw [hunits, he]
      exact Nat.mul_lt_mul_of_lt_of_le hR (Nat.pow_le_pow_right (by decide) hk.le) (Nat.two_pow_pos e)
    have hlow : -2 ^ 53 ≤ toUnits v / unitsPerOne := Int.le_ediv_of_mul_le hpos (by omega)
    have hhigh : toUnits v / unitsPerOne < 2 ^ 53 := Int.ediv_lt_of_lt_mul hpos (by omega)
    omega
  · left
    refine (Int.ediv_mul_cancel ?_).symm
    rw [Int.natCast_dvd, hunits, he]
    exact Dvd.dvd.mul_left (Nat.pow_dvd_pow 2 hk) R

/-- `ffloor` is the exact whole part. -/
theorem ffloor_eq_fdiv (hv : isFinite v = true) :
    isFinite (ffloor v) = true ∧ toUnits (ffloor v) = toUnits v / unitsPerOne * unitsPerOne := by
  cases hz : isZero v
  · have hi2f : ffloor v = i2f (toUnits v / unitsPerOne) := by
      rw [ffloor, if_neg (by simp [hv, hz]), Int.fdiv_eq_ediv_of_nonneg _ (Int.natCast_nonneg unitsPerOne), i2f]
    rw [hi2f]
    rcases isWhole_or_fdiv_le v with hwhole | hle
    · exact i2f_exact_of_toUnits hv hwhole
    · exact i2f_exact hle
  · have hzero : toUnits v = 0 := by
      rw [← Int.natAbs_eq_zero, natAbs_toUnits, ← isZero_iff_magUnits, hz]
    have hself : ffloor v = v := by rw [ffloor, if_pos (by simp [hz])]
    rw [hself, hzero, Int.zero_ediv, Int.zero_mul]
    exact ⟨hv, rfl⟩

end

/-! ## `ffmod` (R12) -/

section
variable {a b : F64}

/-- The remainder of two magnitudes has at most 53 digits above the smaller of their last places. -/
theorem mod_magUnits_exact (hb : isZero b = false) :
    ∃ k, magUnits a % magUnits b ≤ 2 ^ 53 * 2 ^ k ∧ 2 ^ k ∣ magUnits a % magUnits b := by
  have hpos := magUnits_pos hb
  have hlt := Nat.mod_lt (magUnits a) hpos
  have hle := Nat.mod_le (magUnits a) (magUnits b)
  obtain ⟨k, R, hs, -, -, ha⟩ := exists_significand a
  obtain ⟨k', R', hs', -, -, hb'⟩ := exists_significand b
  have hdvd (j : Nat) (hj : j ≤ k) (hj' : j ≤ k') : 2 ^ j ∣ magUnits a % magUnits b := by
    have hda : 2 ^ j ∣ magUnits a := ha ▸ Dvd.dvd.mul_left (Nat.pow_dvd_pow 2 hj) R
    have hdb : 2 ^ j ∣ magUnits b := hb' ▸ Dvd.dvd.mul_left (Nat.pow_dvd_pow 2 hj') R'
    exact (Nat.dvd_mod_iff hdb).mpr hda
  rcases Nat.le_total k k' with hk | hk
  · exact ⟨k, hle.trans (ha ▸ Nat.mul_le_mul_right _ hs.le), hdvd k le_rfl hk⟩
  · exact ⟨k', hlt.le.trans (hb' ▸ Nat.mul_le_mul_right _ hs'.le), hdvd k' hk le_rfl⟩

theorem ffmod_exact (ha : isFinite a = true) (hb : isZero b = false) :
    isFinite (ffmod a b) = true ∧ toUnits (ffmod a b) = signed (isNeg a) (magUnits a % magUnits b) := by
  obtain ⟨k, hle, hdvd⟩ := mod_magUnits_exact (a := a) hb
  exact roundUnits_exact ((Nat.mod_le _ _).trans_lt ((isFinite_iff_magUnits a).mp ha)) hle hdvd

/-- A value at least 0 has no sign, or it is `-0`. -/
theorem toUnits_of_fle_zero (h : fle 0#64 a = true) :
    toUnits a = magUnits a ∧ (isNeg a = true → magUnits a = 0) := by
  have hkey : orderKey 0#64 = 0 := by decide
  simp only [fle, Bool.and_eq_true, decide_eq_true_eq] at h
  obtain ⟨-, hle⟩ := h
  rw [hkey, orderKey] at hle
  have hzero : isNeg a = true → magUnits a = 0 := fun hn => by
    rw [if_pos hn] at hle
    rw [magUnits_eq_zero_iff]
    omega
  refine ⟨?_, hzero⟩
  rw [toUnits]
  split
  · rw [hzero (by assumption)]; rfl
  · rfl

/-- A value above 0 has no sign and is no zero. -/
theorem toUnits_of_flt_zero (h : flt 0#64 b = true) : toUnits b = magUnits b ∧ isZero b = false := by
  have hkey : orderKey 0#64 = 0 := by decide
  simp only [flt, Bool.and_eq_true, decide_eq_true_eq] at h
  obtain ⟨-, hlt⟩ := h
  rw [hkey, orderKey] at hlt
  split at hlt
  · omega
  · exact ⟨by rw [toUnits, if_neg (by assumption)], decide_eq_false (by omega)⟩

/-- `ffmod` of a value at least 0 by one above 0 is their exact remainder. -/
theorem ffmod_eq_emod (ha : isFinite a = true) (ha0 : fle 0#64 a = true) (hb0 : flt 0#64 b = true) :
    isFinite (ffmod a b) = true ∧ toUnits (ffmod a b) = toUnits a % toUnits b := by
  obtain ⟨hau, hneg⟩ := toUnits_of_fle_zero ha0
  obtain ⟨hbu, hbz⟩ := toUnits_of_flt_zero hb0
  obtain ⟨hfin, hval⟩ := ffmod_exact ha hbz
  refine ⟨hfin, ?_⟩
  rw [hval, hau, hbu, ← Int.natCast_emod]
  cases hs : isNeg a
  · rfl
  · rw [hneg hs, Nat.zero_mod]; rfl

end

/-- Settles O55: each conversion by its own rule. -/
theorem conversionsFollowTheirRules : Obligations.ConversionsFollowTheirRules := by
  unfold Obligations.ConversionsFollowTheirRules
  intro one
  have hpos : (0 : Int) < unitsPerOne := by exact_mod_cast unitsPerOne_pos
  refine ⟨fun v hv => ⟨truncInt_of_nonneg, truncInt_of_nonpos, f2i_of_mem hv, f2i_of_not_mem,
    (roundAway_nearest v).1, (roundAway_nearest v).2, (ffloor_eq_fdiv hv).1,
    ⟨_, (ffloor_eq_fdiv hv).2, Int.ediv_mul_le _ hpos.ne', Int.lt_ediv_add_one_mul_self _ hpos⟩,
    fun lo hi h => clampTrunc_of_finite hv h⟩,
    fun v => f2i_of_not_finite, fun v => clampTrunc_of_isInf, fun a b ha _ => ffmod_eq_emod ha,
    fun n => i2f_exact, fun n q hf _ => ?_⟩
  have h := nearestEven_i2f hf q
  simpa only [Nat.cast_one, Int.mul_one] using h

end Sys2Proof.Machine
end

section
/-!
PROOFS. The block right after reset (10_state.md R61, 70_reset_and_hazards.md R400): its values, and that it meets the
invariants of the block.
-/
namespace Sys2Proof.Machine

/-! ## Cells at reset (10_state.md R55, R56) -/

/-- A cell of a register file at reset holds no coefficient and `+0.0`. -/
theorem eq_reset_of_getElem? {n k : Nat} {c : StoredCell}
    (h : (Vector.replicate n StoredCell.reset)[k]? = some c) : k < n ∧ c = StoredCell.reset := by
  rw [Vector.getElem?_replicate] at h
  split at h
  · next hk => exact ⟨hk, (Option.some.inj h).symm⟩
  · cases h

theorem getElem?_replicate_reset {n k : Nat} (h : k < n) :
    (Vector.replicate n StoredCell.reset)[k]? = some ⟨none, 0#64⟩ := by
  rw [Vector.getElem?_replicate, if_pos h]; rfl

/-- Every cell of an audio channel at reset is a cell at reset. -/
theorem eq_reset_of_mem_cells {c : StoredCell} (h : c ∈ AudioChannel.reset.cells) : c = StoredCell.reset := by
  simp only [AudioChannel.cells, AudioChannel.reset, Vector.toList_replicate, List.mem_append, List.mem_replicate,
    List.mem_cons, List.not_mem_nil, or_false] at h
  tauto

theorem finite_reset : StoredCell.reset.Finite :=
  ⟨rfl, fun _ h => nomatch h⟩

/-- `+0.0` lies in each of the bounds `AudioChannel.Bounded` names, all of them powers of two. -/
theorem within_two_pow_zero : ∀ k ≤ 64, within (i2f (2 ^ k : Nat)) 0#64 = true := by
  decide +kernel

theorem bounded_reset : AudioChannel.reset.Bounded where
  alphas c hc := by
    rw [eq_reset_of_mem_cells hc]
    exact fun _ h => nomatch h
  low k c h := by
    obtain ⟨_, rfl⟩ := eq_reset_of_getElem? h
    exact within_two_pow_zero 0 (by decide)
  high k c h := by
    obtain ⟨hk, rfl⟩ := eq_reset_of_getElem? h
    exact within_two_pow_zero k (hk.le.trans (by decide))
  pre := within_two_pow_zero 6 (by decide)
  de := rfl
  boost := within_two_pow_zero 64 (by decide)

/-! ## The invariants at reset -/

/-- The reset value of every register is legal (10_state.md R61). -/
theorem regsLegal_reset : State.reset.RegsLegal := by
  intro r
  cases r <;> rfl

theorem lifeCycle_reset : State.reset.LifeCycle where
  setup_bare _ := ⟨rfl, rfl⟩
  run_planes h := nomatch h
  dims _ h := nomatch h
  no_record _ := ⟨rfl, rfl⟩
  record h := nomatch h
  audio h := nomatch h

theorem bankFinite_reset : State.reset.BankFinite := fun _ _ h => by
  obtain ⟨_, rfl⟩ := eq_reset_of_getElem? h
  exact finite_reset

theorem audioBounded_reset : State.reset.AudioBounded where
  channel0 := bounded_reset
  channel1 := bounded_reset
  ready0 h := nomatch h
  ready1 h := nomatch h
  setup_bare _ := rfl

/-- Settles O7: the five invariants at reset. -/
theorem resetMeetsInvariants : Obligations.ResetMeetsInvariants :=
  ⟨regsLegal_reset, fun _ h => (nomatch h), lifeCycle_reset, bankFinite_reset, audioBounded_reset⟩

/-! ## The two resets (40_host_config_commands.md R131, 70_reset_and_hazards.md R400, R401) -/

/-- The hardware reset at the head of the host's events is taken by the step. -/
theorem step_hardReset {s : State} {rest : List HostEvent} (h : s.host = .hardReset :: rest) :
    step s = .next (hardReset { s with host := rest }) := by
  rw [step, h]

/-- Settles O5: both resets give `State.reset`, whose fields are those of R61. -/
theorem resetValues : Obligations.ResetValues := by
  refine ⟨fun s => rfl, fun s rest h => step_hardReset h, rfl, rfl, rfl, rfl, rfl, rfl, rfl,
    fun k => getElem?_replicate_reset, fun ch hch => ?_, rfl⟩
  have hreset : ch = AudioChannel.reset := by simpa [State.reset] using hch
  subst hreset
  exact ⟨fun k => getElem?_replicate_reset, fun k => getElem?_replicate_reset, rfl, rfl, rfl⟩

end Sys2Proof.Machine
end

section
/-!
PROOFS. What a command can do to the state, said once for all 34 of them: `Effect` lists the ways a command ends, and
`exec_effect` shows that every command ends in one of them (10_state.md R24 to R57, 30_encoding.md R108,
60_exceptions.md R366). The statements on who changes what and on what every step keeps are case splits over it.
-/
namespace Sys2Proof.Machine

/-- How the command `i` can end in the state `s`: by a fault, by an answer alone, or by an answer and the changes its
rules give it. Whether a command that changes something was accepted by the phase is said where a later proof turns
on it. -/
inductive Effect (s : State) : Instr → State → Prop
  /-- A fault that leaves everything but the draws (R366, R367). -/
  | fault (i : Instr) (c : FaultCode) (d : DrawSource) : Effect s i (takeFault c { s with draws := d })
  /-- A fault of a field command; the completed steps of a macro keep their effects (R367). -/
  | stageFault {i : Instr} {P P' : Planes} (c : FaultCode) (d : DrawSource) (hi : isFieldCommand i = true)
      (hphase : s.phase = .run) (hP : s.planes = some P) (hw : P'.w = P.w) (hh : P'.h = P.h) :
      Effect s i (takeFault c { s with planes := some P', draws := d })
  | answered (i : Instr) (v : DataWord) : Effect s i (answer v s)
  | reset : Effect s .reset (answer 0#64 (resetBlock s))
  | cfgw {idx : Nat} {r : CfgReg} (hphase : s.phase = .setup) (hr : cfgRegOf idx = some r)
      (hlegal : legalCfg r s.wdata = true) : Effect s (.cfgw idx) (answer 0#64 (writeCfg r s.wdata s))
  | catv {k : Nat} {pre cut pn : DataWord} (hphase : s.phase = .setup) (hk : catvPreset k = some (pre, cut, pn)) :
      Effect s (.catv k) (answer 0#64
        (writeCfg .chromaPhaseNoise pn (writeCfg .compCut cut (writeCfg .compPre pre s))))
  | setup {ready : Bool} (ch0 ch1 : AudioChannel) (hphase : s.phase = .setup)
      (hready : ready = true → s.audReady = true ∨ s.regs.audEn = true) :
      Effect s .setup (answer 0#64 { s with
        aud0 := ch0, aud1 := ch1, audReady := ready,
        planes := some (Planes.zero s.regs.dimW s.regs.dimH), audT := 0#64, phase := .run })
  /-- The general cells take new contents. -/
  | bank {i : Instr} (v : DataWord) (gf : Vector StoredCell Config.numGeneralCells) (hi : isBankCommand i = true) :
      Effect s i (answer v { s with gf := gf })
  /-- `PWR`, `PIXW` and the completed field commands. -/
  | planes {i : Instr} {P P' : Planes} (d : DrawSource)
      (hi : (∃ p, i = .pwr p) ∨ i = .pixw ∨ isFieldCommand i = true)
      (hphase : s.phase = .run) (hP : s.planes = some P) (hw : P'.w = P.w) (hh : P'.h = P.h) :
      Effect s i (answer 0#64 { s with planes := some P', draws := d })
  | runfield {P P' : Planes} (d : DrawSource) (hphase : s.phase = .run) (hP : s.planes = some P)
      (hw : P'.w = P.w) (hh : P'.h = P.h) :
      Effect s .runfield (answer 0#64 (advanceField { s with planes := some P', draws := d }))
  | nextfield (hphase : s.phase = .run) : Effect s .nextfield (answer 0#64 (advanceField s))
  | audf (v : DataWord) (ch0 ch1 : AudioChannel) (d : DrawSource) :
      Effect s .audf (answer v (advanceAudio { s with aud0 := ch0, aud1 := ch1, draws := d }))

/-- A fault that spends no draw. -/
theorem Effect.plainFault (s : State) (i : Instr) (c : FaultCode) : Effect s i (takeFault c s) :=
  .fault i c s.draws

/-! ## Phase checks (30_encoding.md R108) -/

/-- A SETUP-only command has the effects of its body and `PhaseError`. -/
theorem effect_inSetup {i : Instr} {s : State} {body : State → State}
    (h : s.phase = .setup → Effect s i (body s)) : Effect s i (inSetup body s) := by
  rcases inSetup_cases body s with ⟨hp, he⟩ | ⟨_, he⟩
  · exact he ▸ h hp
  · exact he ▸ .plainFault ..

/-- A RUN-only command has the effects of its body and `PhaseError`. -/
theorem effect_inRun {i : Instr} {s : State} {body : State → State}
    (h : s.phase = .run → Effect s i (body s)) : Effect s i (inRun body s) := by
  rcases inRun_cases body s with ⟨hp, he⟩ | ⟨_, he⟩
  · exact he ▸ h hp
  · exact he ▸ .plainFault ..

/-- A command on the planes has the effects of its body on them and `PhaseError`. -/
theorem effect_withPlanes {i : Instr} {s : State} {body : Planes → State → State}
    (h : ∀ P, s.phase = .run → s.planes = some P → Effect s i (body P s)) : Effect s i (withPlanes body s) := by
  rcases withPlanes_cases body s with ⟨P, hp, hP, he⟩ | ⟨_, he⟩
  · exact he ▸ h P hp hP
  · exact he ▸ .plainFault ..

/-! ## Host and configuration commands (40_host_config_commands.md) -/

theorem writeRegister_effect (idx : Nat) {s : State} (hp : s.phase = .setup) :
    Effect s (.cfgw idx) (writeRegister idx s) := by
  unfold writeRegister
  split
  · exact .plainFault ..
  · next r hr =>
    split
    · next hl => exact .cfgw hp hr hl
    · exact .plainFault ..

theorem execCfgr_effect (idx : Nat) (s : State) : ∃ t, execCfgr idx s = .next t ∧ Effect s (.cfgr idx) t := by
  refine ⟨_, rfl, ?_⟩
  split
  · exact .plainFault ..
  · exact .answered ..

/-- The audio part of `SETUP` writes the audio cells, and makes them ready only with `AUD_EN = 1` (R135). -/
theorem setupAudio_eq_some {s s' : State} (h : setupAudio s = some s') :
    ∃ ch0 ch1 ready, s' = { s with aud0 := ch0, aud1 := ch1, audReady := ready }
      ∧ (ready = true → s.audReady = true ∨ s.regs.audEn = true) := by
  unfold setupAudio at h
  split at h
  · next hen =>
    split at h
    · exact ⟨_, _, _, (Option.some.inj h).symm, fun _ => .inr hen⟩
    · cases h
  · exact ⟨_, _, _, (Option.some.inj h).symm, .inl⟩

theorem setupBlock_effect {s : State} (hp : s.phase = .setup) : Effect s .setup (setupBlock s) := by
  unfold setupBlock
  split
  · split
    · exact .plainFault ..
    · next s' hs =>
      obtain ⟨ch0, ch1, ready, rfl, hready⟩ := setupAudio_eq_some hs
      exact .setup ch0 ch1 hp hready
  · exact .plainFault ..

theorem loadPreset_effect (k : Nat) {s : State} (hp : s.phase = .setup) : Effect s (.catv k) (loadPreset k s) := by
  unfold loadPreset
  split
  · exact .plainFault ..
  · next pre cut pn hk => exact .catv hp hk

/-! ## Plane access (40_host_config_commands.md R137, R138; 42_color_conversion.md) -/

theorem execPwr_effect (p : Nat) (s : State) : ∃ t, execPwr p s = .next t ∧ Effect s (.pwr p) t := by
  refine ⟨_, rfl, effect_withPlanes fun P hp hP => ?_⟩
  split
  · exact .planes s.draws (.inl ⟨p, rfl⟩) hp hP rfl rfl
  · exact .plainFault ..

theorem execPrd_effect (p : Nat) (s : State) : ∃ t, execPrd p s = .next t ∧ Effect s (.prd p) t := by
  refine ⟨_, rfl, effect_withPlanes fun P _ _ => ?_⟩
  split
  · exact .answered ..
  · exact .plainFault ..

theorem execPixw_effect (s : State) : ∃ t, execPixw s = .next t ∧ Effect s .pixw t := by
  refine ⟨_, rfl, effect_withPlanes fun P hp hP => ?_⟩
  split
  · exact .planes s.draws (.inr (.inl rfl)) hp hP rfl rfl
  · exact .plainFault ..

theorem execPixr_effect (s : State) : ∃ t, execPixr s = .next t ∧ Effect s .pixr t := by
  refine ⟨_, rfl, effect_withPlanes fun P _ _ => ?_⟩
  split
  · exact .answered ..
  · exact .plainFault ..

/-! ## The general bank (41_iir_filter.md R165 to R171) -/

theorem configureCell_effect (cell : Nat) (s : State) : Effect s (.fcfg cell) (configureCell cell s) := by
  unfold configureCell
  split
  · exact .plainFault ..
  · split
    · exact .plainFault ..
    · exact .bank _ _ rfl

theorem resetCell_effect (cell : Nat) (s : State) : Effect s (.frst cell) (resetCell cell s) := by
  unfold resetCell
  split
  · exact .plainFault ..
  · split
    · exact .bank _ _ rfl
    · exact .plainFault ..

theorem bankCommand_effect {i : Instr} (hi : isBankCommand i = true) (ok : Bool) (plan : List (FilterOp × Nat))
    (s : State) : Effect s i (bankCommand ok plan s) := by
  rcases bankCommand_cases ok plan s with ⟨_, h⟩ | ⟨_, _, h⟩ | ⟨_, _, _, _, h⟩ | ⟨_, _, _, _, _, ⟨_, h⟩ | ⟨_, h⟩⟩
  · exact h ▸ .plainFault ..
  · exact h ▸ .plainFault ..
  · exact h ▸ .plainFault ..
  · exact h ▸ .plainFault ..
  · exact h ▸ .bank _ _ hi

/-! ## Field commands (20_memory.md R76, 46_field_sequencer.md) -/

/-- A field command whose stage keeps the form of the planes, where its completion is one of the effects. -/
theorem stageCommand_effect_of_done {i : Instr} {st : Stage} {after : State → State} {s : State}
    (hi : isFieldCommand i = true) (hst : StageKeeps st)
    (hdone : ∀ P P' d, s.phase = .run → s.planes = some P → P'.w = P.w → P'.h = P.h →
      Effect s i (answer 0#64 (after { s with planes := some P', draws := d }))) :
    Effect s i (stageCommand st after s) := by
  rcases stageCommand_cases st after s with ⟨_, h⟩ | ⟨P, hp, hP, hrun⟩
  · exact h ▸ .plainFault ..
  · have hkept := hst s.regs s.field P s.draws
    rcases hrun with ⟨P', d, hres, h⟩ | ⟨c, P', d, hres, h⟩
    · rw [hres] at hkept
      exact h ▸ hdone P P' d hp hP hkept.width hkept.height
    · rw [hres] at hkept
      exact h ▸ .stageFault c d hi hp hP hkept.width hkept.height

/-- The stage commands and `VHS`, which change nothing but the planes and the draws. -/
theorem stageCommand_effect {i : Instr} {st : Stage} (hi : isFieldCommand i = true) (hst : StageKeeps st)
    (s : State) : Effect s i (stageCommand st id s) :=
  stageCommand_effect_of_done hi hst fun _ _ d hp hP hw hh => .planes d (.inr (.inr hi)) hp hP hw hh

theorem runfield_effect (s : State) : Effect s .runfield (stageCommand runfieldStage advanceField s) :=
  stageCommand_effect_of_done rfl runfieldStage_keeps fun _ _ d hp hP hw hh => .runfield d hp hP hw hh

/-! ## The audio chain (47_audio_chain.md R322) -/

theorem secondChannel_effect (ch0 : AudioChannel) (out0 : Int) (d : DrawSource) (s : State) :
    Effect s .audf (secondChannel ch0 out0 d s) := by
  unfold secondChannel
  split
  · exact .fault ..
  · exact .audf ..

theorem audioFrame_effect (s : State) : Effect s .audf (audioFrame s) := by
  unfold audioFrame
  split
  · exact .fault ..
  · split
    · exact .audf _ _ s.aud1 _
    · exact secondChannel_effect ..

theorem audioCommand_effect (s : State) : Effect s .audf (audioCommand s) := by
  unfold audioCommand
  split
  · exact .plainFault ..
  · split
    · exact .plainFault ..
    · exact audioFrame_effect s

/-! ## Every command -/

/-- Every command ends in one of the effects. -/
theorem exec_effect (i : Instr) (s : State) : ∃ t, exec i s = .next t ∧ Effect s i t := by
  cases i with
  | nop => exact ⟨_, rfl, .answered ..⟩
  | reset => exact ⟨_, rfl, .reset⟩
  | cfgw idx => exact ⟨_, rfl, effect_inSetup (writeRegister_effect idx)⟩
  | cfgr idx => exact execCfgr_effect idx s
  | setup => exact ⟨_, rfl, effect_inSetup setupBlock_effect⟩
  | catv k => exact ⟨_, rfl, effect_inSetup (loadPreset_effect k)⟩
  | pwr p => exact execPwr_effect p s
  | prd p => exact execPrd_effect p s
  | pixw => exact execPixw_effect s
  | pixr => exact execPixr_effect s
  | fcfg cell => exact ⟨_, rfl, effect_inSetup fun _ => configureCell_effect cell s⟩
  | frst cell => exact ⟨_, rfl, effect_inRun fun _ => resetCell_effect cell s⟩
  | flp cell => exact ⟨_, rfl, bankCommand_effect rfl ..⟩
  | fhp cell => exact ⟨_, rfl, bankCommand_effect rfl ..⟩
  | fcasl first n => exact ⟨_, rfl, bankCommand_effect rfl ..⟩
  | fcash first n => exact ⟨_, rfl, bankCommand_effect rfl ..⟩
  | hilo first n => exact ⟨_, rfl, bankCommand_effect rfl ..⟩
  | clpf m => exact ⟨_, rfl, stageCommand_effect rfl (clpfStage_keeps m) s⟩
  | mod => exact ⟨_, rfl, stageCommand_effect rfl modStage_keeps s⟩
  | pre => exact ⟨_, rfl, stageCommand_effect rfl preStage_keeps s⟩
  | ynoise => exact ⟨_, rfl, stageCommand_effect rfl ynoiseStage_keeps s⟩
  | hsw => exact ⟨_, rfl, stageCommand_effect rfl hswStage_keeps s⟩
  | demod m => exact ⟨_, rfl, stageCommand_effect rfl (demodStage_keeps m) s⟩
  | cnoise => exact ⟨_, rfl, stageCommand_effect rfl cnoiseStage_keeps s⟩
  | cphase => exact ⟨_, rfl, stageCommand_effect rfl cphaseStage_keeps s⟩
  | cdrop => exact ⟨_, rfl, stageCommand_effect rfl cdropStage_keeps s⟩
  | vluma => exact ⟨_, rfl, stageCommand_effect rfl vlumaStage_keeps s⟩
  | vchroma => exact ⟨_, rfl, stageCommand_effect rfl vchromaStage_keeps s⟩
  | vblend => exact ⟨_, rfl, stageCommand_effect rfl vblendStage_keeps s⟩
  | vsharp => exact ⟨_, rfl, stageCommand_effect rfl vsharpStage_keeps s⟩
  | vhs => exact ⟨_, rfl, stageCommand_effect rfl vhsStage_keeps s⟩
  | runfield => exact ⟨_, rfl, runfield_effect s⟩
  | nextfield => exact ⟨_, rfl, effect_inRun .nextfield⟩
  | audf => exact ⟨_, rfl, effect_inRun fun _ => audioCommand_effect s⟩

/-- What a command that gave `t` has done. -/
theorem effect_of_exec {i : Instr} {s t : State} (h : exec i s = .next t) : Effect s i t := by
  obtain ⟨u, hu, he⟩ := exec_effect i s
  rw [h] at hu
  exact Host.Outcome.next.inj hu ▸ he

/-! ## The step -/

/-- A property that presenting a command, the hardware reset, every fault and every command keep is kept by every
step. -/
theorem step_keeps {Inv : State → Prop}
    (hpresent : ∀ cmd wdata rest s, Inv s → Inv (present cmd wdata rest s))
    (hreset : ∀ s, Inv (hardReset s)) (hfault : ∀ c s, Inv s → Inv (takeFault c s))
    (heffect : ∀ i s t, Inv s → Effect s i t → Inv t) {s t : State} (h : Inv s) (hstep : step s = .next t) :
    Inv t := by
  unfold step at hstep
  split at hstep
  · exact Host.Outcome.next.inj hstep ▸ h
  · exact Host.Outcome.next.inj hstep ▸ hreset _
  · next cmd wdata rest _ =>
    have hport := hpresent cmd wdata rest s h
    split at hstep
    · exact Host.Outcome.next.inj hstep ▸ hfault _ _ hport
    · exact heffect _ _ _ hport (effect_of_exec hstep)

end Sys2Proof.Machine
end

section
/-!
PROOFS. What the effects of the commands say of the whole machine: which command can change which state, and the two
invariants on registers and life cycle that every step keeps (10_state.md R24 to R57).
-/
namespace Sys2Proof.Machine

/-! ## Configuration registers after a write (40_host_config_commands.md R132) -/

/-- A write changes the register it names and no other. -/
theorem readCfg_writeCfg (r r' : CfgReg) (v : DataWord) (s : State) :
    readCfg r' (writeCfg r v s) = if r' = r then v else readCfg r' s := by
  cases r <;> cases r' <;> rfl

theorem writeCfg_field {r : CfgReg} (h : r ≠ .fieldIndex) (v : DataWord) (s : State) :
    (writeCfg r v s).field = s.field := by
  simpa [h.symm, readCfg] using readCfg_writeCfg r .fieldIndex v s

/-- `FIELD_INDEX` stands at index 3 alone (10_state.md R27). -/
theorem eq_three_of_cfgRegOf {idx : Nat} (h : cfgRegOf idx = some .fieldIndex) : idx = 0x03 := by
  unfold cfgRegOf at h
  split at h <;> cases h
  rfl

/-! ## Who changes what (10_state.md R24 to R57) -/

/-- Settles O49, by the effects of the commands: each changes the state its rules name and nothing else. -/
theorem whoChangesWhat : Obligations.WhoChangesWhat := by
  intro i s t hexec hi
  cases effect_of_exec hexec with
  | reset => exact absurd rfl hi
  | fault _ c d => simp
  | answered _ v => simp
  | stageFault c d hfield => simp [hfield]
  | @cfgw idx r hphase hr _ =>
    refine ⟨fun _ => ⟨hphase, .inl ⟨idx, rfl⟩⟩, fun hne => .inl ⟨hphase, ?_⟩, by simp, by simp, by simp, by simp,
      by simp⟩
    have hreg : r = .fieldIndex := by
      by_contra hr'
      exact hne (writeCfg_field hr' s.wdata s)
    obtain rfl : idx = 0x03 := eq_three_of_cfgRegOf (hreg ▸ hr)
    rfl
  | catv hphase _ => simp [writeCfg_field, hphase]
  | setup _ _ hphase _ => simp
  | bank v gf hbank => simp [hbank]
  | planes d hwrites => simp [hwrites]
  | runfield d hphase => simp [hphase, isFieldCommand]
  | nextfield hphase => simp [hphase]
  | audf v ch0 ch1 d => simp

/-! ## Every register keeps a legal value (10_state.md R24 to R49, 40_host_config_commands.md R136) -/

/-- Legality is a matter of the stored registers alone: `FIELD_INDEX` has no illegal value (10_state.md R27). -/
theorem State.RegsLegal.congr {s t : State} (h : s.RegsLegal) (hregs : t.regs = s.regs) : t.RegsLegal := by
  intro r
  have hr := h r
  cases r with
  | fieldIndex => rfl
  | _ => simpa only [readCfg, hregs] using hr

theorem State.RegsLegal.writeCfg {s : State} (h : s.RegsLegal) {r : CfgReg} {v : DataWord}
    (hv : legalCfg r v = true) : (writeCfg r v s).RegsLegal := by
  intro r'
  rw [readCfg_writeCfg]
  split
  · next heq => exact heq ▸ hv
  · exact h r'

/-- The presets of `CATV` are legal values of the three registers they are loaded into (R136). -/
theorem legalCfg_catvPreset {k : Nat} {pre cut pn : DataWord} (h : catvPreset k = some (pre, cut, pn)) :
    legalCfg .compPre pre = true ∧ legalCfg .compCut cut = true ∧ legalCfg .chromaPhaseNoise pn = true := by
  unfold catvPreset at h
  split at h <;> simp only [Option.some.injEq, Prod.mk.injEq, reduceCtorEq] at h <;>
    obtain ⟨rfl, rfl, rfl⟩ := h <;> decide +kernel

theorem Effect.regsLegal {i : Instr} {s t : State} (h : s.RegsLegal) (he : Effect s i t) : t.RegsLegal := by
  cases he with
  | reset => exact regsLegal_reset.congr rfl
  | cfgw _ _ hlegal => exact (h.writeCfg hlegal).congr rfl
  | catv _ hk =>
    obtain ⟨hpre, hcut, hpn⟩ := legalCfg_catvPreset hk
    exact (((h.writeCfg hpre).writeCfg hcut).writeCfg hpn).congr rfl
  | fault | stageFault => exact h.congr (takeFault_regs ..)
  | answered | setup | bank | planes | runfield | nextfield | audf => exact h.congr rfl

/-- Settles O56: a write of the configuration is checked or a preset, and nothing else touches the registers. -/
theorem registersStayLegal : Obligations.RegistersStayLegal := fun _ _ =>
  step_keeps (fun _ _ _ _ h => h.congr rfl) (fun _ => regsLegal_reset.congr rfl)
    (fun _ _ h => h.congr (takeFault_regs ..)) (fun _ _ _ => Effect.regsLegal)

/-! ## The life cycle (10_state.md R21, R52, R53, R56; 60_exceptions.md R366, R370) -/

/-- The life cycle is a matter of the six fields it speaks of. -/
theorem State.LifeCycle.congr {s t : State} (h : s.LifeCycle) (hphase : t.phase = s.phase)
    (hfcode : t.fcode = s.fcode) (hfinfo : t.finfo = s.finfo) (hregs : t.regs = s.regs)
    (hplanes : t.planes = s.planes) (hready : t.audReady = s.audReady) : t.LifeCycle := by
  constructor <;> simp only [hphase, hfcode, hfinfo, hregs, hplanes, hready]
  exacts [h.setup_bare, h.run_planes, h.dims, h.no_record, h.record, h.audio]

/-- A fault's code is one of the seven (60_exceptions.md R360). -/
theorem FaultCode.code_mem_range (c : FaultCode) : 1 ≤ c.code.toNat ∧ c.code.toNat ≤ 7 := by
  cases c <;> decide

/-- A fault outside FAULTED records its code; in FAULTED the first record is kept (R366, R368). -/
theorem State.LifeCycle.takeFault {s : State} (h : s.LifeCycle) (c : FaultCode) : (takeFault c s).LifeCycle where
  setup_bare hp := by simp at hp
  run_planes hp := by simp at hp
  dims P hP := by simpa using h.dims P (by simpa using hP)
  no_record hp := by simp at hp
  record _ := by
    rw [takeFault_fcode]
    split
    · next hp => exact h.record hp
    · exact c.code_mem_range
  audio hready := by simpa using h.audio (by simpa using hready)

/-- New planes of the same dimensions in RUN. -/
theorem State.LifeCycle.withPlanes {s : State} (h : s.LifeCycle) {P P' : Planes} (hphase : s.phase = .run)
    (hP : s.planes = some P) (hw : P'.w = P.w) (hh : P'.h = P.h) (d : DrawSource) :
    State.LifeCycle { s with planes := some P', draws := d } where
  setup_bare hp := by simp [hphase] at hp
  run_planes _ := rfl
  dims Q hQ := by
    obtain rfl : P' = Q := Option.some.inj hQ
    rw [hw, hh]
    exact h.dims P hP
  no_record := h.no_record
  record := h.record
  audio := h.audio

/-- Before `SETUP` no register is tied to any other state. -/
theorem State.LifeCycle.writeCfg {s : State} (h : s.LifeCycle) (hphase : s.phase = .setup) (r : CfgReg)
    (v : DataWord) : (writeCfg r v s).LifeCycle := by
  obtain ⟨hplanes, hready⟩ := h.setup_bare hphase
  constructor <;> simp [hphase, hplanes, hready, h.no_record]

/-- `SETUP` creates the planes in the dimensions of `DIM` and readies the audio only with `AUD_EN = 1` (R134, R135). -/
theorem State.LifeCycle.enterRun {s : State} (h : s.LifeCycle) (hphase : s.phase = .setup) {ready : Bool}
    (hready : ready = true → s.audReady = true ∨ s.regs.audEn = true) (ch0 ch1 : AudioChannel) :
    State.LifeCycle { s with
      aud0 := ch0, aud1 := ch1, audReady := ready,
      planes := some (Planes.zero s.regs.dimW s.regs.dimH), audT := 0#64, phase := .run } where
  setup_bare hp := nomatch hp
  run_planes _ := rfl
  dims P hP := by
    obtain rfl := Option.some.inj hP
    exact ⟨rfl, rfl⟩
  no_record _ := h.no_record (by simp [hphase])
  record hp := nomatch hp
  audio hr := (hready hr).elim h.audio id

theorem Effect.lifeCycle {i : Instr} {s t : State} (h : s.LifeCycle) (he : Effect s i t) : t.LifeCycle := by
  cases he with
  | reset => exact lifeCycle_reset.congr rfl rfl rfl rfl rfl rfl
  | fault _ c d =>
    have hdraws : State.LifeCycle { s with draws := d } := h.congr rfl rfl rfl rfl rfl rfl
    exact hdraws.takeFault c
  | stageFault c d _ hphase hP hw hh => exact (h.withPlanes hphase hP hw hh d).takeFault c
  | cfgw hphase _ _ => exact (h.writeCfg hphase _ _).congr rfl rfl rfl rfl rfl rfl
  | catv hphase _ =>
    exact (((h.writeCfg hphase _ _).writeCfg (by simpa using hphase) _ _).writeCfg (by simpa using hphase) _ _).congr
      rfl rfl rfl rfl rfl rfl
  | setup ch0 ch1 hphase hready => exact (h.enterRun hphase hready ch0 ch1).congr rfl rfl rfl rfl rfl rfl
  | planes d _ hphase hP hw hh => exact (h.withPlanes hphase hP hw hh d).congr rfl rfl rfl rfl rfl rfl
  | runfield d hphase hP hw hh => exact (h.withPlanes hphase hP hw hh d).congr rfl rfl rfl rfl rfl rfl
  | answered | bank | nextfield | audf => exact h.congr rfl rfl rfl rfl rfl rfl

/-- Settles O58: every effect of a command keeps the life cycle, as do the resets and an illegal word's fault. -/
theorem lifeCycleIsKept : Obligations.LifeCycleIsKept := fun _ _ =>
  step_keeps (fun _ _ _ _ h => h.congr rfl rfl rfl rfl rfl rfl)
    (fun _ => lifeCycle_reset.congr rfl rfl rfl rfl rfl rfl) (fun c _ h => h.takeFault c)
    (fun _ _ _ => Effect.lifeCycle)

end Sys2Proof.Machine
end

section
/-!
PROOFS. The plane memory (20_memory.md R70 to R77): what a stage or macro command leaves of the planes, and that every
step keeps their canonical form.
-/
namespace Sys2Proof.Machine

/-! ## The field commands on the planes (20_memory.md R76, 46_field_sequencer.md R300) -/

/-- Every stage and macro command runs one stage, which keeps what stages keep, and what it does on completion besides
leaves the planes alone. -/
theorem exec_eq_stageCommand {i : Instr} (hi : isFieldCommand i = true) :
    ∃ (st : Stage) (after : State → State), StageKeeps st ∧ (∀ s, (after s).planes = s.planes)
      ∧ ∀ s, exec i s = .next (stageCommand st after s) := by
  cases i with
  | clpf m => exact ⟨_, id, clpfStage_keeps m, fun _ => rfl, fun _ => rfl⟩
  | mod => exact ⟨_, id, modStage_keeps, fun _ => rfl, fun _ => rfl⟩
  | pre => exact ⟨_, id, preStage_keeps, fun _ => rfl, fun _ => rfl⟩
  | ynoise => exact ⟨_, id, ynoiseStage_keeps, fun _ => rfl, fun _ => rfl⟩
  | hsw => exact ⟨_, id, hswStage_keeps, fun _ => rfl, fun _ => rfl⟩
  | demod m => exact ⟨_, id, demodStage_keeps m, fun _ => rfl, fun _ => rfl⟩
  | cnoise => exact ⟨_, id, cnoiseStage_keeps, fun _ => rfl, fun _ => rfl⟩
  | cphase => exact ⟨_, id, cphaseStage_keeps, fun _ => rfl, fun _ => rfl⟩
  | cdrop => exact ⟨_, id, cdropStage_keeps, fun _ => rfl, fun _ => rfl⟩
  | vluma => exact ⟨_, id, vlumaStage_keeps, fun _ => rfl, fun _ => rfl⟩
  | vchroma => exact ⟨_, id, vchromaStage_keeps, fun _ => rfl, fun _ => rfl⟩
  | vblend => exact ⟨_, id, vblendStage_keeps, fun _ => rfl, fun _ => rfl⟩
  | vsharp => exact ⟨_, id, vsharpStage_keeps, fun _ => rfl, fun _ => rfl⟩
  | vhs => exact ⟨_, id, vhsStage_keeps, fun _ => rfl, fun _ => rfl⟩
  | runfield => exact ⟨_, advanceField, runfieldStage_keeps, advanceField_planes, fun _ => rfl⟩
  | _ => exact absurd hi Bool.false_ne_true

/-- Completing, faulting or refused by the phase, a command over a stage leaves planes that the stage may leave. -/
theorem stageCommand_planes {st : Stage} {after : State → State} {s : State} {P : Planes} (hst : StageKeeps st)
    (hafter : ∀ s, (after s).planes = s.planes) (hP : s.planes = some P) :
    ∃ P', (stageCommand st after s).planes = some P' ∧ PlanesKept s.field P P' := by
  rcases stageCommand_cases st after s with ⟨_, h⟩ | ⟨Q, _, hQ, hrun⟩
  · exact ⟨P, by rw [h, takeFault_planes, hP], .refl ..⟩
  · obtain rfl : P = Q := Option.some.inj (hP.symm.trans hQ)
    have hkept := hst s.regs s.field P s.draws
    rcases hrun with ⟨P', d, hres, h⟩ | ⟨c, P', d, hres, h⟩
    · exact ⟨P', by rw [h, answer_planes, hafter], by rwa [hres] at hkept⟩
    · exact ⟨P', by rw [h, takeFault_planes], by rwa [hres] at hkept⟩

/-- What a stage or macro command keeps of the planes. -/
theorem fieldCommand_planes {i : Instr} {s t : State} {P : Planes} (hi : isFieldCommand i = true)
    (hP : s.planes = some P) (hexec : exec i s = .next t) :
    ∃ P', t.planes = some P' ∧ PlanesKept s.field P P' := by
  obtain ⟨st, after, hst, hafter, hrun⟩ := exec_eq_stageCommand hi
  obtain rfl : stageCommand st after s = t := Host.Outcome.next.inj ((hrun s).symm.trans hexec)
  exact stageCommand_planes hst hafter hP

/-- Settles O50: a stage or macro command keeps every address outside the rows of the field. -/
theorem otherRowsKeepTheirValues : Obligations.OtherRowsKeepTheirValues := fun _ _ _ _ hi hP hexec =>
  have ⟨P', hP', hkept⟩ := fieldCommand_planes hi hP hexec
  ⟨P', hP', hkept.width, hkept.height, hkept.frame⟩

/-! ## The canonical form through a command (20_memory.md R70, R71, R73) -/

/-- The canonical form is a matter of the planes alone. -/
theorem State.PlanesCanonical.congr {s t : State} (h : s.PlanesCanonical) (hplanes : t.planes = s.planes) :
    t.PlanesCanonical :=
  fun P hP => h P (hplanes ▸ hP)

theorem State.PlanesCanonical.of_eq_none {s : State} (h : s.planes = none) : s.PlanesCanonical :=
  fun _ hP => nomatch h.symm.trans hP

theorem State.PlanesCanonical.of_eq_some {s : State} {P : Planes} (hP : s.planes = some P) (hwf : P.wf = true) :
    s.PlanesCanonical :=
  fun _ hQ => Option.some.inj (hP.symm.trans hQ) ▸ hwf

/-- The registers hold usable dimensions: a legal `DIM` has two positive 16-bit fields (10_state.md R31). -/
theorem State.RegsLegal.dims {s : State} (h : s.RegsLegal) :
    (1 ≤ s.regs.dimW ∧ s.regs.dimW < 65536) ∧ 1 ≤ s.regs.dimH ∧ s.regs.dimH < 65536 := by
  have hdim : s.regs.dim.toNat < 2 ^ 32 ∧ 1 ≤ s.regs.dimW ∧ 1 ≤ s.regs.dimH := of_decide_eq_true (h .dim)
  obtain ⟨_, hw, hh⟩ := hdim
  exact ⟨⟨hw, Nat.mod_lt _ (by decide)⟩, hh, Nat.mod_lt _ (by decide)⟩

/-- A pixel is three writes at one place of the plane space (42_color_conversion.md R192). -/
theorem wf_writePixel {P : Planes} {y x : Nat} (h : P.wf = true) (hi : P.inside planeY y x = true) (r g b : Nat) :
    (P.writePixel y x r g b).wf = true := by
  have hin : ∀ p < 3, P.inside p y x = true := fun p hp => by
    simp only [Planes.inside, decide_eq_true_eq] at hi ⊢
    exact ⟨hp, hi.2⟩
  exact wf_write _ _ _ _ _ (wf_write _ _ _ _ _ (wf_write _ _ _ _ _ h (hin planeY (by decide)))
    (hin planeI (by decide))) (hin planeQ (by decide))

/-- A command on the planes keeps the canonical form where its body does; its `PhaseError` always does. -/
theorem planesCanonical_withPlanes {s : State} {body : Planes → State → State} (h : s.PlanesCanonical)
    (hbody : ∀ P, P.wf = true → (body P s).PlanesCanonical) : (withPlanes body s).PlanesCanonical := by
  rcases withPlanes_cases body s with ⟨P, _, hP, he⟩ | ⟨_, he⟩
  · exact he ▸ hbody P (h P hP)
  · exact he ▸ h.congr (takeFault_planes ..)

theorem pwr_keeps_canonical {p : Nat} {s t : State} (h : s.PlanesCanonical) (hexec : exec (.pwr p) s = .next t) :
    t.PlanesCanonical := by
  obtain rfl := Host.Outcome.next.inj hexec
  refine planesCanonical_withPlanes h fun P hwf => ?_
  split
  · next hin => exact .of_eq_some (answer_planes ..) (wf_write P _ _ _ _ hwf hin)
  · exact h.congr (takeFault_planes ..)

theorem pixw_keeps_canonical {s t : State} (h : s.PlanesCanonical) (hexec : exec .pixw s = .next t) :
    t.PlanesCanonical := by
  obtain rfl := Host.Outcome.next.inj hexec
  refine planesCanonical_withPlanes h fun P hwf => ?_
  split
  · next hin => exact .of_eq_some (answer_planes ..) (wf_writePixel hwf hin ..)
  · exact h.congr (takeFault_planes ..)

theorem fieldCommand_keeps_canonical {i : Instr} {s t : State} {P : Planes} (h : s.PlanesCanonical)
    (hi : isFieldCommand i = true) (hP : s.planes = some P) (hexec : exec i s = .next t) : t.PlanesCanonical := by
  obtain ⟨P', hP', hkept⟩ := fieldCommand_planes hi hP hexec
  exact .of_eq_some hP' (hkept.canonical (h P hP))

/-- Every command keeps the canonical form: `SETUP` creates canonical planes where `DIM` is legal, the commands that
write the planes keep their form, and the others leave them or discard them. -/
theorem exec_keeps_canonical {i : Instr} {s t : State} (hregs : s.RegsLegal) (h : s.PlanesCanonical)
    (hexec : exec i s = .next t) : t.PlanesCanonical := by
  cases effect_of_exec hexec with
  | reset => exact .of_eq_none rfl
  | setup => exact .of_eq_some (answer_planes ..) (wf_zero _ _ hregs.dims.1 hregs.dims.2)
  | fault => exact h.congr (takeFault_planes ..)
  | answered | cfgw | catv | bank | nextfield | audf => exact h.congr (by simp)
  | stageFault _ _ hi _ hP => exact fieldCommand_keeps_canonical h hi hP hexec
  | runfield _ _ hP => exact fieldCommand_keeps_canonical h rfl hP hexec
  | planes _ hi _ hP =>
    rcases hi with ⟨p, rfl⟩ | rfl | hi
    · exact pwr_keeps_canonical h hexec
    · exact pixw_keeps_canonical h hexec
    · exact fieldCommand_keeps_canonical h hi hP hexec

/-! ## The canonical form through a step -/

/-- What a step can do: nothing, the hardware reset, the fault of an illegal word, or the command its word encodes
(60_exceptions.md R361, R365, 70_reset_and_hazards.md R400). -/
theorem step_cases {s t : State} (h : step s = .next t) :
    (s.host = [] ∧ t = s)
      ∨ (∃ rest, s.host = .hardReset :: rest ∧ t = hardReset { s with host := rest })
      ∨ ∃ cmd wdata rest, s.host = .command cmd wdata :: rest
          ∧ ((decode cmd = none ∧ t = takeFault .illegalCommand (present cmd wdata rest s))
            ∨ ∃ i, decode cmd = some i ∧ exec i (present cmd wdata rest s) = .next t) := by
  unfold step at h
  split at h
  · next hhost => exact .inl ⟨hhost, (Host.Outcome.next.inj h).symm⟩
  · next rest hhost => exact .inr (.inl ⟨rest, hhost, (Host.Outcome.next.inj h).symm⟩)
  · next cmd wdata rest hhost =>
    refine .inr (.inr ⟨cmd, wdata, rest, hhost, ?_⟩)
    split at h
    · next hdec => exact .inl ⟨hdec, (Host.Outcome.next.inj h).symm⟩
    · next i hdec => exact .inr ⟨i, hdec, h⟩

/-- Settles O57: the command a step runs keeps the canonical form, a reset discards the planes, and an illegal word's
fault leaves them. -/
theorem planesStayCanonical : Obligations.PlanesStayCanonical := fun s t hregs h hstep => by
  rcases step_cases hstep with ⟨_, rfl⟩ | ⟨rest, _, rfl⟩ | ⟨cmd, wdata, rest, _, ⟨_, rfl⟩ | ⟨i, _, hexec⟩⟩
  · exact h
  · exact .of_eq_none rfl
  · exact h.congr (takeFault_planes ..)
  · have hlegal : (present cmd wdata rest s).RegsLegal := hregs.congr rfl
    have hport : (present cmd wdata rest s).PlanesCanonical := h.congr rfl
    exact exec_keeps_canonical hlegal hport hexec

end Sys2Proof.Machine
end

section
/-!
PROOFS. The encoding (30_encoding.md R101 to R106): what the decoder reads from each format, that it and
the encoder invert each other, and that the words it accepts are those of the opcode map.
-/
namespace Sys2Proof.Machine

/-! ## The operand formats (30_encoding.md R101) -/

section
variable {body : Nat} {i : Instr}

theorem formatN_eq_some {j : Instr} : formatN body j = some i ↔ body < 2 ^ 0 ∧ j = i := by
  simp [formatN]

theorem formatByte_eq_some {f : Nat → Instr} (hbody : body < 2 ^ 24) :
    formatByte body f = some i ↔ body < 2 ^ 8 ∧ f body = i := by
  have hrest : bitField body 8 16 = 0 ↔ body < 2 ^ 8 := by unfold bitField; omega
  simp only [formatByte, hrest, Option.ite_none_right_eq_some, Option.some.injEq]
  refine and_congr_right fun h => ?_
  rw [show bitField body 0 8 = body by unfold bitField; omega]

theorem formatP_eq_some {f : Nat → Instr} (hbody : body < 2 ^ 24) :
    formatP body f = some i ↔ body < 2 ^ 2 ∧ f body = i := by
  have hrest : bitField body 2 22 = 0 ↔ body < 2 ^ 2 := by unfold bitField; omega
  simp only [formatP, hrest, Option.ite_none_right_eq_some, Option.some.injEq]
  refine and_congr_right fun h => ?_
  rw [show bitField body 0 2 = body by unfold bitField; omega]

theorem formatB_eq_some {f : Nat → Nat → Instr} (hbody : body < 2 ^ 24) :
    formatB body f = some i ↔ body < 2 ^ 16 ∧ f (body % 2 ^ 8) (body / 2 ^ 8) = i := by
  have hrest : bitField body 16 8 = 0 ↔ body < 2 ^ 16 := by unfold bitField; omega
  simp only [formatB, hrest, Option.ite_none_right_eq_some, Option.some.injEq]
  refine and_congr_right fun h => ?_
  rw [show bitField body 0 8 = body % 2 ^ 8 by unfold bitField; omega,
    show bitField body 8 8 = body / 2 ^ 8 by unfold bitField; omega]

theorem formatM_eq_some {f : Bool → Instr} (hbody : body < 2 ^ 24) :
    formatM body f = some i ↔ body < 2 ^ 1 ∧ f (decide (body = 1)) = i := by
  have hrest : bitField body 1 23 = 0 ↔ body < 2 ^ 1 := by unfold bitField; omega
  simp only [formatM, hrest, Option.ite_none_right_eq_some, Option.some.injEq]
  refine and_congr_right fun h => ?_
  rw [show bitField body 0 1 = body by unfold bitField; omega]

end

/-! ## Encode, then decode -/

section
variable {first n : Nat}

theorem formatByte_of_fits {f : Nat → Instr} (h : fits 8 n = true) : formatByte n f = some (f n) :=
  have hn : n < 2 ^ 8 := of_decide_eq_true h
  (formatByte_eq_some (hn.trans (by decide))).mpr ⟨hn, rfl⟩

theorem formatP_of_fits {f : Nat → Instr} (h : fits 2 n = true) : formatP n f = some (f n) :=
  have hn : n < 2 ^ 2 := of_decide_eq_true h
  (formatP_eq_some (hn.trans (by decide))).mpr ⟨hn, rfl⟩

theorem formatB_of_fits {f : Nat → Nat → Instr} (h : (fits 8 first && fits 8 n) = true) :
    formatB (n * 2 ^ 8 + first) f = some (f first n) := by
  simp only [fits, Bool.and_eq_true, decide_eq_true_eq] at h
  refine (formatB_eq_some (by omega)).mpr ⟨by omega, ?_⟩
  rw [show (n * 2 ^ 8 + first) % 2 ^ 8 = first by omega, show (n * 2 ^ 8 + first) / 2 ^ 8 = n by omega]

theorem formatM_toNat {f : Bool → Instr} (m : Bool) : formatM m.toNat f = some (f m) := by
  cases m <;> rfl

end

/-- The opcode and the operand fields of a well-formed command decode to it (R101, R103). -/
theorem decodeOp_of_wellFormed {i : Instr} (h : wellFormed i = true) :
    decodeOp (opcode i) (operandBits i) = some i := by
  cases i with
  | cfgw | cfgr | catv | fcfg | frst | flp | fhp => exact formatByte_of_fits h
  | pwr | prd => exact formatP_of_fits h
  | fcasl | fcash | hilo => exact formatB_of_fits h
  | clpf m | demod m => exact formatM_toNat m
  | _ => rfl

/-- The opcode and the operand fields of a well-formed command stand in its word (R101). -/
theorem encode_fields {i : Instr} (h : wellFormed i = true) :
    (encode i).toNat / 2 ^ 24 = opcode i ∧ (encode i).toNat % 2 ^ 24 = operandBits i := by
  refine Laws.encode_parts i ?_ (fun h => ?_) h
  · cases i <;> exact of_decide_eq_true rfl
  · cases i with
    | cfgw | cfgr | catv | fcfg | frst | flp | fhp => exact Laws.field_lt (by decide) h
    | pwr | prd => exact Laws.field_lt (by decide) h
    | fcasl | fcash | hilo => exact Laws.fields_lt h
    | clpf m | demod m => exact Laws.mode_lt m
    | _ => exact Nat.two_pow_pos 24

/-- The decoder looks at the opcode byte and the 24 bits below it (R101). -/
theorem decode_eq (cmd : CmdWord) : decode cmd = decodeOp (cmd.toNat / 2 ^ 24) (cmd.toNat % 2 ^ 24) := by
  have hop : bitField cmd.toNat 24 8 = cmd.toNat / 2 ^ 24 := by unfold bitField; omega
  have hbody : bitField cmd.toNat 0 24 = cmd.toNat % 2 ^ 24 := by unfold bitField; omega
  rw [decode, hop, hbody]

/-- Settles O1: the fields of the encoded word are the command's own, and they decode to it. -/
theorem decodeEncodeRoundTrip : Obligations.DecodeEncodeRoundTrip := fun i h => by
  obtain ⟨hop, hbody⟩ := encode_fields h
  rw [decode_eq, hop, hbody, decodeOp_of_wellFormed h]

/-! ## Decode, then encode -/

/-- A row of the opcode map from its opcode and the number of low bits its operands take. -/
def opcodeRow (op : CmdWord) (w : Nat) : CmdWord × CmdWord := (BitVec.allOnes 32 <<< w, op <<< 24)

/-- What it means that the opcode `op` and the operand bits `body` decode to `i`: they are the command's own, it is well
formed, and the opcode map has a row for them (R101, R103). -/
structure DecodesTo (op body : Nat) (i : Instr) : Prop where
  wf : wellFormed i = true
  op_eq : opcode i = op
  bits_eq : operandBits i = body
  row : ∃ w ≤ 24, opcodeRow (BitVec.ofNat 32 op) w ∈ opcodeRows ∧ body < 2 ^ w

section
variable {op body w : Nat} {i : Instr}

/-- A format of `w` operand bits, given by the command it makes of them. -/
theorem DecodesTo.of_operands {f : Nat → Instr} (hw : w ≤ 24) (h : body < 2 ^ w ∧ f body = i)
    (hf : body < 2 ^ w → wellFormed (f body) = true ∧ opcode (f body) = op ∧ operandBits (f body) = body)
    (hrow : opcodeRow (BitVec.ofNat 32 op) w ∈ opcodeRows) : DecodesTo op body i := by
  obtain ⟨hbody, rfl⟩ := h
  obtain ⟨hwell, hop, hbits⟩ := hf hbody
  exact ⟨hwell, hop, hbits, w, hw, hrow, hbody⟩

theorem DecodesTo.ofN {j : Instr} (h : body < 2 ^ 0 ∧ j = i)
    (hj : (wellFormed j, opcode j, operandBits j) = (true, op, 0) := by rfl)
    (hrow : opcodeRow (BitVec.ofNat 32 op) 0 ∈ opcodeRows := by decide) : DecodesTo op body i := by
  simp only [Prod.mk.injEq] at hj
  obtain ⟨hwell, hop, hbits⟩ := hj
  exact .of_operands (f := fun _ => j) (by decide) h
    (fun hb => ⟨hwell, hop, hbits.trans (Nat.lt_one_iff.mp hb).symm⟩) hrow

/-- Formats R, K, F and P: one field of `w` bits. -/
theorem DecodesTo.ofField {f : Nat → Instr} (h : body < 2 ^ w ∧ f body = i)
    (hf : ∀ n, (wellFormed (f n), opcode (f n), operandBits (f n)) = (fits w n, op, n) := by intro _; rfl)
    (hw : w ≤ 24 := by decide) (hrow : opcodeRow (BitVec.ofNat 32 op) w ∈ opcodeRows := by decide) :
    DecodesTo op body i := by
  simp only [Prod.mk.injEq] at hf
  obtain ⟨hwell, hop, hbits⟩ := hf body
  exact .of_operands hw h (fun hb => ⟨hwell.trans (decide_eq_true hb), hop, hbits⟩) hrow

theorem DecodesTo.ofB {f : Nat → Nat → Instr} (h : body < 2 ^ 16 ∧ f (body % 2 ^ 8) (body / 2 ^ 8) = i)
    (hf : ∀ first n, (wellFormed (f first n), opcode (f first n), operandBits (f first n))
      = (fits 8 first && fits 8 n, op, n * 2 ^ 8 + first) := by intro _ _; rfl)
    (hrow : opcodeRow (BitVec.ofNat 32 op) 16 ∈ opcodeRows := by decide) : DecodesTo op body i := by
  simp only [Prod.mk.injEq] at hf
  obtain ⟨hwell, hop, hbits⟩ := hf (body % 2 ^ 8) (body / 2 ^ 8)
  refine .of_operands (f := fun b => f (b % 2 ^ 8) (b / 2 ^ 8)) (by decide) h
    (fun hb => ⟨hwell.trans ?_, hop, hbits.trans (by omega)⟩) hrow
  simp only [fits, Bool.and_eq_true, decide_eq_true_eq]
  omega

theorem DecodesTo.ofM {f : Bool → Instr} (h : body < 2 ^ 1 ∧ f (decide (body = 1)) = i)
    (hf : ∀ m, (wellFormed (f m), opcode (f m), operandBits (f m)) = (true, op, m.toNat) := by
      intro _; rfl)
    (hrow : opcodeRow (BitVec.ofNat 32 op) 1 ∈ opcodeRows := by decide) : DecodesTo op body i := by
  simp only [Prod.mk.injEq] at hf
  obtain ⟨hwell, hop, hbits⟩ := hf (decide (body = 1))
  refine .of_operands (f := fun b => f (decide (b = 1))) (by decide) h
    (fun hb => ⟨hwell, hop, hbits.trans ?_⟩) hrow
  obtain rfl | rfl : body = 0 ∨ body = 1 := by omega
  · rfl
  · rfl

/-- The opcode map, row by row (R103): what decodes is a command with this opcode and these operand bits. -/
theorem decodesTo_of_decodeOp (hbody : body < 2 ^ 24) (h : decodeOp op body = some i) : DecodesTo op body i := by
  unfold decodeOp at h
  split at h
  case h_1 | h_2 | h_5 | h_9 | h_10 | h_19 | h_20 | h_21 | h_22 | h_24
      | h_25 | h_26 | h_27 | h_28 | h_29 | h_30 | h_31 | h_32 | h_33 | h_34 =>
    exact .ofN (formatN_eq_some.mp h)
  case h_3 | h_4 | h_6 | h_11 | h_12 | h_13 | h_14 =>
    exact .ofField ((formatByte_eq_some hbody).mp h)
  case h_7 | h_8 =>
    exact .ofField ((formatP_eq_some hbody).mp h)
  case h_15 | h_16 | h_17 =>
    exact .ofB ((formatB_eq_some hbody).mp h)
  case h_18 | h_23 =>
    exact .ofM ((formatM_eq_some hbody).mp h)
  case h_35 => cases h

end

theorem decodesTo_of_decode {cmd : CmdWord} {i : Instr} (h : decode cmd = some i) :
    DecodesTo (cmd.toNat / 2 ^ 24) (cmd.toNat % 2 ^ 24) i :=
  decodesTo_of_decodeOp (Nat.mod_lt _ (Nat.two_pow_pos 24)) (decode_eq cmd ▸ h)

/-- The word of what decoded is the word it decoded from (R101, R103). -/
theorem encode_of_decode {cmd : CmdWord} {i : Instr} (h : decode cmd = some i) :
    wellFormed i = true ∧ encode i = cmd := by
  obtain ⟨hwell, hop, hbits, _⟩ := decodesTo_of_decode h
  refine ⟨hwell, BitVec.eq_of_toNat_eq ?_⟩
  rw [encode, hop, hbits, BitVec.toNat_ofNat]
  omega

/-! ## The rows of the opcode map (R103, R104, R106) -/

theorem and_allOnes_shiftLeft (cmd : CmdWord) (w : Nat) : cmd &&& BitVec.allOnes 32 <<< w = cmd >>> w <<< w := by
  ext k hk
  by_cases h : k < w
  · simp [h]
  · have hk' : w + (k - w) = k := Nat.add_sub_cancel' (not_lt.mp h)
    simp [BitVec.getElem_shiftLeft, h, hk', BitVec.getLsbD_eq_getElem hk, -BitVec.reduceAllOnes]

/-- A word matches a row when it has the row's opcode and no operand bit above those the row leaves free. -/
theorem matches_opcodeRow {cmd op : CmdWord} {w : Nat} (hw : w ≤ 24) (hop : op.toNat < 2 ^ 8) :
    cmd &&& (opcodeRow op w).1 = (opcodeRow op w).2
      ↔ cmd.toNat / 2 ^ 24 = op.toNat ∧ cmd.toNat % 2 ^ 24 < 2 ^ w := by
  have hlow : cmd.toNat % 2 ^ 24 % 2 ^ w = cmd.toNat % 2 ^ w := Nat.mod_mod_of_dvd _ (pow_dvd_pow 2 hw)
  have hdiv := Nat.div_add_mod cmd.toNat (2 ^ w)
  have hpos := Nat.two_pow_pos w
  have hclear : (cmd &&& BitVec.allOnes 32 <<< w).toNat = cmd.toNat - cmd.toNat % 2 ^ w := by
    rw [and_allOnes_shiftLeft, BitVec.toNat_shiftLeft, BitVec.toNat_ushiftRight, Nat.shiftRight_eq_div_pow,
      Nat.shiftLeft_eq, Nat.mul_comm]
    omega
  have hval : (op <<< 24).toNat = op.toNat * 2 ^ 24 := by
    rw [BitVec.toNat_shiftLeft, Nat.shiftLeft_eq]
    omega
  rw [opcodeRow, ← BitVec.toNat_inj, hclear, hval]
  have hlt : cmd.toNat % 2 ^ w < 2 ^ 24 := lt_of_lt_of_le (Nat.mod_lt _ hpos) (Nat.pow_le_pow_right (by decide) hw)
  constructor
  · intro h
    have := Nat.mod_lt cmd.toNat hpos
    omega
  · rintro ⟨h1, h2⟩
    rw [Nat.mod_eq_of_lt h2] at hlow
    omega

/-- Rows whose values differ where both masks look have no word in common. -/
theorem opcodeRows_differ : opcodeRows.Pairwise fun a b => a.2 &&& b.1 ≠ b.2 &&& a.1 := by
  decide +kernel

/-- Every word of the row of `op` with `w` operand bits decodes. -/
def RowDecodes (op : CmdWord) (w : Nat) : Prop :=
  w ≤ 24 ∧ op.toNat < 2 ^ 8 ∧ ∀ body < 2 ^ w, ∃ i, decodeOp op.toNat body = some i

theorem RowDecodes.exists_decode {cmd op : CmdWord} {w : Nat} (hrow : RowDecodes op w)
    (h : cmd &&& (opcodeRow op w).1 = (opcodeRow op w).2) : ∃ i, decode cmd = some i := by
  obtain ⟨hw, hop, hdec⟩ := hrow
  obtain ⟨hcmd, hbody⟩ := (matches_opcodeRow hw hop).mp h
  rw [decode_eq, hcmd]
  exact hdec _ hbody

/-- A row whose opcode's format takes `w` operand bits. -/
theorem RowDecodes.of_format {op : CmdWord} {w : Nat} {f : Nat → Instr}
    (hf : ∀ body i, body < 2 ^ 24 → (decodeOp op.toNat body = some i ↔ body < 2 ^ w ∧ f body = i))
    (hw : w ≤ 24 := by decide) (hop : op.toNat < 2 ^ 8 := by decide) : RowDecodes op w :=
  ⟨hw, hop, fun body hb =>
    ⟨f body, (hf body _ (hb.trans_le (Nat.pow_le_pow_right (by decide) hw))).mpr ⟨hb, rfl⟩⟩⟩

/-- The opcode map, row by row: every row decodes. -/
theorem rowDecodes_of_mem {row : CmdWord × CmdWord} (hrow : row ∈ opcodeRows) :
    ∃ op w, row = opcodeRow op w ∧ RowDecodes op w := by
  simp only [opcodeRows, List.mem_append, List.mem_map, List.bind_eq_flatMap, List.mem_flatMap, List.pure_def,
    List.mem_singleton] at hrow
  obtain (((⟨_, ⟨op, hop, rfl⟩, rfl⟩ | ⟨_, ⟨op, hop, rfl⟩, rfl⟩) | ⟨_, ⟨op, hop, rfl⟩, rfl⟩)
    | ⟨_, ⟨op, hop, rfl⟩, rfl⟩) | ⟨_, ⟨op, hop, rfl⟩, rfl⟩ := hrow
  · refine ⟨op, 0, rfl, ?_⟩
    fin_cases hop
    all_goals exact .of_format fun _ _ _ => formatN_eq_some
  · refine ⟨op, 8, rfl, ?_⟩
    fin_cases hop
    all_goals exact .of_format fun _ _ => formatByte_eq_some
  · refine ⟨op, 2, rfl, ?_⟩
    fin_cases hop
    all_goals exact .of_format fun _ _ => formatP_eq_some
  · refine ⟨op, 16, rfl, ?_⟩
    fin_cases hop
    all_goals exact .of_format fun _ _ => formatB_eq_some
  · refine ⟨op, 1, rfl, ?_⟩
    fin_cases hop
    all_goals exact .of_format fun _ _ => formatM_eq_some

/-- A word is a command exactly when it matches a row (R103, R104, R106). -/
theorem exists_decode_iff (cmd : CmdWord) :
    (∃ i, decode cmd = some i) ↔ ∃ row ∈ opcodeRows, cmd &&& row.1 = row.2 := by
  constructor
  · rintro ⟨i, h⟩
    obtain ⟨w, hw, hrow, hbody⟩ := (decodesTo_of_decode h).row
    have hop : (BitVec.ofNat 32 (cmd.toNat / 2 ^ 24)).toNat = cmd.toNat / 2 ^ 24 := by
      rw [BitVec.toNat_ofNat]
      omega
    exact ⟨_, hrow, (matches_opcodeRow hw (by omega)).mpr ⟨hop.symm, hbody⟩⟩
  · rintro ⟨row, hrow, h⟩
    obtain ⟨op, w, rfl, hdec⟩ := rowDecodes_of_mem hrow
    exact hdec.exists_decode h

/-- A word that matched two rows would take, where both masks look, the values of both. -/
theorem opcodeRows_disjoint :
    opcodeRows.Pairwise fun a b => ∀ cmd : CmdWord, ¬ (cmd &&& a.1 = a.2 ∧ cmd &&& b.1 = b.2) :=
  opcodeRows_differ.imp fun hab cmd ⟨ha, hb⟩ => hab (by rw [← ha, ← hb]; ac_rfl)

/-- Settles O2: the words that decode are those of the rows, the rows are disjoint, and encoding inverts decoding. -/
theorem decodeMatchesOpcodeMap : Obligations.DecodeMatchesOpcodeMap :=
  ⟨exists_decode_iff, opcodeRows_disjoint, fun _ _ => encode_of_decode⟩

/-- Settles O3: the sample words are closed facts about the opcode map. -/
theorem sampleWordsDecode : Obligations.SampleWordsDecode := by
  unfold Obligations.SampleWordsDecode
  decide

end Sys2Proof.Machine
end

section
/-!
PROOFS. Which phase accepts which command (30_encoding.md R108). A command outside its phase is refused with
`PhaseError` before anything else of its rule; inside, no rule but the check of `AUDF` for ready cells raises it.
-/
namespace Sys2Proof.Machine

/-! ## The faults a stage can raise (60_exceptions.md R363, R364) -/

/-- The fault of a row, where it faults. -/
def RowResult.fault? {κ : Type} : RowResult κ → Option FaultCode
  | .done .. => none
  | .fault c _ => some c

/-- The fault of a stage, where it faults. -/
def StageResult.fault? : StageResult → Option FaultCode
  | .done .. => none
  | .fault c .. => some c

/-- The stage never raises `PhaseError`. -/
def NoPhaseError (st : Stage) : Prop := ∀ g field P d, (st g field P d).fault? ≠ some .phaseError

section
variable {κ : Type} {c : FaultCode} {f : κ → DrawSource → Nat → Row → RowResult κ}

/-- A list of rows raises only what a row raises. -/
theorem passRows_fault?_ne (hf : ∀ k d y r, (f k d y r).fault? ≠ some c) (ys : List Nat) (k : κ) (d : DrawSource)
    (P : Planes) : (passRows f ys k d P).fault? ≠ some c := by
  induction ys generalizing k d P with
  | nil => exact nofun
  | cons y ys ih =>
    have hrow := hf k d y (P.row y)
    rw [passRows]
    cases hres : f k d y (P.row y) with
    | done k' r d' => exact ih k' d' (P.setRow y r)
    | fault c' d' => rwa [hres] at hrow

/-- A field pass raises only what a row raises. -/
theorem fieldPass_fault?_ne (hf : ∀ k d y r, (f k d y r).fault? ≠ some c) {k : κ} {field : BitVec 64}
    {P : Planes} {d : DrawSource} : (fieldPass f k field P d).fault? ≠ some c := by
  have hpass := passRows_fault?_ne hf (fieldRows field P.h) k d P
  unfold fieldPass
  cases hres : passRows f (fieldRows field P.h) k d P with
  | done P' d' => exact nofun
  | fault c' P' d' => rwa [hres] at hpass

end

theorem rowOrOverflow_fault?_ne {d : DrawSource} {o : Option Row} :
    (rowOrOverflow d o).fault? ≠ some .phaseError := by
  cases o <;> exact nofun

theorem clpfStage_noPhaseError (m : Bool) : NoPhaseError (clpfStage m) := fun _ _ _ _ =>
  fieldPass_fault?_ne (fun _ _ _ _ => rowOrOverflow_fault?_ne)

theorem modStage_noPhaseError : NoPhaseError modStage := fun _ _ _ _ =>
  fieldPass_fault?_ne (fun _ _ _ _ => rowOrOverflow_fault?_ne)

theorem preStage_noPhaseError : NoPhaseError preStage := fun g _ _ _ => by
  unfold preStage
  split
  · exact nofun
  · refine fieldPass_fault?_ne (fun _ d _ r => ?_)
    unfold preRow
    split
    · exact nofun
    · exact rowOrOverflow_fault?_ne

theorem ynoiseStage_noPhaseError : NoPhaseError ynoiseStage := fun _ _ _ _ => by
  unfold ynoiseStage
  split
  · exact nofun
  · exact fieldPass_fault?_ne (fun _ _ _ _ => rowOrOverflow_fault?_ne)

theorem hswStage_noPhaseError : NoPhaseError hswStage := fun _ _ _ _ => by
  unfold hswStage
  dsimp only
  split <;> exact nofun

theorem demodStage_noPhaseError (m : Bool) : NoPhaseError (demodStage m) := fun _ _ _ _ => by
  unfold demodStage
  split
  · exact nofun
  · exact fieldPass_fault?_ne (fun _ _ _ _ => rowOrOverflow_fault?_ne)

theorem cnoiseStage_noPhaseError : NoPhaseError cnoiseStage := fun _ _ _ _ => by
  unfold cnoiseStage
  split
  · exact nofun
  · exact fieldPass_fault?_ne (fun _ _ _ _ => rowOrOverflow_fault?_ne)

theorem cphaseStage_noPhaseError : NoPhaseError cphaseStage := fun _ _ _ _ => by
  unfold cphaseStage
  split
  · exact nofun
  · refine fieldPass_fault?_ne (fun n d _ r => ?_)
    unfold cphaseRow
    split <;> exact nofun

theorem cdropStage_noPhaseError : NoPhaseError cdropStage := fun _ _ _ _ => by
  unfold cdropStage
  split
  · exact nofun
  · refine fieldPass_fault?_ne (fun _ d _ r => ?_)
    unfold cdropRow
    split <;> exact nofun

theorem vlumaStage_noPhaseError : NoPhaseError vlumaStage := fun _ _ _ _ =>
  fieldPass_fault?_ne (fun _ _ _ _ => rowOrOverflow_fault?_ne)

theorem vchromaStage_noPhaseError : NoPhaseError vchromaStage := fun _ _ _ _ =>
  fieldPass_fault?_ne (fun _ _ _ _ => rowOrOverflow_fault?_ne)

theorem vblendStage_noPhaseError : NoPhaseError vblendStage := fun _ _ _ _ => by
  refine fieldPass_fault?_ne (fun delay d _ r => ?_)
  unfold vblendRow
  exact nofun

theorem vsharpStage_noPhaseError : NoPhaseError vsharpStage := fun _ _ _ _ =>
  fieldPass_fault?_ne (fun _ _ _ _ => rowOrOverflow_fault?_ne)

/-- Stages one after another raise only what one of them raises. -/
theorem runStages_noPhaseError {l : List Stage} (h : ∀ st ∈ l, NoPhaseError st) : NoPhaseError (runStages l) := by
  induction l with
  | nil => exact fun _ _ _ _ => nofun
  | cons st l ih =>
    intro g field P d
    obtain ⟨hst, hl⟩ := List.forall_mem_cons.mp h
    have hfirst := hst g field P d
    rw [runStages]
    cases hres : st g field P d with
    | done P' d' => exact ih hl g field P' d'
    | fault c P' d' => rwa [hres] at hfirst

/-- What holds of the steps a sequence of stages takes under a condition. -/
theorem forall_mem_ite {α : Type} {p : α → Prop} {b : Prop} [Decidable b] {l l' : List α} (h : ∀ a ∈ l, p a)
    (h' : ∀ a ∈ l', p a) : ∀ a ∈ (if b then l else l'), p a := by
  split
  · exact h
  · exact h'

theorem vhsStage_noPhaseError : NoPhaseError vhsStage := fun g => by
  refine runStages_noPhaseError (l := vhsSteps g) ?_ g
  simp only [vhsSteps, List.forall_mem_append]
  refine ⟨⟨⟨?_, forall_mem_ite ?_ nofun⟩, ?_⟩, forall_mem_ite nofun ?_⟩
  · exact List.forall_mem_cons.mpr
      ⟨vlumaStage_noPhaseError, List.forall_mem_singleton.mpr vchromaStage_noPhaseError⟩
  · exact List.forall_mem_singleton.mpr vblendStage_noPhaseError
  · exact List.forall_mem_singleton.mpr vsharpStage_noPhaseError
  · exact List.forall_mem_cons.mpr
      ⟨modStage_noPhaseError, List.forall_mem_singleton.mpr (demodStage_noPhaseError true)⟩

theorem runfieldStage_noPhaseError : NoPhaseError runfieldStage := fun g => by
  refine runStages_noPhaseError (l := runfieldSteps g) (forall_mem_ite ?_ nofun) g
  simp only [List.forall_mem_append, List.forall_mem_cons]
  refine ⟨⟨⟨⟨⟨forall_mem_ite ?_ nofun, ?_⟩, forall_mem_ite ?_ nofun⟩, ?_⟩, forall_mem_ite ?_ nofun⟩,
    forall_mem_ite ?_ nofun⟩
  · exact List.forall_mem_singleton.mpr (clpfStage_noPhaseError false)
  · exact ⟨modStage_noPhaseError, preStage_noPhaseError, ynoiseStage_noPhaseError, nofun⟩
  · exact List.forall_mem_singleton.mpr hswStage_noPhaseError
  · exact ⟨demodStage_noPhaseError false, cnoiseStage_noPhaseError, cphaseStage_noPhaseError,
      cdropStage_noPhaseError, nofun⟩
  · exact List.forall_mem_singleton.mpr vhsStage_noPhaseError
  · exact List.forall_mem_singleton.mpr (clpfStage_noPhaseError g.outLite)

/-! ## How an accepted command ends -/

/-- How a command that its phase accepts ends in `s`: with an answer, or with a fault that is not `PhaseError`. -/
inductive AcceptedEnd (s : State) : State → Prop
  | answered (v : DataWord) (u : State) : AcceptedEnd s (answer v u)
  | fault (c : FaultCode) (u : State) (hc : c ≠ .phaseError) (hu : u.phase = s.phase) :
      AcceptedEnd s (takeFault c u)

/-- The code 4 is that of `PhaseError` alone (R360). -/
theorem FaultCode.code_ne_four {c : FaultCode} (h : c ≠ .phaseError) : c.code ≠ 4#8 := by
  cases c with
  | phaseError => exact absurd rfl h
  | _ => decide

theorem AcceptedEnd.fcode_ne {s t : State} (h : AcceptedEnd s t) (hs : s.phase ≠ .faulted)
    (hresp : t.resp = some .fault) : t.fcode ≠ 4#8 := by
  cases h with
  | answered v u => cases hresp
  | fault c u hc hu =>
    rw [takeFault_fcode, hu, if_neg hs]
    exact FaultCode.code_ne_four hc

/-- A fault of a command that has changed nothing. -/
theorem AcceptedEnd.plainFault (s : State) {c : FaultCode} (hc : c ≠ .phaseError) :
    AcceptedEnd s (takeFault c s) :=
  .fault c s hc rfl

theorem execCfgr_end (idx : Nat) (s : State) : ∃ t, exec (.cfgr idx) s = .next t ∧ AcceptedEnd s t := by
  refine ⟨_, rfl, ?_⟩
  split
  · exact .plainFault s nofun
  · exact .answered ..

theorem writeRegister_end (idx : Nat) (s : State) : AcceptedEnd s (writeRegister idx s) := by
  unfold writeRegister
  split
  · exact .plainFault s nofun
  · split
    · exact .answered ..
    · exact .plainFault s nofun

theorem setupBlock_end (s : State) : AcceptedEnd s (setupBlock s) := by
  unfold setupBlock
  split
  · split
    · exact .plainFault s nofun
    · exact .answered ..
  · exact .plainFault s nofun

theorem loadPreset_end (k : Nat) (s : State) : AcceptedEnd s (loadPreset k s) := by
  unfold loadPreset
  split
  · exact .plainFault s nofun
  · exact .answered ..

theorem configureCell_end (cell : Nat) (s : State) : AcceptedEnd s (configureCell cell s) := by
  unfold configureCell
  split
  · exact .plainFault s nofun
  · split
    · exact .plainFault s nofun
    · exact .answered ..

theorem resetCell_end (cell : Nat) (s : State) : AcceptedEnd s (resetCell cell s) := by
  unfold resetCell
  split
  · exact .plainFault s nofun
  · split
    · exact .answered ..
    · exact .plainFault s nofun

theorem secondChannel_end (ch0 : AudioChannel) (out0 : Int) (d : DrawSource) (s : State) :
    AcceptedEnd s (secondChannel ch0 out0 d s) := by
  unfold secondChannel
  split
  · exact .fault _ _ nofun rfl
  · exact .answered ..

theorem audioFrame_end (s : State) : AcceptedEnd s (audioFrame s) := by
  unfold audioFrame
  split
  · exact .fault _ _ nofun rfl
  · split
    · exact .answered ..
    · exact secondChannel_end ..

theorem audioCommand_end {s : State} (hready : s.audReady = true) : AcceptedEnd s (audioCommand s) := by
  unfold audioCommand
  rw [hready, Bool.not_true, if_neg Bool.false_ne_true]
  split
  · exact .plainFault s nofun
  · exact audioFrame_end s

theorem bankCommand_end (ok : Bool) (plan : List (FilterOp × Nat)) {s : State} (hp : s.phase = .run) :
    AcceptedEnd s (bankCommand ok plan s) := by
  rcases bankCommand_cases ok plan s with ⟨hne, _⟩ | ⟨_, _, h⟩ | ⟨_, _, _, _, h⟩ | ⟨_, _, _, _, _, ⟨_, h⟩ | ⟨_, h⟩⟩
  · exact absurd hp hne
  · exact h ▸ .plainFault s nofun
  · exact h ▸ .plainFault s nofun
  · exact h ▸ .plainFault s nofun
  · exact h ▸ .answered ..

theorem withPlanes_end {body : Planes → State → State} {s : State} (hp : s.phase = .run)
    (hP : s.planes.isSome = true) (hbody : ∀ P, AcceptedEnd s (body P s)) : AcceptedEnd s (withPlanes body s) := by
  obtain ⟨P, hP⟩ := Option.isSome_iff_exists.mp hP
  exact withPlanes_run body hp hP ▸ hbody P

theorem stageCommand_end {st : Stage} (hst : NoPhaseError st) (after : State → State) {s : State}
    (hp : s.phase = .run) (hP : s.planes.isSome = true) : AcceptedEnd s (stageCommand st after s) := by
  refine withPlanes_end hp hP fun P => ?_
  have hfault := hst s.regs s.field P s.draws
  cases hres : st s.regs s.field P s.draws with
  | done P' d' => exact .answered ..
  | fault c P' d' =>
    rw [hres] at hfault
    exact .fault c _ (fun hc => hfault (congrArg some hc)) rfl

/-! ## The phase of each command (R108) -/

/-- The phase `q` alone accepts the command: elsewhere it is refused, and in `q` it runs, with the planes of RUN and
with ready cells for `AUDF`. -/
structure RunsOnlyIn (q : Phase) (i : Instr) : Prop where
  accepted_eq : ∀ p, accepted p i = decide (p = q)
  refused : ∀ s, s.phase ≠ q → exec i s = .next (takeFault .phaseError s)
  ends : ∀ s, s.phase = q → (s.phase = .run → s.planes.isSome = true) → (i = .audf → s.audReady = true) →
    ∃ t, exec i s = .next t ∧ AcceptedEnd s t

section
variable {i : Instr}

theorem RunsOnlyIn.ofSetup {body : State → State} (hbody : ∀ s, AcceptedEnd s (body s))
    (hacc : ∀ p, accepted p i = decide (p = .setup) := by intro p; cases p <;> rfl)
    (hexec : ∀ s, exec i s = .next (inSetup body s) := by intro _; rfl) : RunsOnlyIn .setup i where
  accepted_eq := hacc
  refused s hne := (hexec s).trans (congrArg _ (if_neg hne))
  ends s hp _ _ := ⟨_, (hexec s).trans (congrArg _ (if_pos hp)), hbody s⟩

theorem RunsOnlyIn.ofRun {body : State → State}
    (hbody : ∀ s, (i = .audf → s.audReady = true) → AcceptedEnd s (body s))
    (hacc : ∀ p, accepted p i = decide (p = .run) := by intro p; cases p <;> rfl)
    (hexec : ∀ s, exec i s = .next (inRun body s) := by intro _; rfl) : RunsOnlyIn .run i where
  accepted_eq := hacc
  refused s hne := (hexec s).trans (congrArg _ (if_neg hne))
  ends s hp _ hready := ⟨_, (hexec s).trans (congrArg _ (if_pos hp)), hbody s hready⟩

theorem RunsOnlyIn.ofBank {ok : Bool} {plan : List (FilterOp × Nat)}
    (hacc : ∀ p, accepted p i = decide (p = .run) := by intro p; cases p <;> rfl)
    (hexec : ∀ s, exec i s = .next (bankCommand ok plan s) := by intro _; rfl) : RunsOnlyIn .run i where
  accepted_eq := hacc
  refused s hne := (hexec s).trans (congrArg _ (if_neg hne))
  ends s hp _ _ := ⟨_, hexec s, bankCommand_end ok plan hp⟩

theorem RunsOnlyIn.ofPlanes {body : Planes → State → State} (hbody : ∀ s P, AcceptedEnd s (body P s))
    (hacc : ∀ p, accepted p i = decide (p = .run) := by intro p; cases p <;> rfl)
    (hexec : ∀ s, exec i s = .next (withPlanes body s) := by intro _; rfl) : RunsOnlyIn .run i where
  accepted_eq := hacc
  refused s hne := (hexec s).trans (congrArg _ (if_neg hne))
  ends s hp hP _ := ⟨_, hexec s, withPlanes_end hp (hP hp) (hbody s)⟩

theorem RunsOnlyIn.ofStage {st : Stage} {after : State → State} (hst : NoPhaseError st)
    (hacc : ∀ p, accepted p i = decide (p = .run) := by intro p; cases p <;> rfl)
    (hexec : ∀ s, exec i s = .next (stageCommand st after s) := by intro _; rfl) : RunsOnlyIn .run i where
  accepted_eq := hacc
  refused s hne := (hexec s).trans (congrArg _ (if_neg hne))
  ends s hp hP _ := ⟨_, hexec s, stageCommand_end hst after hp (hP hp)⟩

/-- A command on one place of the planes. -/
theorem RunsOnlyIn.ofPlace {ok : Planes → State → Bool} {v : Planes → State → DataWord}
    {u : Planes → State → State}
    (hacc : ∀ p, accepted p i = decide (p = .run) := by intro p; cases p <;> rfl)
    (hexec : ∀ s, exec i s = .next (withPlanes
      (fun P s => if ok P s then answer (v P s) (u P s) else takeFault .planeAddress s) s) := by intro _; rfl) :
    RunsOnlyIn .run i := by
  refine .ofPlanes (fun s P => ?_) hacc hexec
  split
  · exact .answered ..
  · exact .plainFault s nofun

end

/-- R108, command by command. -/
theorem phase_rule (i : Instr) :
    ((∀ p, accepted p i = true) ∧ ∀ s, ∃ t, exec i s = .next t ∧ AcceptedEnd s t)
      ∨ RunsOnlyIn .setup i ∨ RunsOnlyIn .run i := by
  cases i with
  | nop => exact .inl ⟨fun p => by cases p <;> rfl, fun s => ⟨_, rfl, .answered ..⟩⟩
  | reset => exact .inl ⟨fun p => by cases p <;> rfl, fun s => ⟨_, rfl, .answered ..⟩⟩
  | cfgr idx => exact .inl ⟨fun p => by cases p <;> rfl, execCfgr_end idx⟩
  | cfgw idx => exact .inr (.inl (.ofSetup (writeRegister_end idx)))
  | setup => exact .inr (.inl (.ofSetup setupBlock_end))
  | catv k => exact .inr (.inl (.ofSetup (loadPreset_end k)))
  | fcfg cell => exact .inr (.inl (.ofSetup (configureCell_end cell)))
  | frst cell => exact .inr (.inr (.ofRun fun s _ => resetCell_end cell s))
  | nextfield => exact .inr (.inr (.ofRun fun s _ => .answered ..))
  | audf => exact .inr (.inr (.ofRun fun s hready => audioCommand_end (hready rfl)))
  | flp | fhp | fcasl | fcash | hilo => exact .inr (.inr .ofBank)
  | pwr | prd | pixw | pixr => exact .inr (.inr .ofPlace)
  | clpf m => exact .inr (.inr (.ofStage (clpfStage_noPhaseError m)))
  | mod => exact .inr (.inr (.ofStage modStage_noPhaseError))
  | pre => exact .inr (.inr (.ofStage preStage_noPhaseError))
  | ynoise => exact .inr (.inr (.ofStage ynoiseStage_noPhaseError))
  | hsw => exact .inr (.inr (.ofStage hswStage_noPhaseError))
  | demod m => exact .inr (.inr (.ofStage (demodStage_noPhaseError m)))
  | cnoise => exact .inr (.inr (.ofStage cnoiseStage_noPhaseError))
  | cphase => exact .inr (.inr (.ofStage cphaseStage_noPhaseError))
  | cdrop => exact .inr (.inr (.ofStage cdropStage_noPhaseError))
  | vluma => exact .inr (.inr (.ofStage vlumaStage_noPhaseError))
  | vchroma => exact .inr (.inr (.ofStage vchromaStage_noPhaseError))
  | vblend => exact .inr (.inr (.ofStage vblendStage_noPhaseError))
  | vsharp => exact .inr (.inr (.ofStage vsharpStage_noPhaseError))
  | vhs => exact .inr (.inr (.ofStage vhsStage_noPhaseError))
  | runfield => exact .inr (.inr (.ofStage runfieldStage_noPhaseError))

/-- A command that its phase does not accept is refused. -/
theorem RunsOnlyIn.exec_of_not_accepted {q : Phase} {i : Instr} (hi : RunsOnlyIn q i) {s : State}
    (hacc : accepted s.phase i = false) : exec i s = .next (takeFault .phaseError s) :=
  hi.refused s (of_decide_eq_false (hi.accepted_eq _ ▸ hacc))

theorem exec_of_not_accepted {i : Instr} {s : State} (hacc : accepted s.phase i = false) :
    exec i s = .next (takeFault .phaseError s) := by
  rcases phase_rule i with ⟨hall, _⟩ | hi | hi
  · exact absurd (hall s.phase) (by simp [hacc])
  · exact hi.exec_of_not_accepted hacc
  · exact hi.exec_of_not_accepted hacc

/-- A command that its phase accepts ends as accepted commands do. -/
theorem RunsOnlyIn.exec_of_accepted {q : Phase} {i : Instr} (hi : RunsOnlyIn q i) {s : State}
    (hacc : accepted s.phase i = true) (hplanes : s.phase = .run → s.planes.isSome = true)
    (hready : i = .audf → s.audReady = true) : ∃ t, exec i s = .next t ∧ AcceptedEnd s t :=
  hi.ends s (of_decide_eq_true (hi.accepted_eq _ ▸ hacc)) hplanes hready

theorem acceptedEnd_of_exec {i : Instr} {s t : State} (hacc : accepted s.phase i = true)
    (hplanes : s.phase = .run → s.planes.isSome = true) (hready : i = .audf → s.audReady = true)
    (hexec : exec i s = .next t) : AcceptedEnd s t := by
  have hends : ∃ u, exec i s = .next u ∧ AcceptedEnd s u := by
    rcases phase_rule i with ⟨_, hends⟩ | hi | hi
    · exact hends s
    · exact hi.exec_of_accepted hacc hplanes hready
    · exact hi.exec_of_accepted hacc hplanes hready
  obtain ⟨u, hu, hend⟩ := hends
  exact Host.Outcome.next.inj (hu.symm.trans hexec) ▸ hend

/-- Settles O46: what a phase does not accept is refused by `PhaseError`, as `takeFault` records it outside FAULTED and
inside it, and what it accepts ends without `PhaseError`. -/
theorem phaseAcceptsCommands : Obligations.PhaseAcceptsCommands := by
  refine ⟨fun i s hacc hs => ?_, fun i s hacc hs => ?_, fun i s t hacc hs hplanes hready hexec hresp => ?_⟩
  · rw [exec_of_not_accepted hacc, takeFault, if_neg hs]; rfl
  · rw [exec_of_not_accepted hacc, takeFault, if_pos hs]
  · exact (acceptedEnd_of_exec hacc hplanes hready hexec).fcode_ne hs hresp

end Sys2Proof.Machine
end

section
/-!
PROOFS. The port (30_encoding.md R100): a presented word is decoded and run, and every command is answered.
-/
namespace Sys2Proof.Machine

/-! ## The step (20_memory.md R80, 60_exceptions.md R361) -/

theorem step_command {s : State} {cmd : CmdWord} {w : DataWord} {rest : List HostEvent} {i : Instr}
    (hhost : s.host = .command cmd w :: rest) (hdec : decode cmd = some i) :
    step s = exec i (present cmd w rest s) := by
  simp only [step, hhost, hdec]

theorem step_illegal {s : State} {cmd : CmdWord} {w : DataWord} {rest : List HostEvent}
    (hhost : s.host = .command cmd w :: rest) (hdec : decode cmd = none) :
    step s = .next (takeFault .illegalCommand (present cmd w rest s)) := by
  simp only [step, hhost, hdec]

theorem step_idle {s : State} (hhost : s.host = []) : step s = .next s := by
  simp only [step, hhost]

/-- Settles O4: the three things a step can find on the port, with the fault of an illegal word outside FAULTED and
inside it. -/
theorem stepRunsDecodedCommand : Obligations.StepRunsDecodedCommand := by
  refine ⟨fun s cmd w rest i => step_command, fun s => step_idle, fun s cmd w rest hhost hdec hs => ?_,
    fun s cmd w rest hhost hdec hs => ?_⟩
  · rw [step_illegal hhost hdec, takeFault, if_neg (show (present cmd w rest s).phase ≠ .faulted from hs)]; rfl
  · rw [step_illegal hhost hdec, takeFault, if_pos (show (present cmd w rest s).phase = .faulted from hs)]; rfl

/-! ## Answers (R100, 60_exceptions.md R365) -/

/-- The words and the events of the host are the same in both states. -/
structure SamePort (s t : State) : Prop where
  cmd : t.cmd = s.cmd
  wdata : t.wdata = s.wdata
  host : t.host = s.host

theorem SamePort.refl (s : State) : SamePort s s := ⟨rfl, rfl, rfl⟩

theorem SamePort.writeCfg {s u : State} (h : SamePort s u) (r : CfgReg) (v : DataWord) :
    SamePort s (writeCfg r v u) :=
  ⟨(writeCfg_cmd r v u).trans h.cmd, (writeCfg_wdata r v u).trans h.wdata, (writeCfg_host r v u).trans h.host⟩

/-- `t` answers a command issued in `s`: it holds a response, and is in FAULTED where the response is `FAULT`. -/
structure AnswersCommand (s t : State) : Prop extends SamePort s t where
  resp : t.resp.isSome = true
  faulted : t.resp = some .fault → t.phase = .faulted

theorem answersCommand_answer {s u : State} (h : SamePort s u) (v : DataWord) : AnswersCommand s (answer v u) where
  cmd := h.cmd
  wdata := h.wdata
  host := h.host
  resp := rfl
  faulted := nofun

theorem answersCommand_takeFault {s u : State} (h : SamePort s u) (c : FaultCode) :
    AnswersCommand s (takeFault c u) where
  cmd := (takeFault_cmd c u).trans h.cmd
  wdata := (takeFault_wdata c u).trans h.wdata
  host := (takeFault_host c u).trans h.host
  resp := congrArg Option.isSome (takeFault_resp c u)
  faulted _ := takeFault_phase c u

/-- However a command ends, it is answered. -/
theorem Effect.answersCommand {i : Instr} {s t : State} (h : Effect s i t) : AnswersCommand s t := by
  cases h with
  | fault | stageFault =>
    refine answersCommand_takeFault ?_ _
    exact ⟨rfl, rfl, rfl⟩
  | cfgw => exact answersCommand_answer ((SamePort.refl s).writeCfg ..) _
  | catv => exact answersCommand_answer ((((SamePort.refl s).writeCfg ..).writeCfg ..).writeCfg ..) _
  | answered | reset | setup | bank | planes | runfield | nextfield | audf =>
    refine answersCommand_answer ?_ _
    exact ⟨rfl, rfl, rfl⟩

/-- Settles O48: every command ends in one of the effects, and each of them answers it. -/
theorem everyCommandIsAnswered : Obligations.EveryCommandIsAnswered := fun i s => by
  obtain ⟨t, hexec, heffect⟩ := exec_effect i s
  obtain ⟨⟨hcmd, hwdata, hhost⟩, hresp, hfaulted⟩ := heffect.answersCommand
  exact ⟨t, hexec, hresp, hcmd, hwdata, hhost, hfaulted⟩

end Sys2Proof.Machine
end

section
/-!
PROOFS. `NOP` and `RESET`, the register space, and the two commands that read and write it
(40_host_config_commands.md R130 to R133, 10_state.md R24 to R49).
-/
namespace Sys2Proof.Machine

/-! ## Command words (30_encoding.md R101) -/

/-- A word given as an opcode and an operand side by side, as the rules of the commands give it. -/
theorem decode_operand {i : Instr} {op n : Nat} (hop : opcode i = op) (hn : operandBits i = n)
    (h : wellFormed i = true) : decode (BitVec.ofNat 32 (op * 2 ^ 24) + BitVec.ofNat 32 n) = some i := by
  subst hop hn
  rw [← BitVec.ofNat_add]
  exact decodeEncodeRoundTrip i h

/-- The refusal of a command by a phase given by name (30_encoding.md R108). -/
theorem exec_refused {i : Instr} {s : State} {q : Phase} (hphase : s.phase = q) (h : accepted q i = false) :
    exec i s = .next (takeFault .phaseError s) :=
  exec_of_not_accepted (hphase ▸ h)

/-! ## NOP (R130) -/

/-- Settles O8: `NOP` is an answer alone. -/
theorem nopChangesNothing : Obligations.NopChangesNothing :=
  ⟨decodeEncodeRoundTrip .nop rfl, fun _ => rfl⟩

/-! ## RESET (R131, 60_exceptions.md R370) -/

/-- Every way the phase moves: it stays, a fault enters FAULTED, `SETUP` enters RUN, or the command is `RESET`. -/
theorem Effect.phase_cases {i : Instr} {s t : State} (h : Effect s i t) :
    t.phase = s.phase ∨ t.phase = .faulted ∨ (s.phase = .setup ∧ t.phase = .run) ∨ i = .reset := by
  cases h with
  | reset => exact .inr (.inr (.inr rfl))
  | fault | stageFault => exact .inr (.inl (takeFault_phase ..))
  | setup _ _ hphase => exact .inr (.inr (.inl ⟨hphase, rfl⟩))
  | cfgw => exact .inl (writeCfg_phase ..)
  | answered | catv | bank | planes | runfield | nextfield | audf => exact .inl rfl

/-- Settles O6: among the ways the phase moves, only `RESET` leaves FAULTED or goes back to SETUP. -/
theorem resetIsTheOnlyWayBack : Obligations.ResetIsTheOnlyWayBack := by
  refine ⟨decodeEncodeRoundTrip .reset rfl, fun _ => rfl, fun i s t hexec hs ht => ?_, fun i s t hexec hs ht => ?_⟩
  · rcases (effect_of_exec hexec).phase_cases with hsame | hfault | ⟨hsetup, _⟩ | hreset
    · exact absurd (hsame.trans hs) ht
    · exact absurd hfault ht
    · exact absurd (hs.symm.trans hsetup) nofun
    · exact hreset
  · rcases (effect_of_exec hexec).phase_cases with hsame | hfault | ⟨hsetup, _⟩ | hreset
    · exact absurd (ht.symm.trans (hsame.trans hs)) nofun
    · exact absurd (ht.symm.trans hfault) nofun
    · exact absurd (hs.symm.trans hsetup) nofun
    · exact hreset

/-! ## The register space (10_state.md R24 to R49) -/

/-- The index of a writable register. -/
def CfgReg.index : CfgReg → Nat
  | .ctrl => 0x00
  | .fieldIndex => 0x03
  | .dim => 0x04
  | .compPhase => 0x05
  | .compPhaseOffset => 0x06
  | .compPre => 0x07
  | .compCut => 0x08
  | .scAmp => 0x09
  | .videoNoise => 0x0A
  | .chromaNoise => 0x0B
  | .chromaPhaseNoise => 0x0C
  | .chromaLoss => 0x0D
  | .vhsSpeed => 0x0E
  | .vhsSharpen => 0x0F
  | .hswPoint => 0x10
  | .hswPhase => 0x11
  | .hswNoise => 0x12
  | .gfRate => 0x13
  | .audRate => 0x18
  | .audCh => 0x19
  | .audLpHz => 0x1A
  | .audHpHz => 0x1B
  | .audPreHz => 0x1C
  | .audDeHz => 0x1D
  | .audBoostHz => 0x1E
  | .audBoostGain => 0x1F
  | .audBuzzGain => 0x20
  | .audHissLevel => 0x21
  | .audHpulseEnd => 0x22
  | .audVpulseEnd => 0x23

/-- Each writable register stands at one index, and each index holds at most one. -/
theorem cfgRegOf_eq_some_iff {idx : Nat} {r : CfgReg} : cfgRegOf idx = some r ↔ idx = r.index := by
  constructor
  · intro h
    unfold cfgRegOf at h
    split at h <;> cases h <;> rfl
  · rintro rfl
    cases r <;> rfl

@[simp] theorem cfgRegOf_index (r : CfgReg) : cfgRegOf r.index = some r :=
  cfgRegOf_eq_some_iff.mpr rfl

theorem toNat_append_eq_add {m n : Nat} (x : BitVec m) (y : BitVec n) :
    (x ++ y).toNat = x.toNat * 2 ^ n + y.toNat := by
  rw [BitVec.toNat_append, ← Nat.shiftLeft_add_eq_or_of_lt y.isLt, Nat.shiftLeft_eq]

/-- The fields of `STATUS` side by side (R25). -/
theorem statusWord_eq (s : State) :
    statusWord s = 0#47 ++ BitVec.ofBool s.audReady ++ s.fcode ++ 0#6 ++ BitVec.ofNat 2 s.phase.code := by
  have hphase : s.phase.code < 4 := by cases s.phase <;> decide
  have hready := s.audReady.toNat_le
  have hfcode := s.fcode.isLt
  refine BitVec.eq_of_toNat_eq ?_
  simp only [statusWord, toNat_append_eq_add, BitVec.toNat_ofNat, BitVec.toNat_ofBool]
  omega

theorem finfoWord_eq (s : State) : finfoWord s = 0#32 ++ s.finfo := by
  have hfinfo := s.finfo.isLt
  refine BitVec.eq_of_toNat_eq ?_
  simp only [finfoWord, toNat_append_eq_add, BitVec.toNat_ofNat, BitVec.toNat_setWidth]
  omega

/-- The implemented indices in order, each with what it reads as (R25 to R49). -/
theorem registerView_eq (s : State) :
    registerView s = (List.range 0x24).filterMap (fun idx => (readIndex idx s).map (Prod.mk idx)) := by
  rw [registerView, ← statusWord_eq, ← finfoWord_eq]
  rfl

theorem CfgReg.index_lt (r : CfgReg) : r.index < 0x24 := by
  cases r <;> decide

/-- `STATUS` and `FINFO` stand at no writable index (R25). -/
theorem CfgReg.index_ne (r : CfgReg) : r.index ≠ 0x01 ∧ r.index ≠ 0x02 := by
  cases r <;> decide

theorem lt_of_readIndex {idx : Nat} {v : DataWord} {s : State} (h : readIndex idx s = some v) : idx < 0x24 := by
  unfold readIndex at h
  split at h
  · omega
  · split at h
    · omega
    · obtain ⟨r, hr, _⟩ := Option.map_eq_some_iff.mp h
      exact cfgRegOf_eq_some_iff.mp hr ▸ r.index_lt

/-- The register view lists exactly what `CFGR` can read. -/
theorem mem_registerView {s : State} {idx : Nat} {v : DataWord} :
    (idx, v) ∈ registerView s ↔ readIndex idx s = some v := by
  simp only [registerView_eq, List.mem_filterMap, List.mem_range, Option.map_eq_some_iff, Prod.mk.injEq]
  constructor
  · rintro ⟨_, _, _, hread, rfl, rfl⟩
    exact hread
  · exact fun hread => ⟨idx, lt_of_readIndex hread, v, hread, rfl, rfl⟩

/-! ## CFGR (R133) -/

theorem exec_cfgr (idx : Nat) (s : State) : exec (.cfgr idx) s = execCfgr idx s := rfl

theorem exec_cfgr_of_some {s : State} {idx : Nat} {v : DataWord} (h : readIndex idx s = some v) :
    exec (.cfgr idx) s = .next (answer v s) := by
  rw [exec_cfgr, execCfgr, h]

theorem exec_cfgr_of_none {s : State} {idx : Nat} (h : readIndex idx s = none) :
    exec (.cfgr idx) s = .next (takeFault .invalidArgument s) := by
  rw [exec_cfgr, execCfgr, h]

/-- Settles O9: the register view is what `CFGR` reads. -/
theorem cfgrReadsRegister : Obligations.CfgrReadsRegister := by
  refine ⟨fun idx hidx => decode_operand (op := 0x03) rfl rfl (decide_eq_true hidx),
    fun s idx v hv => exec_cfgr_of_some (mem_registerView.mp hv), fun s idx hidx => exec_cfgr_of_none ?_⟩
  by_contra hread
  obtain ⟨v, hv⟩ := Option.ne_none_iff_exists'.mp hread
  exact hidx (List.mem_map.mpr ⟨(idx, v), mem_registerView.mpr hv, rfl⟩)

/-! ## CFGW (R132) -/

/-- Sign extension from 32 bits gives the values in `S32` back (10_state.md R32). -/
theorem eq_signExtend_truncate_iff (v : DataWord) :
    v = BitVec.signExtend 64 (v.truncate 32) ↔ -2147483648 ≤ v.toInt ∧ v.toInt ≤ 2147483647 := by
  have hv := v.isLt
  rw [← BitVec.toInt_inj, BitVec.toInt_signExtend_of_le (by decide), BitVec.truncate_eq_setWidth,
    BitVec.toInt_setWidth, Int.bmod_def, BitVec.toInt_eq_toNat_cond]
  omega

/-- The two halves of a `DIM` whose upper word is zero (10_state.md R31). -/
theorem legalCfg_dim (v : DataWord) :
    legalCfg .dim v = true ↔ v.toNat < 4294967296 ∧ 1 ≤ v.toNat % 65536 ∧ 1 ≤ v.toNat / 65536 := by
  unfold legalCfg dataField
  rw [decide_eq_true_iff]
  omega

/-- What `CFGW` accepts at the index of a register is what is legal for the register (10_state.md R26 to R49). -/
theorem cfgwLegal_index (r : CfgReg) (v : DataWord) : cfgwLegal r.index v ↔ legalCfg r v = true := by
  have hneg : fneg 0x3FF0000000000000#64 = 0xBFF0000000000000#64 := rfl
  cases r with
  | dim => simp [cfgwLegal, CfgReg.index, legalCfg_dim]
  | compPhaseOffset => simp [cfgwLegal, CfgReg.index, legalCfg, eq_signExtend_truncate_iff]
  | compPhase =>
    have hlt : v.toNat < 4 ↔ v.toNat ≤ 3 := Nat.lt_succ_iff
    simp [cfgwLegal, CfgReg.index, legalCfg, hlt]
  | audHissLevel =>
    have hlt : v.toNat < 2147483648 ↔ v.toNat ≤ 2147483647 := Nat.lt_succ_iff
    simp [cfgwLegal, CfgReg.index, legalCfg, hlt]
  | _ => simp [cfgwLegal, CfgReg.index, legalCfg, finiteIn, hneg, f64One, and_assoc]

/-- `CFGW` accepts nothing at a read-only or unimplemented index: the indices it accepts are those of the table of
registers (10_state.md R25, R40, R49). -/
theorem not_cfgwLegal_of_none {idx : Nat} (h : cfgRegOf idx = none) (v : DataWord) : ¬ cfgwLegal idx v := by
  intro hlegal
  unfold cfgRegOf at h
  split at h
  case h_31 => simp_all [cfgwLegal]
  all_goals cases h

theorem cfgwLegal_iff {idx : Nat} {v : DataWord} :
    cfgwLegal idx v ↔ ∃ r, cfgRegOf idx = some r ∧ legalCfg r v = true := by
  cases hr : cfgRegOf idx with
  | none => simpa using not_cfgwLegal_of_none hr v
  | some r =>
    obtain rfl := cfgRegOf_eq_some_iff.mp hr
    simpa using cfgwLegal_index r v

theorem writeRegister_of_legal {idx : Nat} {r : CfgReg} {s : State} (hr : cfgRegOf idx = some r)
    (hlegal : legalCfg r s.wdata = true) : writeRegister idx s = answer 0#64 (writeCfg r s.wdata s) := by
  simp only [writeRegister, hr, hlegal, if_true]

theorem writeRegister_of_not_legal {idx : Nat} {s : State}
    (h : ∀ r, cfgRegOf idx = some r → legalCfg r s.wdata ≠ true) :
    writeRegister idx s = takeFault .invalidArgument s := by
  unfold writeRegister
  split
  · rfl
  · next r hr => exact if_neg (h r hr)

/-- A register write changes the stored registers and `FIELD` alone. -/
theorem writeCfg_eq (r : CfgReg) (v : DataWord) (s : State) :
    writeCfg r v s = { s with regs := (writeCfg r v s).regs, field := (writeCfg r v s).field } := by
  cases r <;> rfl

/-- What an index reads depends on `STATUS`, `FINFO` and the registers alone (10_state.md R24). -/
theorem readIndex_congr {s t : State} (hstatus : statusWord t = statusWord s) (hfinfo : t.finfo = s.finfo) {idx : Nat}
    (hcfg : ∀ r, cfgRegOf idx = some r → readCfg r t = readCfg r s) : readIndex idx t = readIndex idx s := by
  simp only [readIndex, finfoWord, hstatus, hfinfo]
  cases hr : cfgRegOf idx with
  | none => rfl
  | some r => simp only [Option.map_some, hcfg r hr]

@[simp] theorem readIndex_answer (idx : Nat) (v : DataWord) (s : State) :
    readIndex idx (answer v s) = readIndex idx s :=
  readIndex_congr rfl rfl fun r _ => readCfg_congr r rfl rfl

theorem readIndex_index (r : CfgReg) (s : State) : readIndex r.index s = some (readCfg r s) := by
  simp [readIndex, r.index_ne]

/-- The other indices read as before a register write. -/
theorem readIndex_writeCfg_of_ne {idx : Nat} {r : CfgReg} (h : idx ≠ r.index) (v : DataWord) (s : State) :
    readIndex idx (writeCfg r v s) = readIndex idx s := by
  refine readIndex_congr (by simp [statusWord]) (writeCfg_finfo ..) fun r' hr' => ?_
  rw [readCfg_writeCfg, if_neg]
  rintro rfl
  exact h (cfgRegOf_eq_some_iff.mp hr')

theorem exec_cfgw_setup {s : State} (hphase : s.phase = .setup) (idx : Nat) :
    exec (.cfgw idx) s = .next (writeRegister idx s) :=
  congrArg _ (if_pos hphase)

/-- Settles O10: the accepted values are the legal ones of the register at the index, and a write is read back at that
index alone. -/
theorem cfgwWritesLegalValue : Obligations.CfgwWritesLegalValue := by
  refine ⟨fun idx hidx => decode_operand (op := 0x02) rfl rfl (decide_eq_true hidx), fun s idx hphase hlegal => ?_,
    fun s idx hphase hlegal => ?_, fun s idx hphase => exec_refused hphase rfl⟩
  · obtain ⟨r, hr, hv⟩ := cfgwLegal_iff.mp hlegal
    obtain rfl := cfgRegOf_eq_some_iff.mp hr
    refine ⟨answer 0#64 (writeCfg r s.wdata s), ?_, ?_, ?_, fun j v hj => ?_⟩
    · rw [exec_cfgw_setup hphase, writeRegister_of_legal hr hv]
    · exact congrArg (answer 0#64) (writeCfg_eq r s.wdata s)
    · rw [mem_registerView, readIndex_answer, readIndex_index, readCfg_writeCfg_same]
    · rw [mem_registerView, mem_registerView, readIndex_answer, readIndex_writeCfg_of_ne hj]
  · rw [exec_cfgw_setup hphase, writeRegister_of_not_legal fun r hr hv => hlegal (cfgwLegal_iff.mpr ⟨r, hr, hv⟩)]

end Sys2Proof.Machine
end

section
/-!
PROOFS. `SETUP` and the cable-TV presets (40_host_config_commands.md R134 to R136).
-/
namespace Sys2Proof.Machine

/-! ## SETUP (R134, R135) -/

theorem dimW_eq (g : Regs) : g.dimW = g.dim.toNat % 65536 := by
  simp [Regs.dimW, dataField]

theorem dimH_eq (g : Regs) : g.dimH = g.dim.toNat / 65536 % 65536 := rfl

theorem preemphasisOk_iff {g : Regs} :
    preemphasisOk g = true ↔ isZero g.compPre = true ∨ isPos g.compCut = true := by
  simp [preemphasisOk]

theorem boostUsed_iff {g : Regs} : boostUsed g = true ↔ g.hifi = false ∧ isZero g.audBoostGain = false := by
  simp [boostUsed]

section
variable {s : State}

theorem exec_setup_setup (hphase : s.phase = .setup) : exec .setup s = .next (setupBlock s) :=
  congrArg _ (if_pos hphase)

/-- `SETUP` once its checks have passed and the audio part has left `s'` (R134). -/
theorem exec_setup_of_some {s' : State} (hphase : s.phase = .setup) (hpre : preemphasisOk s.regs = true)
    (haudio : setupAudio s = some s') :
    exec .setup s = .next (answer 0#64 { s' with
      planes := some (Planes.zero (s.regs.dim.toNat % 65536) (s.regs.dim.toNat / 65536 % 65536))
      audT := 0#64, phase := .run }) := by
  rw [exec_setup_setup hphase, setupBlock, if_pos hpre, haudio, dimW_eq, dimH_eq]

/-- `SETUP` where a check or the audio part fails (R134, R135). -/
theorem exec_setup_of_none (hphase : s.phase = .setup)
    (h : preemphasisOk s.regs = true → setupAudio s = none) :
    exec .setup s = .next (takeFault .invalidParameter s) := by
  rw [exec_setup_setup hphase, setupBlock]
  split
  · next hpre => rw [h hpre]
  · rfl

end

section
variable {used : Bool} {rate fc : F64} {c : StoredCell}

/-- An auxiliary cell is configured where its stage is in use, and kept otherwise (R135). -/
theorem auxCell_of_configure {a : F64} (h : used = true → configure rate fc = some a) :
    auxCell used rate fc c = some (if used then ⟨some a, 0#64⟩ else c) := by
  cases used with
  | false => rfl
  | true => simp [auxCell, h rfl]

theorem auxCell_eq_none_iff : auxCell used rate fc c = none ↔ used = true ∧ configure rate fc = none := by
  cases used <;> simp [auxCell]

end

/-- A channel is configured unless one of the cells in use has no coefficient (R135). -/
theorem setupChannel_eq_none_iff {g : Regs} {ch : AudioChannel} :
    setupChannel g ch = none ↔
      configure g.audRate g.audLpHz = none ∨ configure g.audRate g.audHpHz = none
      ∨ (g.audPre = true ∧ configure g.audRate g.audPreHz = none)
      ∨ (g.audDe = true ∧ configure g.audRate g.audDeHz = none)
      ∨ (boostUsed g = true ∧ configure g.audRate g.audBoostHz = none) := by
  rw [← auxCell_eq_none_iff (c := ch.apre), ← auxCell_eq_none_iff (c := ch.ade),
    ← auxCell_eq_none_iff (c := ch.aboost)]
  unfold setupChannel
  split
  · next hlp hhp hapre hade haboost => simp [hlp, hhp, hapre, hade, haboost]
  · next h =>
    simp only [true_iff]
    by_contra hne
    simp only [not_or, ← ne_eq, Option.ne_none_iff_exists'] at hne
    obtain ⟨⟨lp, hlp⟩, ⟨hp, hhp⟩, ⟨apre, hapre⟩, ⟨ade, hade⟩, ⟨aboost, haboost⟩⟩ := hne
    exact h lp hp apre ade aboost hlp hhp hapre hade haboost

/-- A channel with the coefficients of its cells in use (R135). -/
theorem setupChannel_of_configure {g : Regs} {lp hp pre de boost : F64} (ch : AudioChannel)
    (hlp : configure g.audRate g.audLpHz = some lp) (hhp : configure g.audRate g.audHpHz = some hp)
    (hpre : g.audPre = true → configure g.audRate g.audPreHz = some pre)
    (hde : g.audDe = true → configure g.audRate g.audDeHz = some de)
    (hboost : (g.hifi = false ∧ isZero g.audBoostGain = false) → configure g.audRate g.audBoostHz = some boost) :
    setupChannel g ch = some
      { alp := Vector.replicate 6 ⟨some lp, 0#64⟩
        ahp := Vector.replicate 6 ⟨some hp, 0#64⟩
        apre := if g.audPre then ⟨some pre, 0#64⟩ else ch.apre
        ade := if g.audDe then ⟨some de, 0#64⟩ else ch.ade
        aboost := if g.hifi = false ∧ isZero g.audBoostGain = false then ⟨some boost, 0#64⟩ else ch.aboost } := by
  simp only [setupChannel, hlp, hhp, auxCell_of_configure hpre, auxCell_of_configure hde,
    auxCell_of_configure fun h => hboost (boostUsed_iff.mp h), boostUsed_iff]

theorem setupAudio_of_some {s : State} {c0 c1 : AudioChannel} (hen : s.regs.audEn = true)
    (h0 : setupChannel s.regs s.aud0 = some c0) (h1 : setupChannel s.regs s.aud1 = some c1) :
    setupAudio s = some { s with aud0 := c0, aud1 := c1, audReady := true } := by
  simp only [setupAudio, hen, h0, h1, if_true]

theorem setupAudio_of_none {s : State} (hen : s.regs.audEn = true)
    (h0 : setupChannel s.regs s.aud0 = none) : setupAudio s = none := by
  simp only [setupAudio, hen, h0, if_true]

/-- Settles O11: the audio part leaves the block alone with `AUD_EN = 0`, configures both channels where every cell in
use has a coefficient, and faults otherwise. -/
theorem setupConfiguresAndEntersRun : Obligations.SetupConfiguresAndEntersRun := by
  refine ⟨fun s hphase hen hpre => ?_, fun w h p y x => ⟨rfl, rfl, rfl⟩, fun s hphase hzero hpos => ?_,
    fun s hphase hen hpre => ⟨fun lp hp pre de boost hlp hhp hapre hade haboost => ?_, fun hnone => ?_⟩⟩
  · have haudio : setupAudio s = some s := by rw [setupAudio, hen]; rfl
    rw [exec_setup_of_some hphase (preemphasisOk_iff.mpr hpre) haudio]
    rfl
  · refine exec_setup_of_none hphase fun hpre => ?_
    simp [preemphasisOk, hzero, hpos] at hpre
  · have haudio := setupAudio_of_some hen (setupChannel_of_configure s.aud0 hlp hhp hapre hade haboost)
      (setupChannel_of_configure s.aud1 hlp hhp hapre hade haboost)
    exact exec_setup_of_some hphase (preemphasisOk_iff.mpr hpre) haudio
  · refine exec_setup_of_none hphase fun _ => setupAudio_of_none hen ?_
    simpa only [setupChannel_eq_none_iff, boostUsed_iff, and_assoc] using hnone

/-! ## CATV (R136) -/

/-- The four presets in the units of their table: the gain, the cutoff in multiples of `FSC`, the phase noise; and the
patterns of `FSC` and its multiples (R136). -/
theorem catvPreset_table :
    (∀ row ∈ [((1, 7, 1, 2) : Nat × Int × Int × Nat), (2, 15, 1, 4), (3, 25, 2, 6), (4, 40, 4, 6)],
      catvPreset row.1 = some (i2f row.2.1, fmul (i2f row.2.2.1) fsc, BitVec.ofNat 64 row.2.2.2))
    ∧ fsc = fdiv (i2f 315000000) (i2f 88) ∧ fmul (i2f 1) fsc = 0x414B4F4CBA2E8BA3#64
    ∧ fmul (i2f 2) fsc = 0x415B4F4CBA2E8BA3#64 ∧ fmul (i2f 4) fsc = 0x416B4F4CBA2E8BA3#64 := by
  decide +kernel

theorem catvPreset_of_out_of_range {k : Nat} (h : k < 1 ∨ 4 < k) : catvPreset k = none := by
  unfold catvPreset
  split
  case h_5 => rfl
  all_goals omega

theorem exec_catv_setup {s : State} (hphase : s.phase = .setup) (k : Nat) :
    exec (.catv k) s = .next (loadPreset k s) :=
  congrArg _ (if_pos hphase)

theorem loadPreset_of_some {k : Nat} {pre cut pn : DataWord} (h : catvPreset k = some (pre, cut, pn)) (s : State) :
    loadPreset k s = answer 0#64
      { s with regs := { s.regs with compPre := pre, compCut := cut, chromaPhaseNoise := pn } } := by
  simp only [loadPreset, h]

theorem loadPreset_of_none {k : Nat} (h : catvPreset k = none) (s : State) :
    loadPreset k s = takeFault .invalidArgument s := by
  simp only [loadPreset, h]

/-- Settles O12: the presets are those of the table. -/
theorem catvLoadsPreset : Obligations.CatvLoadsPreset := by
  obtain ⟨htable, hfsc, hfsc1, hfsc2, hfsc4⟩ := catvPreset_table
  refine ⟨fun k hk => decode_operand (op := 0x05) rfl rfl (decide_eq_true hk), hfsc, fun s hphase row hrow => ?_,
    hfsc1, hfsc2, hfsc4, fun s k hphase hk => ?_, fun s k hphase => exec_refused hphase rfl⟩
  · rw [exec_catv_setup hphase, loadPreset_of_some (htable row hrow)]
    rfl
  · rw [exec_catv_setup hphase, loadPreset_of_none (catvPreset_of_out_of_range hk)]

end Sys2Proof.Machine
end

section
/-!
PROOFS. The access of the host to single samples of the planes (40_host_config_commands.md R137, R138).
-/
namespace Sys2Proof.Machine

/-! ## The place in the data word (30_encoding.md R102) -/

/-- A field of the data word as a slice of it. -/
theorem dataField_eq (w : DataWord) (lo width : Nat) : dataField w lo width = (w.extractLsb' lo width).toNat := by
  rw [dataField, BitVec.extractLsb'_toNat, Nat.shiftRight_eq_div_pow]

theorem wSample_eq (w : DataWord) : wSample w = w.extractLsb' 0 32 := by
  rw [wSample, dataField_eq, BitVec.ofNat_toNat, BitVec.setWidth_eq]

/-! ## PWR and PRD (R137, R138) -/

section
variable {s : State} {P : Planes} {p : Nat}

theorem inside_iff {y x : Nat} : P.inside p y x = true ↔ p < 3 ∧ y < P.h ∧ x < P.w :=
  decide_eq_true_iff

theorem not_inside {y x : Nat} (h : p = 3 ∨ P.h ≤ y ∨ P.w ≤ x) : ¬ P.inside p y x = true := by
  rw [inside_iff]
  omega

theorem exec_pwr_run (hphase : s.phase = .run) (hP : s.planes = some P) :
    exec (.pwr p) s = .next (if P.inside p (wRow s.wdata) (wCol s.wdata) then
      answer 0#64 { s with planes := some (P.write p (wRow s.wdata) (wCol s.wdata) (wSample s.wdata)) }
      else takeFault .planeAddress s) :=
  congrArg _ (withPlanes_run _ hphase hP)

theorem exec_prd_run (hphase : s.phase = .run) (hP : s.planes = some P) :
    exec (.prd p) s = .next (if P.inside p (wRow s.wdata) (wCol s.wdata) then
      answer (sextSample (P.read p (wRow s.wdata) (wCol s.wdata))) s
      else takeFault .planeAddress s) :=
  congrArg _ (withPlanes_run _ hphase hP)

end

/-- Settles O13: a write inside the planes changes the one sample, which then reads as written. -/
theorem pwrStoresSample : Obligations.PwrStoresSample := by
  refine ⟨fun p hp => decode_operand (op := 0x08) rfl rfl (decide_eq_true hp), fun s P p hphase hP => ?_,
    fun s p hphase => exec_refused hphase rfl⟩
  dsimp only
  rw [← dataField_eq, ← dataField_eq, ← wSample_eq, exec_pwr_run hphase hP]
  refine ⟨fun hin => ⟨P.write p (wRow s.wdata) (wCol s.wdata) (wSample s.wdata), ?_, rfl, rfl, ?_, fun a ha => ?_⟩,
    fun hout => ?_⟩
  · exact congrArg _ (if_pos (inside_iff.mpr hin))
  · exact (read_write ..).trans (if_pos rfl)
  · exact (read_write ..).trans (if_neg ha)
  · exact congrArg _ (if_neg (not_inside hout))

/-- Settles O14: a read inside the planes answers the sample. -/
theorem prdReadsSample : Obligations.PrdReadsSample := by
  refine ⟨fun p hp => decode_operand (op := 0x09) rfl rfl (decide_eq_true hp), fun s P p hphase hP => ?_,
    fun s p hphase => exec_refused hphase rfl⟩
  dsimp only
  rw [← dataField_eq, ← dataField_eq, exec_prd_run hphase hP]
  refine ⟨fun hin => ?_, fun hout => ?_⟩
  · exact congrArg _ (if_pos (inside_iff.mpr hin))
  · exact congrArg _ (if_neg (not_inside hout))

end Sys2Proof.Machine
end

section
/-!
PROOFS. Bounds through the binary64 operations (00_scope.md R12): the order of the values is that of their units, and how
far one rounding can move a value.
-/
namespace Sys2Proof.Machine

/-! ## The order of the values (R12) -/

section
variable {a b v lo hi : F64}

theorem magUnits_lt_of_magBits_lt (h : magBits a < magBits b) : magUnits a < magUnits b := by
  obtain ⟨k, R, hs, hR, ha, hua⟩ := exists_significand a
  obtain ⟨k', R', hs', hR', hb, hub⟩ := exists_significand b
  have hge := hs.ge
  have hge' := hs'.ge
  rw [hua, hub]
  rcases Nat.lt_trichotomy k k' with hk | rfl | hk
  · have hpow : 2 ^ (k + 1) ≤ 2 ^ k' := Nat.pow_le_pow_right (by decide) hk
    calc R * 2 ^ k < 2 ^ 53 * 2 ^ k := Nat.mul_lt_mul_of_pos_right hR (Nat.two_pow_pos k)
      _ = 2 ^ 52 * 2 ^ (k + 1) := by ring
      _ ≤ R' * 2 ^ k' := Nat.mul_le_mul (by omega) hpow
  · exact Nat.mul_lt_mul_of_pos_right (by omega) (Nat.two_pow_pos k)
  · omega

theorem magUnits_le_iff : magUnits a ≤ magUnits b ↔ magBits a ≤ magBits b := by
  refine ⟨fun h => ?_, fun h => ?_⟩
  · by_contra hlt
    have := magUnits_lt_of_magBits_lt (Nat.lt_of_not_le hlt)
    omega
  · rcases Nat.lt_or_eq_of_le h with hlt | heq
    · exact (magUnits_lt_of_magBits_lt hlt).le
    · rw [magUnits, magUnits, expField_eq, expField_eq, fracField_eq, fracField_eq, heq]

/-- Values that are not NaNs compare as their units do. -/
theorem orderKey_le_iff : orderKey a ≤ orderKey b ↔ toUnits a ≤ toUnits b := by
  have hle := magUnits_le_iff (a := a) (b := b)
  have hge := magUnits_le_iff (a := b) (b := a)
  have hza := magUnits_eq_zero_iff a
  have hzb := magUnits_eq_zero_iff b
  rw [orderKey, orderKey, toUnits, toUnits]
  cases isNeg a <;> cases isNeg b <;> simp only [if_true, if_false, Bool.false_eq_true] <;> omega

theorem fle_iff (ha : isFinite a = true) (hb : isFinite b = true) : fle a b = true ↔ toUnits a ≤ toUnits b := by
  simp [fle, isNaN_of_isFinite ha, isNaN_of_isFinite hb, orderKey_le_iff]

theorem natAbs_orderKey (v : F64) : (orderKey v).natAbs = magBits v := natAbs_signed _ _

/-- What lies between finite values is finite. -/
theorem isFinite_of_fle (hlo : isFinite lo = true) (hhi : isFinite hi = true) (h : fle lo v = true)
    (h' : fle v hi = true) : isFinite v = true := by
  simp only [fle, Bool.and_eq_true, decide_eq_true_eq] at h h'
  obtain ⟨-, hle⟩ := h
  obtain ⟨-, hle'⟩ := h'
  rw [isFinite_iff] at hlo hhi ⊢
  have hv := natAbs_orderKey v
  have hlo' := natAbs_orderKey lo
  have hhi' := natAbs_orderKey hi
  omega

@[simp] theorem isFinite_fneg (v : F64) : isFinite (fneg v) = isFinite v := by
  rw [Bool.eq_iff_iff, fneg, isFinite_packBits (magBits_lt v), isFinite_iff]

@[simp] theorem toUnits_fneg (v : F64) : toUnits (fneg v) = -toUnits v := by
  have hmag : magBits (fneg v) = magBits v := magBits_packBits (magBits_lt v)
  have hneg : isNeg (fneg v) = !isNeg v := isNeg_packBits (magBits_lt v)
  have hunits : magUnits (fneg v) = magUnits v := by
    simp only [magUnits, expField_eq, fracField_eq, hmag]
  rw [toUnits, toUnits, hneg, hunits]
  cases isNeg v <;> simp

end

/-! ## How far a rounding moves (R12) -/

section
variable {num den k R j : Nat}

/-- Rounding does not pass a value of the format from below. -/
theorem RoundsTo.le_magUnits (h : RoundsTo num den k R) (hden : 0 < den) {v : F64} (hle : num ≤ magUnits v * den) :
    R * 2 ^ k ≤ magUnits v := by
  obtain ⟨hnear, -⟩ := h.nearest hden (u := magUnits v) (Int.natAbs_natCast _)
  by_contra hlt
  have hmul : magUnits v * den < R * 2 ^ k * den := Nat.mul_lt_mul_of_pos_right (Nat.lt_of_not_le hlt) hden
  rw [← Nat.cast_mul, ← Nat.cast_mul] at hnear
  omega

/-- Rounding does not pass a value of the format from above. -/
theorem RoundsTo.magUnits_le (h : RoundsTo num den k R) (hden : 0 < den) {v : F64} (hge : magUnits v * den ≤ num) :
    magUnits v ≤ R * 2 ^ k := by
  obtain ⟨hnear, -⟩ := h.nearest hden (u := magUnits v) (Int.natAbs_natCast _)
  by_contra hlt
  have hmul : R * 2 ^ k * den < magUnits v * den := Nat.mul_lt_mul_of_pos_right (Nat.lt_of_not_le hlt) hden
  rw [← Nat.cast_mul, ← Nat.cast_mul] at hnear
  omega

/-- Up to half a last place above a power of two, rounding gives no more than the power: halfway the tie is even. -/
theorem RoundsTo.le_two_pow (h : RoundsTo num den k R) (hden : 0 < den) (hle : num ≤ (2 ^ 53 + 1) * 2 ^ j * den) :
    R * 2 ^ k ≤ 2 ^ 53 * 2 ^ j := by
  have hpos : 0 < den * 2 ^ j := by positivity
  have hle' : num ≤ (2 ^ 53 + 1) * (den * 2 ^ j) := hle.trans_eq (by ring)
  obtain ⟨⟨hR, hge⟩, -, hbinade, hnear, htie⟩ := h
  rcases Nat.lt_trichotomy k (j + 1) with hk | rfl | hk
  · exact Nat.mul_le_mul hR (Nat.pow_le_pow_right (by decide) (by omega))
  · have hpow : den * 2 ^ (j + 1) = 2 * (den * 2 ^ j) := by ring
    rw [hpow] at hbinade hnear htie
    have hone : R = 2 ^ 52 := by
      generalize den * 2 ^ j = D at *
      have hbound : ∀ m : Int, m ≤ R → m * (2 * D : Nat) ≤ (R : Int) * (2 * D : Nat) :=
        fun m hm => Int.mul_le_mul_of_nonneg_right hm (by omega)
      by_contra hne
      have hodd : R = 2 ^ 52 + 1 := by
        by_contra hne'
        have := hbound (2 ^ 52 + 2) (by omega)
        omega
      subst hodd
      have := htie (by push_cast at *; omega)
      omega
    rw [hone, Nat.pow_succ]
    omega
  · have hpow : den * 2 ^ (j + 2) ≤ den * 2 ^ k := Nat.mul_le_mul_left den (Nat.pow_le_pow_right (by decide) (by omega))
    have hpow' : den * 2 ^ (j + 2) = 4 * (den * 2 ^ j) := by ring
    omega

/-- Up to a quarter of a last place above a power of two, rounding moves by no more than half the last place below it. -/
theorem RoundsTo.error_le (h : RoundsTo num den k R) (hden : 0 < den)
    (hle : 2 * num ≤ (2 ^ 54 + 1) * 2 ^ j * den) :
    2 * ((num : Int) - R * (den * 2 ^ k : Nat)).natAbs ≤ den * 2 ^ j := by
  have hpos : 0 < den * 2 ^ j := by positivity
  have hle' : 2 * num ≤ (2 ^ 54 + 1) * (den * 2 ^ j) := hle.trans_eq (by ring)
  have hmax := h.le_two_pow (j := j) hden (by
    rw [show (2 ^ 53 + 1) * 2 ^ j * den = (2 ^ 53 + 1) * (den * 2 ^ j) by ring]; omega)
  obtain ⟨⟨-, hge⟩, -, hbinade, hnear, -⟩ := h
  rcases Nat.lt_trichotomy k (j + 1) with hk | rfl | hk
  · exact hnear.trans (Nat.mul_le_mul_left den (Nat.pow_le_pow_right (by decide) (by omega)))
  · have hpow : den * 2 ^ (j + 1) = 2 * (den * 2 ^ j) := by ring
    have hR : R = 2 ^ 52 := by
      have hcancel : R * 2 * 2 ^ j ≤ 2 ^ 53 * 2 ^ j := by rwa [Nat.mul_assoc, ← Nat.pow_succ']
      have := Nat.le_of_mul_le_mul_right hcancel (Nat.two_pow_pos j)
      omega
    rw [hpow] at hbinade ⊢
    subst hR
    generalize den * 2 ^ j = D at *
    omega
  · have hpow : den * 2 ^ (j + 2) ≤ den * 2 ^ k := Nat.mul_le_mul_left den (Nat.pow_le_pow_right (by decide) (by omega))
    have hpow' : den * 2 ^ (j + 2) = 4 * (den * 2 ^ j) := by ring
    omega

end

/-! ## Operations as roundings (R12) -/

/-- `r` is finite and is `n / den` units rounded. -/
structure Rounded (n : Int) (den : Nat) (r : F64) : Prop where
  finite : isFinite r = true
  rounds : ∃ neg num k R, n = signed neg num ∧ RoundsTo num den k R ∧ toUnits r = signed neg (R * 2 ^ k)

/-- `|v|` is at most `B` units. -/
structure AtMost (B : Nat) (v : F64) : Prop where
  finite : isFinite v = true
  le : (toUnits v).natAbs ≤ B

section
variable {a b r : F64} {n : Int} {num den j : Nat}

theorem atMost_packBits_zero (B : Nat) (neg : Bool) : AtMost B (packBits neg 0) :=
  ⟨(isFinite_packBits (by decide)).mpr (by decide), by rw [toUnits_packBits_zero]; exact Nat.zero_le _⟩

theorem rounded_roundUnits (neg : Bool) (hden : 0 < den) (h : num < overflowLimit * den) :
    Rounded (signed neg num) den (roundUnits neg num den) := by
  have hf : isFinite (roundUnits neg num den) = true := (isFinite_roundUnits_iff neg hden).mpr h
  obtain ⟨k, R, hr, hval, -⟩ := toUnits_roundUnits hden hf
  exact ⟨hf, neg, num, k, R, rfl, hr, hval⟩

theorem rounded_fadd (ha : isFinite a = true) (hb : isFinite b = true)
    (h : (toUnits a + toUnits b).natAbs < overflowLimit) : Rounded (toUnits a + toUnits b) 1 (fadd a b) := by
  rcases fadd_finite ha hb with ⟨hsum, heq⟩ | ⟨-, heq⟩
  · obtain ⟨k, R, hr, -⟩ := roundsTo_magUnits 0#64
    have hzero : magUnits 0#64 = 0 := by decide
    rw [hzero] at hr
    have hR : R * 2 ^ k = 0 := Nat.le_zero.mp (hzero ▸ hr.le_magUnits Nat.one_pos (by omega))
    rw [heq, hsum]
    exact ⟨(isFinite_packBits (by decide)).mpr (by decide), false, 0, k, R, rfl, hr,
      by rw [toUnits_packBits_zero, hR]; rfl⟩
  · have hround := rounded_roundUnits (decide (toUnits a + toUnits b < 0)) Nat.one_pos (h.trans_eq (Nat.mul_one _).symm)
    rwa [signed_natAbs, ← heq] at hround

theorem rounded_fsub (ha : isFinite a = true) (hb : isFinite b = true)
    (h : (toUnits a - toUnits b).natAbs < overflowLimit) : Rounded (toUnits a - toUnits b) 1 (fsub a b) := by
  have hsum := rounded_fadd ha (b := fneg b) (by rwa [isFinite_fneg])
  rw [toUnits_fneg, ← Int.sub_eq_add_neg] at hsum
  exact hsum h

theorem rounded_fmul (ha : isFinite a = true) (hb : isFinite b = true)
    (h : (toUnits a * toUnits b).natAbs < overflowLimit * unitsPerOne) :
    Rounded (toUnits a * toUnits b) unitsPerOne (fmul a b) := by
  rw [toUnits_eq_signed a, toUnits_eq_signed b, signed_mul_signed, natAbs_signed] at *
  rw [fmul_finite ha hb]
  exact rounded_roundUnits _ unitsPerOne_pos h

theorem rounded_fdiv (ha : isFinite a = true) (hb : isFinite b = true) (hz : isZero b = false)
    (h : magUnits a * unitsPerOne < overflowLimit * magUnits b) :
    Rounded (signed (isNeg a != isNeg b) (magUnits a * unitsPerOne)) (magUnits b) (fdiv a b) := by
  rw [fdiv_finite ha hb hz]
  exact rounded_roundUnits _ (magUnits_pos hz) h

theorem Rounded.atMost_magUnits (h : Rounded n den r) (hden : 0 < den) {v : F64}
    (hle : n.natAbs ≤ magUnits v * den) : AtMost (magUnits v) r := by
  obtain ⟨hf, neg, num, k, R, rfl, hr, hval⟩ := h
  rw [natAbs_signed] at hle
  exact ⟨hf, by rw [hval, natAbs_signed]; exact hr.le_magUnits hden hle⟩

theorem Rounded.magUnits_le (h : Rounded n den r) (hden : 0 < den) {v : F64}
    (hge : magUnits v * den ≤ n.natAbs) : magUnits v ≤ magUnits r := by
  obtain ⟨hf, neg, num, k, R, rfl, hr, hval⟩ := h
  rw [natAbs_signed] at hge
  rw [← natAbs_toUnits r, hval, natAbs_signed]
  exact hr.magUnits_le hden hge

theorem Rounded.atMost_two_pow (h : Rounded n den r) (hden : 0 < den)
    (hle : n.natAbs ≤ (2 ^ 53 + 1) * 2 ^ j * den) : AtMost (2 ^ 53 * 2 ^ j) r := by
  obtain ⟨hf, neg, num, k, R, rfl, hr, hval⟩ := h
  rw [natAbs_signed] at hle
  exact ⟨hf, by rw [hval, natAbs_signed]; exact hr.le_two_pow hden hle⟩

theorem abs_signed_sub_signed (neg : Bool) (m n : Nat) : |signed neg m - signed neg n| = |(m : Int) - n| := by
  cases neg
  · rfl
  · rw [signed, if_pos rfl, signed, if_pos rfl, neg_sub_neg, abs_sub_comm]

theorem Rounded.error_le (h : Rounded n den r) (hden : 0 < den) (hle : 2 * |n| ≤ (2 ^ 54 + 1) * 2 ^ j * den) :
    2 * |n - toUnits r * den| ≤ 2 ^ j * den := by
  obtain ⟨hf, neg, num, k, R, rfl, hr, hval⟩ := h
  have hnum : |signed neg num| = num := by rw [Int.abs_eq_natAbs, natAbs_signed]
  have herr := hr.error_le (j := j) hden (by zify; rwa [← hnum])
  have hcast : (R : Int) * (den * 2 ^ k : Nat) = (R * 2 ^ k : Nat) * den := by push_cast; ring
  rw [hcast, ← Nat.cast_mul] at herr
  rw [hval, signed_mul_natCast, abs_signed_sub_signed, Int.abs_eq_natAbs, mul_comm (2 ^ j)]
  exact_mod_cast herr

end

/-! ## Power-of-two multiples of a value -/

/-- A value scaled by a power of two is a value, while it is not too large. -/
theorem exists_scaled (v : F64) {k : Nat} (h : 2 ^ k * magUnits v < overflowLimit) :
    ∃ w, isFinite w = true ∧ magUnits w = 2 ^ k * magUnits v := by
  obtain ⟨j, R, hs, -, -, hu⟩ := exists_significand v
  have hval : 2 ^ k * magUnits v = R * 2 ^ (k + j) := by rw [hu, Nat.pow_add]; ring
  obtain ⟨hf, hw⟩ := roundUnits_exact (neg := false) (k := k + j) h (hval ▸ Nat.mul_le_mul_right _ hs.le)
    (hval ▸ Nat.dvd_mul_left _ _)
  exact ⟨_, hf, by rw [← natAbs_toUnits, hw, natAbs_signed]⟩

/-- The last place below 1 is a power of two of units, and so is the last place below each power of two that bounds a
cell; proofs use this and never the powers themselves. -/
theorem exists_ulp_of_one :
    ∃ e, ∀ k, 2 ^ k * unitsPerOne = 2 ^ 53 * 2 ^ (e + k)
      ∧ (k ≤ 100 → (2 ^ 53 + 1) * 2 ^ (e + k) < overflowLimit) := by
  have hlt {e E : Nat} (h : e ≤ E) : (2 ^ 53 + 1) * 2 ^ e < (2 ^ 54 - 1) * 2 ^ E := by
    have hpow : 2 ^ e ≤ 2 ^ E := Nat.pow_le_pow_right (by decide) h
    have hpos := Nat.two_pow_pos e
    omega
  refine ⟨1021, fun k => ⟨?_, fun hk => hlt (by omega)⟩⟩
  rw [unitsPerOne, ← Nat.pow_add, ← Nat.pow_add]
  congr 1
  omega

end Sys2Proof.Machine
end

section
/-!
PROOFS. The general filter bank (41_iir_filter.md R165 to R171): its configuration and reset commands, and the filter
commands on their plan of cells.
-/
namespace Sys2Proof.Machine

/-! ## The cells of the bank -/

/-- Storing one cell changes that cell alone. -/
theorem getElem?_setCell {n : Nat} (gf : Vector StoredCell n) {cell : Nat} (h : cell < n) (c : StoredCell) :
    (gf.setIfInBounds cell c)[cell]? = some c ∧ ∀ j, j ≠ cell → (gf.setIfInBounds cell c)[j]? = gf[j]? :=
  ⟨Vector.getElem?_setIfInBounds_self_of_lt h, fun _ hj => Vector.getElem?_setIfInBounds_ne hj.symm⟩

/-! ## FCFG (R165, R161) -/

/-- `configure` gives its coefficient where the rate and the cutoff are positive and the coefficient is a number
(R161). -/
theorem configure_eq_some_iff {rate fc a : F64} :
    configure rate fc = some a ↔
      (isPos rate = true ∧ isPos fc = true ∧ isNaN (alphaOf rate fc) = false) ∧ alphaOf rate fc = a := by
  simp [configure, and_assoc]

theorem configure_eq_none_iff {rate fc : F64} :
    configure rate fc = none ↔ isPos rate = false ∨ isPos fc = false ∨ isNaN (alphaOf rate fc) = true := by
  cases hrate : isPos rate <;> cases hfc : isPos fc <;> simp [configure, hrate, hfc]

/-- The coefficient, with the numbers of R161 written as conversions of integers. -/
theorem alphaOf_eq (rate fc : F64) :
    alphaOf rate fc = fdiv (fdiv (i2f 1) rate)
      (fadd (fdiv (i2f 1) (fmul (fmul fc (i2f 2)) 0x400921FB54442D18#64)) (fdiv (i2f 1) rate)) := by
  have hone : f64One = i2f 1 := by decide +kernel
  have htwo : f64Two = i2f 2 := by decide +kernel
  rw [alphaOf, hone, htwo, f64Pi]

section
variable {s : State} {cell : Nat} {c : StoredCell}

theorem exec_fcfg_setup (hphase : s.phase = .setup) : exec (.fcfg cell) s = .next (configureCell cell s) :=
  congrArg _ (if_pos hphase)

theorem configureCell_of_some {a : F64} (hc : s.gf[cell]? = some c)
    (ha : configure s.regs.gfRate s.wdata = some a) :
    configureCell cell s = answer a { s with gf := s.gf.setIfInBounds cell ⟨some a, c.prev⟩ } := by
  simp only [configureCell, hc, ha]

theorem configureCell_of_none (hc : s.gf[cell]? = some c) (ha : configure s.regs.gfRate s.wdata = none) :
    configureCell cell s = takeFault .invalidParameter s := by
  simp only [configureCell, hc, ha]

theorem configureCell_of_out_of_range (hc : s.gf[cell]? = none) :
    configureCell cell s = takeFault .invalidArgument s := by
  simp only [configureCell, hc]

end

/-- Settles O18: the coefficient of `configure` is stored in the one cell and answered. -/
theorem fcfgConfiguresCell : Obligations.FcfgConfiguresCell := by
  refine ⟨fun cell h => decode_operand (op := 0x10) rfl rfl (decide_eq_true h), fun s cell c hphase hc => ?_,
    fun s cell hphase hcell => ?_, fun s cell hphase => exec_refused hphase rfl⟩
  · dsimp only
    rw [← alphaOf_eq, exec_fcfg_setup hphase]
    refine ⟨fun hok => ?_, fun hbad => ?_⟩
    · obtain ⟨hself, hother⟩ := getElem?_setCell s.gf (Vector.getElem?_eq_some_iff.mp hc).1
        ⟨some (alphaOf s.regs.gfRate s.wdata), c.prev⟩
      exact ⟨_, congrArg _ (configureCell_of_some hc (configure_eq_some_iff.mpr ⟨hok, rfl⟩)), rfl, hself, hother⟩
    · rw [configureCell_of_none hc (configure_eq_none_iff.mpr hbad)]
  · rw [exec_fcfg_setup hphase, configureCell_of_out_of_range (Vector.getElem?_eq_none hcell)]

/-! ## FRST (R166, R162) -/

section
variable {s : State} {cell : Nat} {c : StoredCell}

theorem exec_frst_run (hphase : s.phase = .run) : exec (.frst cell) s = .next (resetCell cell s) :=
  congrArg _ (if_pos hphase)

theorem resetCell_of_finite (hc : s.gf[cell]? = some c) (hx : isFinite s.wdata = true) :
    resetCell cell s = answer 0#64 { s with gf := s.gf.setIfInBounds cell ⟨c.alpha, s.wdata⟩ } := by
  simp only [resetCell, hc, hx, if_true]

theorem resetCell_of_refused (h : 16 ≤ cell ∨ isFinite s.wdata = false) :
    resetCell cell s = takeFault .invalidArgument s := by
  unfold resetCell
  split
  · rfl
  · next c hc =>
    have hlt : cell < 16 := (Vector.getElem?_eq_some_iff.mp hc).1
    rw [if_neg (by simp [h.resolve_left (by omega)])]

end

/-- Settles O19: a finite operand becomes the content of the one cell. -/
theorem frstSetsPrev : Obligations.FrstSetsPrev := by
  refine ⟨fun cell h => decode_operand (op := 0x11) rfl rfl (decide_eq_true h), fun s cell c hphase hc hx => ?_,
    fun s cell hphase hbad => ?_, fun s cell hphase => exec_refused hphase rfl⟩
  · obtain ⟨hself, hother⟩ := getElem?_setCell s.gf (Vector.getElem?_eq_some_iff.mp hc).1 ⟨c.alpha, s.wdata⟩
    rw [exec_frst_run hphase, resetCell_of_finite hc hx]
    exact ⟨_, rfl, rfl, hself, hother⟩
  · rw [exec_frst_run hphase, resetCell_of_refused hbad]

/-! ## The plan of a filter command (R167 to R171) -/

/-- The operation of a cell that is a highpass where `high`. -/
def opOf (high : Bool) : FilterOp := if high then .hp else .lp

/-- The cells of `l`, counted from `first` on, each with its operation. -/
def planOf (first : Nat) (high : Nat → Bool) (l : List Nat) : List (FilterOp × Nat) :=
  l.map fun k => (opOf (high k), first + k)

/-- The plan of `HILO`: highpass from the `n`-th cell on (R171). -/
theorem bankPlan_hilo (first n : Nat) :
    bankPlan .lp first n ++ bankPlan .hp (first + n) n
      = planOf first (fun k => decide (n ≤ k)) (List.range (2 * n)) := by
  rw [Nat.two_mul, List.range_add]
  simp only [planOf, bankPlan, List.map_append, List.map_map]
  congr 1
  · refine List.map_congr_left fun k hk => ?_
    simp [opOf, List.mem_range.mp hk]
  · refine List.map_congr_left fun k _ => ?_
    simp [opOf, Nat.add_assoc]

/-- A cell that is not configured leaves the plan without cells (R168, R374). -/
theorem bankCells_eq_none {gf : Vector StoredCell Config.numGeneralCells} {plan : List (FilterOp × Nat)}
    {op : FilterOp} {k : Nat} {c : StoredCell} (hmem : (op, k) ∈ plan) (hc : gf[k]? = some c) (ha : c.alpha = none) :
    bankCells gf plan = none := by
  obtain ⟨alpha, prev⟩ := c
  obtain rfl : alpha = none := ha
  induction plan with
  | nil => cases hmem
  | cons e plan ih =>
    obtain ⟨op', k'⟩ := e
    rw [bankCells]
    rcases List.mem_cons.mp hmem with heq | htail
    · obtain ⟨-, rfl⟩ := Prod.mk.inj heq
      rw [hc]
    · rw [ih htail]
      split <;> simp_all

section
variable {gf : Vector StoredCell Config.numGeneralCells} {first m : Nat} {high : Nat → Bool} {x : F64}
  {a p q v : Nat → F64}

/-- The cells of a plan whose cells are all configured. -/
theorem bankCells_planOf {l : List Nat} (h : ∀ k ∈ l, gf[first + k]? = some ⟨some (a k), p k⟩) :
    bankCells gf (planOf first high l) = some (l.map fun k => (opOf (high k), ⟨a k, p k⟩)) := by
  induction l with
  | nil => rfl
  | cons k l ih =>
    obtain ⟨hk, hl⟩ := List.forall_mem_cons.mp h
    have htail := ih hl
    simp only [planOf, List.map_cons] at htail ⊢
    rw [bankCells, hk, htail]

/-- One cell of a cascade: its lowpass, and what it carries on (R163, R164). -/
theorem stepCell_opOf (b : Bool) (c : Cell) (x : F64) :
    stepCell (opOf b) c x = (⟨c.alpha, lpValue c.alpha c.prev x⟩,
      if b then fsub x (lpValue c.alpha c.prev x) else lpValue c.alpha c.prev x) := by
  cases b <;> rfl

/-- The trace of a cascade from its `j`-th cell on. -/
theorem CascadeRun.runChain_range' (h : CascadeRun gf first m high x a p q v) (n : Nat) :
    ∀ j, j + n ≤ m → runChain ((List.range' j n).map fun k => (opOf (high k), ⟨a k, p k⟩)) (v j)
      = (List.range' j n).map fun k => (⟨a k, q k⟩, v (k + 1)) := by
  induction n with
  | zero => intro _ _; rfl
  | succ n ih =>
    intro j hj
    have hprev := h.prevs j (by omega)
    have hout := h.outs j (by omega)
    simp only [List.range'_succ, List.map_cons, runChain, stepCell_opOf, ← hprev, ← hout]
    rw [ih (j + 1) (by omega)]

theorem CascadeRun.runChain_eq (h : CascadeRun gf first m high x a p q v) :
    runChain ((List.range m).map fun k => (opOf (high k), ⟨a k, p k⟩)) x
      = (List.range m).map fun k => (⟨a k, q k⟩, v (k + 1)) := by
  rw [← h.start, List.range_eq_range']
  exact h.runChain_range' m 0 (by omega)

theorem traceFinite_map_range :
    traceFinite ((List.range m).map fun k => (⟨a k, q k⟩, v (k + 1))) = true
      ↔ ∀ k < m, isFinite (q k) = true ∧ isFinite (v (k + 1)) = true := by
  simp [traceFinite]

/-- The output of a cascade that is not empty is what its last cell carries on. -/
theorem chainOut_map_range (hm : m ≠ 0) :
    chainOut x ((List.range m).map fun k => (⟨a k, q k⟩, v (k + 1))) = v m := by
  obtain ⟨n, rfl⟩ := Nat.exists_eq_succ_of_ne_zero hm
  simp [chainOut, List.range_succ]

/-- Every cell of a plan takes its lowpass. -/
theorem bankStore_planOf {l : List Nat} (hl : l.Nodup) {k : Nat} (hk : k ∈ l) (hlt : first + k < 16) :
    (bankStore gf (planOf first high l) (l.map fun k => (⟨a k, q k⟩, v (k + 1))))[first + k]?
      = some ⟨some (a k), q k⟩ := by
  induction l generalizing gf with
  | nil => cases hk
  | cons j l ih =>
    obtain ⟨hj, hnodup⟩ := List.nodup_cons.mp hl
    simp only [planOf, List.map_cons, bankStore] at ih ⊢
    rcases List.mem_cons.mp hk with rfl | htail
    · rw [bankStore_other _ _ _ _ fun op i hi => ?_, Vector.getElem?_setIfInBounds_self_of_lt hlt]
      obtain ⟨i', hi', heq⟩ := List.mem_map.mp hi
      obtain ⟨-, rfl⟩ := Prod.mk.inj heq
      intro heq
      exact hj ((Nat.add_left_cancel heq) ▸ hi')
    · exact ih hnodup htail

/-- A cell outside the range of a plan is not touched. -/
theorem bankStore_planOf_other (trace : List (Cell × F64)) {j : Nat} (hj : j < first ∨ first + m ≤ j) :
    (bankStore gf (planOf first high (List.range m)) trace)[j]? = gf[j]? := by
  refine bankStore_other _ _ _ _ fun op i hi => ?_
  obtain ⟨k, hk, heq⟩ := List.mem_map.mp hi
  obtain ⟨-, rfl⟩ := Prod.mk.inj heq
  have := List.mem_range.mp hk
  omega

end

/-! ## The rule of the filter commands (R167 to R171, R174) -/

section
variable {ok : Bool} {plan : List (FilterOp × Nat)} {s : State}

theorem bankCommand_of_refused (hphase : s.phase = .run) (h : ok = false ∨ isFinite s.wdata = false) :
    bankCommand ok plan s = takeFault .invalidArgument s := by
  rcases bankCommand_cases ok plan s with ⟨hne, -⟩ | ⟨-, -, he⟩ | ⟨-, hok, hx, -⟩ | ⟨_, -, hok, hx, -⟩
  · exact absurd hphase hne
  · exact he
  · simp [hok, hx] at h
  · simp [hok, hx] at h

theorem bankCommand_of_not_configured (hphase : s.phase = .run) (hok : ok = true) (hx : isFinite s.wdata = true)
    (hcells : bankCells s.gf plan = none) : bankCommand ok plan s = takeFault .filterNotConfigured s := by
  rcases bankCommand_cases ok plan s with ⟨hne, -⟩ | ⟨-, hbad, -⟩ | ⟨-, -, -, -, he⟩ | ⟨_, -, -, -, hsome, -⟩
  · exact absurd hphase hne
  · simp [hok, hx] at hbad
  · exact he
  · simp [hcells] at hsome

theorem bankCommand_of_cells (hphase : s.phase = .run) (hok : ok = true) (hx : isFinite s.wdata = true)
    {cells : List (FilterOp × Cell)} (hcells : bankCells s.gf plan = some cells) :
    (traceFinite (runChain cells s.wdata) = false ∧ bankCommand ok plan s = takeFault .invalidArgument s)
      ∨ (traceFinite (runChain cells s.wdata) = true
        ∧ bankCommand ok plan s = answer (chainOut s.wdata (runChain cells s.wdata))
            { s with gf := bankStore s.gf plan (runChain cells s.wdata) }) := by
  rcases bankCommand_cases ok plan s with ⟨hne, -⟩ | ⟨-, hbad, -⟩ | ⟨-, -, -, hnone, -⟩ | ⟨_, -, -, -, hsome, h⟩
  · exact absurd hphase hne
  · simp [hok, hx] at hbad
  · simp [hcells] at hnone
  · obtain rfl := Option.some.inj (hcells.symm.trans hsome)
    exact h

end

/-- A filter command on `m` cells from `first` on keeps the rule of the filter commands. -/
theorem bankRule_of_exec {i : Instr} {ok : Bool} {first m : Nat} {high : Nat → Bool}
    (hok : ok = true ↔ m ≠ 0 ∧ first + m ≤ 16)
    (hexec : ∀ s, exec i s = .next (bankCommand ok (planOf first high (List.range m)) s)) :
    bankRule i first m high := by
  intro s hphase
  rw [hexec]
  refine ⟨fun hrange => ?_, fun _ _ hx => ?_, fun hm hle hx ⟨k, c, hk, hc, ha⟩ => ?_,
    fun hm hle hx a p q v hrun => ?_⟩
  · have hbad : ok = false := Bool.eq_false_iff.mpr fun h => by have := hok.mp h; omega
    rw [bankCommand_of_refused hphase (.inl hbad)]
  · rw [bankCommand_of_refused hphase (.inr hx)]
  · have hmem : (opOf (high k), first + k) ∈ planOf first high (List.range m) :=
      List.mem_map_of_mem (List.mem_range.mpr hk)
    rw [bankCommand_of_not_configured hphase (hok.mpr ⟨hm, hle⟩) hx (bankCells_eq_none hmem hc ha)]
  · have hcells : bankCells s.gf (planOf first high (List.range m)) = _ :=
      bankCells_planOf fun k hk => hrun.cells k (List.mem_range.mp hk)
    have hends := bankCommand_of_cells hphase (hok.mpr ⟨hm, hle⟩) hx hcells
    rw [hrun.runChain_eq, chainOut_map_range hm] at hends
    rcases hends with ⟨hfin, he⟩ | ⟨hfin, he⟩
    · have hbad := mt traceFinite_map_range.mpr (Bool.eq_false_iff.mp hfin)
      exact ⟨fun hall => absurd hall hbad, fun _ => congrArg _ he⟩
    · have hall := traceFinite_map_range.mp hfin
      refine ⟨fun _ => ⟨_, congrArg _ he, rfl, fun k hk => ?_, fun j hj => bankStore_planOf_other _ hj⟩,
        fun ⟨k, hk, hbad⟩ => ?_⟩
      · exact bankStore_planOf List.nodup_range (List.mem_range.mpr hk) (by omega)
      · simp [hall k hk] at hbad

/-- Settles O20: each filter command is the bank command on its plan of cells. -/
theorem filterCommandsStepTheirCells : Obligations.FilterCommandsStepTheirCells := by
  have hcell (cell : Nat) : cellOk cell = true ↔ 1 ≠ 0 ∧ cell + 1 ≤ 16 := by
    simp only [cellOk, Config.numGeneralCells, decide_eq_true_eq]; omega
  have hrange (first n : Nat) : bankOk first n n = true ↔ n ≠ 0 ∧ first + n ≤ 16 := decide_eq_true_iff
  refine ⟨fun cell => ⟨bankRule_of_exec (hcell cell) fun s => rfl, bankRule_of_exec (hcell cell) fun s => rfl⟩,
    fun first n => ⟨bankRule_of_exec (hrange first n) fun s => rfl,
      bankRule_of_exec (hrange first n) fun s => rfl, bankRule_of_exec (ok := bankOk first n (2 * n)) ?_ fun s => ?_⟩⟩
  · simp only [bankOk, Config.numGeneralCells, decide_eq_true_eq]; omega
  · rw [← bankPlan_hilo]; rfl

end Sys2Proof.Machine
end

section
/-!
PROOFS. The coefficients that `configure` gives (41_iir_filter.md R161), and that the general cells stay finite (R174).
-/
namespace Sys2Proof.Machine

/-! ## Signs (R12) -/

section
variable {a b v : F64}

theorem isFinite_or_isInf (h : isNaN v = false) : isFinite v = true ∨ isInf v = true := by
  rw [Bool.eq_false_iff, ne_eq, isNaN_iff] at h
  rw [isFinite_iff, isInf_iff]
  omega

theorem isNeg_of_isPos (h : isPos v = true) : isNeg v = false := by
  have hkey : orderKey 0#64 = 0 := by decide
  simp only [isPos, flt, Bool.and_eq_true, decide_eq_true_eq] at h
  obtain ⟨-, hlt⟩ := h
  rw [hkey, orderKey] at hlt
  split at hlt
  · omega
  · next hneg => simpa using hneg

theorem toUnits_of_isNeg_false (h : isNeg v = false) : toUnits v = magUnits v := by
  rw [toUnits, h]; rfl

/-- Sums, products and quotients of values without a sign have none, NaNs included. -/
theorem isNeg_fadd (ha : isNeg a = false) (hb : isNeg b = false) : isNeg (fadd a b) = false := by
  have hsum : ¬ toUnits a + toUnits b < 0 := by
    rw [toUnits_of_isNeg_false ha, toUnits_of_isNeg_false hb]; omega
  simp only [fadd]
  split
  · rfl
  · split
    · split
      · rfl
      · exact ha
    · split
      · exact hb
      · split
        · simp [ha]
        · simp [hsum]

theorem isNeg_fmul_of_isNeg_false (ha : isNeg a = false) (hb : isNeg b = false) : isNeg (fmul a b) = false := by
  simp only [fmul, ha, hb]
  split
  · rfl
  · split
    · split <;> rfl
    · simp

theorem isNeg_fdiv_of_isNeg_false (ha : isNeg a = false) (hb : isNeg b = false) : isNeg (fdiv a b) = false := by
  simp only [fdiv, ha, hb]
  split
  · rfl
  · split
    · split <;> rfl
    · split
      · rfl
      · split
        · split <;> rfl
        · simp

end

/-! ## NaNs pass through (R12) -/

section
variable {a b v alpha prev : F64}

theorem not_isNaN_of_fadd (h : isNaN (fadd a b) = false) : isNaN a = false ∧ isNaN b = false := by
  constructor <;> rw [Bool.eq_false_iff] <;> intro hnan
  · simp [(isNaN_of_operand_isNaN (b := b) (.inl hnan)).1] at h
  · simp [(isNaN_of_operand_isNaN (a := a) (.inr hnan)).1] at h

theorem not_isNaN_of_fmul (h : isNaN (fmul a b) = false) : isNaN a = false ∧ isNaN b = false := by
  constructor <;> rw [Bool.eq_false_iff] <;> intro hnan
  · simp [(isNaN_of_operand_isNaN (b := b) (.inl hnan)).2.1] at h
  · simp [(isNaN_of_operand_isNaN (a := a) (.inr hnan)).2.1] at h

theorem not_isNaN_of_fdiv (h : isNaN (fdiv a b) = false) : isNaN a = false ∧ isNaN b = false := by
  constructor <;> rw [Bool.eq_false_iff] <;> intro hnan
  · simp [(isNaN_of_operand_isNaN (b := b) (.inl hnan)).2.2] at h
  · simp [(isNaN_of_operand_isNaN (a := a) (.inr hnan)).2.2] at h

theorem not_isNaN_of_lpValue (h : isNaN (lpValue alpha prev v) = false) : isNaN v = false :=
  (not_isNaN_of_fmul (not_isNaN_of_fadd h).2).1

end

/-! ## The unit interval (R161) -/

theorem isFinite_f64One : isFinite f64One = true := by decide

theorem toUnits_f64One : toUnits f64One = unitsPerOne := by
  have hone : f64One = i2f 1 := by decide +kernel
  rw [hone, (i2f_exact (by decide)).2, Int.one_mul]

theorem magUnits_f64One : magUnits f64One = unitsPerOne := by
  rw [← natAbs_toUnits, toUnits_f64One, Int.natAbs_natCast]

/-- A value in `[0, 1]`, in units. -/
structure InUnit (v : F64) : Prop where
  finite : isFinite v = true
  nonneg : 0 ≤ toUnits v
  le_one : toUnits v ≤ unitsPerOne

theorem inUnit_iff {v : F64} : InUnit v ↔ fle 0#64 v = true ∧ fle v f64One = true := by
  have hzero : isFinite 0#64 = true ∧ toUnits 0#64 = 0 := by decide
  obtain ⟨hf0, hu0⟩ := hzero
  refine ⟨fun ⟨hf, hlo, hhi⟩ => ?_, fun ⟨hlo, hhi⟩ => ?_⟩
  · rw [fle_iff hf0 hf, hu0, fle_iff hf isFinite_f64One, toUnits_f64One]
    exact ⟨hlo, hhi⟩
  · have hf := isFinite_of_fle hf0 isFinite_f64One hlo hhi
    rw [fle_iff hf0 hf, hu0] at hlo
    rw [fle_iff hf isFinite_f64One, toUnits_f64One] at hhi
    exact ⟨hf, hlo, hhi⟩

/-- The sum of values without a sign is at least each of them. -/
theorem magUnits_le_fadd {d t : F64} (hd : isNeg d = false) (ht : isNeg t = false) (hfd : isFinite d = true)
    (hft : isFinite t = true) (hsum : isFinite (fadd t d) = true) : magUnits d ≤ magUnits (fadd t d) := by
  have hround := rounded_fadd hft hfd ((isFinite_fadd_iff hft hfd).mp hsum)
  refine hround.magUnits_le Nat.one_pos ?_
  rw [toUnits_of_isNeg_false hd, toUnits_of_isNeg_false ht]
  omega

theorem unitsPerOne_lt_overflowLimit : unitsPerOne < overflowLimit :=
  magUnits_f64One ▸ (isFinite_iff_magUnits f64One).mp isFinite_f64One

section
variable {d t : F64}

/-- The quotient `d / (t + d)` of R161 where everything is finite: the denominator is at least the numerator. -/
theorem fdiv_fadd_atMost_one_of_finite (hd : isNeg d = false) (ht : isNeg t = false) (hfd : isFinite d = true)
    (hft : isFinite t = true) (hfs : isFinite (fadd t d) = true) (hnan : isNaN (fdiv d (fadd t d)) = false) :
    AtMost unitsPerOne (fdiv d (fadd t d)) := by
  have hle := magUnits_le_fadd hd ht hfd hft hfs
  cases hz : isZero (fadd t d)
  · have hpos := magUnits_pos hz
    have hlimit : magUnits d * unitsPerOne < overflowLimit * magUnits (fadd t d) := by
      rw [Nat.mul_comm overflowLimit]
      exact Nat.mul_lt_mul_of_le_of_lt hle unitsPerOne_lt_overflowLimit hpos
    rw [← magUnits_f64One]
    refine (rounded_fdiv hfd hfs hz hlimit).atMost_magUnits hpos ?_
    rw [natAbs_signed, magUnits_f64One, Nat.mul_comm unitsPerOne]
    exact Nat.mul_le_mul_right _ hle
  · have hzd : isZero d = true := by
      rw [isZero_iff_magUnits] at hz ⊢
      omega
    rw [fdiv_zero hfd hfs hz, if_pos hzd] at hnan
    cases hnan

/-- An infinite `d` makes the denominator infinite and the quotient a NaN: the case the check of R161 catches. -/
theorem isFinite_of_fdiv_fadd (hd : isNeg d = false) (ht : isNeg t = false)
    (hnan : isNaN (fdiv d (fadd t d)) = false) : isFinite d = true := by
  obtain ⟨hnd, hns⟩ := not_isNaN_of_fdiv hnan
  refine (isFinite_or_isInf hnd).resolve_right fun hinfd => ?_
  have hinf : isInf (fadd t d) = true := by
    rcases isFinite_or_isInf (not_isNaN_of_fadd hns).1 with hft | hinft
    · rwa [(fadd_fdiv_inf_finite hinfd hft).2.1]
    · rwa [(operations_inf_inf hinft hinfd).1, if_pos (ht.trans hd.symm)]
  rw [(operations_inf_inf hinfd hinf).2.2] at hnan
  cases hnan

/-- The quotient `d / (t + d)` of R161 is a NaN or at most 1. -/
theorem fdiv_fadd_atMost_one (hd : isNeg d = false) (ht : isNeg t = false)
    (hnan : isNaN (fdiv d (fadd t d)) = false) : AtMost unitsPerOne (fdiv d (fadd t d)) := by
  have hfd := isFinite_of_fdiv_fadd hd ht hnan
  have hns := (not_isNaN_of_fdiv hnan).2
  rcases isFinite_or_isInf hns with hfs | hinfs
  · have hft : isFinite t = true := (isFinite_or_isInf (not_isNaN_of_fadd hns).1).resolve_right fun h => by
      rw [(fadd_fdiv_inf_finite h hfd).1, isFinite_of_isInf h] at hfs
      cases hfs
    exact fdiv_fadd_atMost_one_of_finite hd ht hfd hft hfs hnan
  · rw [(fadd_fdiv_inf_finite hinfs hfd).2.2.2]
    exact atMost_packBits_zero _ _

end

/-- The coefficient of a positive rate and cutoff is a NaN or lies in `[0, 1]`. -/
theorem inUnit_alphaOf {rate fc : F64} (hrate : isPos rate = true) (hfc : isPos fc = true)
    (hnan : isNaN (alphaOf rate fc) = false) :
    InUnit (alphaOf rate fc) := by
  have hdt : isNeg (fdiv f64One rate) = false := isNeg_fdiv_of_isNeg_false rfl (isNeg_of_isPos hrate)
  have hscale : isNeg (fmul (fmul fc f64Two) f64Pi) = false :=
    isNeg_fmul_of_isNeg_false (isNeg_fmul_of_isNeg_false (isNeg_of_isPos hfc) rfl) rfl
  have htau : isNeg (fdiv f64One (fmul (fmul fc f64Two) f64Pi)) = false := isNeg_fdiv_of_isNeg_false rfl hscale
  obtain ⟨hfin, hle⟩ := fdiv_fadd_atMost_one hdt htau hnan
  have hneg : isNeg (alphaOf rate fc) = false := isNeg_fdiv_of_isNeg_false hdt (isNeg_fadd htau hdt)
  have hval := toUnits_of_isNeg_false hneg
  refine ⟨hfin, by omega, ?_⟩
  exact (Int.le_natAbs).trans (by exact_mod_cast hle)

/-- Settles O17: the quotient of R161 has a denominator that is at least its numerator. -/
theorem coefficientInUnitInterval : Obligations.CoefficientInUnitInterval := by
  intro rate fc a h
  obtain ⟨⟨hrate, hfc, hnan⟩, rfl⟩ := configure_eq_some_iff.mp h
  have hunit := inUnit_alphaOf hrate hfc hnan
  exact ⟨hrate, hfc, hunit.finite, inUnit_iff.mp hunit⟩

/-! ## The general cells stay finite (R174) -/

/-- As `step_keeps`, for a property that turns on values the effects of the commands do not name. -/
theorem step_keeps_of_exec {Inv : State → Prop}
    (hpresent : ∀ cmd wdata rest s, Inv s → Inv (present cmd wdata rest s))
    (hreset : ∀ s, Inv (hardReset s)) (hfault : ∀ c s, Inv s → Inv (takeFault c s))
    (hexec : ∀ i s t, Inv s → exec i s = .next t → Inv t) {s t : State} (h : Inv s) (hstep : step s = .next t) :
    Inv t := by
  unfold step at hstep
  split at hstep
  · exact Host.Outcome.next.inj hstep ▸ h
  · exact Host.Outcome.next.inj hstep ▸ hreset _
  · next cmd wdata rest _ =>
    have hport := hpresent cmd wdata rest s h
    split at hstep
    · exact Host.Outcome.next.inj hstep ▸ hfault _ _ hport
    · exact hexec _ _ _ hport hstep

theorem State.BankFinite.congr {s t : State} (h : s.BankFinite) (hgf : t.gf = s.gf) : t.BankFinite := by
  intro k c hc
  exact h k c (hgf ▸ hc)

theorem State.BankFinite.takeFault {s : State} (h : s.BankFinite) (c : FaultCode) : (takeFault c s).BankFinite :=
  h.congr (takeFault_gf c s)

/-- A finite cell stored in the bank. -/
theorem State.BankFinite.setCell {s : State} (h : s.BankFinite) (cell : Nat) {c : StoredCell} (hc : c.Finite)
    (v : DataWord) : (answer v { s with gf := s.gf.setIfInBounds cell c }).BankFinite := by
  intro k c' hk
  rw [answer_gf, Vector.getElem?_setIfInBounds] at hk
  split at hk
  · split at hk
    · exact Option.some.inj hk ▸ hc
    · cases hk
  · exact h k c' hk

theorem configureCell_bankFinite {s : State} (h : s.BankFinite) (cell : Nat) : (configureCell cell s).BankFinite := by
  unfold configureCell
  split
  · exact h.takeFault _
  · next c hc =>
    split
    · exact h.takeFault _
    · next alpha ha =>
      obtain ⟨-, -, hfin, -⟩ := coefficientInUnitInterval _ _ _ ha
      have hnew : StoredCell.Finite ⟨some alpha, c.prev⟩ := ⟨(h cell c hc).1, fun a he => Option.some.inj he ▸ hfin⟩
      exact h.setCell cell hnew alpha

theorem resetCell_bankFinite {s : State} (h : s.BankFinite) (cell : Nat) : (resetCell cell s).BankFinite := by
  unfold resetCell
  split
  · exact h.takeFault _
  · next c hc =>
    split
    · next hx =>
      have hnew : StoredCell.Finite ⟨c.alpha, s.wdata⟩ := ⟨hx, (h cell c hc).2⟩
      exact h.setCell cell hnew 0#64
    · exact h.takeFault _

/-- The coefficients of a plan's cells are stored in the bank. -/
theorem exists_getElem?_of_mem_bankCells {gf : Vector StoredCell Config.numGeneralCells} {plan : List (FilterOp × Nat)}
    {cells : List (FilterOp × Cell)} (h : bankCells gf plan = some cells) {e : FilterOp × Cell} (he : e ∈ cells) :
    ∃ k : Nat, gf[k]? = some ⟨some e.2.alpha, e.2.prev⟩ := by
  induction plan generalizing cells with
  | nil => cases Option.some.inj h; cases he
  | cons p plan ih =>
    obtain ⟨op, k⟩ := p
    rw [bankCells] at h
    split at h
    · next alpha prev rest hk hrest =>
      obtain rfl := Option.some.inj h
      rcases List.mem_cons.mp he with rfl | htail
      · exact ⟨k, hk⟩
      · exact ih hrest htail
    · cases h

/-- A cell after a plan is stored is as before or one of the trace. -/
theorem getElem?_bankStore {gf : Vector StoredCell Config.numGeneralCells} {plan : List (FilterOp × Nat)}
    {trace : List (Cell × F64)} {j : Nat} {c : StoredCell} (h : (bankStore gf plan trace)[j]? = some c) :
    gf[j]? = some c ∨ ∃ e ∈ trace, c = ⟨some e.1.alpha, e.1.prev⟩ := by
  induction plan generalizing gf trace with
  | nil => cases trace <;> exact .inl h
  | cons p plan ih =>
    obtain ⟨op, k⟩ := p
    cases trace with
    | nil => exact .inl h
    | cons e trace =>
      obtain ⟨e, v⟩ := e
      rw [bankStore] at h
      rcases ih h with hold | ⟨e', he', heq⟩
      · rw [Vector.getElem?_setIfInBounds] at hold
        split at hold
        · split at hold
          · exact .inr ⟨(e, v), List.mem_cons_self, (Option.some.inj hold).symm⟩
          · cases hold
        · exact .inl hold
      · exact .inr ⟨e', List.mem_cons_of_mem _ he', heq⟩

/-- Every cell of a trace has the coefficient of a cell of its cascade. -/
theorem exists_alpha_of_mem_runChain {cells : List (FilterOp × Cell)} {x : F64} {e : Cell × F64}
    (he : e ∈ runChain cells x) : ∃ c ∈ cells, e.1.alpha = c.2.alpha := by
  have hmem : e.1.alpha ∈ (runChain cells x).map (fun e => e.1.alpha) := List.mem_map_of_mem he
  rw [runChain_alpha] at hmem
  obtain ⟨c, hc, heq⟩ := List.mem_map.mp hmem
  exact ⟨c, hc, heq.symm⟩

theorem bankCommand_bankFinite {s : State} (h : s.BankFinite) (ok : Bool) (plan : List (FilterOp × Nat)) :
    (bankCommand ok plan s).BankFinite := by
  rcases bankCommand_cases ok plan s with ⟨-, he⟩ | ⟨-, -, he⟩ | ⟨-, -, -, -, he⟩ | ⟨cells, -, -, -, hcells, hend⟩
  · exact he ▸ h.takeFault _
  · exact he ▸ h.takeFault _
  · exact he ▸ h.takeFault _
  · rcases hend with ⟨-, he⟩ | ⟨hfin, he⟩
    · exact he ▸ h.takeFault _
    · rw [he]
      intro j c hc
      rcases getElem?_bankStore hc with hold | ⟨e, hmem, rfl⟩
      · exact h j c hold
      · obtain ⟨c', hc', halpha⟩ := exists_alpha_of_mem_runChain hmem
        obtain ⟨k, hk⟩ := exists_getElem?_of_mem_bankCells hcells hc'
        have hprev := List.all_eq_true.mp hfin e hmem
        rw [Bool.and_eq_true] at hprev
        exact ⟨hprev.1, fun a ha => (h k _ hk).2 a (by rw [← halpha]; exact ha)⟩

/-- A command on the general cells keeps them finite. -/
theorem exec_bankFinite_of_isBankCommand {i : Instr} (hi : isBankCommand i = true) {s t : State} (h : s.BankFinite)
    (hexec : exec i s = .next t) : t.BankFinite := by
  cases i with
  | fcfg cell =>
    rw [← Host.Outcome.next.inj hexec]
    rcases inSetup_cases (configureCell cell) s with ⟨-, he⟩ | ⟨-, he⟩
    · exact he ▸ configureCell_bankFinite h cell
    · exact he ▸ h.takeFault _
  | frst cell =>
    rw [← Host.Outcome.next.inj hexec]
    rcases inRun_cases (resetCell cell) s with ⟨-, he⟩ | ⟨-, he⟩
    · exact he ▸ resetCell_bankFinite h cell
    · exact he ▸ h.takeFault _
  | flp | fhp | fcasl | fcash | hilo =>
    rw [← Host.Outcome.next.inj hexec]
    exact bankCommand_bankFinite h _ _
  | _ => cases hi

theorem exec_bankFinite {i : Instr} {s t : State} (h : s.BankFinite) (hexec : exec i s = .next t) :
    t.BankFinite := by
  by_cases hreset : i = .reset
  · subst hreset
    rw [← Host.Outcome.next.inj hexec]
    exact bankFinite_reset.congr rfl
  · obtain ⟨-, -, hgf, -⟩ := whoChangesWhat i s t hexec hreset
    by_cases heq : t.gf = s.gf
    · exact h.congr heq
    · exact exec_bankFinite_of_isBankCommand (hgf heq) h hexec

/-- Settles O59: `configure` and `FRST` store finite values, and a filter command stores only a finite trace. -/
theorem generalCellsStayFinite : Obligations.GeneralCellsStayFinite := fun _ _ =>
  step_keeps_of_exec (fun _ _ _ _ h => h.congr rfl) (fun _ => bankFinite_reset.congr rfl)
    (fun c _ h => h.takeFault c) (fun _ _ _ => exec_bankFinite)

end Sys2Proof.Machine
end

section
/-!
PROOFS. Bounds by powers of two through the filter cells (41_iir_filter.md R163, R164): a lowpass whose coefficient lies
in the unit interval keeps the bound of its content and its input, a highpass at most doubles it.
-/
namespace Sys2Proof.Machine

/-! ## Bounds by powers of two -/

/-- `|v| ≤ 2 ^ k`. -/
def AbsLe (k : Nat) (v : F64) : Prop := AtMost (2 ^ k * unitsPerOne) v

theorem two_pow_mul_unit_lt {k : Nat} (hk : k ≤ 100) : 2 ^ k * unitsPerOne < overflowLimit := by
  obtain ⟨e, he⟩ := exists_ulp_of_one
  obtain ⟨heq, hlim⟩ := he k
  have := hlim hk
  omega

section
variable {a b v : F64} {k l den num : Nat}

theorem AbsLe.mono (h : AbsLe k v) (hkl : k ≤ l) : AbsLe l v :=
  ⟨h.finite, h.le.trans (Nat.mul_le_mul_right _ (Nat.pow_le_pow_right (by decide) hkl))⟩

theorem absLe_roundUnits (neg : Bool) (hden : 0 < den) (hk : k ≤ 100) (h : num ≤ 2 ^ k * unitsPerOne * den) :
    AbsLe k (roundUnits neg num den) := by
  obtain ⟨e, he⟩ := exists_ulp_of_one
  have heq := (he k).1
  have hround := rounded_roundUnits neg hden
    (h.trans_lt (Nat.mul_lt_mul_of_pos_right (two_pow_mul_unit_lt hk) hden))
  rw [heq] at h
  rw [AbsLe, heq]
  refine hround.atMost_two_pow hden ?_
  rw [natAbs_signed]
  exact h.trans (Nat.mul_le_mul_right _ (Nat.mul_le_mul_right _ (by decide)))

theorem absLe_fadd (hk : k < 100) (ha : AbsLe k a) (hb : AbsLe k b) : AbsLe (k + 1) (fadd a b) := by
  have hsum : (toUnits a + toUnits b).natAbs ≤ 2 ^ (k + 1) * unitsPerOne := by
    have hle := ha.le
    have hle' := hb.le
    rw [Nat.pow_succ, Nat.mul_right_comm]
    omega
  rcases fadd_finite ha.finite hb.finite with ⟨-, heq⟩ | ⟨-, heq⟩
  · rw [heq]
    exact atMost_packBits_zero _ _
  · rw [heq]
    exact absLe_roundUnits _ Nat.one_pos hk (hsum.trans_eq (Nat.mul_one _).symm)

theorem absLe_fneg (h : AbsLe k v) : AbsLe k (fneg v) :=
  ⟨(isFinite_fneg v).trans h.finite, by rw [toUnits_fneg, Int.natAbs_neg]; exact h.le⟩

theorem absLe_fsub (hk : k < 100) (ha : AbsLe k a) (hb : AbsLe k b) : AbsLe (k + 1) (fsub a b) :=
  absLe_fadd hk ha (absLe_fneg hb)

theorem absLe_fdiv (hk : k ≤ 100) (ha : isFinite a = true) (hb : isFinite b = true) (hz : isZero b = false)
    (h : magUnits a ≤ 2 ^ k * magUnits b) : AbsLe k (fdiv a b) := by
  rw [fdiv_finite ha hb hz]
  refine absLe_roundUnits _ (magUnits_pos hz) hk ?_
  rw [Nat.mul_right_comm]
  exact Nat.mul_le_mul_right _ h

theorem absLe_i2f (hk : k ≤ 100) {n : Int} (h : n.natAbs ≤ 2 ^ k) : AbsLe k (i2f n) :=
  absLe_roundUnits _ Nat.one_pos hk (by rw [Nat.mul_one]; exact Nat.mul_le_mul_right _ h)

/-- The powers of two that bound the audio cells convert exactly. -/
theorem i2f_two_pow (hk : k ≤ 100) :
    isFinite (i2f (2 ^ k : Nat)) = true ∧ toUnits (i2f (2 ^ k : Nat)) = (2 ^ k * unitsPerOne : Nat) := by
  obtain ⟨e, he⟩ := exists_ulp_of_one
  have heq := (he k).1
  have hexact := i2f_exact_of_roundUnits (n := (2 ^ k : Nat)) (k := e + k)
  rw [Int.natAbs_natCast, ← Nat.cast_mul, heq] at hexact
  rw [heq]
  exact hexact (heq ▸ two_pow_mul_unit_lt hk) le_rfl (Nat.dvd_mul_left _ _)

/-- The bounds of the audio cells, in units. -/
theorem within_two_pow_iff (hk : k ≤ 100) : within (i2f (2 ^ k : Nat)) v = true ↔ AbsLe k v := by
  obtain ⟨hfb, hub⟩ := i2f_two_pow hk
  have hfn : isFinite (fneg (i2f (2 ^ k : Nat))) = true := (isFinite_fneg _).trans hfb
  rw [within, Bool.and_eq_true]
  refine ⟨fun ⟨hlo, hhi⟩ => ?_, fun ⟨hf, hle⟩ => ?_⟩
  · have hf := isFinite_of_fle hfn hfb hlo hhi
    rw [fle_iff hfn hf, toUnits_fneg, hub] at hlo
    rw [fle_iff hf hfb, hub] at hhi
    exact ⟨hf, by omega⟩
  · rw [fle_iff hfn hf, toUnits_fneg, fle_iff hf hfb, hub]
    omega

end

/-! ## The lowpass (R163) -/

section
variable {P A T₁ T₂ T₃ U g : Int}

/-- What a lowpass keeps of its content `P` before it is rounded: the rounded product `T₁` moves it by at most half of
the last place `g`. -/
theorem abs_kept_le (hU : A ≤ U) (hP : |P| ≤ 2 ^ 53 * g) (h₁ : 2 * |P * A - T₁ * U| ≤ g * U) :
    2 * |(P - T₁) * U| ≤ 2 * (2 ^ 53 * g * (U - A)) + g * U := by
  have hsplit : (P - T₁) * U = P * (U - A) + (P * A - T₁ * U) := by ring
  have hkept : |P * (U - A)| ≤ 2 ^ 53 * g * (U - A) := by
    rw [abs_mul, abs_of_nonneg (sub_nonneg.mpr hU)]
    exact mul_le_mul_of_nonneg_right hP (sub_nonneg.mpr hU)
  have htriangle := abs_add_le (P * (U - A)) (P * A - T₁ * U)
  rw [hsplit]
  linarith

/-- The part kept is at most a quarter of a last place above the bound. -/
theorem abs_sub_le_of_kept (hU : 0 < U) (hA : 0 ≤ A) (hg : 0 ≤ g)
    (h : 2 * |(P - T₁) * U| ≤ 2 * (2 ^ 53 * g * (U - A)) + g * U) : 2 * |P - T₁| ≤ (2 ^ 54 + 1) * g := by
  rw [abs_mul, abs_of_pos hU] at h
  have hgA : 0 ≤ g * A := mul_nonneg hg hA
  refine le_of_mul_le_mul_right ?_ hU
  linarith

/-- The kept part and the new part stay within one last place of the bound. -/
theorem abs_add_le_of_parts (hU : 0 < U) (hkept : 2 * |(P - T₁) * U| ≤ 2 * (2 ^ 53 * g * (U - A)) + g * U)
    (h₂ : 2 * |(P - T₁) - T₂| ≤ g) (h₃ : |T₃| * U ≤ 2 ^ 53 * g * A) : |T₂ + T₃| ≤ (2 ^ 53 + 1) * g := by
  rw [abs_mul, abs_of_pos hU] at hkept
  have hT₂ : |T₂| ≤ |P - T₁| + |(P - T₁) - T₂| := by
    have := abs_sub_abs_le_abs_sub T₂ (P - T₁)
    rw [abs_sub_comm T₂] at this
    linarith
  have hsum := abs_add_le T₂ T₃
  refine le_of_mul_le_mul_right ?_ hU
  nlinarith

end

section
variable {alpha prev x : F64} {k : Nat}

/-- The new part of a lowpass does not pass the bound scaled by the coefficient. -/
theorem fmul_absLe_scaled (hk : k ≤ 100) (ha : InUnit alpha) (hx : AbsLe k x) :
    AtMost (2 ^ k * magUnits alpha) (fmul x alpha) := by
  obtain ⟨hfa, ha0, ha1⟩ := ha
  have hmag : (magUnits alpha : Int) = toUnits alpha := by rw [← natAbs_toUnits]; omega
  have hle : magUnits alpha ≤ unitsPerOne := by zify; omega
  have hlim : 2 ^ k * magUnits alpha < overflowLimit :=
    (Nat.mul_le_mul_left _ hle).trans_lt (two_pow_mul_unit_lt hk)
  obtain ⟨w, -, hw⟩ := exists_scaled alpha hlim
  have hprod : (toUnits x * toUnits alpha).natAbs ≤ 2 ^ k * magUnits alpha * unitsPerOne := by
    rw [Int.natAbs_mul, natAbs_toUnits alpha, Nat.mul_right_comm]
    exact Nat.mul_le_mul_right _ hx.le
  have hround := rounded_fmul hx.finite hfa
    (hprod.trans_lt (Nat.mul_lt_mul_of_pos_right hlim unitsPerOne_pos))
  rw [← hw] at hprod ⊢
  exact hround.atMost_magUnits unitsPerOne_pos hprod

/-- What a lowpass keeps of its content, rounded twice: by the product and by the difference. -/
theorem fsub_fmul_kept {j : Nat} (hlim : (2 ^ 53 + 1) * 2 ^ j < overflowLimit) (ha : InUnit alpha)
    (hp : AtMost (2 ^ 53 * 2 ^ j) prev) :
    isFinite (fsub prev (fmul prev alpha)) = true
      ∧ 2 * |(toUnits prev - toUnits (fmul prev alpha)) * unitsPerOne|
        ≤ 2 * (2 ^ 53 * 2 ^ j * (unitsPerOne - toUnits alpha)) + 2 ^ j * unitsPerOne
      ∧ 2 * |toUnits prev - toUnits (fmul prev alpha) - toUnits (fsub prev (fmul prev alpha))| ≤ 2 ^ j := by
  obtain ⟨hfa, ha0, ha1⟩ := ha
  have hmul := rounded_fmul hp.finite hfa
  have hsub := rounded_fsub (b := fmul prev alpha) hp.finite
  have hUpos := unitsPerOne_pos
  generalize unitsPerOne = U at *
  generalize overflowLimit = L at *
  zify at hlim
  have hU : (0 : Int) < U := by exact_mod_cast hUpos
  have hg : (0 : Int) < 2 ^ j := by positivity
  have hP : |toUnits prev| ≤ 2 ^ 53 * 2 ^ j := by rw [Int.abs_eq_natAbs]; exact_mod_cast hp.le
  have hPA : |toUnits prev * toUnits alpha| ≤ 2 ^ 53 * 2 ^ j * U := by
    rw [abs_mul, abs_of_nonneg ha0]
    exact mul_le_mul hP ha1 ha0 (by positivity)
  have hround₁ : Rounded _ U (fmul prev alpha) := hmul (by
    zify
    exact hPA.trans_lt (mul_lt_mul_of_pos_right (by linarith) hU))
  have hkept := abs_kept_le ha1 hP (hround₁.error_le (j := j) hUpos (by nlinarith))
  have hdiff := abs_sub_le_of_kept hU ha0 hg.le hkept
  have hround₂ : Rounded _ 1 (fsub prev (fmul prev alpha)) := hsub hround₁.finite (by
    zify
    linarith)
  have herr₂ := hround₂.error_le (j := j) Nat.one_pos (by simpa using hdiff)
  rw [Nat.cast_one, mul_one, mul_one] at herr₂
  exact ⟨hround₂.finite, hkept, herr₂⟩

/-- A lowpass with a coefficient in `[0, 1]` keeps a power of two as the bound of its content and its input. Three
roundings could pass the bound by one last place; the fourth takes that back, a tie going to the even side. -/
theorem absLe_lpValue (hk : k ≤ 100) (ha : InUnit alpha) (hp : AbsLe k prev) (hx : AbsLe k x) :
    AbsLe k (lpValue alpha prev x) := by
  obtain ⟨e, he⟩ := exists_ulp_of_one
  obtain ⟨heq, hlim⟩ := he k
  have hlimk := hlim hk
  rw [AbsLe, heq] at hp ⊢
  have hnew := fmul_absLe_scaled hk ha hx
  obtain ⟨hfin, hkept, herr⟩ := fsub_fmul_kept hlimk ha hp
  have hadd := rounded_fadd hfin hnew.finite
  have hUpos := unitsPerOne_pos
  have hA : (magUnits alpha : Int) = toUnits alpha := by rw [← natAbs_toUnits, Int.natAbs_of_nonneg ha.nonneg]
  clear he hlim ha
  generalize unitsPerOne = U at *
  generalize overflowLimit = L at *
  generalize e + k = j at *
  zify at hlimk heq
  have hU : (0 : Int) < U := by exact_mod_cast hUpos
  have hnew' : |toUnits (fmul x alpha)| * U ≤ 2 ^ 53 * 2 ^ j * toUnits alpha := by
    have hle := hnew.le
    zify at hle
    calc |toUnits (fmul x alpha)| * U ≤ 2 ^ k * magUnits alpha * U := mul_le_mul_of_nonneg_right hle hU.le
      _ = 2 ^ k * U * magUnits alpha := by ring
      _ = 2 ^ 53 * 2 ^ j * toUnits alpha := by rw [heq, hA]
  have hsum := abs_add_le_of_parts hU hkept herr hnew'
  have hround : Rounded _ 1 (lpValue alpha prev x) := hadd (by
    zify
    exact hsum.trans_lt hlimk)
  exact hround.atMost_two_pow Nat.one_pos (by zify; simpa using hsum)

end

end Sys2Proof.Machine
end

section
/-!
PROOFS. The audio cells stay in their bounds (47_audio_chain.md R323 to R333): cell by cell, bank by bank, and through
every step.
-/
namespace Sys2Proof.Machine

/-! ## Cascades (R324) -/

/-- How many powers of two a filter can add to the bound of its input. -/
def FilterOp.growth : FilterOp → Nat
  | .lp => 0
  | .hp => 1

/-- A cell that can be stepped within the bound `2 ^ k`. -/
structure Cell.BoundedBy (k : Nat) (c : Cell) : Prop where
  alpha : InUnit c.alpha
  prev : AbsLe k c.prev

section
variable {k : Nat} {c : Cell} {x : F64}

theorem absLe_stepCell (op : FilterOp) (hk : k < 100) (hc : c.BoundedBy k) (hx : AbsLe k x) :
    AbsLe k (stepCell op c x).1.prev ∧ AbsLe (k + op.growth) (stepCell op c x).2 := by
  have hlow := absLe_lpValue hk.le hc.alpha hc.prev hx
  cases op with
  | lp => exact ⟨hlow, hlow⟩
  | hp => exact ⟨hlow, absLe_fsub hk hx hlow⟩

theorem chainOut_cons (x : F64) (e : Cell × F64) (trace : List (Cell × F64)) :
    chainOut x (e :: trace) = chainOut e.2 trace := by
  rw [chainOut, chainOut, List.getLast?_cons]
  cases trace.getLast? <;> rfl

/-- Along a cascade of one operation each cell keeps its bound, and the bounds grow with the operation. -/
theorem absLe_runChain (op : FilterOp) (cells : List Cell) (hk : k + cells.length * op.growth < 100)
    (hx : AbsLe k x) (hcells : ∀ (i : Nat) (c : Cell), cells[i]? = some c → c.BoundedBy (k + i * op.growth)) :
    (∀ (i : Nat) (e : Cell × F64), (runChain (cells.map (op, ·)) x)[i]? = some e → AbsLe (k + i * op.growth) e.1.prev)
      ∧ AbsLe (k + cells.length * op.growth) (chainOut x (runChain (cells.map (op, ·)) x)) := by
  induction cells generalizing k x with
  | nil => exact ⟨nofun, by simpa [runChain, chainOut] using hx⟩
  | cons c cells ih =>
    have hlen : k + (c :: cells).length * op.growth = k + op.growth + cells.length * op.growth := by
      rw [List.length_cons]; ring
    have hshift (i : Nat) : k + (i + 1) * op.growth = k + op.growth + i * op.growth := by ring
    have hhead : c.BoundedBy k := by simpa using hcells 0 c rfl
    obtain ⟨hprev, hout⟩ := absLe_stepCell op (by omega) hhead hx
    obtain ⟨htrace, hlast⟩ := ih (by omega) hout fun i c' hc' => hshift i ▸ hcells (i + 1) c' hc'
    rw [List.map_cons, runChain, chainOut_cons, hlen]
    refine ⟨fun i e he => ?_, hlast⟩
    cases i with
    | zero =>
      obtain rfl := Option.some.inj he
      simpa using hprev
    | succ i => exact hshift i ▸ htrace i e he

end

/-! ## Audio cells (R321) -/

/-- An audio cell that has a coefficient in `[0, 1]` and a content within `2 ^ k`. -/
def StoredCell.BoundedBy (k : Nat) (c : StoredCell) : Prop := c.alpha.isSome = true ∧ (audioCell c).BoundedBy k

theorem StoredCell.boundedBy_of_alphaInUnit {k : Nat} {c : StoredCell} (ha : c.AlphaInUnit) (hsome : c.alpha.isSome = true)
    (hprev : AbsLe k c.prev) : c.BoundedBy k := by
  obtain ⟨a, hc⟩ := Option.isSome_iff_exists.mp hsome
  exact ⟨hsome, by rw [audioCell, hc]; exact inUnit_iff.mpr (ha a hc), hprev⟩

/-- The bank after a cascade: every cell keeps its coefficient and takes the content of its trace. -/
theorem getElem?_audioBank {n : Nat} {op : FilterOp} {bank : Vector StoredCell n} {x : F64} {i : Nat} {c : StoredCell}
    (h : (audioBank op bank x).1[i]? = some c) :
    ∃ c₀ e, bank[i]? = some c₀ ∧ (runChain (bank.toList.map (fun c => (op, audioCell c))) x)[i]? = some e
      ∧ c = storeAudio c₀ e.1 := by
  obtain ⟨hi, rfl⟩ := Vector.getElem?_eq_some_iff.mp h
  have hlen : i < (runChain (bank.toList.map (fun c => (op, audioCell c))) x).length := by simpa using hi
  refine ⟨bank[i], _, Vector.getElem?_eq_some_iff.mpr ⟨hi, rfl⟩, List.getElem?_eq_getElem hlen, ?_⟩
  simp [audioBank]

theorem alpha_audioBank {n : Nat} (op : FilterOp) (bank : Vector StoredCell n) (x : F64) :
    (audioBank op bank x).1.toList.map (·.alpha) = bank.toList.map (·.alpha) := by
  refine List.ext_getElem (by simp) fun i h₁ h₂ => ?_
  have hi : i < n := by simpa using h₁
  obtain ⟨c₀, e, hc₀, -, hc⟩ := getElem?_audioBank (Vector.getElem?_eq_getElem (xs := (audioBank op bank x).1) hi)
  obtain ⟨_, rfl⟩ := Vector.getElem?_eq_some_iff.mp hc₀
  simp only [List.getElem_map, Vector.getElem_toList, hc]
  rfl

theorem absLe_audioBank {n k : Nat} (op : FilterOp) {bank : Vector StoredCell n} {x : F64}
    (hk : k + n * op.growth < 100) (hx : AbsLe k x)
    (hbank : ∀ (i : Nat) c, bank[i]? = some c → c.BoundedBy (k + i * op.growth)) :
    (∀ (i : Nat) c, (audioBank op bank x).1[i]? = some c → AbsLe (k + i * op.growth) c.prev)
      ∧ AbsLe (k + n * op.growth) (audioBank op bank x).2 := by
  have hcells : ∀ (i : Nat) c, (bank.toList.map audioCell)[i]? = some c → c.BoundedBy (k + i * op.growth) := by
    intro i c hc
    rw [List.getElem?_map, Vector.getElem?_toList, Option.map_eq_some_iff] at hc
    obtain ⟨c₀, hc₀, rfl⟩ := hc
    exact (hbank i c₀ hc₀).2
  have hrun := absLe_runChain op (bank.toList.map audioCell) (by simpa using hk) hx hcells
  rw [List.map_map, List.length_map, Vector.length_toList] at hrun
  obtain ⟨htrace, hout⟩ := hrun
  refine ⟨fun i c hc => ?_, hout⟩
  obtain ⟨c₀, e, -, he, rfl⟩ := getElem?_audioBank hc
  exact htrace i e he

/-! ## The cells of a channel -/

/-- A property of the 15 cells, bank by bank. -/
theorem AudioChannel.forall_mem_cells {ch : AudioChannel} {p : StoredCell → Prop} :
    (∀ c ∈ ch.cells, p c) ↔ (∀ c ∈ ch.alp.toList, p c) ∧ (∀ c ∈ ch.ahp.toList, p c)
      ∧ p ch.apre ∧ p ch.ade ∧ p ch.aboost := by
  simp [AudioChannel.cells, or_imp, forall_and]

/-- The bounds of a channel, in units. -/
structure AudioChannel.ContentsBounded (ch : AudioChannel) : Prop where
  low : ∀ (k : Nat) c, ch.alp[k]? = some c → AbsLe 0 c.prev
  high : ∀ (k : Nat) c, ch.ahp[k]? = some c → AbsLe k c.prev
  pre : AbsLe 6 ch.apre.prev
  de : isFinite ch.ade.prev = true
  boost : AbsLe 64 ch.aboost.prev

theorem AudioChannel.bounded_iff {ch : AudioChannel} :
    ch.Bounded ↔ (∀ c ∈ ch.cells, c.AlphaInUnit) ∧ ch.ContentsBounded := by
  have hhigh (k : Nat) (c : StoredCell) (h : ch.ahp[k]? = some c) :
      within (i2f (2 ^ k : Nat)) c.prev = true ↔ AbsLe k c.prev := by
    obtain ⟨hk, -⟩ := Vector.getElem?_eq_some_iff.mp h
    exact within_two_pow_iff (hk.le.trans (by decide))
  have hzero (v : F64) : within (i2f 1) v = true ↔ AbsLe 0 v := within_two_pow_iff (k := 0) (by decide)
  have hsix (v : F64) : within (i2f 64) v = true ↔ AbsLe 6 v := within_two_pow_iff (k := 6) (by decide)
  refine ⟨fun h => ⟨h.alphas, fun k c hc => (hzero _).mp (h.low k c hc),
    fun k c hc => (hhigh k c hc).mp (h.high k c hc), (hsix _).mp h.pre, h.de,
    (within_two_pow_iff (by decide)).mp h.boost⟩,
    fun ⟨halphas, h⟩ => ⟨halphas, fun k c hc => (hzero _).mpr (h.low k c hc),
    fun k c hc => (hhigh k c hc).mpr (h.high k c hc), (hsix _).mpr h.pre, h.de,
    (within_two_pow_iff (by decide)).mpr h.boost⟩⟩

/-- The contents of a bounded channel are finite. -/
theorem AudioChannel.Bounded.finite {ch : AudioChannel} (h : ch.Bounded) : ∀ c ∈ ch.cells, c.Finite := by
  obtain ⟨halphas, hcontents⟩ := AudioChannel.bounded_iff.mp h
  have hprev : ∀ c ∈ ch.cells, isFinite c.prev = true := by
    rw [AudioChannel.forall_mem_cells]
    refine ⟨fun c hc => ?_, fun c hc => ?_, hcontents.pre.finite, hcontents.de, hcontents.boost.finite⟩
    · obtain ⟨k, hk⟩ := List.getElem?_of_mem hc
      exact (hcontents.low k c (by rwa [Vector.getElem?_toList] at hk)).finite
    · obtain ⟨k, hk⟩ := List.getElem?_of_mem hc
      exact (hcontents.high k c (by rwa [Vector.getElem?_toList] at hk)).finite
  exact fun c hc => ⟨hprev c hc, fun a ha => (inUnit_iff.mpr (halphas c hc a ha)).finite⟩

/-- Two channels with the same coefficients. -/
structure AudioChannel.SameAlphas (ch ch' : AudioChannel) : Prop where
  alp : ch'.alp.toList.map (·.alpha) = ch.alp.toList.map (·.alpha)
  ahp : ch'.ahp.toList.map (·.alpha) = ch.ahp.toList.map (·.alpha)
  apre : ch'.apre.alpha = ch.apre.alpha
  ade : ch'.ade.alpha = ch.ade.alpha
  aboost : ch'.aboost.alpha = ch.aboost.alpha

section
variable {ch ch' : AudioChannel}

theorem AudioChannel.SameAlphas.configured_eq (h : ch.SameAlphas ch') (g : Regs) :
    ch'.configured g = ch.configured g := by
  have hall (l : List StoredCell) : l.all (·.alpha.isSome) = (l.map (·.alpha)).all Option.isSome := by
    rw [List.all_map]; rfl
  rw [AudioChannel.configured, AudioChannel.configured, hall, hall, hall ch.alp.toList, hall ch.ahp.toList, h.alp,
    h.ahp, h.apre, h.ade, h.aboost]

theorem AudioChannel.SameAlphas.alphaInUnit (h : ch.SameAlphas ch') (hch : ∀ c ∈ ch.cells, c.AlphaInUnit) :
    ∀ c ∈ ch'.cells, c.AlphaInUnit := by
  intro c hc
  have hcells : ch'.cells.map (·.alpha) = ch.cells.map (·.alpha) := by
    simp [AudioChannel.cells, h.alp, h.ahp, h.apre, h.ade, h.aboost]
  have hmem : c.alpha ∈ ch.cells.map (·.alpha) := hcells ▸ List.mem_map_of_mem hc
  obtain ⟨c₀, hc₀, heq⟩ := List.mem_map.mp hmem
  exact fun a ha => hch c₀ hc₀ a (heq.trans ha)

end

end Sys2Proof.Machine
end

section
/-!
PROOFS. The audio cells through `SETUP`, `AUDF` and every step (47_audio_chain.md R322 to R333, 40_host_config_commands.md
R135).
-/
namespace Sys2Proof.Machine

/-! ## The limiter (R329) -/

section
variable {v : F64}

/-- The limiter lets a NaN pass, and every other value leaves it within 1 (R329). -/
theorem isNaN_limiter (h : isNaN v = true) : isNaN (limiter v) = true := by
  simp [limiter, flt, h]

theorem absLe_limiter (h : isNaN v = false) : AbsLe 0 (limiter v) := by
  have hone : AbsLe 0 f64One := ⟨isFinite_f64One, by rw [toUnits_f64One]; omega⟩
  have hfn := (absLe_fneg hone).finite
  have hnanOne := isNaN_of_isFinite hone.finite
  have hnanNeg := isNaN_of_isFinite hfn
  have hout : limiter v = f64One ∨ limiter v = fneg f64One
      ∨ limiter v = v ∧ fle (fneg f64One) v = true ∧ fle v f64One = true := by
    have horder : flt f64One (fneg f64One) = false := by decide
    cases hhi : flt f64One v
    · cases hlo : flt v (fneg f64One)
      · right; right
        simp only [flt, h, hnanOne, hnanNeg, Bool.not_false, Bool.true_and, decide_eq_false_iff_not] at hhi hlo
        simp only [fle, h, hnanOne, hnanNeg, Bool.not_false, Bool.true_and, decide_eq_true_eq]
        refine ⟨?_, by omega, by omega⟩
        simp [limiter, flt, h, hnanOne, hnanNeg, hhi, hlo]
      · right; left
        simp [limiter, hhi, hlo]
    · left
      simp [limiter, hhi, horder]
  rcases hout with heq | heq | ⟨heq, hlo, hhi⟩
  · rw [heq]; exact hone
  · rw [heq]; exact absLe_fneg hone
  · rw [heq]
    have hf := isFinite_of_fle hfn hone.finite hlo hhi
    rw [fle_iff hfn hf, toUnits_fneg, toUnits_f64One] at hlo
    rw [fle_iff hf hone.finite, toUnits_f64One] at hhi
    exact ⟨hf, by omega⟩

end

/-! ## The steps of a channel (R323 to R333) -/

theorem i2f_f32768 : f32768 = i2f 32768 := by decide +kernel

theorem i2f_f20000 : f20000 = i2f 20000 := by decide +kernel

/-- An integer quotient converted exactly on both sides. -/
theorem absLe_fdiv_i2f {k : Nat} (hk : k ≤ 100) {a : F64} (ha : isFinite a = true) {n : Int} (hn : n.natAbs ≤ 2 ^ 53)
    (hpos : 0 < n) (h : magUnits a ≤ 2 ^ k * (n.natAbs * unitsPerOne)) : AbsLe k (fdiv a (i2f n)) := by
  obtain ⟨hf, hu⟩ := i2f_exact hn
  have hmag : magUnits (i2f n) = n.natAbs * unitsPerOne := by
    rw [← natAbs_toUnits, hu, Int.natAbs_mul, Int.natAbs_natCast]
  have hz : isZero (i2f n) = false := by
    rw [Bool.eq_false_iff, ne_eq, isZero_iff_magUnits, hmag]
    have := Nat.mul_pos (show 0 < n.natAbs by omega) unitsPerOne_pos
    omega
  exact absLe_fdiv hk ha hf hz (by rwa [hmag])

/-- A PCM sample lies in `[-1, 1]` (R323). -/
theorem absLe_pcmToFloat {pcm : Int} (h : -32768 ≤ pcm ∧ pcm ≤ 32767) : AbsLe 0 (pcmToFloat pcm) := by
  obtain ⟨hf, hu⟩ := i2f_exact (n := pcm) (by omega)
  rw [pcmToFloat, i2f_f32768]
  refine absLe_fdiv_i2f (by decide) hf (by decide) (by decide) ?_
  rw [← natAbs_toUnits, hu, Int.natAbs_mul, Int.natAbs_natCast, Nat.pow_zero, Nat.one_mul]
  exact Nat.mul_le_mul_right _ (by omega)

theorem wPcm0_range (w : DataWord) : -32768 ≤ wPcm0 w ∧ wPcm0 w ≤ 32767 := by
  unfold wPcm0
  have hlo := BitVec.le_toInt (BitVec.ofNat 16 (dataField w 0 16))
  have hhi := BitVec.toInt_lt (x := BitVec.ofNat 16 (dataField w 0 16))
  omega

theorem wPcm1_range (w : DataWord) : -32768 ≤ wPcm1 w ∧ wPcm1 w ≤ 32767 := by
  unfold wPcm1
  have hlo := BitVec.le_toInt (BitVec.ofNat 16 (dataField w 16 16))
  have hhi := BitVec.toInt_lt (x := BitVec.ofNat 16 (dataField w 16 16))
  omega

section
variable {g : Regs} {c : StoredCell} {v : F64} {d : DrawSource}

/-- The cell of the preemphasis: stepped only where it is on (R325). -/
theorem preemphasis_cell (hc : AbsLe 6 c.prev) (hused : g.audPre = true → c.BoundedBy 6) (hv : AbsLe 6 v) :
    (preemphasis g c v).1.alpha = c.alpha ∧ AbsLe 6 (preemphasis g c v).1.prev := by
  unfold preemphasis
  split
  · next hon =>
    obtain ⟨-, halpha, hprev⟩ := hused hon
    exact ⟨rfl, absLe_lpValue (by decide) halpha hprev hv⟩
  · exact ⟨rfl, hc⟩

/-- A limited value with the hiss added stays within `2 ^ 64` (R330). -/
theorem absLe_hiss (hv : AbsLe 0 v) : AbsLe 64 (hiss g v d).1 := by
  unfold hiss
  split
  · exact hv.mono (by decide)
  · have hlt := g.audHissLevel.isLt
    have hdraw := draw_mem_range (lo := -(g.audHissLevel.toNat : Int)) (hi := g.audHissLevel.toNat) (by omega) d
    have hr : AbsLe 64 (i2f (draw (-(g.audHissLevel.toNat : Int)) g.audHissLevel.toNat d).1) :=
      absLe_i2f (by decide) (by omega)
    refine absLe_fadd (k := 63) (by decide) (hv.mono (by decide)) ?_
    rw [i2f_f20000]
    refine absLe_fdiv_i2f (by decide) hr.finite (by decide) (by decide) ?_
    rw [← natAbs_toUnits, ← Nat.mul_assoc]
    exact hr.le.trans (Nat.mul_le_mul_right _ (by decide))

theorem not_isNaN_of_hiss (h : isNaN (hiss g v d).1 = false) : isNaN v = false := by
  unfold hiss at h
  split at h
  · exact h
  · exact (not_isNaN_of_fadd h).1

/-- The cell of the high boost: stepped only where it is used (R331). -/
theorem highBoost_cell (hc : AbsLe 64 c.prev) (hused : boostUsed g = true → c.BoundedBy 64) (hv : AbsLe 64 v) :
    (highBoost g c v).1.alpha = c.alpha ∧ AbsLe 64 (highBoost g c v).1.prev := by
  unfold highBoost
  split
  · next hon =>
    obtain ⟨-, halpha, hprev⟩ := hused hon
    exact ⟨rfl, absLe_lpValue (by decide) halpha hprev hv⟩
  · exact ⟨rfl, hc⟩

theorem not_isNaN_of_highBoost (h : isNaN (highBoost g c v).2 = false) : isNaN v = false := by
  unfold highBoost at h
  split at h
  · exact (not_isNaN_of_fadd h).1
  · exact h

/-- The cell of the deemphasis holds the sample that step 9 tests (R332, R333). -/
theorem deemphasis_cell (hc : isFinite c.prev = true) (hout : isFinite (deemphasis g c v).2 = true) :
    (deemphasis g c v).1.alpha = c.alpha ∧ isFinite (deemphasis g c v).1.prev = true := by
  unfold deemphasis at *
  split at hout
  · next hon => rw [if_pos hon]; exact ⟨rfl, hout⟩
  · next hoff => rw [if_neg hoff]; exact ⟨rfl, hc⟩

theorem not_isNaN_of_deemphasis (h : isNaN (deemphasis g c v).2 = false) : isNaN v = false := by
  unfold deemphasis at h
  split at h
  · exact not_isNaN_of_lpValue h
  · exact h

end

theorem isFinite_of_floatToPcm {v : F64} {out : Int} (h : floatToPcm v = some out) : isFinite v = true := by
  unfold floatToPcm at h
  split at h
  · assumption
  · cases h

/-- A configured channel has a coefficient in every cell that a frame steps (R135, R321). -/
theorem AudioChannel.configured_iff {g : Regs} {ch : AudioChannel} : ch.configured g = true ↔
    (∀ c ∈ ch.alp.toList, c.alpha.isSome = true) ∧ (∀ c ∈ ch.ahp.toList, c.alpha.isSome = true)
      ∧ (g.audPre = true → ch.apre.alpha.isSome = true) ∧ (g.audDe = true → ch.ade.alpha.isSome = true)
      ∧ (boostUsed g = true → ch.aboost.alpha.isSome = true) := by
  have hused (on some : Bool) : (!on || some) = true ↔ (on = true → some = true) := by cases on <;> simp
  have hboost : (g.hifi || isZero g.audBoostGain || ch.aboost.alpha.isSome)
      = (!boostUsed g || ch.aboost.alpha.isSome) := by
    rw [boostUsed, Bool.not_and, Bool.not_not, Bool.not_not]
  rw [AudioChannel.configured, hboost]
  simp only [Bool.and_eq_true, List.all_eq_true, hused, and_assoc]

/-- Every cell of a configured channel that a frame steps can be stepped within its bound (R135, R321). -/
structure AudioChannel.Steppable (g : Regs) (ch : AudioChannel) : Prop where
  low : ∀ (k : Nat) (c : StoredCell), ch.alp[k]? = some c → c.BoundedBy 0
  high : ∀ (k : Nat) (c : StoredCell), ch.ahp[k]? = some c → c.BoundedBy k
  pre : g.audPre = true → ch.apre.BoundedBy 6
  boost : boostUsed g = true → ch.aboost.BoundedBy 64

theorem AudioChannel.Bounded.steppable {g : Regs} {ch : AudioChannel} (h : ch.Bounded)
    (hconf : ch.configured g = true) : ch.Steppable g := by
  obtain ⟨halphas, hcontents⟩ := AudioChannel.bounded_iff.mp h
  rw [AudioChannel.forall_mem_cells] at halphas
  obtain ⟨halp, hahp, hapre, -, haboost⟩ := halphas
  obtain ⟨hlow, hhigh, hpre, -, hboost⟩ := AudioChannel.configured_iff.mp hconf
  refine ⟨fun k c hc => ?_, fun k c hc => ?_, fun hon => ?_, fun hon => ?_⟩
  · have hmem : c ∈ ch.alp.toList := Vector.mem_toList_iff.mpr (Vector.mem_of_getElem? hc)
    exact StoredCell.boundedBy_of_alphaInUnit (halp c hmem) (hlow c hmem) (hcontents.low k c hc)
  · have hmem : c ∈ ch.ahp.toList := Vector.mem_toList_iff.mpr (Vector.mem_of_getElem? hc)
    exact StoredCell.boundedBy_of_alphaInUnit (hahp c hmem) (hhigh c hmem) (hcontents.high k c hc)
  · exact StoredCell.boundedBy_of_alphaInUnit hapre (hpre hon) hcontents.pre
  · exact StoredCell.boundedBy_of_alphaInUnit haboost (hboost hon) hcontents.boost

/-- A frame that completes keeps a channel bounded and configured: a NaN before the limiter would reach step 9, so the
high boost sees a limited sample (R320 to R333). -/
theorem channelStep_bounded {g : Regs} {audT : BitVec 64} {ch ch' : AudioChannel} {pcm out : Int} {d d' : DrawSource}
    (hpcm : -32768 ≤ pcm ∧ pcm ≤ 32767) (hb : ch.Bounded) (hconf : ch.configured g = true)
    (h : channelStep g audT ch pcm d = (ch', some out, d')) : ch'.Bounded ∧ ch'.configured g = true := by
  obtain ⟨halphas, hcontents⟩ := AudioChannel.bounded_iff.mp hb
  obtain ⟨hlow, hhigh, hpre, hboost⟩ := hb.steppable hconf
  simp only [channelStep, Prod.mk.injEq] at h
  obtain ⟨hch, hout, -⟩ := h
  have hfin := isFinite_of_floatToPcm hout
  have hlimited := not_isNaN_of_hiss (not_isNaN_of_highBoost (not_isNaN_of_deemphasis (isNaN_of_isFinite hfin)))
  have hbuzz := Bool.eq_false_iff.mpr (mt isNaN_limiter (Bool.eq_false_iff.mp hlimited))
  obtain ⟨hlowCells, hlowOut⟩ := absLe_audioBank .lp (bank := ch.alp) (by decide) (absLe_pcmToFloat hpcm) hlow
  obtain ⟨hhighCells, hhighOut⟩ := absLe_audioBank .hp (bank := ch.ahp) (k := 0) (by decide) hlowOut
    (fun i c hc => (by simpa [FilterOp.growth] using hhigh i c hc))
  obtain ⟨hpreAlpha, hpreCell⟩ := preemphasis_cell hcontents.pre hpre hhighOut
  obtain ⟨hboostAlpha, hboostCell⟩ := highBoost_cell hcontents.boost hboost (absLe_hiss (absLe_limiter hbuzz))
  obtain ⟨hdeAlpha, hdeCell⟩ := deemphasis_cell hcontents.de hfin
  have hsame : ch.SameAlphas ch' :=
    hch ▸ ⟨alpha_audioBank .lp ch.alp _, alpha_audioBank .hp ch.ahp _, hpreAlpha, hdeAlpha, hboostAlpha⟩
  have hbounded : ch'.ContentsBounded := hch ▸ ⟨hlowCells,
    fun k c hc => (by simpa [FilterOp.growth] using hhighCells k c hc), hpreCell, hdeCell, hboostCell⟩
  exact ⟨AudioChannel.bounded_iff.mpr ⟨hsame.alphaInUnit halphas, hbounded⟩, (hsame.configured_eq g).trans hconf⟩

/-! ## The invariant through a command -/

/-- The invariant is a matter of the cells, of the registers while the cells are ready, and of the phase. -/
theorem State.AudioBounded.congr {s t : State} (h : s.AudioBounded) (h0 : t.aud0 = s.aud0) (h1 : t.aud1 = s.aud1)
    (hready : t.audReady = s.audReady) (hregs : t.regs = s.regs) (hphase : t.phase = .setup → s.phase = .setup) :
    t.AudioBounded where
  channel0 := h0 ▸ h.channel0
  channel1 := h1 ▸ h.channel1
  ready0 hr := by rw [h0, hregs]; exact h.ready0 (hready ▸ hr)
  ready1 hr := by rw [h1, hregs]; exact h.ready1 (hready ▸ hr)
  setup_bare hp := hready.trans (h.setup_bare (hphase hp))

theorem State.AudioBounded.takeFault {s : State} (h : s.AudioBounded) (c : FaultCode) : (takeFault c s).AudioBounded :=
  h.congr (takeFault_aud0 c s) (takeFault_aud1 c s) (takeFault_audReady c s) (takeFault_regs c s)
    fun hp => nomatch (takeFault_phase c s).symm.trans hp

/-- Before `SETUP` no cell is ready, so no register matters. -/
theorem State.AudioBounded.writeCfg {s : State} (h : s.AudioBounded) (hphase : s.phase = .setup) (r : CfgReg)
    (v : DataWord) : (writeCfg r v s).AudioBounded := by
  have hready : (Machine.writeCfg r v s).audReady = false := (writeCfg_audReady r v s).trans (h.setup_bare hphase)
  exact
    { channel0 := writeCfg_aud0 r v s ▸ h.channel0
      channel1 := writeCfg_aud1 r v s ▸ h.channel1
      ready0 := fun hr => nomatch hready.symm.trans hr
      ready1 := fun hr => nomatch hready.symm.trans hr
      setup_bare := fun _ => hready }

/-- Every command but `SETUP` and `AUDF` leaves the audio cells alone or resets them. -/
theorem Effect.audioBounded {i : Instr} {s t : State} (h : s.AudioBounded) (he : Effect s i t) (hsetup : i ≠ .setup)
    (haudf : i ≠ .audf) : t.AudioBounded := by
  cases he with
  | reset => exact audioBounded_reset.congr rfl rfl rfl rfl id
  | fault _ c d =>
    have hdraws : State.AudioBounded { s with draws := d } := h.congr rfl rfl rfl rfl id
    exact hdraws.takeFault c
  | @stageFault _ P P' c d =>
    have hplanes : State.AudioBounded { s with planes := some P', draws := d } := h.congr rfl rfl rfl rfl id
    exact hplanes.takeFault c
  | cfgw hphase => exact (h.writeCfg hphase _ _).congr rfl rfl rfl rfl id
  | catv hphase =>
    exact (((h.writeCfg hphase _ _).writeCfg (by simpa using hphase) _ _).writeCfg (by simpa using hphase) _ _).congr
      rfl rfl rfl rfl id
  | setup => exact absurd rfl hsetup
  | audf => exact absurd rfl haudf
  | answered | bank | planes | runfield | nextfield => exact h.congr rfl rfl rfl rfl id

/-! ## SETUP (40_host_config_commands.md R135) -/

theorem absLe_zero (k : Nat) : AbsLe k 0#64 := ⟨rfl, Nat.zero_le _⟩

/-- A coefficient that `configure` gives is one of a bounded cell. -/
theorem alphaInUnit_of_configure {rate fc a prev : F64} (h : configure rate fc = some a) :
    StoredCell.AlphaInUnit ⟨some a, prev⟩ := fun a' ha' => by
  obtain ⟨-, -, -, hlo, hhi⟩ := coefficientInUnitInterval _ _ _ h
  exact Option.some.inj ha' ▸ ⟨hlo, hhi⟩

/-- An auxiliary cell is kept where its stage is off, and otherwise takes a coefficient and `+0.0` (R135). -/
theorem auxCell_eq_some {used : Bool} {rate fc : F64} {c c' : StoredCell} (h : auxCell used rate fc c = some c')
    (hc : c.AlphaInUnit) :
    c'.AlphaInUnit ∧ (used = true → c'.alpha.isSome = true) ∧ (c'.prev = c.prev ∨ c'.prev = 0#64) := by
  unfold auxCell at h
  split at h
  · obtain ⟨a, ha, rfl⟩ := Option.map_eq_some_iff.mp h
    exact ⟨alphaInUnit_of_configure ha, fun _ => rfl, .inr rfl⟩
  · next hoff =>
    obtain rfl := Option.some.inj h
    exact ⟨hc, fun hon => absurd hon hoff, .inl rfl⟩

theorem setupChannel_bounded {g : Regs} {ch ch' : AudioChannel} (hb : ch.Bounded) (h : setupChannel g ch = some ch') :
    ch'.Bounded ∧ ch'.configured g = true := by
  obtain ⟨halphas, hcontents⟩ := AudioChannel.bounded_iff.mp hb
  rw [AudioChannel.forall_mem_cells] at halphas
  obtain ⟨-, -, hapre, hade, haboost⟩ := halphas
  unfold setupChannel at h
  split at h
  · next lp hp apre ade aboost hlp hhp hpre hde hboost =>
    obtain rfl := Option.some.inj h
    obtain ⟨hpreAlpha, hpreSome, hprePrev⟩ := auxCell_eq_some hpre hapre
    obtain ⟨hdeAlpha, hdeSome, hdePrev⟩ := auxCell_eq_some hde hade
    obtain ⟨hboostAlpha, hboostSome, hboostPrev⟩ := auxCell_eq_some hboost haboost
    have hbank {a : F64} {k : Nat} {c : StoredCell}
        (hc : (Vector.replicate Config.numAudioStages (⟨some a, 0#64⟩ : StoredCell))[k]? = some c) : c.prev = 0#64 := by
      rw [Vector.getElem?_replicate] at hc
      split at hc
      · rw [← Option.some.inj hc]
      · cases hc
    refine ⟨AudioChannel.bounded_iff.mpr ⟨AudioChannel.forall_mem_cells.mpr ⟨fun c hc => ?_, fun c hc => ?_,
      hpreAlpha, hdeAlpha, hboostAlpha⟩, ⟨fun k c hc => ?_, fun k c hc => ?_, ?_, ?_, ?_⟩⟩, ?_⟩
    · rw [Vector.toList_replicate] at hc
      exact List.eq_of_mem_replicate hc ▸ alphaInUnit_of_configure hlp
    · rw [Vector.toList_replicate] at hc
      exact List.eq_of_mem_replicate hc ▸ alphaInUnit_of_configure hhp
    · exact hbank hc ▸ absLe_zero 0
    · exact hbank hc ▸ absLe_zero k
    · rcases hprePrev with heq | heq
      · exact heq ▸ hcontents.pre
      · exact heq ▸ absLe_zero 6
    · rcases hdePrev with heq | heq
      · exact heq ▸ hcontents.de
      · rw [heq]; rfl
    · rcases hboostPrev with heq | heq
      · exact heq ▸ hcontents.boost
      · exact heq ▸ absLe_zero 64
    · rw [AudioChannel.configured_iff, Vector.toList_replicate, Vector.toList_replicate]
      exact ⟨fun c hc => List.eq_of_mem_replicate hc ▸ rfl, fun c hc => List.eq_of_mem_replicate hc ▸ rfl,
        hpreSome, hdeSome, hboostSome⟩
  · cases h

/-- The audio part of `SETUP` leaves the cells alone or configures both channels (R135). -/
theorem setupAudio_cases {s s' : State} (h : setupAudio s = some s') : s' = s
    ∨ ∃ c0 c1, setupChannel s.regs s.aud0 = some c0 ∧ setupChannel s.regs s.aud1 = some c1
      ∧ s' = { s with aud0 := c0, aud1 := c1, audReady := true } := by
  unfold setupAudio at h
  split at h
  · split at h
    · next c0 c1 h0 h1 => exact .inr ⟨c0, c1, h0, h1, (Option.some.inj h).symm⟩
    · cases h
  · exact .inl (Option.some.inj h).symm

theorem setupBlock_audioBounded {s : State} (h : s.AudioBounded) : (setupBlock s).AudioBounded := by
  unfold setupBlock
  split
  · split
    · exact h.takeFault _
    · next s' hs =>
      rcases setupAudio_cases hs with rfl | ⟨c0, c1, h0, h1, rfl⟩
      · exact h.congr rfl rfl rfl rfl nofun
      · obtain ⟨hb0, hconf0⟩ := setupChannel_bounded h.channel0 h0
        obtain ⟨hb1, hconf1⟩ := setupChannel_bounded h.channel1 h1
        exact ⟨hb0, hb1, fun _ => hconf0, fun _ => hconf1, nofun⟩
  · exact h.takeFault _

/-! ## AUDF (R322) -/

section
variable {s : State}

/-- A frame whose draws are spent and whose fault is taken changes no cell. -/
theorem State.AudioBounded.frameFault (h : s.AudioBounded) (c : FaultCode) (d : DrawSource) :
    (Machine.takeFault c { s with draws := d }).AudioBounded := by
  have hdraws : State.AudioBounded { s with draws := d } := h.congr rfl rfl rfl rfl id
  exact hdraws.takeFault c

theorem secondChannel_audioBounded (h : s.AudioBounded) (hready : s.audReady = true) (hphase : s.phase = .run)
    {c0 : AudioChannel} (hc0 : c0.Bounded ∧ c0.configured s.regs = true) (out0 : Int) (d : DrawSource) :
    (secondChannel c0 out0 d s).AudioBounded := by
  unfold secondChannel
  split
  · exact h.frameFault _ _
  · next c1 out1 d' hstep =>
    obtain ⟨hb1, hconf1⟩ := channelStep_bounded (wPcm1_range s.wdata) h.channel1 (h.ready1 hready) hstep
    exact ⟨hc0.1, hb1, fun _ => hc0.2, fun _ => hconf1, fun hp => nomatch hphase.symm.trans hp⟩

theorem audioFrame_audioBounded (h : s.AudioBounded) (hready : s.audReady = true) (hphase : s.phase = .run) :
    (audioFrame s).AudioBounded := by
  unfold audioFrame
  split
  · exact h.frameFault _ _
  · next c0 out0 d hstep =>
    have hc0 := channelStep_bounded (wPcm0_range s.wdata) h.channel0 (h.ready0 hready) hstep
    split
    · exact ⟨hc0.1, h.channel1, fun _ => hc0.2, h.ready1, fun hp => nomatch hphase.symm.trans hp⟩
    · exact secondChannel_audioBounded h hready hphase hc0 out0 d

theorem audioCommand_audioBounded (h : s.AudioBounded) (hphase : s.phase = .run) :
    (audioCommand s).AudioBounded := by
  unfold audioCommand
  split
  · exact h.takeFault _
  · next hready =>
    split
    · exact h.takeFault _
    · exact audioFrame_audioBounded h (by simpa using hready) hphase

end

/-! ## Every step -/

theorem exec_audioBounded {i : Instr} {s t : State} (h : s.AudioBounded) (hexec : exec i s = .next t) :
    t.AudioBounded := by
  by_cases hsetup : i = .setup
  · subst hsetup
    rw [← Host.Outcome.next.inj hexec]
    rcases inSetup_cases setupBlock s with ⟨-, he⟩ | ⟨-, he⟩
    · exact he ▸ setupBlock_audioBounded h
    · exact he ▸ h.takeFault _
  by_cases haudf : i = .audf
  · subst haudf
    rw [← Host.Outcome.next.inj hexec]
    rcases inRun_cases audioCommand s with ⟨hphase, he⟩ | ⟨-, he⟩
    · exact he ▸ audioCommand_audioBounded h hphase
    · exact he ▸ h.takeFault _
  exact (effect_of_exec hexec).audioBounded h hsetup haudf

/-- Settles O60: the bounds are of finite values, the filters keep them, and a frame that completes has a finite sample
at its end. -/
theorem audioCellsStayFinite : Obligations.AudioCellsStayFinite := by
  refine ⟨fun s h ch hch => ?_, fun _ _ => step_keeps_of_exec (fun _ _ _ _ h => h.congr rfl rfl rfl rfl id)
    (fun _ => audioBounded_reset.congr rfl rfl rfl rfl id) (fun c _ h => h.takeFault c)
    (fun _ _ _ => exec_audioBounded)⟩
  rcases List.mem_pair.mp hch with rfl | rfl
  · exact h.channel0.finite
  · exact h.channel1.finite

end Sys2Proof.Machine
end

section
/-!
PROOFS. Colour conversion: PIXW and PIXR (42_color_conversion.md).
-/
namespace Sys2Proof.Machine

/-! ## The matrices (R191) -/

/-- The patterns of the forward matrix are those of its decimals. -/
theorem forwardMatrix_decimals :
    c0_30 = decimal 30 100 ∧ c0_59 = decimal 59 100 ∧ c0_11 = decimal 11 100
    ∧ cNeg0_27 = decimal (-27) 100 ∧ c0_74 = decimal 74 100
    ∧ c0_41 = decimal 41 100 ∧ c0_48 = decimal 48 100 ∧ c256 = i2f 256 := by
  decide +kernel

/-- The patterns of the inverse matrix are those of its decimals. -/
theorem inverseMatrix_decimals :
    f64One = decimal 1000 1000 ∧ c0_956 = decimal 956 1000 ∧ c0_621 = decimal 621 1000
    ∧ cNeg0_272 = decimal (-272) 1000 ∧ cNeg0_647 = decimal (-647) 1000
    ∧ cNeg1_106 = decimal (-1106) 1000 ∧ c1_703 = decimal 1703 1000 ∧ c256 = i2f 256 := by
  decide +kernel

/-! ## The planes at one place (R192, R193) -/

section
variable {s : State} {P : Planes} {y x r g b : Nat}

/-- What an address reads after a pixel was written. -/
theorem read_writePixel (a : Nat) :
    Memory.read (P.writePixel y x r g b).cells a =
      if a = planeAddr planeQ y x then sampleOfInt (rgbToQ r g b)
      else if a = planeAddr planeI y x then sampleOfInt (rgbToI r g b)
      else if a = planeAddr planeY y x then sampleOfInt (rgbToY r g b)
      else Memory.read P.cells a := by
  simp only [Planes.writePixel, read_write]

/-- The planes do not share an address (20_memory.md R70). -/
theorem planeAddr_ne_of_plane_ne {p p' : Nat} (h : p ≠ p') : planeAddr p y x ≠ planeAddr p' y x := by
  unfold planeAddr
  omega

theorem read_writePixel_planeY : (P.writePixel y x r g b).read planeY y x = sampleOfInt (rgbToY r g b) := by
  rw [Planes.read, read_writePixel, if_neg (planeAddr_ne_of_plane_ne (by decide)),
    if_neg (planeAddr_ne_of_plane_ne (by decide)), if_pos rfl]

theorem read_writePixel_planeI : (P.writePixel y x r g b).read planeI y x = sampleOfInt (rgbToI r g b) := by
  rw [Planes.read, read_writePixel, if_neg (planeAddr_ne_of_plane_ne (by decide)), if_pos rfl]

theorem read_writePixel_planeQ : (P.writePixel y x r g b).read planeQ y x = sampleOfInt (rgbToQ r g b) := by
  rw [Planes.read, read_writePixel, if_pos rfl]

theorem read_writePixel_frame {a : Nat} (hY : a ≠ planeAddr planeY y x) (hI : a ≠ planeAddr planeI y x)
    (hQ : a ≠ planeAddr planeQ y x) :
    Memory.read (P.writePixel y x r g b).cells a = Memory.read P.cells a := by
  rw [read_writePixel, if_neg hQ, if_neg hI, if_neg hY]

theorem exec_pixw_run (hphase : s.phase = .run) (hP : s.planes = some P) :
    exec .pixw s = .next (if P.inside planeY (wRow s.wdata) (wCol s.wdata) then
      answer 0#64 { s with planes := some (P.writePixel (wRow s.wdata) (wCol s.wdata)
        (wRed s.wdata) (wGreen s.wdata) (wBlue s.wdata)) }
      else takeFault .planeAddress s) :=
  congrArg _ (withPlanes_run _ hphase hP)

theorem exec_pixr_run (hphase : s.phase = .run) (hP : s.planes = some P) :
    exec .pixr s = .next (if P.inside planeY (wRow s.wdata) (wCol s.wdata) then
      answer (P.readPixel (wRow s.wdata) (wCol s.wdata)) s
      else takeFault .planeAddress s) :=
  congrArg _ (withPlanes_run _ hphase hP)

end

/-! ## The pixel word (30_encoding.md R102, 20_memory.md R75) -/

/-- A clamped value lies in its range (00_scope.md R13). -/
theorem clampTrunc_range (v : F64) {lo hi : Int} (h : lo ≤ hi) :
    lo ≤ clampTrunc v lo hi ∧ clampTrunc v lo hi ≤ hi := by
  unfold clampTrunc
  split
  · unfold clampInt
    split
    · omega
    · split <;> omega
  · split <;> omega

theorem yiqToChannel_range (ki kq : F64) (y i q : Int) :
    0 ≤ yiqToChannel ki kq y i q ∧ yiqToChannel ki kq y i q ≤ 255 :=
  clampTrunc_range _ (by decide)

/-- Appending a byte is a shift by 256. -/
theorem toNat_append_byte {w : Nat} (v : BitVec w) (b : BitVec 8) : (v ++ b).toNat = v.toNat * 256 + b.toNat := by
  rw [BitVec.toNat_append, ← Nat.shiftLeft_add_eq_or_of_lt b.isLt, Nat.shiftLeft_eq]

theorem toNat_ofInt_byte {n : Int} (h : 0 ≤ n ∧ n ≤ 255) : (BitVec.ofInt 8 n).toNat = n.toNat := by
  rw [BitVec.toNat_ofInt]
  omega

/-- Channels that are bytes stand side by side in the pixel word. -/
theorem pixelWord_eq_append {r g b : Int} (hr : 0 ≤ r ∧ r ≤ 255) (hg : 0 ≤ g ∧ g ≤ 255) (hb : 0 ≤ b ∧ b ≤ 255) :
    pixelWord r g b = 0#32 ++ 0xFF#8 ++ BitVec.ofInt 8 r ++ BitVec.ofInt 8 g ++ BitVec.ofInt 8 b := by
  apply BitVec.eq_of_toNat_eq
  simp only [pixelWord, toNat_append_byte, toNat_ofInt_byte hr, toNat_ofInt_byte hg, toNat_ofInt_byte hb,
    BitVec.toNat_ofNat]
  omega

theorem readPixel_eq_append (P : Planes) (y x : Nat) :
    let yv := (P.read planeY y x).toInt
    let iv := (P.read planeI y x).toInt
    let qv := (P.read planeQ y x).toInt
    P.readPixel y x = 0#32 ++ 0xFF#8 ++ BitVec.ofInt 8 (yiqToR yv iv qv) ++ BitVec.ofInt 8 (yiqToG yv iv qv)
      ++ BitVec.ofInt 8 (yiqToB yv iv qv) :=
  pixelWord_eq_append (yiqToChannel_range ..) (yiqToChannel_range ..) (yiqToChannel_range ..)

/-! ## PIXW and PIXR (R192, R193) -/

/-- Settles O15: a pixel written inside the planes is three writes at addresses that differ. -/
theorem pixwConvertsPixel : Obligations.PixwConvertsPixel := by
  intro s P ⟨hphase, hP, _⟩
  obtain ⟨h30, h59, h11, h27, h74, h41, h48, h256⟩ := forwardMatrix_decimals
  simp only [← dataField_eq, ← h30, ← h59, ← h11, ← h27, ← h74, ← h41, ← h48, ← h256, exec_pixw_run hphase hP]
  refine ⟨fun hin => ⟨P.writePixel (wRow s.wdata) (wCol s.wdata) (wRed s.wdata) (wGreen s.wdata) (wBlue s.wdata),
    ?_, rfl, rfl, read_writePixel_planeY, read_writePixel_planeI, read_writePixel_planeQ,
    fun _ => read_writePixel_frame⟩, fun hout => ?_⟩
  · exact congrArg _ (if_pos (inside_iff.mpr ⟨by decide, hin⟩))
  · exact congrArg _ (if_neg (not_inside (.inr hout)))

/-- Settles O16: the answer is the pixel word of the three samples, whose channels are clamped to bytes. -/
theorem pixrConvertsSamples : Obligations.PixrConvertsSamples := by
  intro s P hphase hP
  obtain ⟨h1000, h956, h621, h272, h647, h1106, h1703, h256⟩ := inverseMatrix_decimals
  simp only [← dataField_eq, ← h1000, ← h956, ← h621, ← h272, ← h647, ← h1106, ← h1703, ← h256,
    exec_pixr_run hphase hP, readPixel_eq_append]
  refine ⟨fun hin => ?_, fun hout => ?_⟩
  · exact congrArg _ (if_pos (inside_iff.mpr ⟨by decide, hin⟩))
  · exact congrArg _ (if_neg (not_inside (.inr hout)))

end Sys2Proof.Machine
end

section
/-!
PROOFS. Field passes row by row (20_memory.md R76, R77; 60_exceptions.md R367): the rows of a field in order, and what a
stage command leaves when every row of its pass completes and when one of them faults.
-/
namespace Sys2Proof.Machine

/-! ## The rows of a field (00_scope.md R14) -/

theorem parity_lt (field : BitVec 64) : parity field < 2 := Nat.mod_lt _ (by decide)

/-- The rows of the field are every other row, from the parity on. -/
theorem fieldRows_eq_map (field : BitVec 64) (h : Nat) :
    fieldRows field h = (List.range (rowsOfField field h)).map (fun j => 2 * j + parity field) := by
  have hpar := parity_lt field
  induction h with
  | zero =>
    have hnone : rowsOfField field 0 = 0 := by unfold rowsOfField; omega
    rw [hnone]
    rfl
  | succ h ih =>
    have hsplit : fieldRows field (h + 1) = fieldRows field h ++ if h % 2 = parity field then [h] else [] := by
      simp [fieldRows, List.range_succ, List.filter_singleton, Bool.cond_eq_ite]
    rw [hsplit, ih]
    split
    · have hnext : rowsOfField field (h + 1) = rowsOfField field h + 1 := by unfold rowsOfField; omega
      have hlast : 2 * rowsOfField field h + parity field = h := by unfold rowsOfField; omega
      rw [hnext, List.range_succ, List.map_append, List.map_singleton, hlast]
    · have hsame : rowsOfField field (h + 1) = rowsOfField field h := by unfold rowsOfField; omega
      rw [hsame, List.append_nil]

@[simp] theorem length_fieldRows (field : BitVec 64) (h : Nat) :
    (fieldRows field h).length = rowsOfField field h := by
  rw [fieldRows_eq_map, List.length_map, List.length_range]

/-- A row of the field stands at half its number. -/
theorem getElem_fieldRows {field : BitVec 64} {h j : Nat} (hj : j < (fieldRows field h).length) :
    (fieldRows field h)[j] = 2 * j + parity field := by
  simp only [fieldRows_eq_map, List.getElem_map, List.getElem_range]

theorem half_getElem_fieldRows {field : BitVec 64} {h j : Nat} (hj : j < (fieldRows field h).length) :
    (fieldRows field h)[j] / 2 = j := by
  have hpar := parity_lt field
  rw [getElem_fieldRows]
  omega

theorem exists_getElem_fieldRows {field : BitVec 64} {h y : Nat} (hy : y < h) (hpar : y % 2 = parity field) :
    ∃ hj : y / 2 < (fieldRows field h).length, (fieldRows field h)[y / 2] = y := by
  obtain ⟨j, hj, hget⟩ := List.mem_iff_getElem.mp (mem_fieldRows.mpr ⟨hy, hpar⟩)
  have hhalf := half_getElem_fieldRows hj
  rw [hget] at hhalf
  subst hhalf
  exact ⟨hj, hget⟩

/-! ## Rows given column by column -/

/-- The row whose samples are functions of the column. -/
def rowOfSamples (w : Nat) (Y I Q : Nat → Sample) : Row :=
  ⟨(List.range w).map Y, (List.range w).map I, (List.range w).map Q⟩

theorem row_eq_rowOfSamples (P : Planes) (y : Nat) :
    P.row y = rowOfSamples P.w (P.read planeY y) (P.read planeI y) (P.read planeQ y) := rfl

theorem wide_rowOfSamples (w : Nat) (Y I Q : Nat → Sample) : (rowOfSamples w Y I Q).Wide w := by
  simp [rowOfSamples, Row.Wide]

theorem rowOfSamples_congr {w : Nat} {Y I Q Y' I' Q' : Nat → Sample}
    (h : ∀ x < w, Y x = Y' x ∧ I x = I' x ∧ Q x = Q' x) : rowOfSamples w Y I Q = rowOfSamples w Y' I' Q' := by
  have hmap {f f' : Nat → Sample} (hf : ∀ x < w, f x = f' x) : (List.range w).map f = (List.range w).map f' :=
    List.map_congr_left fun x hx => hf x (List.mem_range.mp hx)
  rw [rowOfSamples, rowOfSamples, hmap fun x hx => (h x hx).1, hmap fun x hx => (h x hx).2.1,
    hmap fun x hx => (h x hx).2.2]

/-- A plane that holds such a row reads as its functions. -/
theorem read_of_row_eq {P : Planes} {y x : Nat} {Y I Q : Nat → Sample} (h : P.row y = rowOfSamples P.w Y I Q)
    (hx : x < P.w) : P.read planeY y x = Y x ∧ P.read planeI y x = I x ∧ P.read planeQ y x = Q x := by
  simp only [Planes.row, rowOfSamples, Row.mk.injEq] at h
  obtain ⟨hY, hI, hQ⟩ := h
  have hread {p : Nat} {f : Nat → Sample} (hf : P.readRow p y = (List.range P.w).map f) : P.read p y x = f x := by
    rw [← getD_readRow P p y x hx, hf]
    simp [List.getD, hx]
  exact ⟨hread hY, hread hI, hread hQ⟩

/-! ## Passes whose rows are known -/

section
variable {κ : Type} {f : κ → DrawSource → Nat → Row → RowResult κ} {field : BitVec 64} {P : Planes}

/-- A pass whose every row completes as given, the carry and the draws known row by row. -/
theorem fieldPass_gives {Y I Q : Nat → Nat → Sample} (hwf : P.wf = true) (kf : Nat → κ) (df : Nat → DrawSource)
    (hrow : ∀ y < P.h, y % 2 = parity field → f (kf (y / 2)) (df (y / 2)) y (P.row y)
      = .done (kf (y / 2 + 1)) (rowOfSamples P.w (Y y) (I y) (Q y)) (df (y / 2 + 1))) :
    ∃ P', fieldPass f (kf 0) field P (df 0) = .done P' (df (rowsOfField field P.h))
      ∧ FieldResult field P P' Y I Q := by
  obtain ⟨⟨-, hw, -, hh⟩, -⟩ := (planes_wf_iff P).mp hwf
  obtain ⟨P', hdone, hin, -⟩ := passRows_done f (fun y => rowOfSamples P.w (Y y) (I y) (Q y))
    (fieldRows field P.h) kf df P hw (nodup_fieldRows ..) (fun y hy => by have := (mem_fieldRows.mp hy).1; omega)
    (fun y _ => wide_rowOfSamples ..) (fun j hj => by
      obtain ⟨hy, hpar⟩ := mem_fieldRows.mp (List.getElem_mem hj)
      have := hrow _ hy hpar
      rwa [half_getElem_fieldRows hj] at this)
  have hpass : fieldPass f (kf 0) field P (df 0) = .done P' (df (rowsOfField field P.h)) := by
    rw [fieldPass, hdone, length_fieldRows]
  obtain ⟨hPw, hPh, -, hframe⟩ := fieldPass_frame f (kf 0) field P P' _ _ hpass
  have hread (y x : Nat) (hy : y < P.h) (hpar : y % 2 = parity field) (hx : x < P.w) :=
    read_of_row_eq (hPw ▸ hin y (mem_fieldRows.mpr ⟨hy, hpar⟩)) (hPw ▸ hx)
  exact ⟨P', hpass, hPw, hPh, fun y x hy hpar hx => (hread y x hy hpar hx).1,
    fun y x hy hpar hx => (hread y x hy hpar hx).2.1, fun y x hy hpar hx => (hread y x hy hpar hx).2.2, hframe⟩

/-- A pass whose rows complete up to row `y`, which faults. -/
theorem fieldPass_faults {rowOf : Nat → Row} {c : FaultCode} {d' : DrawSource} {y : Nat} (hwf : P.wf = true)
    (kf : Nat → κ) (df : Nat → DrawSource) (hy : y < P.h) (hpar : y % 2 = parity field)
    (hwide : ∀ z, (rowOf z).Wide P.w)
    (hrow : ∀ z < y, z % 2 = parity field → f (kf (z / 2)) (df (z / 2)) z (P.row z)
      = .done (kf (z / 2 + 1)) (rowOf z) (df (z / 2 + 1)))
    (hfault : f (kf (y / 2)) (df (y / 2)) y (P.row y) = .fault c d') :
    fieldPass f (kf 0) field P (df 0) = .fault c P d' := by
  obtain ⟨⟨-, hw, -, hh⟩, -⟩ := (planes_wf_iff P).mp hwf
  obtain ⟨hj, hget⟩ := exists_getElem_fieldRows hy hpar
  obtain ⟨P', h⟩ := passRows_fault f rowOf (fieldRows field P.h) kf df P c d' hw (nodup_fieldRows ..)
    (fun y hy => by have := (mem_fieldRows.mp hy).1; omega) (fun y _ => hwide y) (y / 2) hj
    (fun i hi => by
      have hlt : i < (fieldRows field P.h).length := hi.trans hj
      have hval := getElem_fieldRows hlt
      rw [getElem_fieldRows] at hget
      have := hrow (fieldRows field P.h)[i] (by omega) (mem_fieldRows.mp (List.getElem_mem hlt)).2
      rwa [half_getElem_fieldRows] at this)
    (by rwa [hget])
  rw [fieldPass, h]

end

/-! ## Stage commands in RUN (20_memory.md R76, 60_exceptions.md R366, R367) -/

theorem State.runsOn.canonical {s : State} {P : Planes} (h : s.runsOn P) : P.wf = true :=
  have ⟨_, _, hwf⟩ := h
  hwf

section
variable {κ : Type} {f : κ → DrawSource → Nat → Row → RowResult κ} {s : State} {P P' : Planes} {d : DrawSource}
  {c : FaultCode} {st : Stage} {i : Instr}

theorem stageCommand_done (hs : s.runsOn P) (h : st s.regs s.field P s.draws = .done P' d) :
    stageCommand st id s = s.afterPass P' d := by
  obtain ⟨hphase, hP, -⟩ := hs
  rw [stageCommand, withPlanes_run _ hphase hP]
  simp only [h]
  rfl

/-- A fault that leaves the planes as they were changes no sample. -/
theorem stageCommand_faults (hs : s.runsOn P) (h : st s.regs s.field P s.draws = .fault c P d) :
    stageCommand st id s = takeFault c { s with draws := d } := by
  obtain ⟨hphase, hP, -⟩ := hs
  rw [stageCommand, withPlanes_run _ hphase hP]
  simp only [h, ← hP]

variable (hs : s.runsOn P) (hexec : exec i s = .next (stageCommand st id s))
include hs hexec

/-- A stage command whose every row completes as given. -/
theorem passGives_of_rows {Y I Q : Nat → Nat → Sample} (kf : Nat → κ) (df : Nat → DrawSource)
    (hst : st s.regs s.field P s.draws = fieldPass f (kf 0) s.field P (df 0))
    (hrow : ∀ y < P.h, y % 2 = parity s.field → f (kf (y / 2)) (df (y / 2)) y (P.row y)
      = .done (kf (y / 2 + 1)) (rowOfSamples P.w (Y y) (I y) (Q y)) (df (y / 2 + 1))) :
    passGives i s P Y I Q (df (rowsOfField s.field P.h)) := by
  obtain ⟨P', hdone, hres⟩ := fieldPass_gives (P := P) hs.canonical kf df hrow
  exact ⟨P', hexec.trans (congrArg _ (stageCommand_done hs (hst.trans hdone))), hres⟩

/-- A stage command whose first row with a misfit, `y`, faults; the rows without one complete. -/
theorem exec_faults_of_firstMisfit {rowOf : Nat → Row} {fits : Nat → Nat → Prop} {y x : Nat}
    (kf : Nat → κ) (df : Nat → DrawSource)
    (hst : st s.regs s.field P s.draws = fieldPass f (kf 0) s.field P (df 0)) (hwide : ∀ z, (rowOf z).Wide P.w)
    (hrow : ∀ z, (∀ u < P.w, fits z u) → f (kf (z / 2)) (df (z / 2)) z (P.row z)
      = .done (kf (z / 2 + 1)) (rowOf z) (df (z / 2 + 1)))
    (hmis : FirstMisfit s.field P fits y x)
    (hfault : f (kf (y / 2)) (df (y / 2)) y (P.row y) = .fault c d) :
    exec i s = .next (takeFault c { s with draws := d }) := by
  obtain ⟨⟨hy, hpar⟩, -, -, hfirst⟩ := hmis
  have h := fieldPass_faults hs.canonical kf df hy hpar hwide
    (fun z hz hzpar => hrow z fun u hu => hfirst z (by omega) u hu hzpar (.inl hz)) hfault
  rw [hexec, stageCommand_faults hs (hst.trans h)]

/-! ### Passes without draws: a row function that answers a row or overflows -/

variable {g : Nat → Row → Option Row}
  (hst : st s.regs s.field P s.draws = fieldPass (fun _ d y r => rowOrOverflow d (g y r)) () s.field P s.draws)
include hst

theorem passGives_of_rowOrOverflow {Y I Q : Nat → Nat → Sample}
    (hrow : ∀ y < P.h, y % 2 = parity s.field → g y (P.row y) = some (rowOfSamples P.w (Y y) (I y) (Q y))) :
    passGives i s P Y I Q s.draws :=
  passGives_of_rows hs hexec (fun _ => ()) (fun _ => s.draws) hst fun y hy hpar => by
    rw [hrow y hy hpar]
    rfl

/-- One row of the field that overflows is enough, whatever the rows before it give. -/
theorem exec_overflows_of_row (hwide : ∀ y r, g y (P.row y) = some r → r.Wide P.w)
    (hmis : ∃ y, y < P.h ∧ y % 2 = parity s.field ∧ g y (P.row y) = none) :
    exec i s = .next (takeFault .planeOverflow s) := by
  classical
  obtain ⟨hy, hpar, hnone⟩ := Nat.find_spec hmis
  have hdone (z : Nat) (hz : z < Nat.find hmis) (hzpar : z % 2 = parity s.field) :
      g z (P.row z) = some ((g z (P.row z)).getD (P.row z)) := by
    cases hgz : g z (P.row z) with
    | none => exact absurd ⟨by omega, hzpar, hgz⟩ (Nat.find_min hmis hz)
    | some r => rfl
  have h := fieldPass_faults (f := fun _ d y r => rowOrOverflow d (g y r)) (c := .planeOverflow) (d' := s.draws)
    (rowOf := fun z => (g z (P.row z)).getD (P.row z)) hs.canonical (fun _ => ()) (fun _ => s.draws) hy hpar
    (fun z => by
      cases hgz : g z (P.row z) with
      | none => exact wide_row P z
      | some r => exact hwide z r hgz)
    (fun z hz hzpar => by rw [hdone z hz hzpar]; rfl)
    (by rw [hnone]; rfl)
  rw [hexec, stageCommand_faults hs (hst.trans h)]

end

end Sys2Proof.Machine
end

section
/-!
PROOFS. The composite stages that make no draw (43_composite_chroma.md R203 to R208, R215 to R220): the subcarrier
phase, MOD, PRE and DEMOD, and the stages whose amount register is 0.
-/
namespace Sys2Proof.Machine

/-! ## Row functions that answer exactly where everything fits (60_exceptions.md R363) -/

/-- On the rows of `P` the function `g` answers the given samples where every column fits, and overflows elsewhere. -/
def GivesWhereFits (g : Nat → Row → Option Row) (P : Planes) (fits : Nat → Nat → Prop) (Y I Q : Nat → Nat → Sample) :
    Prop :=
  ∀ y r, g y (P.row y) = some r ↔ (∀ x < P.w, fits y x) ∧ r = rowOfSamples P.w (Y y) (I y) (Q y)

section
variable {s : State} {P : Planes} {i : Instr} {st : Stage} {g : Nat → Row → Option Row} {fits : Nat → Nat → Prop}
  {Y I Q : Nat → Nat → Sample} (hg : GivesWhereFits g P fits Y I Q) (hs : s.runsOn P)
  (hexec : exec i s = .next (stageCommand st id s))
  (hst : st s.regs s.field P s.draws = fieldPass (fun _ d y r => rowOrOverflow d (g y r)) () s.field P s.draws)
include hg hs hexec hst

theorem GivesWhereFits.passGives (hfits : ∀ y < P.h, ∀ x < P.w, y % 2 = parity s.field → fits y x) :
    passGives i s P Y I Q s.draws :=
  passGives_of_rowOrOverflow hs hexec hst fun y hy hpar => (hg y _).mpr ⟨fun x hx => hfits y hy x hx hpar, rfl⟩

theorem GivesWhereFits.overflows (hmis : someMisfit s.field P fits) :
    exec i s = .next (takeFault .planeOverflow s) := by
  obtain ⟨y, x, hy, hx, hpar, hnot⟩ := hmis
  refine exec_overflows_of_row hs hexec hst (fun z r hr => ?_) ⟨y, hy, hpar, ?_⟩
  · rw [((hg z r).mp hr).2]
    exact wide_rowOfSamples ..
  · exact Option.eq_none_iff_forall_ne_some.mpr fun r hr => hnot (((hg y r).mp hr).1 x hx)

end

/-- The samples of a completed pass matter on the rows of the field only. -/
theorem passGives_congr {i : Instr} {s : State} {P : Planes} {Y I Q Y' I' Q' : Nat → Nat → Sample} {d : DrawSource}
    (h : passGives i s P Y I Q d)
    (hY : ∀ y < P.h, ∀ x < P.w, y % 2 = parity s.field → Y y x = Y' y x)
    (hI : ∀ y < P.h, ∀ x < P.w, y % 2 = parity s.field → I y x = I' y x)
    (hQ : ∀ y < P.h, ∀ x < P.w, y % 2 = parity s.field → Q y x = Q' y x) : passGives i s P Y' I' Q' d := by
  obtain ⟨P', hexec, hres⟩ := h
  exact ⟨P', hexec, hres.width, hres.height,
    fun y x hy hpar hx => (hres.luma y x hy hpar hx).trans (hY y hy x hx hpar),
    fun y x hy hpar hx => (hres.chromaI y x hy hpar hx).trans (hI y hy x hx hpar),
    fun y x hy hpar hx => (hres.chromaQ y x hy hpar hx).trans (hQ y hy x hx hpar), hres.frame⟩

/-! ## Values column by column -/

theorem allSome_map_range_eq_some {α : Type} {w : Nat} {f : Nat → Option α} {l : List α} (a : α) :
    allSome ((List.range w).map f) = some l
      ↔ (∀ x < w, (f x).isSome = true) ∧ l = (List.range w).map (fun x => (f x).getD a) := by
  rw [allSome_eq_some]
  constructor
  · intro h
    have hl : l.length = w := by simpa using (congrArg List.length h).symm
    have hx (x : Nat) (hx : x < w) : f x = some (l[x]'(hl ▸ hx)) := by
      have := List.getElem_of_eq h (i := x) (by simpa using hx)
      simpa using this
    refine ⟨fun x hxw => by rw [hx x hxw]; rfl, List.ext_getElem (by simp [hl]) fun x h1 _ => ?_⟩
    simp [hx x (hl ▸ h1)]
  · rintro ⟨h, rfl⟩
    rw [List.map_map]
    refine List.map_congr_left fun x hx => ?_
    obtain ⟨v, hv⟩ := Option.isSome_iff_exists.mp (h x (List.mem_range.mp hx))
    simp [hv]

theorem replicate_eq_map_range {α : Type} (w : Nat) (a : α) : List.replicate w a = (List.range w).map (fun _ => a) := by
  simp

/-- A sample of a row of a plane, 0 outside the row (43_composite_chroma.md R217, R218). -/
theorem rowAt_readRow (P : Planes) (p y : Nat) (x : Int) : rowAt (P.readRow p y) x = sampleAt P p y x := by
  unfold rowAt sampleAt
  by_cases hneg : x < 0
  · rw [if_pos hneg, if_neg (by omega)]
  · rw [if_neg hneg]
    by_cases hx : x < P.w
    · rw [if_pos ⟨by omega, hx⟩, getD_readRow P p y x.toNat (by omega)]
    · rw [if_neg (by omega), List.getD_eq_default _ _ (by rw [length_readRow]; omega)]
      rfl

theorem sampleAt_of_lt (P : Planes) (p y : Nat) {x : Nat} (hx : x < P.w) : sampleAt P p y x = (P.read p y x).toInt := by
  rw [sampleAt, if_pos (by omega), Int.toNat_natCast]

theorem rowOfInts_congr {w : Nat} {f f' : Nat → Int} (h : ∀ x < w, f x = f' x) : rowOfInts w f = rowOfInts w f' := by
  rw [rowOfInts, rowOfInts, List.map_congr_left fun x hx => by rw [h x (List.mem_range.mp hx)]]

/-! ## The subcarrier phase (R203, R204) -/

section
variable {g : Regs} (field : BitVec 64) (y : Nat)

theorem subcarrierPhase_fixed (h : g.compPhase = 0#64) :
    (subcarrierPhase g field y : Int) = g.compPhaseOffset.toInt % 4 := by
  simp only [subcarrierPhase, h, BitVec.toNat_ofNat, Nat.zero_mod]
  omega

theorem subcarrierPhase_rising (h : g.compPhase = 1#64) :
    (subcarrierPhase g field y : Int) = (field.toNat + g.compPhaseOffset.toInt + (y / 2 : Nat)) % 4 := by
  simp only [subcarrierPhase, h, BitVec.toNat_ofNat, Nat.reducePow, Nat.reduceMod]
  omega

theorem subcarrierPhase_alternating (h : g.compPhase = 2#64) :
    (subcarrierPhase g field y : Int) = ((field.toNat + y) / 2 % 2 * 2 + g.compPhaseOffset.toInt) % 4 := by
  simp only [subcarrierPhase, h, BitVec.toNat_ofNat, Nat.reducePow, Nat.reduceMod]
  omega

/-- Policy 3 is the last case, which a value outside the legal range would take too. -/
theorem subcarrierPhase_falling (h : 3 ≤ g.compPhase.toNat) :
    (subcarrierPhase g field y : Int) = (field.toNat + g.compPhaseOffset.toInt - (y / 2 : Nat)) % 4 := by
  unfold subcarrierPhase
  dsimp only
  split
  · omega
  · omega
  · omega
  · omega

/-- Every value of `COMP_PHASE` takes one of the four policies. -/
theorem compPhase_cases (g : Regs) :
    g.compPhase = 0#64 ∨ g.compPhase = 1#64 ∨ g.compPhase = 2#64 ∨ 3 ≤ g.compPhase.toNat := by
  bv_omega

theorem subcarrierPhase_lt_four (g : Regs) : subcarrierPhase g field y < 4 := by
  rcases compPhase_cases g with h | h | h | h
  · have := subcarrierPhase_fixed field y h; omega
  · have := subcarrierPhase_rising field y h; omega
  · have := subcarrierPhase_alternating field y h; omega
  · have := subcarrierPhase_falling field y h; omega

end

/-- Settles O21: each policy is a sum modulo 4, in which the field counts modulo 4 only. -/
theorem subcarrierPhasePolicy : Obligations.SubcarrierPhasePolicy := by
  intro g field y f off xi
  have hthree : g.compPhase = 3#64 → 3 ≤ g.compPhase.toNat := fun h => by rw [h]; decide
  refine ⟨⟨Int.natCast_nonneg _, Int.ofNat_lt.mpr (subcarrierPhase_lt_four field y g)⟩,
    fun h => subcarrierPhase_fixed field y h, fun h => ?_, fun h => ?_, fun h => ?_, ?_⟩
  · have hxi (z : Nat) : xi z = _ := subcarrierPhase_rising field z h
    simp only [hxi]
    omega
  · have hxi (z : Nat) : xi z = _ := subcarrierPhase_alternating field z h
    simp only [hxi]
    omega
  · have hxi (z : Nat) : xi z = _ := subcarrierPhase_falling field z (hthree h)
    simp only [hxi]
    omega
  · have hlow : (BitVec.ofNat 64 (field.toNat % 4)).toNat = field.toNat % 4 := by
      rw [BitVec.toNat_ofNat]; omega
    rw [← Int.natCast_inj]
    rcases compPhase_cases g with h | h | h | h
    · rw [subcarrierPhase_fixed _ _ h, subcarrierPhase_fixed _ _ h]
    · rw [subcarrierPhase_rising _ _ h, subcarrierPhase_rising _ _ h, hlow]; omega
    · rw [subcarrierPhase_alternating _ _ h, subcarrierPhase_alternating _ _ h, hlow]; omega
    · rw [subcarrierPhase_falling _ _ h, subcarrierPhase_falling _ _ h, hlow]; omega

/-! ## Stages whose amount register is 0 -/

/-- A stage that leaves the planes and the draws alone leaves the command with its answer only. -/
theorem stageCommand_idle {st : Stage} {s : State} {P : Planes} (hphase : s.phase = .run) (hP : s.planes = some P)
    (h : st s.regs s.field P s.draws = .done P s.draws) :
    stageCommand st id s = { s with resp := some (.ok 0#64) } := by
  rw [stageCommand, withPlanes_run _ hphase hP]
  simp only [h, ← hP]
  rfl

/-- Settles O26: each of these stages is idle when its register is 0. -/
theorem stageWithZeroAmountDoesNothing : Obligations.StageWithZeroAmountDoesNothing := by
  intro s P hphase hP
  refine ⟨fun h => ?_, fun h => ?_, fun h => ?_, fun h => ?_, fun h => ?_⟩
  · exact congrArg _ (stageCommand_idle hphase hP (st := preStage) (if_pos h))
  · exact congrArg _ (stageCommand_idle hphase hP (st := ynoiseStage) (if_pos h))
  · exact congrArg _ (stageCommand_idle hphase hP (st := cnoiseStage) (if_pos h))
  · exact congrArg _ (stageCommand_idle hphase hP (st := cphaseStage) (if_pos h))
  · exact congrArg _ (stageCommand_idle hphase hP (st := cdropStage) (if_pos h))

/-! ## MOD (R205) -/

/-- The four quarters of the carrier. -/
theorem carrier_eq_carrierAt (amp : Int) (k : Nat) (i q : Int) : carrier amp k i q = carrierAt amp k i q := by
  have hk : k % 4 < 4 := Nat.mod_lt _ (by decide)
  unfold carrier carrierAt tableU tableV
  generalize k % 4 = r at *
  match r, hk with
  | 0, _ => simp
  | 1, _ => simp
  | 2, _ => simp
  | 3, _ => simp

section
variable {s : State} {P : Planes}

theorem modulatedLuma_row {y x : Nat} (hx : x < P.w) :
    modulatedLuma s.regs.scAmp.toNat (subcarrierPhase s.regs s.field y) (P.row y) x = modValue s P y x := by
  simp only [modulatedLuma, modValue, carrier_eq_carrierAt, Planes.row, rowAt_readRow, sampleAt_of_lt _ _ _ hx]

theorem modRow_givesWhereFits (s : State) (P : Planes) :
    GivesWhereFits (fun y r => modRow s.regs.scAmp.toNat (subcarrierPhase s.regs s.field y) r) P
      (fun y x => inS32 (modValue s P y x) = true) (fun y x => BitVec.ofInt 32 (modValue s P y x)) (fun _ _ => 0#32)
      (fun _ _ => 0#32) := by
  intro y r
  have hmod : modRow s.regs.scAmp.toNat (subcarrierPhase s.regs s.field y) (P.row y) =
      (rowOfInts P.w (modValue s P y)).map
        (fun l => ⟨l, (List.range P.w).map (fun _ => 0#32), (List.range P.w).map (fun _ => 0#32)⟩) := by
    obtain ⟨hY, hI, hQ⟩ := wide_row P y
    rw [modRow, hY, hI, hQ, replicate_eq_map_range, ← rowOfInts_congr fun x hx => modulatedLuma_row hx]
    rfl
  dsimp only
  rw [hmod, Option.map_eq_some_iff]
  constructor
  · rintro ⟨l, hl, rfl⟩
    obtain ⟨hfits, rfl⟩ := rowOfInts_eq_some.mp hl
    exact ⟨hfits, rfl⟩
  · rintro ⟨hfits, rfl⟩
    exact ⟨_, rowOfInts_eq_some.mpr ⟨hfits, rfl⟩, rfl⟩

end

/-- Settles O24: `MOD` is a pass whose rows hold the modulated luma where it fits. -/
theorem modAddsCarrier : Obligations.ModAddsCarrier := by
  intro s P hs
  have hrows := modRow_givesWhereFits s P
  refine ⟨hrows.passGives hs rfl rfl, fun ⟨y, x, hy, hx, hpar, hout⟩ => ?_⟩
  exact hrows.overflows hs rfl rfl ⟨y, x, hy, hx, hpar, by simp [hout]⟩

/-! ## Filters along a row (41_iir_filter.md R163, R164) -/

/-- The content of a lowpass cell before a column: `+0.0`, then what the column before left. -/
def lpBefore (alpha : F64) (input : Nat → F64) : Nat → F64
  | 0 => 0#64
  | x + 1 => lpSeq alpha input x

theorem lpSeq_eq (alpha : F64) (input : Nat → F64) (x : Nat) :
    lpSeq alpha input x = lpValue alpha (lpBefore alpha input x) (input x) := by
  cases x <;> rfl

/-- A lowpass cell that stands before column `x` of its input. -/
def lpCellAt (alpha : F64) (input : Nat → F64) (x : Nat) : Cell := ⟨alpha, lpBefore alpha input x⟩

theorem lpStep_lpCellAt (alpha : F64) (input : Nat → F64) (x : Nat) :
    lpStep (lpCellAt alpha input x) (input x) = (lpCellAt alpha input (x + 1), lpSeq alpha input x) := by
  have hnext : lpCellAt alpha input (x + 1) = ⟨alpha, lpSeq alpha input x⟩ := rfl
  rw [hnext, lpSeq_eq, lpStep_eq, lpCellAt]

theorem hpStep_lpCellAt (alpha : F64) (input : Nat → F64) (x : Nat) :
    hpStep (lpCellAt alpha input x) (input x)
      = (lpCellAt alpha input (x + 1), fsub (input x) (lpSeq alpha input x)) := by
  rw [hpStep, lpStep_lpCellAt]

section
variable {κ : Type} {op : κ → F64 → κ × F64} {S : Nat → Sample} {cells : Nat → κ} {out : Nat → F64}
  (h : ∀ x, op (cells x) (i2f (S x).toInt) = (cells (x + 1), out x))
include h

theorem filterRow_map_range' (k m : Nat) :
    filterRow op (cells k) ((List.range' k m).map S) = (List.range' k m).map out := by
  induction m generalizing k with
  | zero => rfl
  | succ m ih =>
    rw [List.range'_succ, List.map_cons, List.map_cons, filterRow, h k]
    exact congrArg _ (ih (k + 1))

/-- A filter whose cells are known before every column gives its outputs column by column. -/
theorem filterRow_map_range (w : Nat) : filterRow op (cells 0) ((List.range w).map S) = (List.range w).map out := by
  rw [List.range_eq_range']
  exact filterRow_map_range' h 0 w

end

/-! ## PRE (R208) -/

/-- `Y` after `PRE` at a column: the highpass of the row, scaled and added back (R208). -/
def boosted (alpha pre : F64) (input : Nat → F64) (x : Nat) : F64 :=
  fadd (input x) (fmul (fsub (input x) (lpSeq alpha input x)) pre)

/-- One row of `PRE` with its coefficient (R208). -/
def boostRow (alpha pre : F64) (r : Row) : Option Row :=
  (allSome ((filterRow (preStep pre) (freshCell alpha) r.y).map f2s)).map (fun y => ⟨y, r.i, r.q⟩)

theorem preStage_eq_fieldPass {g : Regs} {alpha : F64} (hpre : isZero g.compPre = false)
    (hcut : configure fsc4 g.compCut = some alpha) (field : BitVec 64) (P : Planes) (d : DrawSource) :
    preStage g field P d = fieldPass (fun _ d _ r => rowOrOverflow d (boostRow alpha g.compPre r)) () field P d := by
  rw [preStage, if_neg (by simp [hpre])]
  simp only [preRow, hcut]
  rfl

theorem preStep_lpCellAt (alpha pre : F64) (input : Nat → F64) (x : Nat) :
    preStep pre (lpCellAt alpha input x) (input x) = (lpCellAt alpha input (x + 1), boosted alpha pre input x) := by
  rw [preStep, hpStep_lpCellAt, boosted]

theorem boostRow_givesWhereFits (alpha pre : F64) (P : Planes) :
    GivesWhereFits (fun _ r => boostRow alpha pre r) P
      (fun y x => (f2s (boosted alpha pre (rowInput P planeY y) x)).isSome = true)
      (fun y x => (f2s (boosted alpha pre (rowInput P planeY y) x)).getD 0#32) (P.read planeI) (P.read planeQ) := by
  intro y r
  have hfilter : filterRow (preStep pre) (freshCell alpha) (P.row y).y
      = (List.range P.w).map (boosted alpha pre (rowInput P planeY y)) :=
    filterRow_map_range (S := P.read planeY y) (cells := lpCellAt alpha (rowInput P planeY y))
      (preStep_lpCellAt alpha pre (rowInput P planeY y)) P.w
  dsimp only
  rw [boostRow, hfilter, List.map_map, Option.map_eq_some_iff]
  constructor
  · rintro ⟨l, hl, rfl⟩
    obtain ⟨hfits, rfl⟩ := (allSome_map_range_eq_some 0#32).mp hl
    exact ⟨hfits, rfl⟩
  · rintro ⟨hfits, rfl⟩
    exact ⟨_, (allSome_map_range_eq_some 0#32).mpr ⟨hfits, rfl⟩, rfl⟩

/-- Settles O25: `PRE` is a pass whose rows hold the boosted luma where it converts. -/
theorem preAddsHighpass : Obligations.PreAddsHighpass := by
  intro s P alpha hs hpre hcut
  have hrows := boostRow_givesWhereFits alpha s.regs.compPre P
  have hst := preStage_eq_fieldPass hpre hcut s.field P s.draws
  refine ⟨fun Y hY => ?_, hrows.overflows hs rfl hst⟩
  refine passGives_congr (hrows.passGives hs rfl hst fun y hy x hx hpar => ?_) (fun y hy x hx hpar => ?_)
    (fun _ _ _ _ _ => rfl) (fun _ _ _ _ _ => rfl)
  · exact Option.isSome_iff_exists.mpr ⟨_, hY y hy x hx hpar⟩
  · exact (congrArg (Option.getD · 0#32) (hY y hy x hx hpar)).trans rfl

/-! ## DEMOD (R215 to R220) -/

/-- A quotient lies in the range of what it divides, scaled down. -/
theorem tdiv_mem_Icc {n lo hi c : Int} (hc : 0 < c) (hlo : lo ≤ 0) (hhi : 0 ≤ hi) (h : lo * c ≤ n)
    (h' : n ≤ hi * c) : lo ≤ tdiv n c ∧ tdiv n c ≤ hi := by
  rcases Int.le_total 0 n with hn | hn
  · rw [tdiv, Int.tdiv_eq_ediv_of_nonneg hn]
    have := Int.ediv_nonneg hn hc.le
    have := Int.ediv_le_of_le_mul hc h'
    omega
  · have hneg : tdiv n c = -(-n / c) := by
      rw [← Int.tdiv_eq_ediv_of_nonneg (by omega), Int.neg_tdiv, Int.neg_neg, tdiv]
    have := Int.ediv_nonneg (a := -n) (by omega) hc.le
    have hle : -n / c ≤ -lo := Int.ediv_le_of_le_mul hc (by rw [Int.neg_mul]; omega)
    omega

theorem sampleAt_mem_S32 (P : Planes) (p y : Nat) (x : Int) :
    -2147483648 ≤ sampleAt P p y x ∧ sampleAt P p y x ≤ 2147483647 := by
  unfold sampleAt
  split
  · have hlo := BitVec.le_toInt (P.read p y x.toNat)
    have hhi := BitVec.toInt_lt (x := P.read p y x.toNat)
    omega
  · omega

section
variable (ab : Int) (P : Planes) (xi odd y x : Nat)

theorem boxBlur_readRow : boxBlur (P.readRow planeY y) x = blurAt P y x := by
  simp only [boxBlur, blurAt, rowAt_readRow]

/-- The mean of four samples is one (R217). -/
theorem inS32_blurAt : inS32 (blurAt P y x) = true := by
  obtain ⟨h1, h1'⟩ := sampleAt_mem_S32 P planeY y (x - 1)
  obtain ⟨h2, h2'⟩ := sampleAt_mem_S32 P planeY y x
  obtain ⟨h3, h3'⟩ := sampleAt_mem_S32 P planeY y (x + 1)
  obtain ⟨h4, h4'⟩ := sampleAt_mem_S32 P planeY y (x + 2)
  exact decide_eq_true (tdiv_mem_Icc (by decide) (by decide) (by decide) (by omega) (by omega))

theorem scaledResidual_readRow : scaledResidual ab (P.readRow planeY y) xi x = chromaAt ab P xi y x := by
  simp only [scaledResidual, residual, chromaAt, rowAt_readRow, boxBlur_readRow]
  by_cases h : 2 ≤ (xi + x) % 4
  · rw [if_pos h, if_neg (by omega)]
  · rw [if_neg h, if_pos (by omega)]

theorem demuxEven_readRow : demuxEven ab (P.readRow planeY y) xi odd x = demuxAt ab P xi odd y x := by
  simp only [demuxEven, demuxAt, scaledResidual_readRow, length_readRow]

theorem demuxChroma_readRow : demuxChroma ab (P.readRow planeY y) xi odd x = demodValue ab P xi odd y x := by
  simp only [demuxChroma, demodValue, demuxEven_readRow, length_readRow]

end

/-- Where everything fits `DEMOD` gives the exact values, and it overflows elsewhere. -/
theorem demodRow_givesWhereFits (ab : Int) (xi : Nat → Nat) (P : Planes) :
    GivesWhereFits (fun y r => demodRow ab (xi y) r) P (fun y x => demodFits ab P (xi y) y x)
      (fun y x => BitVec.ofInt 32 (blurAt P y x)) (fun y x => BitVec.ofInt 32 (demodValue ab P (xi y) 0 y x))
      (fun y x => BitVec.ofInt 32 (demodValue ab P (xi y) 1 y x)) := by
  rintro y ⟨rY, rI, rQ⟩
  simp only [demodRow_eq_some, residualsFit_iff, rowOfInts_eq_some, Planes.row, length_readRow, boxBlur_readRow,
    scaledResidual_readRow, demuxChroma_readRow, rowOfSamples, Row.mk.injEq]
  constructor
  · rintro ⟨hres, ⟨-, rfl⟩, ⟨hI, rfl⟩, hQ, rfl⟩
    exact ⟨fun x hx => ⟨fun hab => hres hab x hx, hI x hx, hQ x hx⟩, rfl, rfl, rfl⟩
  · rintro ⟨hfits, rfl, rfl, rfl⟩
    exact ⟨fun hab x hx => (hfits x hx).1 hab, ⟨fun x _ => inS32_blurAt P y x, rfl⟩,
      ⟨fun x hx => (hfits x hx).2.1, rfl⟩, fun x hx => (hfits x hx).2.2, rfl⟩

/-- The patterns of DEMOD and CPHASE are those of their decimals (R215, R225). -/
theorem composite_decimals : f50 = i2f 50 ∧ f64Two = i2f 2 ∧ f100 = i2f 100 := by decide +kernel

/-- The amplitude of the two modes (R215, R216). -/
theorem demodAmplitude_eq (m : Bool) (g : Regs) :
    demodAmplitude g m = if m then some (g.scAmp.toNat : Int) else aBack g := by
  obtain ⟨h50, h2, -⟩ := composite_decimals
  rw [demodAmplitude, aBack, h50, h2]
  cases m <;> simp

section
variable {m : Bool} {g : Regs} (field : BitVec 64) (P : Planes) (d : DrawSource)

theorem demodStage_of_some {ab : Int} (h : demodAmplitude g m = some ab) :
    demodStage m g field P d
      = fieldPass (fun _ d y r => rowOrOverflow d (demodRow ab (subcarrierPhase g field y) r)) () field P d := by
  rw [demodAmplitude_eq] at h
  simp only [demodStage, h]

theorem demodStage_of_none (h : demodAmplitude g m = none) :
    demodStage m g field P d = .fault .planeOverflow P d := by
  rw [demodAmplitude_eq] at h
  simp only [demodStage, h]

end

/-- Settles O28: with its amplitude `DEMOD` is a pass of demodulated rows; without one it overflows at once. -/
theorem demodRecoversChroma : Obligations.DemodRecoversChroma := by
  intro s P m hs
  refine ⟨fun ab hab => ?_, fun hnone => ?_⟩
  · have hst := demodStage_of_some s.field P s.draws hab
    have hrows := demodRow_givesWhereFits ab (subcarrierPhase s.regs s.field) P
    exact ⟨hrows.passGives hs rfl hst, hrows.overflows hs rfl hst⟩
  · exact congrArg _ (stageCommand_faults hs (demodStage_of_none s.field P s.draws hnone))

end Sys2Proof.Machine
end

section
/-!
PROOFS. The composite stages that draw (43_composite_chroma.md R211, R223, R225, R228; 70_reset_and_hazards.md R410):
YNOISE, CNOISE, CPHASE and CDROP, with the draws each row spends.
-/
namespace Sys2Proof.Machine

/-! ## Random walks (R211) -/

/-- The value of a walk before its draw `k`, counted from 0. -/
def walkBefore (v : Int) (ans : Nat → Nat) : Nat → Int
  | 0 => 0
  | k + 1 => walkAt v ans k

@[simp] theorem walkBefore_zero (v : Int) (ans : Nat → Nat) : walkBefore v ans 0 = 0 := rfl

@[simp] theorem walkBefore_succ (v : Int) (ans : Nat → Nat) (k : Nat) :
    walkBefore v ans (k + 1) = walkAt v ans k := rfl

theorem walkAt_eq (v : Int) (ans : Nat → Nat) (k : Nat) :
    walkAt v ans k = tdiv (walkBefore v ans k + drawnSym v (ans k)) 2 := by
  cases k with
  | zero => rw [walkBefore_zero, Int.zero_add]; rfl
  | succ k => rfl

/-- One step of a walk after `m` draws, where draw `m` is its draw `k`. -/
theorem walk_walkBefore {v : Int} (hv : 0 < v) (d : DrawSource) {ans : Nat → Nat} {k m : Nat}
    (hans : answerAt d m = ans k) :
    walk v (walkBefore v ans k) (afterDraws d m) = (walkAt v ans k, afterDraws d (m + 1)) := by
  rw [walk, draw_sym v hv, answerAt_afterDraws, afterDraws_add, walkAt_eq, ← hans]
  rfl

theorem drawnSym_mem_range {v : Int} (hv : 0 ≤ v) (a : Nat) : -v ≤ drawnSym v a ∧ drawnSym v a ≤ v := by
  have hnonneg := Int.emod_nonneg (a : Int) (show 2 * v + 1 ≠ 0 by omega)
  have hlt := Int.emod_lt_of_pos (a : Int) (show 0 < 2 * v + 1 by omega)
  rw [drawnSym]
  omega

/-- A walk never exceeds its amplitude: each value is the mean of two that do not. -/
theorem walkAt_mem_range {v : Int} (hv : 0 ≤ v) (ans : Nat → Nat) (k : Nat) :
    -v ≤ walkAt v ans k ∧ walkAt v ans k ≤ v := by
  have hmean (n : Int) (hn : -v ≤ n ∧ n ≤ v) (a : Nat) :
      -v ≤ tdiv (n + drawnSym v a) 2 ∧ tdiv (n + drawnSym v a) 2 ≤ v := by
    obtain ⟨hlo, hhi⟩ := drawnSym_mem_range hv a
    exact tdiv_mem_Icc (by decide) (by omega) hv (by omega) (by omega)
  induction k with
  | zero =>
    rw [walkAt_eq]
    exact hmean 0 (by omega) _
  | succ k ih => exact hmean _ ih _

/-- The walk over the draws of one row is the walk over its answers. -/
theorem walkAt_afterDraws (v : Int) (d : DrawSource) (m : Nat) :
    walkAt v (answerAt (afterDraws d m)) = walkAt v (fun k => answerAt d (m + k)) := by
  congr 1
  funext k
  exact answerAt_afterDraws d m k

theorem toNat_pos_of_ne_zero {v : DataWord} (h : v ≠ 0#64) : (0 : Int) < v.toNat := by
  have : v.toNat ≠ 0 := fun hz => h (BitVec.eq_of_toNat_eq hz)
  omega

theorem toSample_of_inS32 {v : Int} (h : inS32 v = true) : toSample v = some (BitVec.ofInt 32 v) :=
  toSample_eq_some.mpr ⟨h, rfl⟩

theorem toSample_of_not_inS32 {v : Int} (h : ¬ inS32 v = true) : toSample v = none := if_neg h

/-! ## YNOISE (R211) -/

/-- A row of `YNOISE` from column `k` on, the walk where it stands. -/
def ynoiseFrom (v : Int) (d : DrawSource) (k : Nat) (l : List Sample) : Option (List Sample) × DrawSource :=
  ynoiseRow v (walkBefore v (answerAt d) k) (afterDraws d k) l

section
variable {v : Int} (hv : 0 < v) (d : DrawSource) (S : Nat → Sample)
include hv

/-- One column: its draw is spent, and the row goes on where the value fits. -/
theorem ynoiseFrom_cons (k : Nat) (y : Sample) (l : List Sample) :
    ynoiseFrom v d k (y :: l) =
      if inS32 (y.toInt + walkAt v (answerAt d) k) = true then
        ((ynoiseFrom v d (k + 1) l).1.map (BitVec.ofInt 32 (y.toInt + walkAt v (answerAt d) k) :: ·),
          (ynoiseFrom v d (k + 1) l).2)
      else (none, afterDraws d (k + 1)) := by
  have hwalk := walk_walkBefore hv d (ans := answerAt d) (k := k) rfl
  by_cases h : inS32 (y.toInt + walkAt v (answerAt d) k) = true
  · simp only [ynoiseFrom, ynoiseRow, hwalk, toSample_of_inS32 h, walkBefore_succ, if_pos h]
  · simp only [ynoiseFrom, ynoiseRow, hwalk, toSample_of_not_inS32 h, if_neg h]

/-- Where every column from `k` on fits, each spends its draw. -/
theorem ynoiseFrom_done (k m : Nat)
    (hfits : ∀ x, k ≤ x → x < k + m → inS32 ((S x).toInt + walkAt v (answerAt d) x) = true) :
    ynoiseFrom v d k ((List.range' k m).map S)
      = (some ((List.range' k m).map fun x => BitVec.ofInt 32 ((S x).toInt + walkAt v (answerAt d) x)),
          afterDraws d (k + m)) := by
  induction m generalizing k with
  | zero => rfl
  | succ m ih =>
    rw [List.range'_succ, List.map_cons, ynoiseFrom_cons hv, if_pos (hfits k le_rfl (by omega)),
      ih (k + 1) fun x hx hxm => hfits x (by omega) (by omega), Nat.add_right_comm, Nat.add_assoc,
      Option.map_some, List.map_cons]

/-- The first column that does not fit ends the row, its draw spent. -/
theorem ynoiseFrom_misfit (k m x : Nat) (hk : k ≤ x) (hx : x < k + m)
    (hfits : ∀ u, k ≤ u → u < x → inS32 ((S u).toInt + walkAt v (answerAt d) u) = true)
    (hmis : ¬ inS32 ((S x).toInt + walkAt v (answerAt d) x) = true) :
    ynoiseFrom v d k ((List.range' k m).map S) = (none, afterDraws d (x + 1)) := by
  induction m generalizing k with
  | zero => omega
  | succ m ih =>
    rw [List.range'_succ, List.map_cons, ynoiseFrom_cons hv]
    rcases Nat.eq_or_lt_of_le hk with rfl | hlt
    · exact if_neg hmis
    · rw [if_pos (hfits k le_rfl hlt), ih (k + 1) hlt (by omega) fun u hu hux => hfits u (by omega) hux,
        Option.map_none]

end

/-- Settles O27: the pass whose rows restart the walk, a row spending `W` draws. -/
theorem ynoiseAddsWalk : Obligations.YnoiseAddsWalk := by
  intro s P hs hne v n fits
  have hv : 0 < v := toNat_pos_of_ne_zero hne
  have hn (y : Nat) : n y = walkAt v (answerAt (afterDraws s.draws (y / 2 * P.w))) :=
    (walkAt_afterDraws v s.draws (y / 2 * P.w)).symm
  have hst : ynoiseStage s.regs s.field P s.draws = fieldPass (fun _ d _ r =>
      rowOrOverflow (ynoiseFrom v d 0 r.y).2 ((ynoiseFrom v d 0 r.y).1.map fun y => ⟨y, r.i, r.q⟩)) () s.field P
      (afterDraws s.draws (0 * P.w)) := by
    rw [Nat.zero_mul, afterDraws_zero]
    exact if_neg hne
  have hluma (y : Nat) : (P.row y).y = (List.range' 0 P.w).map (P.read planeY y) := by
    rw [← List.range_eq_range']
    rfl
  have hrow (y : Nat) (hfits : ∀ x < P.w, fits y x) :
      ynoiseFrom v (afterDraws s.draws (y / 2 * P.w)) 0 (P.row y).y
        = (some ((List.range P.w).map fun x => BitVec.ofInt 32 ((P.read planeY y x).toInt + n y x)),
            afterDraws s.draws ((y / 2 + 1) * P.w)) := by
    rw [hluma, ynoiseFrom_done hv _ _ 0 P.w fun x _ hx => by
        rw [← hn]
        exact hfits x (by omega),
      ← hn, afterDraws_add, ← List.range_eq_range', Nat.zero_add, ← Nat.succ_mul]
  refine ⟨fun y x => walkAt_mem_range hv.le _ x, fun hfits => ?_, fun y x hmis => ?_⟩
  · refine passGives_of_rows hs rfl (fun _ => ()) (fun j => afterDraws s.draws (j * P.w)) hst fun y hy hpar => ?_
    rw [hrow y fun x hx => hfits y hy x hx hpar]
    rfl
  · refine exec_faults_of_firstMisfit hs rfl (fun _ => ()) (fun j => afterDraws s.draws (j * P.w)) hst
      (fun z => wide_rowOfSamples P.w (fun x => BitVec.ofInt 32 ((P.read planeY z x).toInt + n z x))
        (P.read planeI z) (P.read planeQ z)) (fun z hz => ?_) hmis ?_
    · rw [hrow z hz]
      rfl
    · obtain ⟨⟨hy, hpar⟩, hx, hnot, hfirst⟩ := hmis
      rw [hluma, ynoiseFrom_misfit hv _ _ 0 P.w x (Nat.zero_le x) (by omega) (fun u _ hu => by
          rw [← hn]
          exact hfirst y hy u (by omega) hpar (.inr ⟨rfl, hu⟩)) (by rwa [← hn]),
        afterDraws_add, ← Nat.add_assoc]
      rfl

/-! ## CNOISE (R223) -/

section
variable {c : Int} (hc : 0 < c) (d : DrawSource) (I Q : Nat → Sample)

/-- The `I` walk of a row takes the even draws (R223). -/
def walkI (c : Int) (d : DrawSource) : Nat → Int := walkAt c (fun k => answerAt d (2 * k))

/-- The `Q` walk of a row takes the odd draws (R223). -/
def walkQ (c : Int) (d : DrawSource) : Nat → Int := walkAt c (fun k => answerAt d (2 * k + 1))

theorem walkI_afterDraws (m : Nat) :
    walkI c (afterDraws d (2 * m)) = walkAt c (fun k => answerAt d (2 * (m + k))) := by
  rw [walkI]
  congr 1
  funext k
  rw [answerAt_afterDraws, Nat.mul_add]

theorem walkQ_afterDraws (m : Nat) :
    walkQ c (afterDraws d (2 * m)) = walkAt c (fun k => answerAt d (2 * (m + k) + 1)) := by
  rw [walkQ]
  congr 1
  funext k
  rw [answerAt_afterDraws, Nat.mul_add, Nat.add_assoc]

/-- A row of `CNOISE` from column `k` on, both walks where they stand. -/
def cnoiseFrom (c : Int) (d : DrawSource) (k : Nat) (l : List (Sample × Sample)) :
    Option (List (Sample × Sample)) × DrawSource :=
  cnoiseRow c (walkBefore c (fun k => answerAt d (2 * k)) k) (walkBefore c (fun k => answerAt d (2 * k + 1)) k)
    (afterDraws d (2 * k)) l

include hc

/-- One column: the `I` draw first, then the `Q` draw, and the row goes on where both values fit. -/
theorem cnoiseFrom_cons (k : Nat) (i q : Sample) (l : List (Sample × Sample)) :
    cnoiseFrom c d k ((i, q) :: l) =
      if inS32 (i.toInt + walkI c d k) = true then
        if inS32 (q.toInt + walkQ c d k) = true then
          ((cnoiseFrom c d (k + 1) l).1.map
            ((BitVec.ofInt 32 (i.toInt + walkI c d k), BitVec.ofInt 32 (q.toInt + walkQ c d k)) :: ·),
            (cnoiseFrom c d (k + 1) l).2)
        else (none, afterDraws d (2 * k + 2))
      else (none, afterDraws d (2 * k + 1)) := by
  have hI : walk c _ (afterDraws d (2 * k)) = (walkI c d k, afterDraws d (2 * k + 1)) :=
    walk_walkBefore hc d (ans := fun k => answerAt d (2 * k)) rfl
  have hQ : walk c _ (afterDraws d (2 * k + 1)) = (walkQ c d k, afterDraws d (2 * k + 2)) :=
    walk_walkBefore hc d (ans := fun k => answerAt d (2 * k + 1)) rfl
  by_cases hi : inS32 (i.toInt + walkI c d k) = true
  · by_cases hq : inS32 (q.toInt + walkQ c d k) = true
    · simp only [cnoiseFrom, cnoiseRow, hI, hQ, toSample_of_inS32 hi, toSample_of_inS32 hq, if_pos hi, if_pos hq]
      rfl
    · simp only [cnoiseFrom, cnoiseRow, hI, hQ, toSample_of_inS32 hi, toSample_of_not_inS32 hq, if_pos hi, if_neg hq]
  · simp only [cnoiseFrom, cnoiseRow, hI, toSample_of_not_inS32 hi, if_neg hi]

theorem cnoiseFrom_done (k m : Nat)
    (hfits : ∀ x, k ≤ x → x < k + m → inS32 ((I x).toInt + walkI c d x) = true
      ∧ inS32 ((Q x).toInt + walkQ c d x) = true) :
    cnoiseFrom c d k ((List.range' k m).map fun x => (I x, Q x))
      = (some ((List.range' k m).map fun x =>
          (BitVec.ofInt 32 ((I x).toInt + walkI c d x), BitVec.ofInt 32 ((Q x).toInt + walkQ c d x))),
        afterDraws d (2 * (k + m))) := by
  induction m generalizing k with
  | zero => rfl
  | succ m ih =>
    obtain ⟨hi, hq⟩ := hfits k (by omega) (by omega)
    rw [List.range'_succ, List.map_cons, cnoiseFrom_cons hc, if_pos hi, if_pos hq,
      ih (k + 1) fun x hx hxm => hfits x (by omega) (by omega), Nat.add_right_comm, Nat.add_assoc,
      Option.map_some, List.map_cons]

theorem cnoiseFrom_misfit (k m x : Nat) (hk : k ≤ x) (hx : x < k + m)
    (hfits : ∀ u, k ≤ u → u < x → inS32 ((I u).toInt + walkI c d u) = true
      ∧ inS32 ((Q u).toInt + walkQ c d u) = true)
    (hmis : ¬ (inS32 ((I x).toInt + walkI c d x) = true ∧ inS32 ((Q x).toInt + walkQ c d x) = true)) :
    cnoiseFrom c d k ((List.range' k m).map fun x => (I x, Q x))
      = (none, afterDraws d (2 * x + if inS32 ((I x).toInt + walkI c d x) then 2 else 1)) := by
  induction m generalizing k with
  | zero => omega
  | succ m ih =>
    rw [List.range'_succ, List.map_cons, cnoiseFrom_cons hc]
    rcases Nat.eq_or_lt_of_le hk with rfl | hlt
    · by_cases hi : inS32 ((I k).toInt + walkI c d k) = true
      · rw [if_pos hi, if_pos hi, if_neg fun hq => hmis ⟨hi, hq⟩]
      · rw [if_neg hi, if_neg hi]
    · obtain ⟨hi, hq⟩ := hfits k le_rfl hlt
      rw [if_pos hi, if_pos hq, ih (k + 1) hlt (by omega) fun u hu hux => hfits u (by omega) hux, Option.map_none]

end

/-- Settles O30: the pass whose rows restart both walks, a row spending `2 W` draws. -/
theorem cnoiseAddsTwoWalks : Obligations.CnoiseAddsTwoWalks := by
  intro s P hs hne c nI nQ fitsI fitsQ
  have hc : 0 < c := toNat_pos_of_ne_zero hne
  have hnI (y : Nat) : nI y = walkI c (afterDraws s.draws (2 * (y / 2 * P.w))) := (walkI_afterDraws ..).symm
  have hnQ (y : Nat) : nQ y = walkQ c (afterDraws s.draws (2 * (y / 2 * P.w))) := (walkQ_afterDraws ..).symm
  have hst : cnoiseStage s.regs s.field P s.draws = fieldPass (fun _ d _ r =>
      rowOrOverflow (cnoiseFrom c d 0 (r.i.zip r.q)).2 ((cnoiseFrom c d 0 (r.i.zip r.q)).1.map
        fun iq => ⟨r.y, iq.map Prod.fst, iq.map Prod.snd⟩)) () s.field P
      (afterDraws s.draws (2 * (0 * P.w))) := by
    rw [Nat.zero_mul, Nat.mul_zero, afterDraws_zero]
    exact if_neg hne
  have hzip (y : Nat) : (P.row y).i.zip (P.row y).q
      = (List.range' 0 P.w).map fun x => (P.read planeI y x, P.read planeQ y x) := by
    rw [← List.range_eq_range']
    exact List.zip_map'
  have hrow (y : Nat) (hfits : ∀ x < P.w, fitsI y x = true ∧ fitsQ y x = true) :
      cnoiseFrom c (afterDraws s.draws (2 * (y / 2 * P.w))) 0 ((P.row y).i.zip (P.row y).q)
        = (some ((List.range P.w).map fun x => (BitVec.ofInt 32 ((P.read planeI y x).toInt + nI y x),
            BitVec.ofInt 32 ((P.read planeQ y x).toInt + nQ y x))),
          afterDraws s.draws (2 * ((y / 2 + 1) * P.w))) := by
    rw [hzip, cnoiseFrom_done hc _ _ _ 0 P.w fun x _ hx => by
        rw [← hnI, ← hnQ]
        exact hfits x (by omega),
      ← hnI, ← hnQ, afterDraws_add, ← List.range_eq_range', Nat.zero_add, ← Nat.mul_add, ← Nat.succ_mul]
  refine ⟨fun hfits => ?_, fun y x hmis => ?_⟩
  · refine passGives_of_rows hs rfl (fun _ => ()) (fun j => afterDraws s.draws (2 * (j * P.w))) hst
      fun y hy hpar => ?_
    rw [hrow y fun x hx => hfits y hy x hx hpar]
    simp [rowOrOverflow, rowOfSamples, row_eq_rowOfSamples]
  · refine exec_faults_of_firstMisfit hs rfl (fun _ => ()) (fun j => afterDraws s.draws (2 * (j * P.w))) hst
      (fun z => wide_rowOfSamples P.w (P.read planeY z)
        (fun x => BitVec.ofInt 32 ((P.read planeI z x).toInt + nI z x))
        (fun x => BitVec.ofInt 32 ((P.read planeQ z x).toInt + nQ z x))) (fun z hz => ?_) hmis ?_
    · rw [hrow z hz]
      simp [rowOrOverflow, rowOfSamples, row_eq_rowOfSamples]
    · obtain ⟨⟨hy, hpar⟩, hx, hnot, hfirst⟩ := hmis
      rw [hzip, cnoiseFrom_misfit hc _ _ _ 0 P.w x (Nat.zero_le x) (by omega) (fun u _ hu => by
          rw [← hnI, ← hnQ]
          exact hfirst y hy u (by omega) hpar (.inr ⟨rfl, hu⟩)) (by rwa [← hnI, ← hnQ]),
        ← hnI, afterDraws_add, ← Nat.add_assoc, ← Nat.mul_add]
      rfl

/-! ## CPHASE (R225) -/

/-- A row of the planes rotated by an angle, where its values convert (R225). -/
def rotatedRow (th : F64) (P : Planes) (y : Nat) : Row :=
  rowOfSamples P.w (P.read planeY y)
    (fun x => (rotateI (sinF th) (cosF th) (P.read planeI y x) (P.read planeQ y x)).getD 0#32)
    (fun x => (rotateQ (sinF th) (cosF th) (P.read planeI y x) (P.read planeQ y x)).getD 0#32)

/-- A row rotates where every `I` and `Q` of it converts, and overflows elsewhere. -/
theorem rotateRow_eq_some_iff {th : F64} {P : Planes} {y : Nat} {r : Row} :
    rotateRow th (P.row y) = some r
      ↔ (∀ x < P.w, (rotateI (sinF th) (cosF th) (P.read planeI y x) (P.read planeQ y x)).isSome = true
          ∧ (rotateQ (sinF th) (cosF th) (P.read planeI y x) (P.read planeQ y x)).isSome = true)
        ∧ r = rotatedRow th P y := by
  rw [row_eq_rowOfSamples]
  unfold rotateRow
  simp only [rotatedRow, rowOfSamples, List.zipWith_map, List.zipWith_self]
  constructor
  · intro h
    split at h
    · next i q hi hq =>
      obtain ⟨hiSome, rfl⟩ := (allSome_map_range_eq_some 0#32).mp hi
      obtain ⟨hqSome, rfl⟩ := (allSome_map_range_eq_some 0#32).mp hq
      exact ⟨fun x hx => ⟨hiSome x hx, hqSome x hx⟩, (Option.some.inj h).symm⟩
    · cases h
  · rintro ⟨hfits, rfl⟩
    rw [(allSome_map_range_eq_some 0#32).mpr ⟨fun x hx => (hfits x hx).1, rfl⟩,
      (allSome_map_range_eq_some 0#32).mpr ⟨fun x hx => (hfits x hx).2, rfl⟩]

section
variable {p : Int} (hp : 0 < p) (d : DrawSource) (k : Nat) {r r' : Row}
include hp

/-- Row `k` of the field is rotated by the angle of the walk after draw `k`. -/
theorem cphaseRow_done (h : rotateRow (phaseAngle (walkAt p (answerAt d) k)) r = some r') :
    cphaseRow p (walkBefore p (answerAt d) k) (afterDraws d k) r
      = .done (walkBefore p (answerAt d) (k + 1)) r' (afterDraws d (k + 1)) := by
  simp only [cphaseRow, walk_walkBefore hp d rfl, h, walkBefore_succ]

theorem cphaseRow_overflows (h : rotateRow (phaseAngle (walkAt p (answerAt d) k)) r = none) :
    cphaseRow p (walkBefore p (answerAt d) k) (afterDraws d k) r = .fault .planeOverflow (afterDraws d (k + 1)) := by
  simp only [cphaseRow, walk_walkBefore hp d rfl, h]

end

/-- Settles O31: the pass that carries the walk from row to row, a row spending one draw. -/
theorem cphaseRotatesChroma : Obligations.CphaseRotatesChroma := by
  intro s P hs hne th rotI rotQ
  have hp := toNat_pos_of_ne_zero hne
  have hst : cphaseStage s.regs s.field P s.draws =
      fieldPass (fun n d _ r => cphaseRow s.regs.chromaPhaseNoise.toNat n d r)
        (walkBefore s.regs.chromaPhaseNoise.toNat (answerAt s.draws) 0) s.field P (afterDraws s.draws 0) :=
    if_neg hne
  have hangle (y : Nat) : phaseAngle (walkAt s.regs.chromaPhaseNoise.toNat (answerAt s.draws) (y / 2)) = th y := by
    obtain ⟨-, -, h100⟩ := composite_decimals
    rw [phaseAngle, h100]
    rfl
  have hrow (y : Nat)
      (hfits : ∀ x < P.w, (f2s (rotI y x)).isSome = true ∧ (f2s (rotQ y x)).isSome = true) :
      rotateRow (phaseAngle (walkAt s.regs.chromaPhaseNoise.toNat (answerAt s.draws) (y / 2))) (P.row y)
        = some (rotatedRow (th y) P y) := by
    rw [hangle]
    exact rotateRow_eq_some_iff.mpr ⟨hfits, rfl⟩
  refine ⟨fun I Q hIQ => ?_, fun y x hmis => ?_⟩
  · refine passGives_of_rows hs rfl _ (afterDraws s.draws) hst fun y hy hpar => ?_
    have hvals (x : Nat) (hx : x < P.w) := hIQ y hy x hx hpar
    have hIQrow : rotatedRow (th y) P y = rowOfSamples P.w (P.read planeY y) (I y) (Q y) :=
      rowOfSamples_congr fun x hx => ⟨rfl, congrArg (Option.getD · 0#32) (hvals x hx).1,
        congrArg (Option.getD · 0#32) (hvals x hx).2⟩
    rw [← hIQrow]
    exact cphaseRow_done hp s.draws (y / 2) (hrow y fun x hx =>
      ⟨Option.isSome_iff_exists.mpr ⟨_, (hvals x hx).1⟩, Option.isSome_iff_exists.mpr ⟨_, (hvals x hx).2⟩⟩)
  · refine exec_faults_of_firstMisfit hs rfl _ (afterDraws s.draws) hst (rowOf := fun z => rotatedRow (th z) P z)
      (fun z => wide_rowOfSamples ..) (fun z hz => cphaseRow_done hp s.draws (z / 2) (hrow z hz)) hmis
      (cphaseRow_overflows hp s.draws (y / 2) ?_)
    rw [hangle]
    exact Option.eq_none_iff_forall_ne_some.mpr fun r hr =>
      hmis.misfit ((rotateRow_eq_some_iff.mp hr).1 x hmis.column)

/-! ## CDROP (R228) -/

/-- A row draws once and loses its chroma where the draw lies below the loss. -/
theorem cdropRow_row (loss : Nat) (d : DrawSource) (P : Planes) (y : Nat) :
    cdropRow loss d (P.row y) = .done () (rowOfSamples P.w (P.read planeY y)
      (fun x => if decide (answerAt d 0 % 100000 < loss) then 0#32 else P.read planeI y x)
      (fun x => if decide (answerAt d 0 % 100000 < loss) then 0#32 else P.read planeQ y x)) (afterDraws d 1) := by
  have hdraw : draw 0 99999 d = (((answerAt d 0 % 100000 : Nat) : Int), afterDraws d 1) := by
    rcases draw_cases 0 99999 d with ⟨h, -⟩ | ⟨-, h⟩
    · omega
    · rw [h]
      congr 1
      omega
  obtain ⟨-, hI, hQ⟩ := wide_row P y
  simp only [cdropRow, hdraw, Int.ofNat_lt, hI, hQ, replicate_eq_map_range]
  by_cases h : answerAt d 0 % 100000 < loss
  · simp only [h, if_true, decide_true]
    rfl
  · simp only [h, if_false, decide_false, Bool.false_eq_true]
    rfl

/-- Settles O32: the pass whose rows draw once each; no draw reaches 100000. -/
theorem cdropZeroesDroppedRows : Obligations.CdropZeroesDroppedRows := by
  intro s P hs hne dropped
  have hst : cdropStage s.regs s.field P s.draws =
      fieldPass (fun _ d _ r => cdropRow s.regs.chromaLoss.toNat d r) () s.field P (afterDraws s.draws 0) :=
    if_neg hne
  refine ⟨passGives_of_rows hs rfl (fun _ => ()) (afterDraws s.draws) hst fun y hy hpar => ?_, fun hall y => ?_⟩
  · rw [cdropRow_row, answerAt_afterDraws, afterDraws_add]
    rfl
  · refine decide_eq_true ?_
    rw [hall, BitVec.toNat_ofNat]
    omega

end Sys2Proof.Machine
end

section
/-!
PROOFS. The chroma lowpasses (43_composite_chroma.md R200, R201; 45_vhs_stage.md R274): what `LP3D` gives column by
column, and that it never overflows.
-/
namespace Sys2Proof.Machine

/-! ## Three lowpass cells along a row (R200) -/

/-- The cells of a cascade of three before column `x`. -/
def lpCells3At (alpha : F64) (input : Nat → F64) (x : Nat) : List Cell :=
  [lpCellAt alpha input x, lpCellAt alpha (lpSeq alpha input) x, lpCellAt alpha (lpSeq alpha (lpSeq alpha input)) x]

theorem lpCascade_three (c₁ c₂ c₃ : Cell) (x : F64) :
    lpCascade [c₁, c₂, c₃] x =
      ([(lpStep c₁ x).1, (lpStep c₂ (lpStep c₁ x).2).1, (lpStep c₃ (lpStep c₂ (lpStep c₁ x).2).2).1],
        (lpStep c₃ (lpStep c₂ (lpStep c₁ x).2).2).2) := rfl

theorem lpCascade_lpCells3At (alpha : F64) (input : Nat → F64) (x : Nat) :
    lpCascade (lpCells3At alpha input x) (input x) = (lpCells3At alpha input (x + 1), lpSeq3 alpha input x) := by
  rw [lpCells3At, lpCascade_three]
  simp only [lpStep_lpCellAt]
  rfl

theorem filterRow_threeCells (fc : F64) (S : Nat → Sample) (w : Nat) :
    filterRow lpCascade (threeCells fc) ((List.range w).map S)
      = (List.range w).map (lpSeq3 (alphaOf fsc4 fc) fun x => i2f (S x).toInt) :=
  filterRow_map_range (cells := lpCells3At (alphaOf fsc4 fc) fun x => i2f (S x).toInt)
    (lpCascade_lpCells3At (alphaOf fsc4 fc) fun x => i2f (S x).toInt) w

/-! ## `LP3D` (R200) -/

/-- A row whose last `d` columns are kept and whose others come from `d` columns further on. -/
theorem shifted_append_kept {w d : Nat} {S out shifted : Nat → Sample}
    (hshift : ∀ x, x + d < w → out x = shifted x) (hkeep : ∀ x < w, ¬ x + d < w → out x = S x) :
    (List.range (w - d)).map shifted ++ ((List.range w).map S).drop (w - d) = (List.range w).map out := by
  refine List.ext_getElem (by simp) fun x h₁ h₂ => ?_
  have hx : x < w := by simpa using h₂
  by_cases hlt : x < w - d
  · rw [List.getElem_append_left (by simpa using hlt)]
    simp [hshift x (by omega)]
  · rw [List.getElem_append_right (by simpa using hlt)]
    have hback : w - d + (x - (w - d)) = x := by omega
    simp [hkeep x hx (by omega), hback]

theorem lp3d_map_range {fc : F64} {d w : Nat} {S out : Nat → Sample}
    (hshift : ∀ x, x + d < w →
      f2s (lpSeq3 (alphaOf fsc4 fc) (fun x => i2f (S x).toInt) (x + d)) = some (out x))
    (hkeep : ∀ x < w, ¬ x + d < w → out x = S x) :
    lp3d fc d ((List.range w).map S) = some ((List.range w).map out) := by
  have hdrop : ((List.range w).map (lpSeq3 (alphaOf fsc4 fc) fun x => i2f (S x).toInt)).drop d
      = (List.range (w - d)).map (fun x => lpSeq3 (alphaOf fsc4 fc) (fun x => i2f (S x).toInt) (x + d)) := by
    refine List.ext_getElem (by simp) fun x _ _ => ?_
    simp [Nat.add_comm d x]
  have hconv : allSome (((List.range (w - d)).map
      (fun x => lpSeq3 (alphaOf fsc4 fc) (fun x => i2f (S x).toInt) (x + d))).map f2s)
      = some ((List.range (w - d)).map out) := by
    rw [allSome_eq_some, List.map_map, List.map_map]
    refine List.map_congr_left fun x hx => ?_
    have hx : x < w - d := List.mem_range.mp hx
    exact hshift x (by omega)
  rw [lp3d, filterRow_threeCells, hdrop, hconv, Option.map_some, List.length_map, List.length_range,
    shifted_append_kept (fun _ _ => rfl) hkeep]

/-- A plane that is lowpassed on the rows of the field is `LP3D` of its rows. -/
theorem lp3d_readRow {P : Planes} {field : BitVec 64} {p d y : Nat} {fc : F64} {out : Nat → Nat → Sample}
    (h : lowpassedPlane P field p (alphaOf fsc4 fc) d out) (hy : y < P.h) (hpar : y % 2 = parity field) :
    lp3d fc d (P.readRow p y) = some ((List.range P.w).map (out y)) := by
  refine lp3d_map_range (fun x hx => ?_) (fun x hx hkeep => ?_)
  · have hout := h y hy x (by omega) hpar
    rwa [if_pos hx] at hout
  · have hout := h y hy x hx hpar
    rwa [if_neg hkeep] at hout

/-! ## A stage that lowpasses the two chroma planes (R201, R274) -/

theorem passGives_of_chromaLowpass {i : Instr} {st : Stage} {s : State} {P : Planes} {fcI fcQ : F64} {dI dQ : Nat}
    {I Q : Nat → Nat → Sample} (hs : s.runsOn P) (hexec : exec i s = .next (stageCommand st id s))
    (hst : st s.regs s.field P s.draws = fieldPass
      (fun _ d _ r => rowOrOverflow d (chromaLowpassRow fcI dI fcQ dQ r)) () s.field P s.draws)
    (hI : lowpassedPlane P s.field planeI (alphaOf fsc4 fcI) dI I)
    (hQ : lowpassedPlane P s.field planeQ (alphaOf fsc4 fcQ) dQ Q) :
    passGives i s P (P.read planeY) I Q s.draws :=
  passGives_of_rowOrOverflow (g := fun _ r => chromaLowpassRow fcI dI fcQ dQ r) hs hexec hst fun y hy hpar => by
    simp only [chromaLowpassRow, Planes.row, lp3d_readRow hI hy hpar, lp3d_readRow hQ hy hpar]
    rfl

/-- The coefficients of the two modes of `CLPF`, then those of the three tape speeds (41_iir_filter.md R173,
45_vhs_stage.md R270, R271). -/
theorem chroma_coefficients :
    (alphaOf fsc4 hz1300000 = 0x3FD73F79F9C6BE70#64 ∧ alphaOf fsc4 hz600000 = 0x3FCAAD7D6E7E9479#64
      ∧ alphaOf fsc4 hz2600000 = 0x3FE10DA7BF77EEE6#64)
    ∧ alphaOf fsc4 0x4113880000000000#64 = 0x3FBF85AA1B360BBB#64
      ∧ alphaOf fsc4 0x41124F8000000000#64 = 0x3FBDC7FBBC3B637F#64
      ∧ alphaOf fsc4 0x4111170000000000#64 = 0x3FBC0355CF6BCC54#64 := by decide +kernel

/-- Settles O22: both modes are chroma lowpasses with their cutoffs and delays. -/
theorem clpfLowpassesChroma : Obligations.ClpfLowpassesChroma := by
  intro s P I Q hs
  obtain ⟨⟨hfull, hnarrow, hlite⟩, -⟩ := chroma_coefficients
  rw [← hfull, ← hnarrow, ← hlite]
  exact ⟨passGives_of_chromaLowpass hs rfl rfl, passGives_of_chromaLowpass hs rfl rfl⟩

/-! ## How far a lowpass can go above its input (41_iir_filter.md R163, R174) -/

section
variable {P A X T₁ T₂ T₃ R U g M : Int}

/-- The four roundings of a lowpass move it by no more than four last places. -/
theorem abs_lowpass_error_le (hU : 0 < U) (h₁ : 2 * |P * A - T₁ * U| ≤ g * U) (h₂ : 2 * |P - T₁ - T₂| ≤ g)
    (h₃ : 2 * |X * A - T₃ * U| ≤ g * U) (h₄ : 2 * |T₂ + T₃ - R| ≤ 4 * g) :
    |R * U - (P * (U - A) + X * A)| ≤ 4 * (g * U) := by
  have hsplit : R * U - (P * (U - A) + X * A)
      = (P * A - T₁ * U) - (P - T₁ - T₂) * U - (X * A - T₃ * U) - (T₂ + T₃ - R) * U := by ring
  have hscaled {t c : Int} (h : 2 * |t| ≤ c) : 2 * |t * U| ≤ c * U := by
    rw [abs_mul, abs_of_pos hU, ← mul_assoc]
    exact mul_le_mul_of_nonneg_right h hU.le
  have h₂' := hscaled h₂
  have h₄' := hscaled h₄
  have hgU : 0 ≤ g * U := le_trans (by positivity) h₁
  rw [hsplit]
  have htriangle := abs_sub (P * A - T₁ * U - (P - T₁ - T₂) * U - (X * A - T₃ * U)) ((T₂ + T₃ - R) * U)
  have htriangle' := abs_sub (P * A - T₁ * U - (P - T₁ - T₂) * U) (X * A - T₃ * U)
  have htriangle'' := abs_sub (P * A - T₁ * U) ((P - T₁ - T₂) * U)
  linarith

/-- A coefficient above 16 last places of the content pulls it to its input faster than roundings push it away. -/
theorem lowpass_le_of_error (hU : 0 < U) (hA : 0 ≤ A) (hAU : A ≤ U) (hg : 16 * g ≤ A)
    (hP : 4 * P ≤ (M + 1) * U) (hX : 4 * X ≤ M * U) (herr : |R * U - (P * (U - A) + X * A)| ≤ 4 * (g * U)) :
    4 * R ≤ (M + 1) * U := by
  have hkept : 4 * P * (U - A) ≤ (M + 1) * U * (U - A) := mul_le_mul_of_nonneg_right hP (by linarith)
  have hnew : 4 * X * A ≤ M * U * A := mul_le_mul_of_nonneg_right hX hA
  have hgU : 16 * g * U ≤ A * U := mul_le_mul_of_nonneg_right hg hU.le
  have hle := (abs_le.mp herr).2
  refine le_of_mul_le_mul_right ?_ hU
  linarith

end

/-- What a lowpass adds up stays within three times its bound. -/
theorem abs_add_le_of_bounds {P T₁ T₂ T₃ g B : Int} (hP : |P| ≤ B) (h₁ : |T₁| ≤ B) (h₃ : |T₃| ≤ B)
    (h₂ : 2 * |P - T₁ - T₂| ≤ g) : 2 * |T₂ + T₃| ≤ 6 * B + g := by
  have hsplit : T₂ + T₃ = P - T₁ - (P - T₁ - T₂) + T₃ := by ring
  have htriangle := abs_add_le (P - T₁ - (P - T₁ - T₂)) T₃
  have htriangle' := abs_sub (P - T₁) (P - T₁ - T₂)
  have htriangle'' := abs_sub P T₁
  rw [← hsplit] at htriangle
  linarith

theorem AtMost.abs_toUnits_le {B : Nat} {v : F64} (h : AtMost B v) : |toUnits v| ≤ B := by
  rw [Int.abs_eq_natAbs]
  exact_mod_cast h.le

theorem AtMost.mono {B C : Nat} {v : F64} (h : AtMost B v) (hBC : B ≤ C) : AtMost C v := ⟨h.finite, h.le.trans hBC⟩

/-- A coefficient in `[0, 1]` that is at least 1/1024. -/
structure Pulls (alpha : F64) : Prop where
  inUnit : InUnit alpha
  ge : unitsPerOne ≤ 1024 * magUnits alpha

/-- A value at most 2 ^ 31 in size and at most `m` quarters. -/
structure Below (m : Nat) (v : F64) : Prop where
  absLe : AbsLe 31 v
  le : 4 * toUnits v ≤ m * unitsPerOne

section
variable {alpha prev x v : F64} {j m : Nat}

/-- The product of a bounded value and a coefficient is off by half a last place. -/
theorem fmul_error_le (hulp : 2 ^ 31 * unitsPerOne = 2 ^ 53 * 2 ^ j) (ha : InUnit alpha) (hx : AbsLe 31 x) :
    2 * |toUnits x * toUnits alpha - toUnits (fmul x alpha) * unitsPerOne| ≤ 2 ^ j * unitsPerOne := by
  obtain ⟨hfa, ha0, ha1⟩ := ha
  have hle : |toUnits x| ≤ 2 ^ 53 * 2 ^ j := by
    rw [Int.abs_eq_natAbs]
    exact_mod_cast hulp ▸ hx.le
  have hprod : |toUnits x * toUnits alpha| ≤ 2 ^ 53 * 2 ^ j * unitsPerOne := by
    rw [abs_mul, abs_of_nonneg ha0]
    exact mul_le_mul hle ha1 ha0 (le_trans (abs_nonneg _) hle)
  have hlim : 2 ^ 53 * 2 ^ j < overflowLimit := hulp ▸ two_pow_mul_unit_lt (k := 31) (by decide)
  have hround := rounded_fmul hx.finite hfa (by
    refine lt_of_le_of_lt ?_ (Nat.mul_lt_mul_of_pos_right hlim unitsPerOne_pos)
    zify
    exact hprod)
  refine hround.error_le unitsPerOne_pos ?_
  have hpos : (0 : Int) ≤ 2 ^ j * unitsPerOne := mul_nonneg (by positivity) (Int.natCast_nonneg _)
  linarith

/-- A lowpass of bounded values differs from its exact mean by at most four last places. -/
theorem lpValue_error_le (hulp : 2 ^ 31 * unitsPerOne = 2 ^ 53 * 2 ^ j) (hlim : (2 ^ 53 + 1) * 2 ^ j < overflowLimit)
    (ha : InUnit alpha) (hp : AbsLe 31 prev) (hx : AbsLe 31 x) :
    |toUnits (lpValue alpha prev x) * unitsPerOne
        - (toUnits prev * (unitsPerOne - toUnits alpha) + toUnits x * toUnits alpha)|
      ≤ 4 * (2 ^ j * unitsPerOne) := by
  have hprev : AtMost (2 ^ 53 * 2 ^ j) prev := hulp ▸ hp
  obtain ⟨hfin, -, herr⟩ := fsub_fmul_kept hlim ha hprev
  have hnew := fmul_absLe_scaled (by decide) ha hx
  have hold := fmul_absLe_scaled (by decide) ha hp
  have hadd : Rounded _ 1 (lpValue alpha prev x) := rounded_fadd hfin hnew.finite
    ((isFinite_fadd_iff hfin hnew.finite).mp (absLe_lpValue (by decide) ha hp hx).finite)
  have hU : (0 : Int) < unitsPerOne := by exact_mod_cast unitsPerOne_pos
  have hmag : magUnits alpha ≤ unitsPerOne := by
    have hle := ha.le_one
    have hnonneg := ha.nonneg
    have hnat := natAbs_toUnits alpha
    omega
  have hscaled : 2 ^ 31 * magUnits alpha ≤ 2 ^ 53 * 2 ^ j := hulp ▸ Nat.mul_le_mul_left _ hmag
  have hparts := abs_add_le_of_bounds hprev.abs_toUnits_le (hold.mono hscaled).abs_toUnits_le
    (hnew.mono hscaled).abs_toUnits_le herr
  have hsum := hadd.error_le (j := j + 2) Nat.one_pos (by
    have hpos : (0 : Int) < 2 ^ j := by positivity
    rw [pow_add]
    push_cast at hparts ⊢
    linarith)
  rw [Nat.cast_one, mul_one, mul_one, pow_add] at hsum
  exact abs_lowpass_error_le hU (fmul_error_le hulp ha hp) herr (fmul_error_le hulp ha hx) (by linarith)

/-- A lowpass goes at most a quarter above its input, once its content does not go further. -/
theorem Below.lpValue (ha : Pulls alpha) (hp : Below (m + 1) prev) (hx : Below m x) :
    Below (m + 1) (lpValue alpha prev x) := by
  refine ⟨absLe_lpValue (by decide) ha.inUnit hp.absLe hx.absLe, ?_⟩
  obtain ⟨e, he⟩ := exists_ulp_of_one
  obtain ⟨hunit, -⟩ := he 0
  obtain ⟨hulp, hlim⟩ := he 31
  have herr := lpValue_error_le hulp (hlim (by decide)) ha.inUnit hp.absLe hx.absLe
  have hU : (0 : Int) < unitsPerOne := by exact_mod_cast unitsPerOne_pos
  have hg : (16 : Int) * 2 ^ (e + 31) ≤ toUnits alpha := by
    have hge := ha.ge
    have hnat := natAbs_toUnits alpha
    have hnonneg := ha.inUnit.nonneg
    have hcast : (2 : Int) ^ (e + 31) = ((2 ^ (e + 31) : Nat) : Int) := by push_cast; rfl
    rw [hcast]
    generalize 2 ^ (e + 31) = g at *
    generalize unitsPerOne = U at *
    omega
  have h := lowpass_le_of_error hU ha.inUnit.nonneg ha.inUnit.le_one hg (M := m) (by exact_mod_cast hp.le) hx.le herr
  exact_mod_cast h

theorem below_zero (m : Nat) : Below m 0#64 := by
  have hzero : isFinite 0#64 = true ∧ toUnits 0#64 = 0 := by decide
  obtain ⟨hfin, hunits⟩ := hzero
  refine ⟨⟨hfin, ?_⟩, ?_⟩
  · rw [hunits]
    exact Nat.zero_le _
  · rw [hunits]
    exact mul_nonneg (Int.natCast_nonneg _) (Int.natCast_nonneg _)

/-- Along a row a lowpass goes at most a quarter above its input. -/
theorem Below.lpSeq (ha : Pulls alpha) {input : Nat → F64} (h : ∀ x, Below m (input x)) (x : Nat) :
    Below (m + 1) (lpSeq alpha input x) := by
  induction x with
  | zero => exact (below_zero _).lpValue ha (h 0)
  | succ x ih => exact ih.lpValue ha (h (x + 1))

theorem below_i2f_sample (v : Sample) : Below (4 * 2147483647) (i2f v.toInt) := by
  have hlo := BitVec.le_toInt v
  have hhi := BitVec.toInt_lt (x := v)
  refine ⟨absLe_i2f (by decide) (by omega), ?_⟩
  rw [(i2f_exact (n := v.toInt) (by omega)).2, ← mul_assoc]
  exact mul_le_mul_of_nonneg_right (by push_cast; omega) (Int.natCast_nonneg _)

/-- Below 2 ^ 31 a value fits a sample. -/
theorem Below.isSome_f2s (h : Below m v) (hm : m < 4 * 2147483648) : (f2s v).isSome = true := by
  obtain ⟨⟨hfin, habs⟩, hle⟩ := h
  have hU : (0 : Int) < unitsPerOne := by exact_mod_cast unitsPerOne_pos
  have hlo : -2147483648 * (unitsPerOne : Int) ≤ toUnits v := by omega
  have hhi : toUnits v < 2147483648 * (unitsPerOne : Int) := by
    have hlt : (m : Int) * unitsPerOne < 4 * 2147483648 * unitsPerOne :=
      mul_lt_mul_of_pos_right (by exact_mod_cast hm) hU
    linarith
  have hrange : -2147483648 ≤ truncInt v ∧ truncInt v ≤ 2147483647 := by
    rcases Int.le_total 0 (toUnits v) with hsign | hsign
    · obtain ⟨hfloor, hceil⟩ := truncInt_of_nonneg hsign
      have h₁ : truncInt v < 2147483648 := lt_of_mul_lt_mul_right (hfloor.trans_lt hhi) hU.le
      have h₂ : 0 < truncInt v + 1 := by
        by_contra hnot
        have := mul_nonpos_of_nonpos_of_nonneg (not_lt.mp hnot) hU.le
        linarith
      omega
    · obtain ⟨hceil, hfloor⟩ := truncInt_of_nonpos hsign
      have h₁ : -2147483648 ≤ truncInt v := le_of_mul_le_mul_right (hlo.trans hceil) hU
      have h₂ : truncInt v - 1 < 0 := by
        by_contra hnot
        have := mul_nonneg (not_lt.mp hnot) hU.le
        linarith
      omega
  rw [f2s, f2i_of_mem hfin hrange]
  rfl

end

/-! ## The chroma lowpasses complete (R201, R274) -/

/-- Three lowpasses of a row of samples fit again: each goes up by at most a quarter (R174). -/
theorem isSome_f2s_lpSeq3 {alpha : F64} (ha : Pulls alpha) (P : Planes) (p y x : Nat) :
    (f2s (lpSeq3 alpha (rowInput P p y) x)).isSome = true :=
  (Below.lpSeq ha (Below.lpSeq ha (Below.lpSeq ha fun x => below_i2f_sample (P.read p y x))) x).isSome_f2s (by decide)

/-- A plane lowpassed three times and shifted (R200). -/
def lowpassedSamples (P : Planes) (p : Nat) (alpha : F64) (d y x : Nat) : Sample :=
  if x + d < P.w then (f2s (lpSeq3 alpha (rowInput P p y) (x + d))).getD 0#32 else P.read p y x

theorem lowpassedPlane_lowpassedSamples {alpha : F64} (ha : Pulls alpha) (P : Planes) (field : BitVec 64) (p d : Nat) :
    lowpassedPlane P field p alpha d (lowpassedSamples P p alpha d) := by
  intro y _ x _ _
  rw [lowpassedSamples]
  split
  · obtain ⟨v, hv⟩ := Option.isSome_iff_exists.mp (isSome_f2s_lpSeq3 ha P p y (x + d))
    rw [hv, Option.getD_some]
  · rfl

/-- 2 ^ -10 in units. -/
theorem magUnits_inv1024 : 1024 * magUnits 0x3F50000000000000#64 = unitsPerOne := by decide +kernel

/-- A pattern between 2 ^ -10 and 1 pulls. -/
theorem pulls_of_fle {alpha : F64} (hlo : fle 0x3F50000000000000#64 alpha = true) (hhi : fle alpha f64One = true) :
    Pulls alpha := by
  have hfin : isFinite 0x3F50000000000000#64 = true := by decide
  have hneg : isNeg 0x3F50000000000000#64 = false := by decide
  have hfa := isFinite_of_fle hfin isFinite_f64One hlo hhi
  rw [fle_iff hfin hfa, toUnits_of_isNeg_false hneg] at hlo
  rw [fle_iff hfa isFinite_f64One, toUnits_f64One] at hhi
  have hinv := magUnits_inv1024
  have hnat := natAbs_toUnits alpha
  exact ⟨⟨hfa, by omega, hhi⟩, by omega⟩

/-- The coefficients of the two modes of `CLPF` (41_iir_filter.md R173). -/
theorem pulls_clpf :
    Pulls (alphaOf fsc4 hz1300000) ∧ Pulls (alphaOf fsc4 hz600000) ∧ Pulls (alphaOf fsc4 hz2600000) := by
  obtain ⟨⟨hfull, hnarrow, hlite⟩, -⟩ := chroma_coefficients
  rw [hfull, hnarrow, hlite]
  exact ⟨pulls_of_fle (by decide) (by decide), pulls_of_fle (by decide) (by decide),
    pulls_of_fle (by decide) (by decide)⟩

/-- The chroma coefficient of every tape speed (45_vhs_stage.md R270, R271). -/
theorem pulls_chromaCut (g : Regs) : Pulls (alphaOf fsc4 (tapeSpeed g).chromaCut) := by
  obtain ⟨-, hsp, hlp, hep⟩ := chroma_coefficients
  unfold tapeSpeed
  split
  · exact hsp ▸ pulls_of_fle (by decide) (by decide)
  · exact hlp ▸ pulls_of_fle (by decide) (by decide)
  · exact hep ▸ pulls_of_fle (by decide) (by decide)

/-- A chroma lowpass whose coefficients pull completes on all planes. -/
theorem chromaLowpass_completes {i : Instr} {st : Stage} {s : State} {P : Planes} {fcI fcQ : F64} {dI dQ : Nat}
    (hs : s.runsOn P) (hexec : exec i s = .next (stageCommand st id s))
    (hst : st s.regs s.field P s.draws = fieldPass
      (fun _ d _ r => rowOrOverflow d (chromaLowpassRow fcI dI fcQ dQ r)) () s.field P s.draws)
    (hI : Pulls (alphaOf fsc4 fcI)) (hQ : Pulls (alphaOf fsc4 fcQ)) :
    ∃ P', exec i s = .next (s.afterPass P' s.draws) ∧ P'.w = P.w ∧ P'.h = P.h := by
  obtain ⟨P', hdone, hres⟩ := passGives_of_chromaLowpass hs hexec hst
    (lowpassedPlane_lowpassedSamples hI P s.field planeI dI) (lowpassedPlane_lowpassedSamples hQ P s.field planeQ dQ)
  exact ⟨P', hdone, hres.width, hres.height⟩

/-- Settles O23: the lowpasses stay below 2 ^ 31, because their coefficients outweigh the roundings. -/
theorem chromaLowpassNeverOverflows : Obligations.ChromaLowpassNeverOverflows := by
  intro s P hs
  obtain ⟨hfull, hnarrow, hlite⟩ := pulls_clpf
  refine ⟨fun m => ?_, chromaLowpass_completes hs rfl rfl (pulls_chromaCut s.regs) (pulls_chromaCut s.regs)⟩
  cases m
  · exact chromaLowpass_completes hs rfl rfl hfull hnarrow
  · exact chromaLowpass_completes hs rfl rfl hlite hlite

end Sys2Proof.Machine
end

section
/-!
PROOFS. MOD then DEMOD on a row of constant luma and chroma (43_composite_chroma.md R221): the modulated row holds the
luma plus one of four quarters of the carrier, which the box blur removes and the demultiplexer reads back.
-/
namespace Sys2Proof.Machine

/-! ## Bounds (R205, R217 to R220) -/

theorem carrierAt_mem_range {amp i q : Int} (k : Nat) (hamp : 0 ≤ amp ∧ amp ≤ 100)
    (hi : -1048576 ≤ i ∧ i ≤ 1048576) (hq : -1048576 ≤ q ∧ q ≤ 1048576) :
    -2097152 ≤ carrierAt amp k i q ∧ carrierAt amp k i q ≤ 2097152 := by
  have hscaled {n : Int} (h : -104857600 ≤ n ∧ n ≤ 104857600) : -2097152 ≤ tdiv n 50 ∧ tdiv n 50 ≤ 2097152 :=
    tdiv_mem_Icc (by decide) (by decide) (by decide) (by omega) (by omega)
  have hprod {v : Int} (h : -1048576 ≤ v ∧ v ≤ 1048576) : -104857600 ≤ v * amp ∧ v * amp ≤ 104857600 := by
    constructor <;> nlinarith
  have hia := hprod hi
  have hqa := hprod hq
  unfold carrierAt
  split
  · exact hscaled hia
  · split
    · exact hscaled hqa
    · split
      · exact hscaled (by omega)
      · exact hscaled (by omega)

section
variable {P : Planes} {ab : Int} {xi y : Nat}
  (hab : 1 ≤ ab) (hY : ∀ x, -3145728 ≤ sampleAt P planeY y x ∧ sampleAt P planeY y x ≤ 3145728)
include hY

theorem blurAt_mem_range (x : Int) : -3145728 ≤ blurAt P y x ∧ blurAt P y x ≤ 3145728 := by
  obtain ⟨h1, h1'⟩ := hY (x - 1)
  obtain ⟨h2, h2'⟩ := hY x
  obtain ⟨h3, h3'⟩ := hY (x + 1)
  obtain ⟨h4, h4'⟩ := hY (x + 2)
  exact tdiv_mem_Icc (by decide) (by decide) (by decide) (by omega) (by omega)

include hab

theorem chromaAt_mem_range (x : Nat) : -314572800 ≤ chromaAt ab P xi y x ∧ chromaAt ab P xi y x ≤ 314572800 := by
  obtain ⟨hs, hs'⟩ := hY ((x : Int) + 2)
  obtain ⟨hb, hb'⟩ := blurAt_mem_range hY x
  have hflip {c : Int} (hc : -6291456 ≤ c ∧ c ≤ 6291456) : -314572800 ≤ (if (xi + x) % 4 < 2 then c else -c) * 50
      ∧ (if (xi + x) % 4 < 2 then c else -c) * 50 ≤ 314572800 := by
    split <;> omega
  obtain ⟨hlo, hhi⟩ := hflip (c := sampleAt P planeY y ((x : Int) + 2) - blurAt P y x) (by omega)
  exact tdiv_mem_Icc (by omega) (by decide) (by decide) (by linarith) (by linarith)

theorem demuxAt_mem_range (odd x : Nat) :
    -314572800 ≤ demuxAt ab P xi odd y x ∧ demuxAt ab P xi odd y x ≤ 314572800 := by
  have h := chromaAt_mem_range (xi := xi) hab hY (x + xi + odd)
  unfold demuxAt
  split
  · omega
  · omega

theorem demodValue_mem_range (odd x : Nat) :
    -314572800 ≤ demodValue ab P xi odd y x ∧ demodValue ab P xi odd y x ≤ 314572800 := by
  have h (z : Nat) := demuxAt_mem_range (xi := xi) hab hY odd z
  unfold demodValue
  split
  · omega
  · split
    · exact h x
    · split
      · have h₁ := h (x - 1)
        have h₂ := h (x + 1)
        exact tdiv_mem_Icc (by decide) (by decide) (by decide) (by omega) (by omega)
      · omega

/-- Samples of moderate size demodulate without overflow. -/
theorem demodFits_of_mem_range (x : Nat) : demodFits ab P xi y x := by
  have hfit {v : Int} (h : -314572800 ≤ v ∧ v ≤ 314572800) : inS32 v = true := decide_eq_true (by omega)
  exact ⟨fun _ => hfit (chromaAt_mem_range hab hY x), hfit (demodValue_mem_range hab hY 0 x),
    hfit (demodValue_mem_range hab hY 1 x)⟩

end

/-! ## The four quarters of a constant carrier (R204, R205) -/

/-- The carrier of `a` and `b` at phase `k`: `+a, +b, -a, -b`. -/
def quarter (a b : Int) (k : Nat) : Int :=
  if k % 4 = 0 then a else if k % 4 = 1 then b else if k % 4 = 2 then -a else -b

theorem quarter_add_two (a b : Int) (k : Nat) : quarter a b (k + 2) = -quarter a b k := by
  have hk : k % 4 = 0 ∨ k % 4 = 1 ∨ k % 4 = 2 ∨ k % 4 = 3 := by omega
  rcases hk with h | h | h | h <;> simp [quarter, Nat.add_mod, h]

/-- Four quarters in a row cancel, so that a box blur over them leaves the luma. -/
theorem quarter_sum (a b : Int) (k : Nat) :
    quarter a b k + quarter a b (k + 1) + quarter a b (k + 2) + quarter a b (k + 3) = 0 := by
  rw [quarter_add_two, quarter_add_two a b (k + 1)]
  omega

/-- With its sign corrected a quarter is `a` at even phases and `b` at odd ones (R218). -/
theorem quarter_corrected (a b : Int) (k : Nat) :
    (if k % 4 < 2 then -quarter a b k else quarter a b k) = if k % 2 = 0 then -a else -b := by
  have hk : (k % 4 = 0 ∧ k % 2 = 0) ∨ (k % 4 = 1 ∧ k % 2 = 1) ∨ (k % 4 = 2 ∧ k % 2 = 0) ∨ (k % 4 = 3 ∧ k % 2 = 1) := by
    omega
  rcases hk with ⟨h, h'⟩ | ⟨h, h'⟩ | ⟨h, h'⟩ | ⟨h, h'⟩ <;> simp [quarter, h, h']

theorem tdiv_mul_cancel {a c : Int} (hc : c ≠ 0) : tdiv (a * c) c = a := Int.mul_tdiv_cancel a hc

theorem carrierAt_eq_quarter {amp i q a b : Int} (hi : i * amp = a * 50) (hq : q * amp = b * 50) (k : Nat) :
    carrierAt amp k i q = quarter a b k := by
  simp only [carrierAt, quarter, hi, hq, ← Int.neg_mul, tdiv_mul_cancel (show (50 : Int) ≠ 0 by decide)]

/-! ## DEMOD of a modulated constant row (R217 to R220) -/

section
variable {P : Planes} {y xi : Nat} {amp y0 i0 q0 a b : Int}
  (hrow : ∀ x < P.w, sampleAt P planeY y (x : Nat) = y0 + quarter a b (xi + x))
include hrow

theorem blurAt_modulated {x : Nat} (hx : 1 ≤ x) (hxw : x + 3 ≤ P.w) : blurAt P y x = y0 := by
  have h₀ : sampleAt P planeY y ((x : Int) - 1) = y0 + quarter a b (xi + x - 1) := by
    have h := hrow (x - 1) (by omega)
    rw [Nat.cast_sub hx, Nat.cast_one] at h
    rw [h, Nat.add_sub_assoc hx]
  have h₁ : sampleAt P planeY y (x : Int) = y0 + quarter a b (xi + x - 1 + 1) := by
    rw [hrow x (by omega), show xi + x - 1 + 1 = xi + x by omega]
  have h₂ : sampleAt P planeY y ((x : Int) + 1) = y0 + quarter a b (xi + x - 1 + 2) := by
    have h := hrow (x + 1) (by omega)
    rw [Nat.cast_add, Nat.cast_one] at h
    rw [h, show xi + x - 1 + 2 = xi + (x + 1) by omega]
  have h₃ : sampleAt P planeY y ((x : Int) + 2) = y0 + quarter a b (xi + x - 1 + 3) := by
    have h := hrow (x + 2) (by omega)
    rw [Nat.cast_add, Nat.cast_two] at h
    rw [h, show xi + x - 1 + 3 = xi + (x + 2) by omega]
  have hsum : sampleAt P planeY y ((x : Int) - 1) + sampleAt P planeY y x + sampleAt P planeY y ((x : Int) + 1)
      + sampleAt P planeY y ((x : Int) + 2) = y0 * 4 := by
    have hzero := quarter_sum a b (xi + x - 1)
    rw [h₀, h₁, h₂, h₃]
    omega
  rw [blurAt, hsum, tdiv_mul_cancel (by decide)]

variable (hamp : amp ≠ 0) (hi : i0 * amp = a * 50) (hq : q0 * amp = b * 50)
include hamp hi hq

theorem chromaAt_modulated {x : Nat} (hx : 1 ≤ x) (hxw : x + 3 ≤ P.w) :
    chromaAt amp P xi y x = if (xi + x) % 2 = 0 then -i0 else -q0 := by
  have hres : sampleAt P planeY y ((x : Int) + 2) - blurAt P y x = -quarter a b (xi + x) := by
    have h := hrow (x + 2) (by omega)
    rw [Nat.cast_add, Nat.cast_two, ← Nat.add_assoc, quarter_add_two] at h
    rw [h, blurAt_modulated hrow hx hxw]
    omega
  have hscale : (if (xi + x) % 2 = 0 then -a else -b) * 50 = (if (xi + x) % 2 = 0 then -i0 else -q0) * amp := by
    split
    · rw [Int.neg_mul, Int.neg_mul, hi]
    · rw [Int.neg_mul, Int.neg_mul, hq]
  simp only [chromaAt, hres, Int.neg_neg]
  rw [quarter_corrected, hscale, tdiv_mul_cancel hamp]

/-- Even columns read `I` at even phases, which `odd = 0` selects, and `Q` at odd ones (R220). -/
theorem demuxAt_modulated {odd x : Nat} (hodd : odd < 2) (heven : x % 2 = 0) (hx : 1 ≤ x + xi)
    (hxw : x + xi + 4 ≤ P.w) : demuxAt amp P xi odd y x = if odd = 0 then i0 else q0 := by
  rw [demuxAt, if_pos (by omega), chromaAt_modulated hrow hamp hi hq (by omega) (by omega)]
  by_cases h : odd = 0
  · rw [if_pos (by omega), if_pos h, Int.neg_neg]
  · rw [if_neg (by omega), if_neg h, Int.neg_neg]

theorem demodValue_modulated {odd x : Nat} (hodd : odd < 2)
    (hx : (x % 2 = 0 ∧ 1 ≤ x + xi ∧ x + xi + 4 ≤ P.w) ∨ (x % 2 = 1 ∧ 2 ≤ x + xi ∧ x + xi + 5 ≤ P.w)) :
    demodValue amp P xi odd y x = if odd = 0 then i0 else q0 := by
  rw [demodValue, if_neg hamp]
  rcases hx with ⟨heven, hx, hxw⟩ | ⟨hone, hx, hxw⟩
  · rw [if_pos heven, demuxAt_modulated hrow hamp hi hq hodd heven hx hxw]
  · rw [if_neg (by omega), if_pos (by omega),
      demuxAt_modulated hrow hamp hi hq hodd (x := x - 1) (by omega) (by omega) (by omega),
      demuxAt_modulated hrow hamp hi hq hodd (x := x + 1) (by omega) (by omega) (by omega), ← mul_two,
      tdiv_mul_cancel (by decide)]

end

/-! ## The two commands one after another (R221) -/

theorem issue_of_exec {i : Instr} {s t : State} (h : exec i s = .next t) : issue s i = t := by
  simp only [issue, h]

theorem toInt_ofInt_of_inS32 {v : Int} (h : inS32 v = true) : (BitVec.ofInt 32 v).toInt = v := toInt_sampleOfInt h

/-- A field command that completes leaves the machine in RUN on canonical planes. -/
theorem runsOn_afterPass {i : Instr} {s : State} {P P' : Planes} {d : DrawSource} (hs : s.runsOn P)
    (hi : isFieldCommand i = true) (hexec : exec i s = .next (s.afterPass P' d)) :
    (s.afterPass P' d).runsOn P' := by
  obtain ⟨hphase, hP, hwf⟩ := hs
  obtain ⟨P'', hP'', hkept⟩ := fieldCommand_planes hi hP hexec
  obtain rfl : P' = P'' := Option.some.inj hP''
  exact ⟨hphase, rfl, hkept.canonical hwf⟩

/-- What `MOD` leaves of a picture of moderate size: modulated samples, all of moderate size. -/
theorem mod_completes_of_mem_range {s : State} {P : Planes} (hs : s.runsOn P) (hamp : s.regs.scAmp.toNat ≤ 100)
    (hbound : ∀ p < 3, ∀ z < P.h, ∀ x < P.w,
      -1048576 ≤ (P.read p z x).toInt ∧ (P.read p z x).toInt ≤ 1048576) :
    ∃ P', exec .mod s = .next (s.afterPass P' s.draws) ∧ P'.w = P.w ∧ P'.h = P.h
      ∧ ∀ z < P.h, z % 2 = parity s.field →
        (∀ x < P.w, sampleAt P' planeY z (x : Nat) = modValue s P z x)
        ∧ ∀ x, -3145728 ≤ sampleAt P' planeY z x ∧ sampleAt P' planeY z x ≤ 3145728 := by
  have hvalue (z : Nat) (hz : z < P.h) (x : Nat) (hx : x < P.w) :
      -3145728 ≤ modValue s P z x ∧ modValue s P z x ≤ 3145728 := by
    have hluma := hbound planeY (by decide) z hz x hx
    have hcarrier := carrierAt_mem_range (subcarrierPhase s.regs s.field z + x) (amp := s.regs.scAmp.toNat)
      (by omega) (hbound planeI (by decide) z hz x hx) (hbound planeQ (by decide) z hz x hx)
    unfold modValue
    omega
  have hfits (z : Nat) (hz : z < P.h) (x : Nat) (hx : x < P.w) : inS32 (modValue s P z x) = true := by
    have := hvalue z hz x hx
    exact decide_eq_true (by omega)
  obtain ⟨P', hexec, hres⟩ := (modAddsCarrier s P hs).1 fun z hz x hx _ => hfits z hz x hx
  refine ⟨P', hexec, hres.width, hres.height, fun z hz hpar => ?_⟩
  have hread (x : Nat) (hx : x < P.w) : sampleAt P' planeY z (x : Nat) = modValue s P z x := by
    rw [sampleAt_of_lt _ _ _ (hres.width ▸ hx), hres.luma z x hz hpar hx, toInt_ofInt_of_inS32 (hfits z hz x hx)]
  refine ⟨hread, fun x => ?_⟩
  by_cases hx : 0 ≤ x ∧ x < P'.w
  · obtain ⟨n, rfl⟩ := Int.eq_ofNat_of_zero_le hx.1
    have hn : n < P.w := by
      have := hres.width
      omega
    rw [hread n hn]
    exact hvalue z hz n hn
  · rw [sampleAt, if_neg hx]
    omega

/-- Settles O29: the blur removes the four quarters, and the demultiplexer reads them where they stand. -/
theorem modulationRoundTrip : Obligations.ModulationRoundTrip := by
  intro s P m y y0 i0 q0 hs hamp hamp' hpre hbound hy hpar hconst ⟨a, ha⟩ ⟨b, hb⟩
  rw [Int.mul_comm 50] at ha hb
  obtain ⟨P₁, hmod, hw, hh, hrows⟩ := mod_completes_of_mem_range hs hamp' hbound
  have hs₁ := runsOn_afterPass hs rfl hmod
  have hab : demodAmplitude (s.afterPass P₁ s.draws).regs m = some (s.regs.scAmp.toNat : Int) := by
    refine if_pos ?_
    cases m
    · exact hpre rfl
    · rfl
  have hone : (1 : Int) ≤ s.regs.scAmp.toNat := by exact_mod_cast hamp
  have hfits (z : Nat) (hz : z < P₁.h) (x : Nat) (hzpar : z % 2 = parity s.field) :
      demodFits s.regs.scAmp.toNat P₁ (subcarrierPhase s.regs s.field z) z x :=
    demodFits_of_mem_range hone (hrows z (hh ▸ hz) hzpar).2 x
  obtain ⟨P₂, hdemod, hres⟩ := ((demodRecoversChroma _ P₁ m hs₁).1 _ hab).1 fun z hz x _ hzpar => hfits z hz x hzpar
  have hissue : issueAll [.mod, .demod m] s = s.afterPass P₂ s.draws := by
    rw [issueAll, List.foldl_cons, issue_of_exec hmod, List.foldl_cons, issue_of_exec hdemod]
    rfl
  have hrow (x : Nat) (hx : x < P₁.w) : sampleAt P₁ planeY y (x : Nat)
      = y0 + quarter a b (subcarrierPhase s.regs s.field y + x) := by
    obtain ⟨hY, hI, hQ⟩ := hconst x (hw ▸ hx)
    rw [(hrows y hy hpar).1 x (hw ▸ hx), modValue, hY, hI, hQ, carrierAt_eq_quarter ha hb]
  have hy₁ : y < P₁.h := hh ▸ hy
  refine ⟨P₂, hissue, fun x hx hxw => ?_, fun x => ?_⟩
  · have hxw₁ : x + 3 ≤ P₁.w := hw ▸ hxw
    rw [hres.luma y x hy₁ hpar (by omega), toInt_ofInt_of_inS32 (inS32_blurAt P₁ y x), blurAt_modulated hrow hx hxw₁]
  · intro xi hx
    rw [← hw] at hx
    have hxw₁ : x < P₁.w := by omega
    obtain ⟨-, hfitI, hfitQ⟩ := hfits y hy₁ x hpar
    have hvalue (odd : Nat) (hodd : odd < 2) :=
      demodValue_modulated (odd := odd) hrow (show (s.regs.scAmp.toNat : Int) ≠ 0 by omega) ha hb hodd hx
    constructor
    · exact (congrArg BitVec.toInt (hres.chromaI y x hy₁ hpar hxw₁)).trans
        ((toInt_ofInt_of_inS32 hfitI).trans (hvalue 0 (by decide)))
    · exact (congrArg BitVec.toInt (hres.chromaQ y x hy₁ hpar hxw₁)).trans
        ((toInt_ofInt_of_inS32 hfitQ).trans (hvalue 1 (by decide)))

end Sys2Proof.Machine
end

section
/-!
PROOFS. HSW (44_head_switching.md R251 to R253): the switch positions, a row shifted inside its virtual line, and the
loop that visits the rows of the field below the switch row.
-/
namespace Sys2Proof.Machine

/-! ## The switch positions (R251, R252) -/

theorem virtualWidth_eq (w : Nat) : virtualWidth w = w + (w : Int) / 10 := by
  rw [virtualWidth, tdiv, Int.tdiv_eq_ediv_of_nonneg (Int.natCast_nonneg w)]

theorem fieldPosition_eq (pal : Bool) (w : Nat) (at_ noise : F64) :
    fieldPosition at_ noise (fieldLength pal w) = switchPosition pal (virtualWidth w) (fadd at_ noise) := rfl

/-- The noise and the draws left, from the answer of the environment (log 3). -/
theorem switchNoise_eq (g : Regs) (d : DrawSource) :
    switchNoise g d = (if isZero g.hswNoise then 0#64 else fmul (unitOfAnswer (answerAt d 0)) g.hswNoise,
      if isZero g.hswNoise then d else afterDraws d 1) := by
  rw [switchNoise, drawUnit_eq]
  split <;> rfl

/-- The parity of the switch row is that of the field: the rows below it at distance 2 are rows of the field. -/
theorem switchRow_parity (pal : Bool) (field : BitVec 64) (tw p1 : Int) :
    switchRow pal (parity field) tw p1 % 2 = parity field := by
  have hpar := parity_lt field
  rw [switchRow]
  omega

/-- What HSW does where both positions convert. -/
theorem hswStage_done {g : Regs} {field : BitVec 64} {P : Planes} {d d' : DrawSource} {noise : F64} {p1 p2 : Int}
    (hnoise : switchNoise g d = (noise, d'))
    (h1 : switchPosition g.pal (virtualWidth P.w) (fadd g.hswPoint noise) = some p1)
    (h2 : switchPosition g.pal (virtualWidth P.w) (fadd g.hswPhase noise) = some p2) :
    let y0 := switchRow g.pal (parity field) (virtualWidth P.w) p1
    hswStage g field P d = .done (hswRows (virtualWidth P.w) ((P.h : Int) - y0).toNat (y0 + 2)
      (initialShift (virtualWidth P.w) p2) P) d' := by
  simp only [hswStage, hnoise, fieldPosition_eq, h1, h2]

/-! ## One row inside its virtual line (R253) -/

/-- A shifted row column by column; the definition counts its columns by `Int`. -/
theorem shiftRow_eq_map (tw shif : Int) (row : List Sample) :
    shiftRow tw shif row
      = (List.range row.length).map fun x : Nat => row.getD (((x : Int) + tw + shif) % tw).toNat 0#32 := by
  simp only [shiftRow, bind_pure_comp, List.map_eq_map, List.map_map, Function.comp_def]

@[simp] theorem length_shiftRow (tw shif : Int) (row : List Sample) : (shiftRow tw shif row).length = row.length := by
  simp [shiftRow_eq_map]

/-- A virtual line is at least as wide as its row, so a shift of 0 moves no sample. -/
theorem shiftRow_zero {tw : Int} {row : List Sample} (htw : row.length ≤ tw) : shiftRow tw 0 row = row := by
  refine List.ext_getElem (length_shiftRow ..) fun x _ hx => ?_
  have hcol : (((x : Int) + tw + 0) % tw).toNat = x := by
    rw [Int.add_zero, Int.add_emod_right, Int.emod_eq_of_lt (by omega) (by omega), Int.toNat_natCast]
  simp only [shiftRow_eq_map, List.getElem_map, List.getElem_range, hcol, List.getD_eq_getElem _ _ hx]

/-- The source column of a shifted sample; past the last column of the row stands blanking. -/
theorem getD_shiftRow_readRow (tw shif : Int) (P : Planes) (p y : Nat) {x : Nat} (hx : x < P.w) :
    let column := (((x : Int) + tw + shif) % tw).toNat
    (shiftRow tw shif (P.readRow p y)).getD x 0#32 = if column < P.w then P.read p y column else 0#32 := by
  intro column
  have hshift : (shiftRow tw shif (P.readRow p y)).getD x 0#32 = (P.readRow p y).getD column 0#32 := by
    rw [List.getD_eq_getElem _ _ (by simpa using hx)]
    simp only [shiftRow_eq_map, List.getElem_map, List.getElem_range, column]
  rw [hshift]
  split
  · exact getD_readRow P p y column ‹_›
  · exact List.getD_eq_default _ _ (by rw [length_readRow]; omega)

/-! ## The rows the loop visits (R253) -/

/-- The decay may be taken before or after the rows that follow. -/
theorem decayed_decayShift (shif : Int) (n : Nat) : decayed (decayShift shif) n = decayed shif (n + 1) := by
  induction n with
  | zero => rfl
  | succ n ih => rw [decayed, ih, ← decayed]

/-- What one turn of the loop does to the planes. -/
def visitRow (tw y shif : Int) (P : Planes) : Planes :=
  if 0 ≤ y ∧ shif ≠ 0 then P.writeRow planeY y.toNat (shiftRow tw shif (P.readRow planeY y.toNat)) else P

theorem hswRows_succ (tw : Int) (n : Nat) (y shif : Int) (P : Planes) :
    hswRows tw (n + 1) y shif P
      = if y < P.h then hswRows tw n (y + 2) (decayShift shif) (visitRow tw y shif P) else P := rfl

@[simp] theorem visitRow_w (tw y shif : Int) (P : Planes) : (visitRow tw y shif P).w = P.w := by
  unfold visitRow; split <;> rfl

@[simp] theorem visitRow_h (tw y shif : Int) (P : Planes) : (visitRow tw y shif P).h = P.h := by
  unfold visitRow; split <;> rfl

section
variable {tw : Int} {P : Planes} {z : Nat} (hw : P.w < 65536) (hh : P.h < 65536) (htw : P.w ≤ tw) (hz : z < P.h)
include hw hh htw hz

/-- A turn shifts the luma of its row, also where the shift is 0 and nothing is stored, and no other row. -/
theorem readRow_visitRow {y : Int} (hy : y < P.h) (shif : Int) (p : Nat) :
    (visitRow tw y shif P).readRow p z
      = if p = planeY ∧ z = y then shiftRow tw shif (P.readRow planeY z) else P.readRow p z := by
  by_cases hrow : p = planeY ∧ z = y
  · obtain ⟨rfl, rfl⟩ := hrow
    rw [if_pos ⟨rfl, rfl⟩, visitRow, Int.toNat_natCast]
    by_cases hshif : shif = 0
    · rw [if_neg (by simp [hshif]), hshif, shiftRow_zero (by simpa using htw)]
    · rw [if_pos ⟨by omega, hshif⟩, readRow_writeRow_same _ _ _ _ (by simp)]
  · rw [if_neg hrow, visitRow]
    split
    · exact readRow_writeRow_other P planeY y.toNat p z _ (by simp) hw (by omega) (by omega) (by omega)
    · rfl

/-- The loop from row `y` on shifts the luma of every row it reaches, by the initial shift decayed once a row. -/
theorem readRow_hswRows (p n : Nat) {y : Int} (shif : Int) (hn : P.h ≤ y + 2 * n) (hpar : (z : Int) % 2 = y % 2) :
    (hswRows tw n y shif P).readRow p z
      = if p = planeY ∧ y ≤ z then shiftRow tw (decayed shif ((z - y) / 2).toNat) (P.readRow planeY z)
        else P.readRow p z := by
  induction n generalizing y shif P with
  | zero =>
    rw [if_neg (by omega)]
    rfl
  | succ n ih =>
    rw [hswRows_succ]
    split
    case isFalse => rw [if_neg (by omega)]
    case isTrue hy =>
      have hvisit := readRow_visitRow hw hh htw hz hy shif
      rw [ih (by simpa using hw) (by simpa using hh) (by simpa using htw) (by simpa using hz) _
        (by rw [visitRow_h]; omega) (by omega), hvisit, hvisit, decayed_decayShift]
      rcases lt_trichotomy (z : Int) y with hlt | heq | hgt
      · rw [if_neg (by omega), if_neg (by omega), if_neg (by omega)]
      · rw [if_neg (by omega), heq, Int.sub_self]
        simp [decayed]
      · have hcount : ((z - (y + 2)) / 2).toNat + 1 = ((z - y) / 2).toNat := by omega
        rw [if_neg (c := planeY = planeY ∧ _) (by omega), if_neg (c := p = planeY ∧ (z : Int) = y) (by omega), hcount]
        exact if_congr (and_congr_right fun _ => by omega) rfl rfl

end

/-! ## HSW (R251 to R253) -/

/-- Settles O33: the loop visits the rows of the field from two below the switch row on. -/
theorem hswShiftsRows : Obligations.HswShiftsRows := by
  intro s P p1 p2 hs tw noise h1 h2 y0 xs ishif column
  have hvw : virtualWidth P.w = tw := virtualWidth_eq P.w
  have htw : (P.w : Int) ≤ tw := by omega
  obtain ⟨⟨-, hw, -, hh⟩, -⟩ := (planes_wf_iff P).mp hs.canonical
  have hdone := hswStage_done (field := s.field) (switchNoise_eq s.regs s.draws) (hvw ▸ h1) (hvw ▸ h2)
  have hy0 : y0 % 2 = parity s.field := switchRow_parity s.regs.pal s.field tw p1
  rw [hvw, show switchRow s.regs.pal (parity s.field) tw p1 = y0 from rfl,
    show initialShift tw p2 = ishif from rfl] at hdone
  have hkept := hswRows_kept s.field tw (P.h - y0).toNat (y0 + 2) ishif P (by omega)
  have hrows (p y : Nat) (hy : y < P.h) (hpar : y % 2 = parity s.field) :=
    readRow_hswRows hw hh htw hy p (P.h - y0).toNat (y := y0 + 2) ishif (by omega) (by omega)
  have hchroma (p : Nat) (hp : p ≠ planeY) (y x : Nat) (hy : y < P.h) (hpar : y % 2 = parity s.field) (hx : x < P.w) :
      (hswRows tw (P.h - y0).toNat (y0 + 2) ishif P).read p y x = P.read p y x := by
    rw [← getD_readRow _ p y x (hkept.width ▸ hx), hrows p y hy hpar, if_neg (fun h => hp h.1), getD_readRow P p y x hx]
  refine ⟨_, congrArg _ (stageCommand_done hs hdone), hkept.width, hkept.height, fun y x hy hpar hx => ?_,
    hchroma planeI (by decide), hchroma planeQ (by decide), hkept.frame⟩
  rw [← getD_readRow _ planeY y x (hkept.width ▸ hx), hrows planeY y hy hpar]
  by_cases hbelow : y0 + 2 ≤ (y : Int)
  · rw [if_pos ⟨rfl, hbelow⟩, if_pos hbelow, getD_shiftRow_readRow _ _ P planeY y hx, ← Int.sub_sub]
  · rw [if_neg (fun h => hbelow h.2), if_neg hbelow, getD_readRow P planeY y x hx]

end Sys2Proof.Machine
end

section
/-!
PROOFS. The macros are their programs (45_vhs_stage.md R281, 46_field_sequencer.md R300, R302): a command over a list of
stages is the commands over the single stages issued one after another, faults included (60_exceptions.md R367, R368).
-/
namespace Sys2Proof.Machine

/-! ## Commands over a list of stages (46_field_sequencer.md R300) -/

/-- In FAULTED a further fault changes nothing (60_exceptions.md R368). -/
theorem takeFault_takeFault (c c' : FaultCode) (s : State) : takeFault c' (takeFault c s) = takeFault c s := by
  rw [takeFault, if_pos (takeFault_phase c s), ← takeFault_resp c s]

/-- Once a command has faulted, the commands over stages that follow change nothing. -/
theorem stageCommand_takeFault (st : Stage) (after : State → State) (c : FaultCode) (s : State) :
    stageCommand st after (takeFault c s) = takeFault c s := by
  rcases stageCommand_cases st after (takeFault c s) with ⟨-, h⟩ | ⟨-, hphase, -⟩
  · rw [h, takeFault_takeFault]
  · rw [takeFault_phase] at hphase
    cases hphase

/-- The first stage of a list may be a command of its own, where what follows the stages does not depend on the
response. -/
theorem stageCommand_runStages_cons (st : Stage) (l : List Stage) {after : State → State}
    (hafter : ∀ (t : State) (r : Option Response), answer 0#64 (after { t with resp := r }) = answer 0#64 (after t))
    (s : State) :
    stageCommand (runStages (st :: l)) after s = stageCommand (runStages l) after (stageCommand st id s) := by
  rcases stageCommand_cases st id s with ⟨hrefused, h⟩ | ⟨P, hphase, hP, hrun⟩
  · rw [h, stageCommand_takeFault]
    rcases stageCommand_cases (runStages (st :: l)) after s with ⟨-, h'⟩ | ⟨P, hphase, hP, -⟩
    · exact h'
    · rcases hrefused with hne | hnone
      · exact absurd hphase hne
      · cases hnone.symm.trans hP
  · rcases hrun with ⟨P', d', hres, h⟩ | ⟨c, P', d', hres, h⟩
    · have hphase' : (stageCommand st id s).phase = .run := by rw [h]; exact hphase
      have hP' : (stageCommand st id s).planes = some P' := by rw [h]; rfl
      rw [stageCommand, withPlanes_run _ hphase hP, stageCommand, withPlanes_run _ hphase' hP', h]
      simp only [runStages, hres, answer_regs, answer_field, answer_draws, id_eq]
      cases runStages l s.regs s.field P' d' with
      | done P'' d'' => exact (hafter { s with planes := some P'', draws := d'' } (some (.ok 0#64))).symm
      | fault c P'' d'' => rfl
    · rw [h, stageCommand_takeFault, stageCommand, withPlanes_run _ hphase hP]
      simp only [runStages, hres]

/-! ## Programs of stage commands -/

/-- The command `i` is the stage `st` and does nothing besides. -/
def RunsStage (i : Instr) (st : Stage) : Prop := ∀ s, exec i s = .next (stageCommand st id s)

theorem RunsStage.issue_eq {i : Instr} {st : Stage} (h : RunsStage i st) (s : State) :
    issue s i = stageCommand st id s := by
  simp only [issue, h s]

theorem issueAll_append (l r : List Instr) (s : State) : issueAll (l ++ r) s = issueAll r (issueAll l s) :=
  List.foldl_append

/-- What a stage command leaves has planes wherever it is in RUN. -/
theorem stageCommand_isSome_planes (st : Stage) (s : State) (hphase : (stageCommand st id s).phase = .run) :
    (stageCommand st id s).planes.isSome = true := by
  rcases stageCommand_cases st id s with ⟨-, h⟩ | ⟨P, -, -, ⟨P', d', -, h⟩ | ⟨c, P', d', -, h⟩⟩
  · rw [h, takeFault_phase] at hphase
    cases hphase
  · rw [h]
    rfl
  · rw [h, takeFault_phase] at hphase
    cases hphase

/-- Stage commands one after another leave what their stages leave in one command. -/
theorem issueAll_cons_eq_stageCommand {i : Instr} {st : Stage} {is : List Instr} {sts : List Stage}
    (hi : RunsStage i st) (his : List.Forall₂ RunsStage is sts) (s : State) :
    issueAll (i :: is) s = stageCommand (runStages (st :: sts)) id s := by
  induction his generalizing i st s with
  | nil =>
    have hone : runStages [st] = st := by
      funext g field P d
      simp only [runStages]
      cases st g field P d <;> rfl
    rw [hone]
    exact hi.issue_eq s
  | cons hi' _ ih =>
    rw [stageCommand_runStages_cons _ _ (fun _ _ => rfl), ← hi.issue_eq s]
    exact ih hi' (issue s i)

/-- Stage commands and then `NEXTFIELD` leave what their stages leave in one command that advances `FIELD` (R302). -/
theorem issueAll_append_nextfield {is : List Instr} {sts : List Stage} (his : List.Forall₂ RunsStage is sts) {s : State}
    (hplanes : s.phase = .run → s.planes.isSome = true) :
    issueAll (is ++ [.nextfield]) s = stageCommand (runStages sts) advanceField s := by
  induction his generalizing s with
  | nil =>
    change inRun (fun s => answer 0#64 (advanceField s)) s = _
    rcases inRun_cases (fun s => answer 0#64 (advanceField s)) s with ⟨hphase, h⟩ | ⟨hphase, h⟩
    · obtain ⟨P, hP⟩ := Option.isSome_iff_exists.mp (hplanes hphase)
      rw [h, stageCommand, withPlanes_run _ hphase hP]
      simp only [runStages, ← hP]
    · rw [h, stageCommand, withPlanes, inRun, if_neg hphase]
  | cons hi _ ih =>
    rw [stageCommand_runStages_cons _ _ (fun _ _ => rfl), ← ih (stageCommand_isSome_planes _ s), ← hi.issue_eq s]
    rfl

/-! ## The two macros (R281, R302) -/

theorem forall₂_ite {α β : Type} {R : α → β → Prop} (b : Bool) {l l' : List α} {r r' : List β}
    (h : List.Forall₂ R l r) (h' : List.Forall₂ R l' r') :
    List.Forall₂ R (if b then l else l') (if b then r else r') := by
  cases b
  · exact h'
  · exact h

/-- The steps of `VHS` after its first, each a command of its own (R281). -/
theorem vhsProgram_runs (g : Regs) :
    ∃ is sts, vhsProgram g = .vluma :: is ∧ vhsSteps g = vlumaStage :: sts ∧ List.Forall₂ RunsStage is sts := by
  refine ⟨_, _, rfl, rfl, .cons (fun _ => rfl) ?_⟩
  refine List.rel_append (List.rel_append (forall₂_ite _ ?_ .nil) ?_) (forall₂_ite _ .nil ?_)
  · exact .cons (fun _ => rfl) .nil
  · exact .cons (fun _ => rfl) .nil
  · exact .cons (fun _ => rfl) (.cons (fun _ => rfl) .nil)

theorem exec_vhs_eq_issueAll (s : State) : exec .vhs s = .next (issueAll (vhsProgram s.regs) s) := by
  obtain ⟨is, sts, hprog, hsteps, hruns⟩ := vhsProgram_runs s.regs
  rw [hprog, issueAll_cons_eq_stageCommand (fun _ => rfl) hruns, ← hsteps]
  rfl

/-- The steps of `RUNFIELD` before the advance of `FIELD`, each a command of its own (R302). -/
theorem runfieldProgram_runs (g : Regs) :
    ∃ is, runfieldProgram g = is ++ [.nextfield] ∧ List.Forall₂ RunsStage is (runfieldSteps g) := by
  refine ⟨_, rfl, forall₂_ite _ ?_ .nil⟩
  refine List.rel_append (List.rel_append (List.rel_append (List.rel_append (List.rel_append
    (forall₂_ite _ ?_ .nil) ?_) (forall₂_ite _ ?_ .nil)) ?_) (forall₂_ite _ ?_ .nil)) (forall₂_ite _ ?_ .nil)
  · exact .cons (fun _ => rfl) .nil
  · exact .cons (fun _ => rfl) (.cons (fun _ => rfl) (.cons (fun _ => rfl) .nil))
  · exact .cons (fun _ => rfl) .nil
  · exact .cons (fun _ => rfl) (.cons (fun _ => rfl) (.cons (fun _ => rfl) (.cons (fun _ => rfl) .nil)))
  · exact .cons (fun _ => rfl) .nil
  · exact .cons (fun _ => rfl) .nil

theorem exec_runfield_eq_issueAll {s : State} (hplanes : s.phase = .run → s.planes.isSome = true) :
    exec .runfield s = .next (issueAll (runfieldProgram s.regs) s) := by
  obtain ⟨is, hprog, hruns⟩ := runfieldProgram_runs s.regs
  rw [hprog, issueAll_append_nextfield hruns hplanes]
  rfl

/-- Settles O40: each of the two runs the stages of its program, so the commands of the program leave what it leaves. -/
theorem macrosAreTheirPrograms : Obligations.MacrosAreTheirPrograms :=
  ⟨decode_operand (op := 0x34) (n := 0) rfl rfl rfl, decode_operand (op := 0x38) (n := 0) rfl rfl rfl,
    fun s hplanes => ⟨exec_vhs_eq_issueAll s, exec_runfield_eq_issueAll hplanes⟩,
    fun _ hphase => ⟨exec_refused hphase rfl, exec_refused hphase rfl⟩⟩

end Sys2Proof.Machine
end

section
/-!
PROOFS. The steps of the VHS stage (45_vhs_stage.md R270 to R279): the two luma filters, the chroma lowpass of the tape
speed, and the blend of every chroma row with the one above it.
-/
namespace Sys2Proof.Machine

/-! ## Tape speeds (R270, R271) -/

/-- The coefficients of the luma lowpass and of the sharpening lowpass at the three speeds (R271). -/
theorem luma_coefficients :
    (alphaOf fsc4 0x41424F8000000000#64 = 0x3FE06A183AF9EF76#64
      ∧ alphaOf fsc4 0x413CFDE000000000#64 = 0x3FDD1965003F34A1#64
      ∧ alphaOf fsc4 0x41355CC000000000#64 = 0x3FD85B0F8A34ED4B#64)
    ∧ alphaOf fsc4 (fmul 0x41424F8000000000#64 f64Four) = 0x3FE9DC7622C31AFA#64
      ∧ alphaOf fsc4 (fmul 0x413CFDE000000000#64 f64Four) = 0x3FE89E4C44678431#64
      ∧ alphaOf fsc4 (fmul 0x41355CC000000000#64 f64Four) = 0x3FE6BE9B0A3686BC#64 := by decide +kernel

/-- The cutoffs of a tape speed give the coefficients of its row. -/
theorem speedRow_eq (g : Regs) :
    speedRow g.vhsSpeed.toNat = (alphaOf fsc4 (tapeSpeed g).lumaCut, alphaOf fsc4 (tapeSpeed g).chromaCut,
      (tapeSpeed g).chromaDelay, alphaOf fsc4 (fmul (tapeSpeed g).lumaCut f64Four)) := by
  obtain ⟨⟨hsp, hlp, hep⟩, hsp', hlp', hep'⟩ := luma_coefficients
  obtain ⟨-, hspC, hlpC, hepC⟩ := chroma_coefficients
  unfold tapeSpeed
  split
  · next h => rw [h, hsp, hspC, hsp']; rfl
  · next h => rw [h, hlp, hlpC, hlp']; rfl
  · next h0 h1 => rw [speedRow, if_neg h0, if_neg h1, hep, hepC, hep']

/-! ## Filters on luma (R272, R279) -/

/-- A row whose luma runs through a filter. -/
def lumaFilterRow {κ : Type} (op : κ → F64 → κ × F64) (k : κ) (r : Row) : Option Row :=
  (allSome ((filterRow op k r.y).map f2s)).map (fun y => ⟨y, r.i, r.q⟩)

section
variable {κ : Type} {op : κ → F64 → κ × F64} {k : κ} {P : Planes} {cells : Nat → Nat → κ}
  {out : Nat → Nat → F64} (hstart : ∀ y, cells y 0 = k)
  (hop : ∀ y x, op (cells y x) (rowInput P planeY y x) = (cells y (x + 1), out y x))
include hstart hop

theorem lumaFilterRow_givesWhereFits :
    GivesWhereFits (fun _ r => lumaFilterRow op k r) P (fun y x => (f2s (out y x)).isSome = true)
      (fun y x => (f2s (out y x)).getD 0#32) (P.read planeI) (P.read planeQ) := by
  intro y r
  have hfilter : filterRow op k (P.row y).y = (List.range P.w).map (out y) :=
    hstart y ▸ filterRow_map_range (S := P.read planeY y) (hop y) P.w
  dsimp only
  rw [lumaFilterRow, hfilter, List.map_map, Option.map_eq_some_iff]
  constructor
  · rintro ⟨l, hl, rfl⟩
    obtain ⟨hfits, rfl⟩ := (allSome_map_range_eq_some 0#32).mp hl
    exact ⟨hfits, rfl⟩
  · rintro ⟨hfits, rfl⟩
    exact ⟨_, (allSome_map_range_eq_some 0#32).mpr ⟨hfits, rfl⟩, rfl⟩

/-- A command that filters luma gives the values that convert, and overflows where one does not. -/
theorem lumaFilter_rule {i : Instr} {st : Stage} {s : State} (hs : s.runsOn P)
    (hexec : exec i s = .next (stageCommand st id s))
    (hst : st s.regs s.field P s.draws
      = fieldPass (fun _ d _ r => rowOrOverflow d (lumaFilterRow op k r)) () s.field P s.draws) :
    (∀ Y : Nat → Nat → Sample,
        (∀ y < P.h, ∀ x < P.w, y % 2 = parity s.field → f2s (out y x) = some (Y y x)) →
        passGives i s P Y (P.read planeI) (P.read planeQ) s.draws)
      ∧ (someMisfit s.field P (fun y x => (f2s (out y x)).isSome = true) →
        exec i s = .next (takeFault .planeOverflow s)) := by
  have hrows := lumaFilterRow_givesWhereFits hstart hop
  refine ⟨fun Y hY => ?_, hrows.overflows hs hexec hst⟩
  refine passGives_congr (hrows.passGives hs hexec hst fun y hy x hx hpar => ?_) (fun y hy x hx hpar => ?_)
    (fun _ _ _ _ _ => rfl) (fun _ _ _ _ _ => rfl)
  · rw [hY y hy x hx hpar]
    rfl
  · rw [hY y hy x hx hpar]
    rfl

end

/-! ## VLUMA (R272) -/

/-- The cells of `VLUMA` before column `x`: the cascade, then the highpass of what it gives. -/
def vlumaCellsAt (alpha : F64) (input : Nat → F64) (x : Nat) : List Cell × Cell :=
  (lpCells3At alpha input x, lpCellAt alpha (lpSeq3 alpha input) x)

theorem vlumaStep_vlumaCellsAt (alpha : F64) (input : Nat → F64) (x : Nat) :
    vlumaStep (vlumaCellsAt alpha input x) (input x)
      = (vlumaCellsAt alpha input (x + 1), vlumaValue alpha input x) := by
  simp only [vlumaStep, vlumaCellsAt, lpCascade_lpCells3At, hpStep_lpCellAt]
  rfl

/-- Settles O34: a luma filter whose cells are known before every column. -/
theorem vlumaBandlimitsLuma : Obligations.VlumaBandlimitsLuma := by
  intro s P hs
  simp only [speedRow_eq]
  exact lumaFilter_rule (cells := fun y => vlumaCellsAt _ (rowInput P planeY y)) (fun _ => rfl)
    (fun y => vlumaStep_vlumaCellsAt _ (rowInput P planeY y)) hs rfl rfl

/-! ## VSHARP (R279) -/

theorem vsharpStep_lpCells3At (alpha gain : F64) (input : Nat → F64) (x : Nat) :
    vsharpStep gain (lpCells3At alpha input x) (input x)
      = (lpCells3At alpha input (x + 1), vsharpValue alpha gain input x) := by
  obtain ⟨-, htwo, -⟩ := composite_decimals
  simp only [vsharpStep, lpCascade_lpCells3At, htwo]
  rfl

/-- Settles O37: a luma filter whose cells are known before every column. -/
theorem vsharpSharpensLuma : Obligations.VsharpSharpensLuma := by
  intro s P hs
  simp only [speedRow_eq]
  exact lumaFilter_rule (cells := fun y => lpCells3At _ (rowInput P planeY y)) (fun _ => rfl)
    (fun y => vsharpStep_lpCells3At _ _ (rowInput P planeY y)) hs rfl rfl

/-! ## VCHROMA (R274) -/

/-- Settles O35: a chroma lowpass with the cutoff and the delay of the tape speed. -/
theorem vchromaLowpassesChroma : Obligations.VchromaLowpassesChroma := by
  intro s P I Q hs
  simp only [speedRow_eq]
  exact passGives_of_chromaLowpass hs rfl rfl

/-! ## VBLEND (R277) -/

/-- The sample two rows above, 0 above the first row: what the delay line holds. -/
def sampleAbove (P : Planes) (p y x : Nat) : Sample := if y < 2 then 0#32 else P.read p (y - 2) x

theorem toInt_sampleAbove (P : Planes) (p y x : Nat) :
    (sampleAbove P p y x).toInt = if y < 2 then 0 else (P.read p (y - 2) x).toInt := by
  unfold sampleAbove
  split <;> rfl

theorem sampleAbove_add_two (P : Planes) (p y : Nat) : sampleAbove P p (y + 2) = P.read p y := by
  funext x
  rw [sampleAbove, if_neg (by omega), Nat.add_sub_cancel]

/-- The delay line before row `y` of the field. -/
def delayLine (P : Planes) (y : Nat) : List Sample × List Sample :=
  ((List.range P.w).map (sampleAbove P planeI y), (List.range P.w).map (sampleAbove P planeQ y))

theorem delayLine_of_lt_two (P : Planes) {y : Nat} (hy : y < 2) :
    delayLine P y = (List.replicate P.w 0#32, List.replicate P.w 0#32) := by
  have hzero (p : Nat) : sampleAbove P p y = fun _ => 0#32 := funext fun x => if_pos hy
  rw [delayLine, hzero, hzero, ← replicate_eq_map_range]

theorem vblendRow_delayLine (P : Planes) (d : DrawSource) (y : Nat) :
    vblendRow (delayLine P y) d (P.row y) = .done (delayLine P (y + 2)) (rowOfSamples P.w (P.read planeY y)
      (fun x => blend (sampleAbove P planeI y x) (P.read planeI y x))
      (fun x => blend (sampleAbove P planeQ y x) (P.read planeQ y x))) d := by
  simp only [vblendRow, delayLine, row_eq_rowOfSamples, rowOfSamples, sampleAbove_add_two, List.zipWith_map,
    List.zipWith_self]

/-- The rounded mean of two samples is one (R277). -/
theorem inS32_mean (a b : Sample) : inS32 (tdiv (a.toInt + b.toInt + 1) 2) = true := by
  have halo := BitVec.le_toInt a
  have hahi := BitVec.toInt_lt (x := a)
  have hblo := BitVec.le_toInt b
  have hbhi := BitVec.toInt_lt (x := b)
  refine decide_eq_true ?_
  rcases Int.le_total 0 (a.toInt + b.toInt + 1) with hsum | hsum
  · rw [tdiv, Int.tdiv_eq_ediv_of_nonneg hsum]
    omega
  · have := tdiv_mem_Icc (n := a.toInt + b.toInt + 1) (lo := -2147483648) (hi := 0) (c := 2) (by decide) (by decide)
      (by decide) (by omega) (by omega)
    omega

theorem vblend_passGives {s : State} {P : Planes} (hs : s.runsOn P) :
    passGives .vblend s P (P.read planeY) (fun y x => blend (sampleAbove P planeI y x) (P.read planeI y x))
      (fun y x => blend (sampleAbove P planeQ y x) (P.read planeQ y x)) s.draws := by
  have hpar := parity_lt s.field
  refine passGives_of_rows (st := vblendStage) (f := fun delay d _ r => vblendRow delay d r) hs rfl
    (fun j => delayLine P (2 * j + parity s.field)) (fun _ => s.draws) ?_ fun y _ hy => ?_
  · rw [delayLine_of_lt_two P (by omega)]
    rfl
  · have hrow : 2 * (y / 2) + parity s.field = y := by omega
    have hnext : 2 * (y / 2 + 1) + parity s.field = y + 2 := by omega
    rw [hrow, hnext, vblendRow_delayLine]

/-- Settles O36: the delay line holds the row above as it was before the command. -/
theorem vblendAveragesRows : Obligations.VblendAveragesRows := by
  refine ⟨decode_operand (op := 0x32) (n := 0) rfl rfl rfl, fun s P hs => ?_, fun _ hphase => exec_refused hphase rfl⟩
  simp only [← toInt_sampleAbove]
  exact ⟨vblend_passGives hs, fun p y x => inS32_mean _ _⟩

end Sys2Proof.Machine
end

section
/-!
PROOFS. How large the samples of a picture can become through the steps of the VHS stage (45_vhs_stage.md R272 to R281,
43_composite_chroma.md R205, R216 to R220): bounds by whole numbers through the binary64 operations and the filters,
then step by step on the rows of the field.
-/
namespace Sys2Proof.Machine

/-! ## Bounds by whole numbers (00_scope.md R12) -/

/-- `|v| ≤ n`. -/
def IntLe (n : Nat) (v : F64) : Prop := AtMost (n * unitsPerOne) v

theorem intLe_two_pow_iff {k : Nat} {v : F64} : IntLe (2 ^ k) v ↔ AbsLe k v := Iff.rfl

section
variable {a b v : F64} {m n den : Nat} {e : Int}

theorem IntLe.mono (h : IntLe m v) (hmn : m ≤ n) : IntLe n v := AtMost.mono h (Nat.mul_le_mul_right _ hmn)

theorem magUnits_i2f (hn : n ≤ 2 ^ 53) : magUnits (i2f n) = n * unitsPerOne := by
  rw [← natAbs_toUnits, (i2f_exact (n := n) (by omega)).2, Int.natAbs_mul, Int.natAbs_natCast, Int.natAbs_natCast]

theorem mul_unitsPerOne_lt (hn : n ≤ 2 ^ 53) : n * unitsPerOne < overflowLimit := by
  rw [← magUnits_i2f hn, ← isFinite_iff_magUnits]
  exact (i2f_exact (by omega)).1

/-- A rounding does not pass a whole number of at most 53 digits. -/
theorem Rounded.intLe (h : Rounded e den v) (hden : 0 < den) (hn : n ≤ 2 ^ 53)
    (hle : e.natAbs ≤ n * unitsPerOne * den) : IntLe n v := by
  rw [← magUnits_i2f hn] at hle
  have hmost := h.atMost_magUnits hden hle
  rwa [magUnits_i2f hn] at hmost

theorem intLe_i2f {i : Int} (hi : i.natAbs ≤ n) (hn : n ≤ 2 ^ 53) : IntLe n (i2f i) := by
  obtain ⟨hfin, hunits⟩ := i2f_exact (n := i) (by omega)
  refine ⟨hfin, ?_⟩
  rw [hunits, Int.natAbs_mul, Int.natAbs_natCast]
  exact Nat.mul_le_mul_right _ hi

theorem intLe_fadd (ha : IntLe m a) (hb : IntLe n b) (hmn : m + n ≤ 2 ^ 53) : IntLe (m + n) (fadd a b) := by
  have hsum : (toUnits a + toUnits b).natAbs ≤ (m + n) * unitsPerOne := by
    rw [Nat.add_mul]
    exact (Int.natAbs_add_le _ _).trans (Nat.add_le_add ha.le hb.le)
  have hround := rounded_fadd ha.finite hb.finite (hsum.trans_lt (mul_unitsPerOne_lt hmn))
  exact hround.intLe Nat.one_pos hmn (by rwa [Nat.mul_one])

theorem intLe_fsub (ha : IntLe m a) (hb : IntLe n b) (hmn : m + n ≤ 2 ^ 53) : IntLe (m + n) (fsub a b) :=
  intLe_fadd ha ⟨(isFinite_fneg b).trans hb.finite, by rw [toUnits_fneg, Int.natAbs_neg]; exact hb.le⟩ hmn

theorem intLe_fmul (ha : IntLe m a) (hb : IntLe n b) (hmn : m * n ≤ 2 ^ 53) : IntLe (m * n) (fmul a b) := by
  have hprod : (toUnits a * toUnits b).natAbs ≤ m * n * unitsPerOne * unitsPerOne := by
    rw [Int.natAbs_mul]
    exact (Nat.mul_le_mul ha.le hb.le).trans_eq (by ring)
  have hround := rounded_fmul ha.finite hb.finite
    (hprod.trans_lt (Nat.mul_lt_mul_of_pos_right (mul_unitsPerOne_lt hmn) unitsPerOne_pos))
  exact hround.intLe unitsPerOne_pos hmn hprod

/-- A bounded value converts to a sample of the same bound (R13). -/
theorem IntLe.f2s_eq_some (h : IntLe n v) (hn : n ≤ 2147483647) : ∃ x, f2s v = some x ∧ x.toInt.natAbs ≤ n := by
  have htrunc : (truncInt v).natAbs ≤ n := by
    rw [truncInt, Int.natAbs_tdiv, Int.natAbs_natCast]
    exact Nat.div_le_of_le_mul (by rw [Nat.mul_comm]; exact h.le)
  refine ⟨sampleOfInt (truncInt v), ?_, ?_⟩
  · rw [f2s, f2i_of_mem h.finite (by omega), Option.map_some]
  · rwa [toInt_sampleOfInt (decide_eq_true (by omega))]

end

/-! ## Filters along a row (R272, R274, R279) -/

section
variable {alpha gain : F64} {input : Nat → F64} {k x : Nat}

/-- A lowpass keeps a power of two as the bound of its row, as far as the row goes. -/
theorem AbsLe.lpSeq (hk : k ≤ 100) (ha : InUnit alpha) (h : ∀ u ≤ x, AbsLe k (input u)) :
    AbsLe k (lpSeq alpha input x) := by
  induction x with
  | zero => exact absLe_lpValue hk ha (absLe_zero k) (h 0 le_rfl)
  | succ x ih => exact absLe_lpValue hk ha (ih fun u hu => h u (by omega)) (h (x + 1) le_rfl)

theorem AbsLe.lpSeq3 (hk : k ≤ 100) (ha : InUnit alpha) (h : ∀ u ≤ x, AbsLe k (input u)) :
    AbsLe k (lpSeq3 alpha input x) :=
  .lpSeq hk ha fun _ hu => .lpSeq hk ha fun _ hv => .lpSeq hk ha fun t ht => h t (by omega)

/-- The scale of the add-back, 1.6, is below 2. -/
theorem intLe_addBackScale : IntLe 2 0x3FF999999999999A#64 := by
  have hwithin : within (i2f (2 ^ 1 : Nat)) 0x3FF999999999999A#64 = true := by decide +kernel
  have hle := intLe_two_pow_iff.mpr ((within_two_pow_iff (by decide)).mp hwithin)
  rwa [Nat.pow_one] at hle

/-- The band-limited row plus at most 3.2 times it (R272). -/
theorem intLe_vlumaValue (hk : k ≤ 40) (ha : InUnit alpha) (h : ∀ u ≤ x, AbsLe k (input u)) :
    IntLe (5 * 2 ^ k) (vlumaValue alpha input x) := by
  have hk' : k ≤ 100 := by omega
  have hpow : 2 ^ k ≤ 2 ^ 40 := Nat.pow_le_pow_right (by decide) hk
  have hlow (u : Nat) (hu : u ≤ x) : AbsLe k (lpSeq3 alpha input u) := .lpSeq3 hk' ha fun v hv => h v (by omega)
  have hhigh := intLe_fsub (intLe_two_pow_iff.mpr (hlow x le_rfl)) (intLe_two_pow_iff.mpr (AbsLe.lpSeq hk' ha hlow))
    (by omega)
  have hback := intLe_fmul hhigh intLe_addBackScale (by omega)
  exact (intLe_fadd (intLe_two_pow_iff.mpr (hlow x le_rfl)) hback (by omega)).mono (by omega)

/-- The row plus at most 16 times it, for a gain of at most 4 (R279). -/
theorem intLe_vsharpValue (hk : k ≤ 40) (ha : InUnit alpha) (hgain : AbsLe 2 gain)
    (h : ∀ u ≤ x, AbsLe k (input u)) : IntLe (17 * 2 ^ k) (vsharpValue alpha gain input x) := by
  have hpow : 2 ^ k ≤ 2 ^ 40 := Nat.pow_le_pow_right (by decide) hk
  have hin := intLe_two_pow_iff.mpr (h x le_rfl)
  have hlow := intLe_two_pow_iff.mpr (AbsLe.lpSeq3 (by omega) ha h)
  have hdiff := intLe_fmul (intLe_fsub hin hlow (by omega)) (intLe_two_pow_iff.mpr hgain) (by omega)
  have hscaled := intLe_fmul hdiff (intLe_i2f (i := 2) (n := 2) le_rfl (by decide)) (by omega)
  exact (intLe_fadd hin hscaled (by omega)).mono (by omega)

end

/-! ## Rows of zeros (R281) -/

section
variable {alpha gain : F64} {input : Nat → F64} {x : Nat} (ha : lpValue alpha 0#64 0#64 = 0#64)
  (h : ∀ u ≤ x, input u = 0#64)
include ha h

theorem lpSeq_eq_zero : lpSeq alpha input x = 0#64 := by
  induction x with
  | zero => rw [lpSeq, h 0 le_rfl, ha]
  | succ x ih => rw [lpSeq, ih fun u hu => h u (by omega), h (x + 1) le_rfl, ha]

theorem lpSeq3_eq_zero : lpSeq3 alpha input x = 0#64 :=
  lpSeq_eq_zero ha fun _ hu => lpSeq_eq_zero ha fun _ hv => lpSeq_eq_zero ha fun t ht => h t (by omega)

theorem vlumaValue_eq_zero : vlumaValue alpha input x = 0#64 := by
  have hlow (u : Nat) (hu : u ≤ x) : lpSeq3 alpha input u = 0#64 := lpSeq3_eq_zero ha fun v hv => h v (by omega)
  rw [vlumaValue, hlow x le_rfl, lpSeq_eq_zero ha hlow]
  decide +kernel

/-- A finite gain gives a zero of its own sign, which the sum drops. -/
theorem vsharpValue_eq_zero (hgain : isFinite gain = true) : vsharpValue alpha gain input x = 0#64 := by
  have hdiff : fsub 0#64 0#64 = 0#64 := by decide
  have hzero : magUnits 0#64 = 0 := by decide
  have hprod : fmul 0#64 gain = roundUnits (isNeg gain) 0 unitsPerOne := by
    rw [fmul_finite (by decide) hgain, hzero, Nat.zero_mul]
    simp [isNeg]
  rw [vsharpValue, lpSeq3_eq_zero ha h, h x le_rfl, hdiff, hprod]
  cases isNeg gain <;> decide +kernel

end

/-! ## Samples through MOD and DEMOD (R205, R217 to R220) -/

/-- A value of `S32` has the bound of its sample. -/
theorem natAbs_toInt_ofInt_le {v : Int} {b : Nat} (h : inS32 v = true) (hb : v.natAbs ≤ b) :
    (BitVec.ofInt 32 v).toInt.natAbs ≤ b := by
  rwa [toInt_ofInt_of_inS32 h]

theorem natAbs_tdiv_le (n c : Int) : (tdiv n c).natAbs ≤ n.natAbs := by
  rw [tdiv, Int.natAbs_tdiv]
  exact Nat.div_le_self _ _

theorem natAbs_carrierAt_le {amp c : Nat} {i q : Int} (k : Nat) (hi : i.natAbs ≤ c) (hq : q.natAbs ≤ c) :
    (carrierAt amp k i q).natAbs ≤ c * amp / 50 := by
  have hscaled {v : Int} (hv : v.natAbs ≤ c * amp) : (tdiv v 50).natAbs ≤ c * amp / 50 := by
    rw [tdiv, Int.natAbs_tdiv]
    exact Nat.div_le_div_right hv
  have hprod {v : Int} (hv : v.natAbs ≤ c) : (v * amp).natAbs ≤ c * amp := by
    rw [Int.natAbs_mul, Int.natAbs_natCast]
    exact Nat.mul_le_mul_right _ hv
  unfold carrierAt
  split
  · exact hscaled (hprod hi)
  · split
    · exact hscaled (hprod hq)
    · split
      · exact hscaled (by rw [Int.natAbs_neg]; exact hprod hi)
      · exact hscaled (by rw [Int.natAbs_neg]; exact hprod hq)

section
variable {P : Planes} {y l : Nat} (h : ∀ x, (sampleAt P planeY y x).natAbs ≤ l)
include h

theorem natAbs_blurAt_le (x : Int) : (blurAt P y x).natAbs ≤ l := by
  have h₁ := h (x - 1)
  have h₂ := h x
  have h₃ := h (x + 1)
  have h₄ := h (x + 2)
  rw [blurAt, tdiv, Int.natAbs_tdiv]
  exact Nat.div_le_of_le_mul (by simp only [Int.reduceAbs]; omega)

theorem natAbs_chromaAt_le (ab : Int) (xi x : Nat) : (chromaAt ab P xi y x).natAbs ≤ 100 * l := by
  have hs := h ((x : Int) + 2)
  have hb := natAbs_blurAt_le h x
  refine (natAbs_tdiv_le _ _).trans ?_
  split <;> omega

theorem natAbs_demuxAt_le (ab : Int) (xi odd x : Nat) : (demuxAt ab P xi odd y x).natAbs ≤ 100 * l := by
  rw [demuxAt]
  split
  · rw [Int.natAbs_neg]
    exact natAbs_chromaAt_le h ..
  · exact Nat.zero_le _

theorem natAbs_demodValue_le (ab : Int) (xi odd x : Nat) : (demodValue ab P xi odd y x).natAbs ≤ 100 * l := by
  have hdemux (z : Nat) := natAbs_demuxAt_le h ab xi odd z
  rw [demodValue]
  split
  · exact Nat.zero_le _
  · split
    · exact hdemux x
    · split
      · have h₁ := hdemux (x - 1)
        have h₂ := hdemux (x + 1)
        rw [tdiv, Int.natAbs_tdiv]
        exact Nat.div_le_of_le_mul (by simp only [Int.reduceAbs]; omega)
      · exact Nat.zero_le _

theorem demodFits_of_natAbs_le (hl : 100 * l ≤ 2147483647) (ab : Int) (xi x : Nat) : demodFits ab P xi y x := by
  have hfit {v : Int} (hv : v.natAbs ≤ 100 * l) : inS32 v = true := decide_eq_true (by omega)
  exact ⟨fun _ => hfit (natAbs_chromaAt_le h ..), hfit (natAbs_demodValue_le h ..), hfit (natAbs_demodValue_le h ..)⟩

end

/-! ## Bounds on the rows of a field -/

/-- `p` holds at every column of the rows of the field. -/
def OnField (field : BitVec 64) (P : Planes) (p : Nat → Nat → Prop) : Prop :=
  ∀ y < P.h, ∀ x < P.w, y % 2 = parity field → p y x

/-- On the rows of the field luma is at most `l` and chroma at most `c` in size. -/
structure FieldWithin (field : BitVec 64) (l c : Nat) (P : Planes) : Prop where
  luma : OnField field P fun y x => (P.read planeY y x).toInt.natAbs ≤ l
  chromaI : OnField field P fun y x => (P.read planeI y x).toInt.natAbs ≤ c
  chromaQ : OnField field P fun y x => (P.read planeQ y x).toInt.natAbs ≤ c

/-- `i` completes in `s` without a draw, and leaves the rows of the field within `l` and `c`. -/
def LeavesWithin (i : Instr) (s : State) (l c : Nat) : Prop :=
  ∃ P', exec i s = .next (s.afterPass P' s.draws) ∧ FieldWithin s.field l c P'

section
variable {i : Instr} {s : State} {P : Planes} {l c l' : Nat}

theorem leavesWithin_of_passGives {Y I Q : Nat → Nat → Sample} (h : passGives i s P Y I Q s.draws)
    (hY : OnField s.field P fun y x => (Y y x).toInt.natAbs ≤ l)
    (hI : OnField s.field P fun y x => (I y x).toInt.natAbs ≤ c)
    (hQ : OnField s.field P fun y x => (Q y x).toInt.natAbs ≤ c) : LeavesWithin i s l c := by
  obtain ⟨P', hexec, hw, hh, hluma, hchromaI, hchromaQ, -⟩ := h
  have hbound {p b : Nat} {f : Nat → Nat → Sample}
      (hread : ∀ y x, y < P.h → y % 2 = parity s.field → x < P.w → P'.read p y x = f y x)
      (hf : OnField s.field P fun y x => (f y x).toInt.natAbs ≤ b) :
      OnField s.field P' fun y x => (P'.read p y x).toInt.natAbs ≤ b := by
    intro y hy x hx hpar
    rw [hw] at hx
    rw [hh] at hy
    rw [hread y x hy hpar hx]
    exact hf y hy x hx hpar
  exact ⟨P', hexec, hbound hluma hY, hbound hchromaI hI, hbound hchromaQ hQ⟩

variable (hs : s.runsOn P) (hP : FieldWithin s.field l c P)
include hP

/-- A luma filter whose values stay within `l'`. -/
theorem leavesWithin_of_lumaFilter {out : Nat → Nat → F64} (hl' : l' ≤ 2147483647)
    (hrule : ∀ Y : Nat → Nat → Sample, OnField s.field P (fun y x => f2s (out y x) = some (Y y x)) →
      passGives i s P Y (P.read planeI) (P.read planeQ) s.draws)
    (hout : OnField s.field P fun y x => IntLe l' (out y x)) : LeavesWithin i s l' c := by
  have hvalue : OnField s.field P fun y x =>
      f2s (out y x) = some ((f2s (out y x)).getD 0#32) ∧ ((f2s (out y x)).getD 0#32).toInt.natAbs ≤ l' := by
    intro y hy x hx hpar
    obtain ⟨v, hv, hle⟩ := (hout y hy x hx hpar).f2s_eq_some hl'
    rw [hv]
    exact ⟨rfl, hle⟩
  exact leavesWithin_of_passGives (hrule _ fun y hy x hx hpar => (hvalue y hy x hx hpar).1)
    (fun y hy x hx hpar => (hvalue y hy x hx hpar).2) hP.chromaI hP.chromaQ

include hs

theorem vchroma_leavesWithin (hc : c ≤ 2147483647)
    (hout : ∀ p, p = planeI ∨ p = planeQ → OnField s.field P fun y x =>
      IntLe c (lpSeq3 (alphaOf fsc4 (tapeSpeed s.regs).chromaCut) (rowInput P p y) x)) :
    LeavesWithin .vchroma s l c := by
  have hpulls := pulls_chromaCut s.regs
  have hlow (p : Nat) (hp : p = planeI ∨ p = planeQ)
      (hkept : OnField s.field P fun y x => (P.read p y x).toInt.natAbs ≤ c) :
      OnField s.field P fun y x => (lowpassedSamples P p (alphaOf fsc4 (tapeSpeed s.regs).chromaCut)
        (tapeSpeed s.regs).chromaDelay y x).toInt.natAbs ≤ c := by
    intro y hy x hx hpar
    rw [lowpassedSamples]
    split
    · next hshift =>
      obtain ⟨v, hv, hle⟩ := (hout p hp y hy _ hshift hpar).f2s_eq_some hc
      rwa [hv]
    · exact hkept y hy x hx hpar
  exact leavesWithin_of_passGives (passGives_of_chromaLowpass hs rfl rfl
    (lowpassedPlane_lowpassedSamples hpulls P s.field planeI _)
    (lowpassedPlane_lowpassedSamples hpulls P s.field planeQ _)) hP.luma (hlow planeI (.inl rfl) hP.chromaI)
    (hlow planeQ (.inr rfl) hP.chromaQ)

/-- The mean of two samples is no larger than both, rounded up or not (R277). -/
theorem vblend_leavesWithin : LeavesWithin .vblend s l c := by
  have hmean (p : Nat) (hbound : OnField s.field P fun y x => (P.read p y x).toInt.natAbs ≤ c) :
      OnField s.field P fun y x => (blend (sampleAbove P p y x) (P.read p y x)).toInt.natAbs ≤ c := by
    intro y hy x hx hpar
    have habove : (sampleAbove P p y x).toInt.natAbs ≤ c := by
      rw [toInt_sampleAbove]
      split
      · exact Nat.zero_le _
      · exact hbound (y - 2) (by omega) x hx (by omega)
    have hcur := hbound y hy x hx hpar
    rw [blend, toInt_sampleOfInt (inS32_mean ..), tdiv, Int.natAbs_tdiv]
    exact Nat.le_of_lt_succ (Nat.div_lt_of_lt_mul (by simp only [Int.reduceAbs]; omega))
  exact leavesWithin_of_passGives (vblend_passGives hs) hP.luma (hmean planeI hP.chromaI) (hmean planeQ hP.chromaQ)

theorem mod_leavesWithin (hfit : l + c * s.regs.scAmp.toNat / 50 ≤ 2147483647) :
    LeavesWithin .mod s (l + c * s.regs.scAmp.toNat / 50) 0 := by
  have hvalue : OnField s.field P fun y x => (modValue s P y x).natAbs ≤ l + c * s.regs.scAmp.toNat / 50 := by
    intro y hy x hx hpar
    have hluma := hP.luma y hy x hx hpar
    have hcarrier := natAbs_carrierAt_le (amp := s.regs.scAmp.toNat) (subcarrierPhase s.regs s.field y + x)
      (hP.chromaI y hy x hx hpar) (hP.chromaQ y hy x hx hpar)
    exact (Int.natAbs_add_le _ _).trans (Nat.add_le_add hluma hcarrier)
  have hfits : OnField s.field P fun y x => inS32 (modValue s P y x) = true := by
    intro y hy x hx hpar
    have := hvalue y hy x hx hpar
    exact decide_eq_true (by omega)
  exact leavesWithin_of_passGives ((modAddsCarrier s P hs).1 hfits)
    (fun y hy x hx hpar => natAbs_toInt_ofInt_le (hfits y hy x hx hpar) (hvalue y hy x hx hpar))
    (fun _ _ _ _ _ => Nat.zero_le _) (fun _ _ _ _ _ => Nat.zero_le _)

theorem demod_leavesWithin (hl : 100 * l ≤ 2147483647) : LeavesWithin (.demod true) s l (100 * l) := by
  have hrow (y : Nat) (hy : y < P.h) (hpar : y % 2 = parity s.field) (x : Int) :
      (sampleAt P planeY y x).natAbs ≤ l := by
    rw [sampleAt]
    split
    · exact hP.luma y hy x.toNat (by omega) hpar
    · exact Nat.zero_le _
  have hfits (y : Nat) (hy : y < P.h) (x : Nat) (hpar : y % 2 = parity s.field) :=
    demodFits_of_natAbs_le (hrow y hy hpar) hl s.regs.scAmp.toNat (subcarrierPhase s.regs s.field y) x
  exact leavesWithin_of_passGives
    (((demodRecoversChroma s P true hs).1 s.regs.scAmp.toNat rfl).1 fun y hy x _ hpar => hfits y hy x hpar)
    (fun y hy x _ hpar => natAbs_toInt_ofInt_le (inS32_blurAt ..) (natAbs_blurAt_le (hrow y hy hpar) x))
    (fun y hy x _ hpar => natAbs_toInt_ofInt_le (hfits y hy x hpar).2.1 (natAbs_demodValue_le (hrow y hy hpar) ..))
    (fun y hy x _ hpar => natAbs_toInt_ofInt_le (hfits y hy x hpar).2.2 (natAbs_demodValue_le (hrow y hy hpar) ..))

end

end Sys2Proof.Machine
end

section
/-!
PROOFS. `VHS` completes (45_vhs_stage.md R281): where none of its commands faults, on rows of zeros, and on
picture content. The commands are followed one after another by what they leave on the rows of the field.
-/
namespace Sys2Proof.Machine

/-! ## Planes that read the same (20_memory.md R70, log 9) -/

theorem read_of_mem {m : Memory} (hm : m.Pairwise (fun a b => a.1 < b.1)) {e : Nat × Sample} (he : e ∈ m) :
    Memory.read m e.1 = e.2 := by
  induction m with
  | nil => cases he
  | cons e' m ih =>
    obtain ⟨hlt, hm'⟩ := List.pairwise_cons.mp hm
    rcases List.mem_cons.mp he with rfl | he
    · exact if_pos rfl
    · exact (if_neg (hlt e he).ne).trans (ih hm' he)

theorem mem_of_read {m : Memory} {a : Nat} (h : Memory.read m a ≠ 0#32) : (a, Memory.read m a) ∈ m := by
  induction m with
  | nil => exact absurd rfl h
  | cons e m ih =>
    obtain ⟨k, v⟩ := e
    rw [Memory.read] at h ⊢
    split
    · next hk => exact hk ▸ List.mem_cons_self
    · next hk =>
      rw [if_neg hk] at h
      exact List.mem_cons_of_mem _ (ih h)

/-- Two memories in canonical form that read the same are the same. -/
theorem memory_ext {m m' : Memory} (hm : Memory.wf m = true) (hm' : Memory.wf m' = true)
    (h : ∀ a, Memory.read m a = Memory.read m' a) : m = m' := by
  obtain ⟨hsorted, hnonzero⟩ := (wf_iff m).mp hm
  obtain ⟨hsorted', hnonzero'⟩ := (wf_iff m').mp hm'
  have hsub {l l' : Memory} (hl : l.Pairwise (fun a b => a.1 < b.1)) (hne : ∀ e ∈ l, e.2 ≠ 0#32)
      (hread : ∀ a, Memory.read l a = Memory.read l' a) (e : Nat × Sample) (he : e ∈ l) : e ∈ l' := by
    have hval : Memory.read l' e.1 = e.2 := (hread e.1).symm.trans (read_of_mem hl he)
    have hmem := mem_of_read (m := l') (a := e.1) (hval ▸ hne e he)
    rwa [hval] at hmem
  have hnodup {l : Memory} (hl : l.Pairwise (fun a b => a.1 < b.1)) : l.Nodup :=
    hl.imp fun hlt heq => hlt.ne (congrArg Prod.fst heq)
  have hperm : m.Perm m' := (List.perm_ext_iff_of_nodup (hnodup hsorted) (hnodup hsorted')).mpr fun e =>
    ⟨hsub hsorted hnonzero h e, hsub hsorted' hnonzero' (fun a => (h a).symm) e⟩
  exact hperm.eq_of_pairwise (fun _ _ _ _ hlt hlt' => absurd hlt hlt'.asymm) hsorted hsorted'

/-- What a stage leaves of planes that are all 0 on the rows of the field, where it leaves them all 0 there. -/
theorem PlanesKept.eq_of_zero {field : BitVec 64} {P P' : Planes} (h : PlanesKept field P P') (hwf : P.wf = true)
    (hP : FieldWithin field 0 0 P) (hP' : FieldWithin field 0 0 P') : P' = P := by
  have hzero {v : Sample} (hv : v.toInt.natAbs ≤ 0) : v = 0#32 :=
    BitVec.eq_of_toInt_eq (Int.natAbs_eq_zero.mp (Nat.le_zero.mp hv))
  have hread (a : Nat) : Memory.read P'.cells a = Memory.read P.cells a := by
    by_cases ha : inField field P a
    · obtain ⟨p, y, x, hp, hy, hpar, hx, rfl⟩ := ha
      have hy' : y < P'.h := h.height ▸ hy
      have hx' : x < P'.w := h.width ▸ hx
      obtain rfl | rfl | rfl : p = planeY ∨ p = planeI ∨ p = planeQ := by simp only [planeY, planeI, planeQ]; omega
      · exact (hzero (hP'.luma y hy' x hx' hpar)).trans (hzero (hP.luma y hy x hx hpar)).symm
      · exact (hzero (hP'.chromaI y hy' x hx' hpar)).trans (hzero (hP.chromaI y hy x hx hpar)).symm
      · exact (hzero (hP'.chromaQ y hy' x hx' hpar)).trans (hzero (hP.chromaQ y hy x hx hpar)).symm
    · exact h.frame a ha
  obtain ⟨-, hmem, -⟩ := (planes_wf_iff P).mp hwf
  obtain ⟨-, hmem', -⟩ := (planes_wf_iff P').mp (h.canonical hwf)
  have hcells := memory_ext hmem' hmem hread
  obtain ⟨w, height, cells⟩ := P
  obtain ⟨w', height', cells'⟩ := P'
  obtain rfl : w' = w := h.width
  obtain rfl : height' = height := h.height
  exact congrArg _ hcells

/-! ## The steps of VHS make no draw (R281) -/

/-- A stage that completes leaves the draws as they were. -/
def CompletesWithoutDraws (st : Stage) : Prop := ∀ g field P d P' d', st g field P d = .done P' d' → d' = d

theorem passRows_draws {κ : Type} {f : κ → DrawSource → Nat → Row → RowResult κ}
    (hf : ∀ k d y r k' r' d', f k d y r = .done k' r' d' → d' = d) (ys : List Nat) {k : κ} {d d' : DrawSource}
    {P P' : Planes} (h : passRows f ys k d P = .done P' d') : d' = d := by
  induction ys generalizing k d P with
  | nil =>
    obtain ⟨-, rfl⟩ := StageResult.done.inj h
    rfl
  | cons y ys ih =>
    rw [passRows] at h
    cases hrow : f k d y (P.row y) with
    | done k₁ r d₁ =>
      rw [hrow] at h
      exact (ih h).trans (hf _ _ _ _ _ _ _ hrow)
    | fault c d₁ =>
      rw [hrow] at h
      cases h

theorem fieldPass_draws {κ : Type} {f : κ → DrawSource → Nat → Row → RowResult κ}
    (hf : ∀ k d y r k' r' d', f k d y r = .done k' r' d' → d' = d) {k : κ} {field : BitVec 64} {d d' : DrawSource}
    {P P' : Planes} (h : fieldPass f k field P d = .done P' d') : d' = d := by
  unfold fieldPass at h
  split at h
  · next hpass =>
    obtain ⟨rfl, rfl⟩ := StageResult.done.inj h
    exact passRows_draws hf _ hpass
  · cases h

theorem rowOrOverflow_draws {d d' : DrawSource} {o : Option Row} {k : Unit} {r : Row}
    (h : rowOrOverflow d o = .done k r d') : d' = d := by
  cases o with
  | none => cases h
  | some r' =>
    obtain ⟨-, -, rfl⟩ := RowResult.done.inj h
    rfl

theorem vblendStage_completesWithoutDraws : CompletesWithoutDraws vblendStage := fun _ _ _ _ _ _ =>
  fieldPass_draws fun _ _ _ _ _ _ _ h => (RowResult.done.inj h).2.2.symm

theorem demodStage_completesWithoutDraws (m : Bool) : CompletesWithoutDraws (demodStage m) := fun g _ _ _ _ _ h => by
  unfold demodStage at h
  split at h
  · cases h
  · exact fieldPass_draws (fun _ _ _ _ _ _ _ => rowOrOverflow_draws) h

theorem runStages_completesWithoutDraws {l : List Stage} (hl : ∀ st ∈ l, CompletesWithoutDraws st) :
    CompletesWithoutDraws (runStages l) := by
  induction l with
  | nil => exact fun _ _ _ _ _ _ h => (StageResult.done.inj h).2.symm
  | cons st l ih =>
    obtain ⟨hst, hl'⟩ := List.forall_mem_cons.mp hl
    intro g field P d P' d' h
    rw [runStages] at h
    split at h
    · next hfirst => exact (ih hl' _ _ _ _ _ _ h).trans (hst _ _ _ _ _ _ hfirst)
    · cases h

theorem vhsStage_completesWithoutDraws : CompletesWithoutDraws vhsStage := fun g => by
  have hpass {f : DrawSource → Nat → Row → Option Row} {field : BitVec 64} {P P' : Planes} {d d' : DrawSource}
      (h : fieldPass (fun _ d y r => rowOrOverflow d (f d y r)) () field P d = .done P' d') : d' = d :=
    fieldPass_draws (fun _ _ _ _ _ _ _ => rowOrOverflow_draws) h
  refine runStages_completesWithoutDraws (l := vhsSteps g) ?_ g
  simp only [vhsSteps, List.forall_mem_append, List.forall_mem_cons]
  refine ⟨⟨⟨⟨fun _ _ _ _ _ _ => hpass, fun _ _ _ _ _ _ => hpass, nofun⟩, forall_mem_ite ?_ nofun⟩,
    fun _ _ _ _ _ _ => hpass, nofun⟩, forall_mem_ite nofun ?_⟩
  · exact List.forall_mem_singleton.mpr vblendStage_completesWithoutDraws
  · exact List.forall_mem_cons.mpr ⟨fun _ _ _ _ _ _ => hpass,
      List.forall_mem_singleton.mpr (demodStage_completesWithoutDraws true)⟩

/-! ## VHS without a fault -/

/-- Where the commands of `VHS` do not end in a fault they leave new planes and an answer, and so does `VHS`. -/
theorem exec_vhs_of_noFault {s : State} {P : Planes} (hs : s.runsOn P)
    (hfault : ∀ c t, issueAll (vhsProgram s.regs) s ≠ takeFault c t) :
    ∃ P', issueAll (vhsProgram s.regs) s = s.afterPass P' s.draws ∧ exec .vhs s = .next (s.afterPass P' s.draws)
      ∧ PlanesKept s.field P P' := by
  have hmacro := exec_vhs_eq_issueAll s
  have hend : stageCommand vhsStage id s = issueAll (vhsProgram s.regs) s := Host.Outcome.next.inj hmacro
  obtain ⟨-, hP, -⟩ := hs
  rcases stageCommand_cases vhsStage id s with ⟨-, h⟩ | ⟨Q, -, hQ, ⟨P', d, hres, h⟩ | ⟨c, P', d, -, h⟩⟩
  · exact absurd (hend.symm.trans h) (hfault _ _)
  · obtain rfl : P = Q := Option.some.inj (hP.symm.trans hQ)
    obtain rfl := vhsStage_completesWithoutDraws _ _ _ _ _ _ hres
    have hall : issueAll (vhsProgram s.regs) s = s.afterPass P' s.draws := hend.symm.trans h
    have hkept := vhsStage_keeps s.regs s.field P s.draws
    rw [hres] at hkept
    exact ⟨P', hall, hmacro.trans (congrArg _ hall), hkept⟩
  · exact absurd (hend.symm.trans h) (hfault _ _)

/-! ## What the commands leave on the rows of the field -/

/-- In RUN under the configuration `g`, with luma within `l` and chroma within `c` on the rows of the field. -/
def Holds (g : Regs) (field : BitVec 64) (l c : Nat) (t : State) : Prop :=
  ∃ P, t.runsOn P ∧ t.regs = g ∧ t.field = field ∧ FieldWithin field l c P

/-- The command takes such states within `l` and `c` to states within `l'` and `c'`. -/
def Takes (g : Regs) (field : BitVec 64) (i : Instr) (l c l' c' : Nat) : Prop :=
  ∀ s P, s.runsOn P → s.regs = g → s.field = field → FieldWithin field l c P → LeavesWithin i s l' c'

section
variable {g : Regs} {field : BitVec 64} {l c l' c' : Nat} {t : State}

theorem Takes.holds_issue {i : Instr} (hi : isFieldCommand i = true) (h : Takes g field i l c l' c')
    (ht : Holds g field l c t) : Holds g field l' c' (issue t i) := by
  obtain ⟨P, hs, rfl, rfl, hP⟩ := ht
  obtain ⟨P', hexec, hP'⟩ := h t P hs rfl rfl hP
  rw [issue_of_exec hexec]
  exact ⟨P', runsOn_afterPass hs hi hexec, rfl, rfl, hP'⟩

/-- The commands of `VHS` never fault where each of them takes what the one before it leaves. -/
theorem holds_vhsProgram {l₁ l₂ l₃ : Nat} (hluma : Takes g field .vluma l c l₁ c)
    (hchroma : Takes g field .vchroma l₁ c l₁ c) (hblend : Takes g field .vblend l₁ c l₁ c)
    (hsharp : Takes g field .vsharp l₁ c l₂ c) (hmod : Takes g field .mod l₂ c l₃ 0)
    (hdemod : Takes g field (.demod true) l₃ 0 l₃ (100 * l₃)) (ht : Holds g field l c t) :
    Holds g field l₂ c (issueAll (vhsProgram g) t) ∨ Holds g field l₃ (100 * l₃) (issueAll (vhsProgram g) t) := by
  have hlowpassed := hchroma.holds_issue rfl (hluma.holds_issue rfl ht)
  have hblended : Holds g field l₁ c (issueAll (if g.vblendEn && !g.pal then [.vblend] else [])
      (issueAll [.vluma, .vchroma] t)) := by
    split
    · exact hblend.holds_issue rfl hlowpassed
    · exact hlowpassed
  have hsharpened := hsharp.holds_issue rfl hblended
  rw [vhsProgram, issueAll_append, issueAll_append, issueAll_append]
  split
  · exact .inl hsharpened
  · exact .inr (hdemod.holds_issue rfl (hmod.holds_issue rfl hsharpened))

/-- A state that holds such planes has not faulted. -/
theorem Holds.ne_takeFault (h : Holds g field l c t) (code : FaultCode) (u : State) : t ≠ takeFault code u := by
  obtain ⟨P, ⟨hphase, -⟩, -⟩ := h
  rintro rfl
  rw [takeFault_phase] at hphase
  cases hphase

end

theorem vblend_takes (g : Regs) (field : BitVec 64) (l c : Nat) : Takes g field .vblend l c l c := by
  rintro s P hs rfl rfl hP
  exact vblend_leavesWithin hs hP

theorem mod_takes {g : Regs} (field : BitVec 64) {l c : Nat} (hfit : l + c * g.scAmp.toNat / 50 ≤ 2147483647) :
    Takes g field .mod l c (l + c * g.scAmp.toNat / 50) 0 := by
  rintro s P hs rfl rfl hP
  exact mod_leavesWithin hs hP hfit

theorem demod_takes (g : Regs) (field : BitVec 64) {l c : Nat} (hl : 100 * l ≤ 2147483647) :
    Takes g field (.demod true) l c l (100 * l) := by
  rintro s P hs rfl rfl hP
  exact demod_leavesWithin hs hP hl

/-! ## Rows of zeros -/

/-- A lowpass of the tape speeds keeps a zero (R271). -/
theorem lpValue_speedRow_zero (n : Nat) : lpValue (speedRow n).1 0#64 0#64 = 0#64
    ∧ lpValue (speedRow n).2.1 0#64 0#64 = 0#64 ∧ lpValue (speedRow n).2.2.2 0#64 0#64 = 0#64 := by
  unfold speedRow
  split
  · decide +kernel
  · split
    · decide +kernel
    · decide +kernel

theorem rowInput_eq_zero {P : Planes} {p y x : Nat} (h : (P.read p y x).toInt.natAbs ≤ 0) :
    rowInput P p y x = 0#64 := by
  rw [rowInput, Int.natAbs_eq_zero.mp (Nat.le_zero.mp h)]
  decide +kernel

theorem intLe_of_eq_zero {v : F64} (h : v = 0#64) : IntLe 0 v := by
  subst h
  exact ⟨rfl, Nat.zero_le _⟩

theorem vluma_takes_zero (g : Regs) (field : BitVec 64) : Takes g field .vluma 0 0 0 0 := by
  rintro s P hs rfl rfl hP
  obtain ⟨hzero, -⟩ := lpValue_speedRow_zero s.regs.vhsSpeed.toNat
  refine leavesWithin_of_lumaFilter hP (by decide) (vlumaBandlimitsLuma s P hs).1 fun y hy x hx hpar =>
    intLe_of_eq_zero (vlumaValue_eq_zero hzero fun u hu => ?_)
  exact rowInput_eq_zero (hP.luma y hy u (by omega) hpar)

theorem vsharp_takes_zero {g : Regs} (field : BitVec 64) (hgain : isFinite g.vhsSharpen = true) :
    Takes g field .vsharp 0 0 0 0 := by
  rintro s P hs rfl rfl hP
  obtain ⟨-, -, hzero⟩ := lpValue_speedRow_zero s.regs.vhsSpeed.toNat
  refine leavesWithin_of_lumaFilter hP (by decide) (vsharpSharpensLuma s P hs).1 fun y hy x hx hpar =>
    intLe_of_eq_zero (vsharpValue_eq_zero hzero (fun u hu => ?_) hgain)
  exact rowInput_eq_zero (hP.luma y hy u (by omega) hpar)

theorem vchroma_takes_zero (g : Regs) (field : BitVec 64) : Takes g field .vchroma 0 0 0 0 := by
  rintro s P hs rfl rfl hP
  obtain ⟨-, hzero, -⟩ := lpValue_speedRow_zero s.regs.vhsSpeed.toNat
  simp only [speedRow_eq] at hzero
  refine vchroma_leavesWithin hs hP (by decide) fun p hp y hy x hx hpar =>
    intLe_of_eq_zero (lpSeq3_eq_zero hzero fun u hu => rowInput_eq_zero ?_)
  rcases hp with rfl | rfl
  · exact hP.chromaI y hy u (by omega) hpar
  · exact hP.chromaQ y hy u (by omega) hpar

/-- On rows of zeros the commands of `VHS` leave rows of zeros. -/
theorem holds_vhsProgram_zero {g : Regs} {field : BitVec 64} {t : State} (hgain : isFinite g.vhsSharpen = true)
    (ht : Holds g field 0 0 t) : Holds g field 0 0 (issueAll (vhsProgram g) t) := by
  have hamp : 0 + 0 * g.scAmp.toNat / 50 = 0 := by omega
  have hmod := mod_takes (g := g) field (l := 0) (c := 0) (by omega)
  rw [hamp] at hmod
  exact (holds_vhsProgram (vluma_takes_zero g field) (vchroma_takes_zero g field) (vblend_takes g field 0 0)
    (vsharp_takes_zero field hgain) hmod (demod_takes g field (by decide)) ht).elim id id

/-- Settles O38: without a fault `VHS` completes; rows of zeros stay zeros, so the planes stay as they were. -/
theorem vhsCompletes : Obligations.VhsCompletes := by
  refine fun s P hs => ⟨fun hresp => ?_, fun hgain hzero => ?_⟩
  · obtain ⟨P', -, hexec, hkept⟩ := exec_vhs_of_noFault hs fun c t h => by
      rw [h, takeFault_resp] at hresp
      cases hresp
    exact ⟨P', hexec, hkept.width, hkept.height⟩
  · have hread {p : Nat} (hp : p < 3) : OnField s.field P fun y x => (P.read p y x).toInt.natAbs ≤ 0 := by
      intro y hy x hx hpar
      rw [hzero p hp y hy x hx hpar]
      exact Nat.le_refl 0
    have hP : FieldWithin s.field 0 0 P := ⟨hread (by decide), hread (by decide), hread (by decide)⟩
    have hend := holds_vhsProgram_zero hgain ⟨P, hs, rfl, rfl, hP⟩
    obtain ⟨P', hall, hexec, hkept⟩ := exec_vhs_of_noFault hs hend.ne_takeFault
    rw [hall] at hend
    obtain ⟨P'', ⟨-, hP'', -⟩, -, -, hwithin⟩ := hend
    obtain rfl : P' = P'' := Option.some.inj hP''
    rwa [hkept.eq_of_zero hs.canonical hP hwithin] at hexec

/-! ## Picture content -/

/-- The luma coefficients of the tape speeds lie in `[0, 1]` (R271). -/
theorem inUnit_speedRow (n : Nat) : InUnit (speedRow n).1 ∧ InUnit (speedRow n).2.2.2 := by
  unfold speedRow
  simp only [inUnit_iff]
  split
  · decide
  · split
    · decide
    · decide

theorem absLe_rowInput {P : Planes} {p y x k : Nat} (hk : k ≤ 100) (h : (P.read p y x).toInt.natAbs ≤ 2 ^ k) :
    AbsLe k (rowInput P p y x) :=
  absLe_i2f hk h

theorem vluma_takes {g : Regs} (field : BitVec 64) {k c : Nat} (hk : k ≤ 28) :
    Takes g field .vluma (2 ^ k) c (5 * 2 ^ k) c := by
  have hpow : 2 ^ k ≤ 2 ^ 28 := Nat.pow_le_pow_right (by decide) hk
  rintro s P hs rfl rfl hP
  obtain ⟨hunit, -⟩ := inUnit_speedRow s.regs.vhsSpeed.toNat
  exact leavesWithin_of_lumaFilter hP (by omega) (vlumaBandlimitsLuma s P hs).1 fun y hy x hx hpar =>
    intLe_vlumaValue (by omega) hunit fun u hu => absLe_rowInput (by omega) (hP.luma y hy u (by omega) hpar)

theorem vsharp_takes {g : Regs} (field : BitVec 64) {k c : Nat} (hk : k ≤ 26) (hgain : AbsLe 2 g.vhsSharpen) :
    Takes g field .vsharp (2 ^ k) c (17 * 2 ^ k) c := by
  have hpow : 2 ^ k ≤ 2 ^ 26 := Nat.pow_le_pow_right (by decide) hk
  rintro s P hs rfl rfl hP
  obtain ⟨-, hunit⟩ := inUnit_speedRow s.regs.vhsSpeed.toNat
  exact leavesWithin_of_lumaFilter hP (by omega) (vsharpSharpensLuma s P hs).1 fun y hy x hx hpar =>
    intLe_vsharpValue (by omega) hunit hgain fun u hu => absLe_rowInput (by omega) (hP.luma y hy u (by omega) hpar)

theorem vchroma_takes {g : Regs} (field : BitVec 64) {k l : Nat} (hk : k ≤ 30) :
    Takes g field .vchroma l (2 ^ k) l (2 ^ k) := by
  have hpow : 2 ^ k ≤ 2 ^ 30 := Nat.pow_le_pow_right (by decide) hk
  rintro s P hs rfl rfl hP
  have hunit := (pulls_chromaCut s.regs).inUnit
  refine vchroma_leavesWithin hs hP (by omega) fun p hp y hy x hx hpar => intLe_two_pow_iff.mpr ?_
  refine .lpSeq3 (by omega) hunit fun u hu => absLe_rowInput (by omega) ?_
  rcases hp with rfl | rfl
  · exact hP.chromaI y hy u (by omega) hpar
  · exact hP.chromaQ y hy u (by omega) hpar

theorem FieldWithin.mono {field : BitVec 64} {l l' c : Nat} {P : Planes} (h : FieldWithin field l c P) (hl : l ≤ l') :
    FieldWithin field l' c P :=
  ⟨fun y hy x hx hpar => (h.luma y hy x hx hpar).trans hl, h.chromaI, h.chromaQ⟩

/-- Luma of at most `2 ^ 17` becomes at most `5 * 2 ^ 17 ≤ 2 ^ 20` band-limited and `17 * 2 ^ 20` sharpened; the carrier
adds at most twice the chroma, and a scaled residual is at most 100 times what results. -/
theorem picture_noFault {g : Regs} {field : BitVec 64} {t : State} (hamp : g.scAmp.toNat ≤ 100)
    (hgain : AbsLe 2 g.vhsSharpen) (ht : Holds g field (2 ^ 17) (2 ^ 17) t) (code : FaultCode) (u : State) :
    issueAll (vhsProgram g) t ≠ takeFault code u := by
  have hluma : Takes g field .vluma (2 ^ 17) (2 ^ 17) (2 ^ 20) (2 ^ 17) := fun s P hs hg hfield hP => by
    obtain ⟨P', hexec, hP'⟩ := vluma_takes field (by decide) s P hs hg hfield hP
    exact ⟨P', hexec, hP'.mono (by decide)⟩
  rcases holds_vhsProgram hluma (vchroma_takes field (by decide)) (vblend_takes g field _ _)
    (vsharp_takes field (by decide) hgain) (mod_takes field (by omega)) (demod_takes g field (by omega)) ht with h | h
  · exact h.ne_takeFault code u
  · exact h.ne_takeFault code u

/-- Settles O39: on picture content no step of `VHS` overflows. -/
theorem vhsCompletesOnPictureContent : Obligations.VhsCompletesOnPictureContent := by
  intro s P hs hamp hgain hbound
  have hread {p : Nat} (hp : p < 3) : OnField s.field P fun y x => (P.read p y x).toInt.natAbs ≤ 2 ^ 17 := by
    intro y hy x hx _
    have := hbound p hp y hy x hx
    omega
  have hP : FieldWithin s.field (2 ^ 17) (2 ^ 17) P := ⟨hread (by decide), hread (by decide), hread (by decide)⟩
  have hfour : (4 : Int) = (2 ^ 2 : Nat) := rfl
  rw [hfour, within_two_pow_iff (by decide)] at hgain
  obtain ⟨P', -, hexec, hkept⟩ := exec_vhs_of_noFault hs (picture_noFault hamp hgain ⟨P, hs, rfl, rfl, hP⟩)
  exact ⟨P', hexec, hkept.width, hkept.height, hkept.frame⟩

end Sys2Proof.Machine
end

section
/-!
PROOFS. The field sequencer (46_field_sequencer.md): NEXTFIELD, and RUNFIELD with the emulation off and on a pipeline
whose only steps that do anything are MOD and DEMOD.
-/
namespace Sys2Proof.Machine

/-! ## NEXTFIELD (R304) -/

theorem exec_nextfield_run {s : State} (hphase : s.phase = .run) :
    exec .nextfield s = .next { s with field := s.field + 1#64, resp := some (.ok 0#64) } :=
  congrArg _ (if_pos hphase)

/-- Settles O42: in RUN `NEXTFIELD` is the 64-bit increment of `FIELD` and an answer. -/
theorem nextfieldAdvances : Obligations.NextfieldAdvances :=
  ⟨decode_operand (op := 0x39) (n := 0) rfl rfl rfl,
    fun s hphase => ⟨_, exec_nextfield_run hphase, rfl, BitVec.toNat_add s.field 1#64⟩,
    fun _ hphase => exec_refused hphase rfl⟩

/-! ## The program of RUNFIELD (R302) -/

theorem runfieldProgram_of_emuEn_false {g : Regs} (h : g.emuEn = false) : runfieldProgram g = [.nextfield] := by
  simp [runfieldProgram, h]

/-- With the emulation off, `RUNFIELD` is `NEXTFIELD`. -/
theorem exec_runfield_of_emuEn_false {s : State} (hphase : s.phase = .run) (hplanes : s.planes.isSome = true)
    (h : s.regs.emuEn = false) :
    exec .runfield s = .next { s with field := s.field + 1#64, resp := some (.ok 0#64) } := by
  rw [exec_runfield_eq_issueAll fun _ => hplanes, runfieldProgram_of_emuEn_false h]
  exact congrArg _ (issue_of_exec (exec_nextfield_run hphase))

/-- The emulation is on, and everything of the pipeline that can be off is off: the filters at both ends, head
switching, VHS, preemphasis, the noises and the dropout (R302, R306). -/
structure Regs.Quiet (g : Regs) : Prop where
  emuEn : g.emuEn = true
  inClp : g.inClp = false
  outClp : g.outClp = false
  hswEn : g.hswEn = false
  vhsEn : g.vhsEn = false
  compPre : isZero g.compPre = true
  videoNoise : g.videoNoise = 0#64
  chromaNoise : g.chromaNoise = 0#64
  chromaPhaseNoise : g.chromaPhaseNoise = 0#64
  chromaLoss : g.chromaLoss = 0#64

theorem Regs.Quiet.runfieldProgram_eq {g : Regs} (h : g.Quiet) : runfieldProgram g
    = [.mod, .pre, .ynoise, .demod false, .cnoise, .cphase, .cdrop, .nextfield] := by
  simp [runfieldProgram, h.emuEn, h.inClp, h.outClp, h.hswEn, h.vhsEn]

/-! ## What the steps of a quiet pipeline leave (R205, R215, R300) -/

/-- A step that changes nothing but the response leaves the state after a completed pass as it is. -/
theorem issue_afterPass_of_idle {i : Instr} {s : State} {P : Planes} {d : DrawSource}
    (h : exec i (s.afterPass P d) = .next { s.afterPass P d with resp := some (.ok 0#64) }) :
    issue (s.afterPass P d) i = s.afterPass P d :=
  issue_of_exec h

theorem stageCommand_congr {st st' : Stage} {s : State} (h : st s.regs = st' s.regs) (after : State → State) :
    stageCommand st after s = stageCommand st' after s := by
  simp only [stageCommand, withPlanes, inRun, h]

/-- Without preemphasis both modes of `DEMOD` scale by the amplitude of `MOD` (R215, R216). -/
theorem exec_demod_of_isZero_compPre {s : State} (h : isZero s.regs.compPre = true) (m : Bool) :
    exec (.demod m) s = exec (.demod true) s := by
  have hamp (m' : Bool) : demodAmplitude s.regs m' = some (s.regs.scAmp.toNat : Int) :=
    if_pos (by rw [h, Bool.or_true])
  have hstage : demodStage m s.regs = demodStage true s.regs := by
    funext field P d
    rw [demodStage_of_some field P d (hamp m), demodStage_of_some field P d (hamp true)]
  exact congrArg _ (stageCommand_congr hstage id)

/-- `MOD` and then `DEMOD` complete on samples within 21 bits: luma of at most `2 ^ 20` and twice that of carrier, and
a hundred times their sum as a bound of the scaled residual. -/
theorem mod_demod_complete {s : State} {P : Planes} (hs : s.runsOn P) (hpre : isZero s.regs.compPre = true)
    (hamp : s.regs.scAmp.toNat ≤ 100) (hP : FieldWithin s.field (2 ^ 20) (2 ^ 20) P) :
    ∃ P₁ P₂, exec .mod s = .next (s.afterPass P₁ s.draws) ∧ (s.afterPass P₁ s.draws).runsOn P₁
      ∧ exec (.demod false) (s.afterPass P₁ s.draws) = .next (s.afterPass P₂ s.draws)
      ∧ (s.afterPass P₂ s.draws).runsOn P₂ := by
  obtain ⟨P₁, hmod, hP₁⟩ := mod_leavesWithin hs hP (by omega)
  have hs₁ := runsOn_afterPass hs rfl hmod
  obtain ⟨P₂, hdemod, -⟩ := demod_leavesWithin hs₁ hP₁ (by omega)
  have hs₂ := runsOn_afterPass hs₁ rfl hdemod
  have hmodes := exec_demod_of_isZero_compPre (s := s.afterPass P₁ s.draws) hpre false
  exact ⟨P₁, P₂, hmod, hs₁, hmodes.trans hdemod, hs₂⟩

/-- On a quiet pipeline `RUNFIELD` is `MOD`, `DEMOD` and the advance of `FIELD`. -/
theorem exec_runfield_of_quiet {s : State} {P₁ P₂ : Planes} (hs : s.phase = .run → s.planes.isSome = true)
    (hquiet : s.regs.Quiet) (hmod : exec .mod s = .next (s.afterPass P₁ s.draws))
    (hs₁ : (s.afterPass P₁ s.draws).runsOn P₁)
    (hdemod : exec (.demod false) (s.afterPass P₁ s.draws) = .next (s.afterPass P₂ s.draws))
    (hs₂ : (s.afterPass P₂ s.draws).runsOn P₂) :
    exec .runfield s
      = .next { s with planes := some P₂, field := s.field + 1#64, resp := some (.ok 0#64) } := by
  obtain ⟨hphase₁, hplanes₁, -⟩ := hs₁
  obtain ⟨hphase₂, hplanes₂, -⟩ := hs₂
  obtain ⟨hpre, hynoise, -⟩ := stageWithZeroAmountDoesNothing _ P₁ hphase₁ hplanes₁
  obtain ⟨-, -, hcnoise, hcphase, hcdrop⟩ := stageWithZeroAmountDoesNothing _ P₂ hphase₂ hplanes₂
  have hmodulated : issueAll [.mod, .pre, .ynoise] s = s.afterPass P₁ s.draws := by
    simp only [issueAll, List.foldl_cons, List.foldl_nil, issue_of_exec hmod,
      issue_afterPass_of_idle (hpre hquiet.compPre), issue_afterPass_of_idle (hynoise hquiet.videoNoise)]
  have hdemodulated : issueAll [.demod false, .cnoise, .cphase, .cdrop] (s.afterPass P₁ s.draws)
      = s.afterPass P₂ s.draws := by
    simp only [issueAll, List.foldl_cons, List.foldl_nil, issue_of_exec hdemod,
      issue_afterPass_of_idle (hcnoise hquiet.chromaNoise), issue_afterPass_of_idle (hcphase hquiet.chromaPhaseNoise),
      issue_afterPass_of_idle (hcdrop hquiet.chromaLoss)]
  have hprogram : runfieldProgram s.regs
      = [.mod, .pre, .ynoise] ++ ([.demod false, .cnoise, .cphase, .cdrop] ++ [.nextfield]) :=
    hquiet.runfieldProgram_eq
  rw [exec_runfield_eq_issueAll hs, hprogram, issueAll_append, hmodulated, issueAll_append, hdemodulated]
  exact congrArg _ (issue_of_exec (exec_nextfield_run hphase₂))

/-- Settles O41: with the emulation off the program of `RUNFIELD` is `NEXTFIELD`; on a quiet pipeline its steps between
`MOD`, `DEMOD` and `NEXTFIELD` do nothing. -/
theorem runfieldCompletesAndAdvances : Obligations.RunfieldCompletesAndAdvances := by
  refine ⟨fun s P hphase hP hemu => exec_runfield_of_emuEn_false hphase (by rw [hP]; rfl) hemu, ?_⟩
  intro s P hs hemu hin hout hhsw hvhs hpre hynoise hcnoise hcphase hcdrop hamp hbound
  have hread {p : Nat} (hp : p < 3) : OnField s.field P fun y x => (P.read p y x).toInt.natAbs ≤ 2 ^ 20 := by
    intro y hy x hx _
    have := hbound p hp y hy x hx
    omega
  obtain ⟨P₁, P₂, hmod, hs₁, hdemod, hs₂⟩ := mod_demod_complete hs hpre hamp
    ⟨hread (by decide), hread (by decide), hread (by decide)⟩
  obtain ⟨-, hP, -⟩ := hs
  have hexec := exec_runfield_of_quiet (fun _ => by rw [hP]; rfl)
    ⟨hemu, hin, hout, hhsw, hvhs, hpre, hynoise, hcnoise, hcphase, hcdrop⟩ hmod hs₁ hdemod hs₂
  obtain ⟨P', hP', hkept⟩ := fieldCommand_planes rfl hP hexec
  obtain rfl : P₂ = P' := Option.some.inj hP'
  have hissue : issueAll [.mod, .demod false] s = s.afterPass P₂ s.draws := by
    rw [issueAll, List.foldl_cons, issue_of_exec hmod, List.foldl_cons, issue_of_exec hdemod, List.foldl_nil]
  exact ⟨P₂, hexec, hissue, hkept.width, hkept.height, hkept.frame⟩

end Sys2Proof.Machine
end

section
/-!
PROOFS. Which commands make draws (00_scope.md R16, 46_field_sequencer.md R306, 70_reset_and_hazards.md R410): stage by
stage and command by command, whether they complete or fault.
-/
namespace Sys2Proof.Machine

/-! ## Stages without draws (R306) -/

/-- The draws a row leaves. -/
def RowResult.draws {κ : Type} : RowResult κ → DrawSource
  | .done _ _ d => d
  | .fault _ d => d

/-- The draws a stage leaves. -/
def StageResult.draws : StageResult → DrawSource
  | .done _ d => d
  | .fault _ _ d => d

/-- Under the configuration `g` the stage leaves the draws as they were, completing or not. -/
def MakesNoDraw (g : Regs) (st : Stage) : Prop := ∀ field P d, (st g field P d).draws = d

theorem draws_rowOrOverflow (d : DrawSource) (o : Option Row) : (rowOrOverflow d o).draws = d := by
  cases o <;> rfl

section
variable {κ : Type} {f : κ → DrawSource → Nat → Row → RowResult κ} (hf : ∀ k d y r, (f k d y r).draws = d)
include hf

theorem draws_passRows (ys : List Nat) (k : κ) (d : DrawSource) (P : Planes) : (passRows f ys k d P).draws = d := by
  induction ys generalizing k d P with
  | nil => rfl
  | cons y ys ih =>
    have hrow := hf k d y (P.row y)
    rw [passRows]
    cases hres : f k d y (P.row y) with
    | done k' r d' =>
      rw [hres] at hrow
      exact (ih k' d' _).trans hrow
    | fault c d' => rwa [hres] at hrow

theorem draws_fieldPass (k : κ) (field : BitVec 64) (P : Planes) (d : DrawSource) :
    (fieldPass f k field P d).draws = d := by
  have hpass := draws_passRows hf (fieldRows field P.h) k d P
  unfold fieldPass
  cases hres : passRows f (fieldRows field P.h) k d P with
  | done P' d' => rwa [hres] at hpass
  | fault c P' d' => rwa [hres] at hpass

end

section
variable (g : Regs)

theorem clpfStage_makesNoDraw (m : Bool) : MakesNoDraw g (clpfStage m) := fun _ _ _ =>
  draws_fieldPass (fun _ _ _ _ => draws_rowOrOverflow ..) ..

theorem modStage_makesNoDraw : MakesNoDraw g modStage := fun _ _ _ =>
  draws_fieldPass (fun _ _ _ _ => draws_rowOrOverflow ..) ..

theorem preStage_makesNoDraw : MakesNoDraw g preStage := fun field P d => by
  unfold preStage
  split
  · rfl
  · refine draws_fieldPass (fun _ d _ r => ?_) ..
    unfold preRow
    split
    · rfl
    · exact draws_rowOrOverflow ..

theorem demodStage_makesNoDraw (m : Bool) : MakesNoDraw g (demodStage m) := fun field P d => by
  unfold demodStage
  split
  · rfl
  · exact draws_fieldPass (fun _ _ _ _ => draws_rowOrOverflow ..) ..

theorem vlumaStage_makesNoDraw : MakesNoDraw g vlumaStage := fun _ _ _ =>
  draws_fieldPass (fun _ _ _ _ => draws_rowOrOverflow ..) ..

theorem vchromaStage_makesNoDraw : MakesNoDraw g vchromaStage := fun _ _ _ =>
  draws_fieldPass (fun _ _ _ _ => draws_rowOrOverflow ..) ..

theorem vblendStage_makesNoDraw : MakesNoDraw g vblendStage := fun _ _ _ =>
  draws_fieldPass (fun _ _ _ _ => rfl) ..

theorem vsharpStage_makesNoDraw : MakesNoDraw g vsharpStage := fun _ _ _ =>
  draws_fieldPass (fun _ _ _ _ => draws_rowOrOverflow ..) ..

end

section
variable {g : Regs}

theorem runStages_makesNoDraw {l : List Stage} (h : ∀ st ∈ l, MakesNoDraw g st) : MakesNoDraw g (runStages l) := by
  induction l with
  | nil => exact fun _ _ _ => rfl
  | cons st l ih =>
    intro field P d
    obtain ⟨hst, hl⟩ := List.forall_mem_cons.mp h
    have hfirst := hst field P d
    rw [runStages]
    cases hres : st g field P d with
    | done P' d' =>
      rw [hres] at hfirst
      exact (ih hl field P' d').trans hfirst
    | fault c P' d' => rwa [hres] at hfirst

theorem vhsStage_makesNoDraw : MakesNoDraw g vhsStage := by
  refine runStages_makesNoDraw (l := vhsSteps g) ?_
  simp only [vhsSteps, List.forall_mem_append, List.forall_mem_cons]
  refine ⟨⟨⟨⟨vlumaStage_makesNoDraw g, vchromaStage_makesNoDraw g, nofun⟩, forall_mem_ite ?_ nofun⟩,
    vsharpStage_makesNoDraw g, nofun⟩, forall_mem_ite nofun ?_⟩
  · exact List.forall_mem_singleton.mpr (vblendStage_makesNoDraw g)
  · exact List.forall_mem_cons.mpr
      ⟨modStage_makesNoDraw g, List.forall_mem_singleton.mpr (demodStage_makesNoDraw g true)⟩

/-! ## Stages whose amount is 0 (R306) -/

/-- Every amount that scales a draw is 0 (R306). -/
structure Regs.Silent (g : Regs) : Prop where
  videoNoise : g.videoNoise = 0#64
  chromaNoise : g.chromaNoise = 0#64
  chromaPhaseNoise : g.chromaPhaseNoise = 0#64
  chromaLoss : g.chromaLoss = 0#64
  hswNoise : isZero g.hswNoise = true
  audHissLevel : g.audHissLevel = 0#64

theorem makesNoDraw_of_done {st : Stage} (h : ∀ field P d, st g field P d = .done P d) : MakesNoDraw g st :=
  fun field P d => by rw [h]; rfl

theorem Regs.Silent.ynoiseStage (h : g.Silent) : MakesNoDraw g ynoiseStage :=
  makesNoDraw_of_done fun _ _ _ => if_pos h.videoNoise

theorem Regs.Silent.cnoiseStage (h : g.Silent) : MakesNoDraw g cnoiseStage :=
  makesNoDraw_of_done fun _ _ _ => if_pos h.chromaNoise

theorem Regs.Silent.cphaseStage (h : g.Silent) : MakesNoDraw g cphaseStage :=
  makesNoDraw_of_done fun _ _ _ => if_pos h.chromaPhaseNoise

theorem Regs.Silent.cdropStage (h : g.Silent) : MakesNoDraw g cdropStage :=
  makesNoDraw_of_done fun _ _ _ => if_pos h.chromaLoss

theorem Regs.Silent.hswStage (h : g.Silent) : MakesNoDraw g hswStage := fun field P d => by
  have hnoise : (switchNoise g d).2 = d := by rw [switchNoise, if_pos h.hswNoise]
  unfold Machine.hswStage
  dsimp only
  split
  · exact hnoise
  · exact hnoise

theorem Regs.Silent.runfieldStage (h : g.Silent) : MakesNoDraw g runfieldStage := by
  refine runStages_makesNoDraw (l := runfieldSteps g) (forall_mem_ite ?_ nofun)
  simp only [List.forall_mem_append, List.forall_mem_cons]
  refine ⟨⟨⟨⟨⟨forall_mem_ite ?_ nofun, ?_⟩, forall_mem_ite ?_ nofun⟩, ?_⟩, forall_mem_ite ?_ nofun⟩,
    forall_mem_ite ?_ nofun⟩
  · exact List.forall_mem_singleton.mpr (clpfStage_makesNoDraw g false)
  · exact ⟨modStage_makesNoDraw g, preStage_makesNoDraw g, h.ynoiseStage, nofun⟩
  · exact List.forall_mem_singleton.mpr h.hswStage
  · exact ⟨demodStage_makesNoDraw g false, h.cnoiseStage, h.cphaseStage, h.cdropStage, nofun⟩
  · exact List.forall_mem_singleton.mpr vhsStage_makesNoDraw
  · exact List.forall_mem_singleton.mpr (clpfStage_makesNoDraw g g.outLite)

end

/-! ## The bodies of the commands -/

section
variable {s : State}

theorem draws_inSetup {body : State → State} (h : (body s).draws = s.draws) : (inSetup body s).draws = s.draws := by
  rcases inSetup_cases body s with ⟨-, hs⟩ | ⟨-, hs⟩
  · rw [hs, h]
  · rw [hs, takeFault_draws]

theorem draws_inRun {body : State → State} (h : (body s).draws = s.draws) : (inRun body s).draws = s.draws := by
  rcases inRun_cases body s with ⟨-, hs⟩ | ⟨-, hs⟩
  · rw [hs, h]
  · rw [hs, takeFault_draws]

theorem draws_withPlanes {body : Planes → State → State} (h : ∀ P, (body P s).draws = s.draws) :
    (withPlanes body s).draws = s.draws := by
  rcases withPlanes_cases body s with ⟨P, -, -, hs⟩ | ⟨-, hs⟩
  · rw [hs, h]
  · rw [hs, takeFault_draws]

/-- A check, and what it guards. -/
theorem draws_answerOrFault {ok : Prop} [Decidable ok] {v : DataWord} {u : State} (hu : u.draws = s.draws)
    (c : FaultCode) : (if ok then answer v u else takeFault c s).draws = s.draws := by
  split
  · exact hu
  · exact takeFault_draws c s

theorem draws_stageCommand {st : Stage} {after : State → State} (hst : MakesNoDraw s.regs st)
    (hafter : ∀ t, (after t).draws = t.draws) : (stageCommand st after s).draws = s.draws := by
  rcases stageCommand_cases st after s with ⟨-, h⟩ | ⟨P, -, -, hrun⟩
  · rw [h, takeFault_draws]
  · have hdraws := hst s.field P s.draws
    rcases hrun with ⟨P', d, hres, h⟩ | ⟨c, P', d, hres, h⟩
    · rw [hres] at hdraws
      rw [h, answer_draws, hafter]
      exact hdraws
    · rw [hres] at hdraws
      rw [h, takeFault_draws]
      exact hdraws

theorem draws_writeRegister (idx : Nat) : (writeRegister idx s).draws = s.draws := by
  unfold writeRegister
  split
  · exact takeFault_draws ..
  · exact draws_answerOrFault (by rw [writeCfg_draws]) _

theorem draws_setupBlock : (setupBlock s).draws = s.draws := by
  unfold setupBlock
  split
  · split
    · exact takeFault_draws ..
    · next hs =>
      obtain ⟨_, _, _, rfl, -⟩ := setupAudio_eq_some hs
      rfl
  · exact takeFault_draws ..

theorem draws_loadPreset (k : Nat) : (loadPreset k s).draws = s.draws := by
  unfold loadPreset
  split
  · exact takeFault_draws ..
  · rfl

theorem draws_configureCell (cell : Nat) : (configureCell cell s).draws = s.draws := by
  unfold configureCell
  split
  · exact takeFault_draws ..
  · split
    · exact takeFault_draws ..
    · rfl

theorem draws_resetCell (cell : Nat) : (resetCell cell s).draws = s.draws := by
  unfold resetCell
  split
  · exact takeFault_draws ..
  · exact draws_answerOrFault (by rfl) _

theorem draws_bankCommand (ok : Bool) (plan : List (FilterOp × Nat)) : (bankCommand ok plan s).draws = s.draws := by
  rcases bankCommand_cases ok plan s with ⟨_, h⟩ | ⟨_, _, h⟩ | ⟨_, _, _, _, h⟩ | ⟨_, _, _, _, _, ⟨_, h⟩ | ⟨_, h⟩⟩
  · rw [h, takeFault_draws]
  · rw [h, takeFault_draws]
  · rw [h, takeFault_draws]
  · rw [h, takeFault_draws]
  · rw [h, answer_draws]

/-! ### The audio chain (R330) -/

theorem eq_draws_of_channelStep {g : Regs} {audT : BitVec 64} {ch ch' : AudioChannel} {pcm : Int} {d d' : DrawSource}
    {out : Option Int} (h : g.audHissLevel = 0#64) (hch : channelStep g audT ch pcm d = (ch', out, d')) : d' = d := by
  rw [channelStep, hiss, if_pos h] at hch
  exact (congrArg (·.2.2) hch).symm

theorem draws_secondChannel (h : s.regs.audHissLevel = 0#64) (ch0 : AudioChannel) (out0 : Int) (d : DrawSource) :
    (secondChannel ch0 out0 d s).draws = d := by
  unfold secondChannel
  split
  · next hch => exact (takeFault_draws ..).trans (eq_draws_of_channelStep h hch)
  · next hch => exact eq_draws_of_channelStep h hch

theorem draws_audioFrame (h : s.regs.audHissLevel = 0#64) : (audioFrame s).draws = s.draws := by
  unfold audioFrame
  split
  · next hch => exact (takeFault_draws ..).trans (eq_draws_of_channelStep h hch)
  · next hch =>
    split
    · exact eq_draws_of_channelStep h hch
    · exact (draws_secondChannel h ..).trans (eq_draws_of_channelStep h hch)

theorem draws_audioCommand (h : s.regs.audHissLevel = 0#64) : (audioCommand s).draws = s.draws := by
  unfold audioCommand
  split
  · exact takeFault_draws ..
  · split
    · exact takeFault_draws ..
    · exact draws_audioFrame h

end

/-! ## Every command (R410) -/

/-- The commands whose rules make draws, `RUNFIELD` by its steps (R410). -/
def drawingCommands : List Instr := [.ynoise, .hsw, .cnoise, .cphase, .cdrop, .runfield, .audf]

/-- Whether it completes or faults, a command makes no draw, where one that draws by its rule finds every amount 0. -/
theorem exec_makesNoDraw (i : Instr) {s : State} (h : i ∈ drawingCommands → s.regs.Silent) :
    ∃ t, exec i s = .next t ∧ t.draws = s.draws := by
  cases i with
  | nop => exact ⟨_, rfl, rfl⟩
  | reset => exact ⟨_, rfl, rfl⟩
  | cfgw idx => exact ⟨_, rfl, draws_inSetup (draws_writeRegister idx)⟩
  | cfgr idx =>
    refine ⟨_, rfl, ?_⟩
    split
    · exact takeFault_draws ..
    · rfl
  | setup => exact ⟨_, rfl, draws_inSetup draws_setupBlock⟩
  | catv k => exact ⟨_, rfl, draws_inSetup (draws_loadPreset k)⟩
  | pwr | prd | pixw | pixr => exact ⟨_, rfl, draws_withPlanes fun _ => draws_answerOrFault (by rfl) _⟩
  | fcfg cell => exact ⟨_, rfl, draws_inSetup (draws_configureCell cell)⟩
  | frst cell => exact ⟨_, rfl, draws_inRun (draws_resetCell cell)⟩
  | flp | fhp | fcasl | fcash | hilo => exact ⟨_, rfl, draws_bankCommand ..⟩
  | clpf m => exact ⟨_, rfl, draws_stageCommand (clpfStage_makesNoDraw _ m) fun _ => rfl⟩
  | mod => exact ⟨_, rfl, draws_stageCommand (modStage_makesNoDraw _) fun _ => rfl⟩
  | pre => exact ⟨_, rfl, draws_stageCommand (preStage_makesNoDraw _) fun _ => rfl⟩
  | demod m => exact ⟨_, rfl, draws_stageCommand (demodStage_makesNoDraw _ m) fun _ => rfl⟩
  | vluma => exact ⟨_, rfl, draws_stageCommand (vlumaStage_makesNoDraw _) fun _ => rfl⟩
  | vchroma => exact ⟨_, rfl, draws_stageCommand (vchromaStage_makesNoDraw _) fun _ => rfl⟩
  | vblend => exact ⟨_, rfl, draws_stageCommand (vblendStage_makesNoDraw _) fun _ => rfl⟩
  | vsharp => exact ⟨_, rfl, draws_stageCommand (vsharpStage_makesNoDraw _) fun _ => rfl⟩
  | vhs => exact ⟨_, rfl, draws_stageCommand vhsStage_makesNoDraw fun _ => rfl⟩
  | nextfield => exact ⟨_, rfl, draws_inRun rfl⟩
  | ynoise => exact ⟨_, rfl, draws_stageCommand (h (by decide)).ynoiseStage fun _ => rfl⟩
  | hsw => exact ⟨_, rfl, draws_stageCommand (h (by decide)).hswStage fun _ => rfl⟩
  | cnoise => exact ⟨_, rfl, draws_stageCommand (h (by decide)).cnoiseStage fun _ => rfl⟩
  | cphase => exact ⟨_, rfl, draws_stageCommand (h (by decide)).cphaseStage fun _ => rfl⟩
  | cdrop => exact ⟨_, rfl, draws_stageCommand (h (by decide)).cdropStage fun _ => rfl⟩
  | runfield => exact ⟨_, rfl, draws_stageCommand (h (by decide)).runfieldStage advanceField_draws⟩
  | audf => exact ⟨_, rfl, draws_inRun (draws_audioCommand (h (by decide)).audHissLevel)⟩

/-- Settles O51: the rules of the other commands make no draw, and those of the drawing commands none at amount 0. -/
theorem silentCommandsMakeNoDraw : Obligations.SilentCommandsMakeNoDraw := by
  intro i s t hexec hsilent
  have hregs : i ∈ drawingCommands → s.regs.Silent := fun hi => by
    rcases hsilent with ⟨hvideo, hchroma, hphase, hloss, hswitch, hhiss⟩ | hother
    · exact ⟨hvideo, hchroma, hphase, hloss, hswitch, hhiss⟩
    · exact absurd hi hother
  obtain ⟨u, hu, hdraws⟩ := exec_makesNoDraw i hregs
  obtain rfl : t = u := Host.Outcome.next.inj (hexec.symm.trans hu)
  exact hdraws

end Sys2Proof.Machine
end

section
/-!
PROOFS. The limiter and step 9 of the audio chain (47_audio_chain.md R329, R333; 00_scope.md R13).
-/
namespace Sys2Proof.Machine

/-! ## The limiter (R329) -/

section
variable {v : F64}

theorem flt_eq_false_of_fle {a b : F64} (h : fle b a = true) : flt a b = false := by
  simp only [fle, Bool.and_eq_true, decide_eq_true_eq] at h
  simp only [flt, Bool.and_eq_false_iff, decide_eq_false_iff_not]
  exact .inr (by omega)

theorem limiter_of_above (h : flt f64One v = true) : limiter v = f64One := by
  have horder : flt f64One (fneg f64One) = false := by decide
  simp only [limiter, h, horder, if_true, Bool.false_eq_true, if_false]

theorem limiter_of_below (h : flt v (fneg f64One) = true) : limiter v = fneg f64One := by
  unfold limiter
  split
  · next hhi =>
    have horder : orderKey (fneg f64One) < orderKey f64One := by decide
    simp only [flt, Bool.and_eq_true, decide_eq_true_eq] at h hhi
    omega
  · rw [if_pos h]

theorem limiter_of_between (hlo : fle (fneg f64One) v = true) (hhi : fle v f64One = true) : limiter v = v := by
  simp only [limiter, flt_eq_false_of_fle hlo, flt_eq_false_of_fle hhi, Bool.false_eq_true, if_false]

theorem within_limiter (h : isNaN v = false) : within f64One (limiter v) = true := by
  have hone : f64One = i2f (2 ^ 0 : Nat) := by decide +kernel
  rw [hone, within_two_pow_iff (by decide)]
  exact absLe_limiter h

end

/-! ## Step 9 (R333, R13) -/

/-- A product that is an infinity has the sign of its factors. -/
theorem isNeg_fmul_of_isInf {a b : F64} (hb : isFinite b = true) (h : isInf (fmul a b) = true) :
    isNeg (fmul a b) = (isNeg a != isNeg b) := by
  rcases isFinite_or_isInf (not_isNaN_of_fmul (isNaN_of_isInf h)).1 with ha | ha
  · exact isNeg_fmul ha hb
  · have hmul := (fmul_inf_finite ha hb).1
    split at hmul
    · rw [hmul] at h; exact absurd h (by decide)
    · rw [hmul, isNeg_packBits (by decide)]

theorem audioOut_range (v : F64) : -32768 ≤ audioOut v ∧ audioOut v ≤ 32767 := clampTrunc_range _ (by decide)

theorem audioOut_of_finite {v : F64} (h : isFinite (fmul v (i2f 32768)) = true) :
    audioOut v = max (-32768) (min 32767 (truncInt (fmul v (i2f 32768)))) := clampTrunc_of_finite h (by decide)

theorem audioOut_of_isInf {v : F64} (h : isInf (fmul v (i2f 32768)) = true) :
    audioOut v = if isNeg v then -32768 else 32767 := by
  have hscale : isFinite (i2f 32768) = true ∧ isNeg (i2f 32768) = false := by decide +kernel
  rw [audioOut, clampTrunc_of_isInf h, isNeg_fmul_of_isInf hscale.1 h, hscale.2, Bool.bne_false]

/-- Settles O45: the limiter on the three sides of its interval, and step 9 as a saturated truncation. -/
theorem limiterAndOutputRange : Obligations.LimiterAndOutputRange := by
  have hneg : fneg f64One = 0xBFF0000000000000#64 := by decide
  refine ⟨fun v hv => ?_, fun v => ⟨(audioOut_range v).1, (audioOut_range v).2, audioOut_of_finite, audioOut_of_isInf⟩⟩
  have hwithin := within_limiter hv
  rw [within, Bool.and_eq_true] at hwithin
  rw [← hneg]
  exact ⟨limiter_of_above, limiter_of_below, limiter_of_between, hwithin⟩

end Sys2Proof.Machine
end

section
/-!
PROOFS. Faults are precise (60_exceptions.md R360, R366 to R368): a command that is one field pass and faults leaves the
planes as they were, so a fault changes its record, the phase and the draws spent.
-/
namespace Sys2Proof.Machine

/-! ## Taking a fault (R360, R366, R368) -/

theorem takeFault_eq {s : State} (hs : s.phase ≠ .faulted) (c : FaultCode) :
    takeFault c s = { s with phase := .faulted, fcode := c.code, finfo := s.cmd, resp := some .fault } := if_neg hs

theorem takeFault_eq_of_faulted {s : State} (hs : s.phase = .faulted) (c : FaultCode) :
    takeFault c s = { s with resp := some .fault } := if_pos hs

theorem FaultCode.code_range (c : FaultCode) : 1 ≤ c.code.toNat ∧ c.code.toNat ≤ 7 := by
  cases c <;> decide

/-! ## Stages that leave the planes where they fault (R367) -/

/-- A fault of the result leaves the planes `P`. -/
def StageResult.FaultLeaves (P : Planes) (r : StageResult) : Prop := ∀ c P' d, r = .fault c P' d → P' = P

/-- A fault of the stage leaves the planes as it found them. -/
def FaultKeepsPlanes (st : Stage) : Prop := ∀ g field P d, (st g field P d).FaultLeaves P

section
variable {P P' : Planes} {d : DrawSource}

theorem faultLeaves_done : (StageResult.done P' d).FaultLeaves P := nofun

theorem faultLeaves_fault {c : FaultCode} : (StageResult.fault c P d).FaultLeaves P := fun _ _ _ h =>
  (StageResult.fault.inj h).2.1.symm

theorem faultLeaves_fieldPass {κ : Type} {f : κ → DrawSource → Nat → Row → RowResult κ} {k : κ} {field : BitVec 64} :
    (fieldPass f k field P d).FaultLeaves P :=
  fun c P' d' => fieldPass_fault f k field P P' d d' c

end

theorem clpfStage_faultKeepsPlanes (m : Bool) : FaultKeepsPlanes (clpfStage m) := fun _ _ _ _ =>
  faultLeaves_fieldPass

theorem modStage_faultKeepsPlanes : FaultKeepsPlanes modStage := fun _ _ _ _ =>
  faultLeaves_fieldPass

theorem preStage_faultKeepsPlanes : FaultKeepsPlanes preStage := fun _ _ _ _ => by
  unfold preStage
  split
  · exact faultLeaves_done
  · exact faultLeaves_fieldPass

theorem ynoiseStage_faultKeepsPlanes : FaultKeepsPlanes ynoiseStage := fun _ _ _ _ => by
  unfold ynoiseStage
  split
  · exact faultLeaves_done
  · exact faultLeaves_fieldPass

theorem hswStage_faultKeepsPlanes : FaultKeepsPlanes hswStage := fun _ _ _ _ => by
  unfold hswStage
  dsimp only
  split
  · exact faultLeaves_done
  · exact faultLeaves_fault

theorem demodStage_faultKeepsPlanes (m : Bool) : FaultKeepsPlanes (demodStage m) := fun _ _ _ _ => by
  unfold demodStage
  split
  · exact faultLeaves_fault
  · exact faultLeaves_fieldPass

theorem cnoiseStage_faultKeepsPlanes : FaultKeepsPlanes cnoiseStage := fun _ _ _ _ => by
  unfold cnoiseStage
  split
  · exact faultLeaves_done
  · exact faultLeaves_fieldPass

theorem cphaseStage_faultKeepsPlanes : FaultKeepsPlanes cphaseStage := fun _ _ _ _ => by
  unfold cphaseStage
  split
  · exact faultLeaves_done
  · exact faultLeaves_fieldPass

theorem cdropStage_faultKeepsPlanes : FaultKeepsPlanes cdropStage := fun _ _ _ _ => by
  unfold cdropStage
  split
  · exact faultLeaves_done
  · exact faultLeaves_fieldPass

theorem vlumaStage_faultKeepsPlanes : FaultKeepsPlanes vlumaStage := fun _ _ _ _ =>
  faultLeaves_fieldPass

theorem vchromaStage_faultKeepsPlanes : FaultKeepsPlanes vchromaStage := fun _ _ _ _ =>
  faultLeaves_fieldPass

theorem vblendStage_faultKeepsPlanes : FaultKeepsPlanes vblendStage := fun _ _ _ _ =>
  faultLeaves_fieldPass

theorem vsharpStage_faultKeepsPlanes : FaultKeepsPlanes vsharpStage := fun _ _ _ _ =>
  faultLeaves_fieldPass

/-! ## Commands that fault (R366, R367) -/

/-- A stage command that is not a macro runs a stage whose fault leaves the planes. -/
theorem exec_eq_faultKeepingStage {i : Instr} (hi : isFieldCommand i = true) (hvhs : i ≠ .vhs)
    (hrunfield : i ≠ .runfield) :
    ∃ st, FaultKeepsPlanes st ∧ ∀ s, exec i s = .next (stageCommand st id s) := by
  cases i with
  | clpf m => exact ⟨_, clpfStage_faultKeepsPlanes m, fun _ => rfl⟩
  | mod => exact ⟨_, modStage_faultKeepsPlanes, fun _ => rfl⟩
  | pre => exact ⟨_, preStage_faultKeepsPlanes, fun _ => rfl⟩
  | ynoise => exact ⟨_, ynoiseStage_faultKeepsPlanes, fun _ => rfl⟩
  | hsw => exact ⟨_, hswStage_faultKeepsPlanes, fun _ => rfl⟩
  | demod m => exact ⟨_, demodStage_faultKeepsPlanes m, fun _ => rfl⟩
  | cnoise => exact ⟨_, cnoiseStage_faultKeepsPlanes, fun _ => rfl⟩
  | cphase => exact ⟨_, cphaseStage_faultKeepsPlanes, fun _ => rfl⟩
  | cdrop => exact ⟨_, cdropStage_faultKeepsPlanes, fun _ => rfl⟩
  | vluma => exact ⟨_, vlumaStage_faultKeepsPlanes, fun _ => rfl⟩
  | vchroma => exact ⟨_, vchromaStage_faultKeepsPlanes, fun _ => rfl⟩
  | vblend => exact ⟨_, vblendStage_faultKeepsPlanes, fun _ => rfl⟩
  | vsharp => exact ⟨_, vsharpStage_faultKeepsPlanes, fun _ => rfl⟩
  | vhs => exact absurd rfl hvhs
  | runfield => exact absurd rfl hrunfield
  | _ => exact absurd hi Bool.false_ne_true

theorem stageCommand_fault_planes {st : Stage} (hst : FaultKeepsPlanes st) {s : State}
    (hresp : (stageCommand st id s).resp = some .fault) : (stageCommand st id s).planes = s.planes := by
  rcases stageCommand_cases st id s with ⟨-, h⟩ | ⟨P, -, hP, ⟨P', d, -, h⟩ | ⟨c, P', d, hres, h⟩⟩
  · rw [h, takeFault_planes]
  · rw [h] at hresp; exact nomatch hresp
  · rw [h, takeFault_planes, hP, hst _ _ _ _ _ _ _ hres]

/-- A command other than a macro that answers `FAULT` has taken a fault of the state it was issued in, with the draws
it has spent and nothing else (R367). -/
theorem exec_fault_eq_takeFault {i : Instr} {s t : State} (hvhs : i ≠ .vhs) (hrunfield : i ≠ .runfield)
    (hexec : exec i s = .next t) (hresp : t.resp = some .fault) : ∃ c d, t = takeFault c { s with draws := d } := by
  have heffect := effect_of_exec hexec
  cases heffect with
  | fault _ c d => exact ⟨c, d, rfl⟩
  | @stageFault _ P P' c d hi _ hP =>
    obtain ⟨st, hst, hrun⟩ := exec_eq_faultKeepingStage hi hvhs hrunfield
    have ht := Host.Outcome.next.inj ((hrun s).symm.trans hexec)
    have hplanes := ht ▸ stageCommand_fault_planes hst (ht ▸ hresp)
    rw [takeFault_planes] at hplanes
    exact ⟨c, d, by rw [show some P' = s.planes from hplanes]⟩
  | answered | reset | cfgw | catv | setup | bank | planes | runfield | nextfield | audf => cases hresp

/-- Settles O47: what taking a fault records, and that the faults of every command but the macros are taken in the
state they find, draws apart. -/
theorem faultIsPrecise : Obligations.FaultIsPrecise := by
  refine ⟨fun c s hs => takeFault_eq hs c, fun c s hs => takeFault_eq_of_faulted hs c, rfl,
    fun i s t hs hvhs hrunfield hexec hresp => ?_⟩
  obtain ⟨c, d, rfl⟩ := exec_fault_eq_takeFault hvhs hrunfield hexec hresp
  rw [takeFault_eq (s := { s with draws := d }) hs]
  exact ⟨rfl, c.code_range⟩

end Sys2Proof.Machine
end

section
/-!
PROOFS. One channel of a frame in closed form (47_audio_chain.md R320 to R333): each part of `channelStep` is a step of
`audioV8` and of `audioCellsAfter`.
-/
namespace Sys2Proof.Machine

/-! ## Banks of cells (R324) -/

/-- The value after `k` cells of a bank that does one operation. -/
def bankOut (op : FilterOp) (bank : List StoredCell) (x : F64) : Nat → F64
  | 0 => x
  | k + 1 => (stepCell op (audioCell (bank.getD k StoredCell.reset)) (bankOut op bank x k)).2

theorem bankOut_lp (bank : List StoredCell) (x : F64) (k : Nat) : bankOut .lp bank x k = lowOut bank x k := by
  induction k with
  | zero => rfl
  | succ k ih => rw [bankOut, ih]; rfl

theorem bankOut_hp (bank : List StoredCell) (x : F64) (k : Nat) : bankOut .hp bank x k = highOut bank x k := by
  induction k with
  | zero => rfl
  | succ k ih => rw [bankOut, ih]; rfl

section
variable (op : FilterOp)

/-- The first cell of a bank gives the rest of it its input. -/
theorem bankOut_cons (c : StoredCell) (bank : List StoredCell) (x : F64) (k : Nat) :
    bankOut op (c :: bank) x (k + 1) = bankOut op bank (stepCell op (audioCell c) x).2 k := by
  induction k with
  | zero => rfl
  | succ k ih => rw [bankOut, ih, List.getD_cons_succ, bankOut]

/-- Every cell of a cascade is stepped with the value of those before it. -/
theorem getElem?_runChain_bank (bank : List StoredCell) (x : F64) {k : Nat} (hk : k < bank.length) :
    (runChain (bank.map (fun c => (op, audioCell c))) x)[k]?
      = some (stepCell op (audioCell bank[k]) (bankOut op bank x k)) := by
  induction bank generalizing x k with
  | nil => exact absurd hk (Nat.not_lt_zero k)
  | cons c bank ih =>
    cases k with
    | zero => rfl
    | succ k =>
      rw [bankOut_cons]
      exact ih _ (Nat.lt_of_succ_lt_succ hk)

theorem chainOut_bank (bank : List StoredCell) (x : F64) :
    chainOut x (runChain (bank.map (fun c => (op, audioCell c))) x) = bankOut op bank x bank.length := by
  induction bank generalizing x with
  | nil => rfl
  | cons c bank ih => rw [List.map_cons, runChain, chainOut_cons, ih, List.length_cons, bankOut_cons]

/-- After a cascade every cell keeps its coefficient and holds its lowpass output (R321, R324). -/
theorem audioBank_eq {n : Nat} (bank : Vector StoredCell n) (x : F64) :
    audioBank op bank x =
      (Vector.ofFn fun k : Fin n => ⟨bank[k].alpha, cellLow bank[k] (bankOut op bank.toList x k)⟩,
        bankOut op bank.toList x n) := by
  have hout := chainOut_bank op bank.toList x
  rw [Vector.length_toList] at hout
  refine Prod.ext (congrArg Vector.ofFn (funext fun k => ?_)) hout
  have htrace := getElem?_runChain_bank op bank.toList x (k := k) (by simp)
  simp only [htrace, storeAudio, stepCell_fst, Vector.getElem_toList]
  rfl

end

/-! ## The steps of a channel (R323 to R333) -/

theorem audio_decimals :
    f16 = i2f 16 ∧ f15625 = i2f 15625 ∧ f15734 = i2f 15734 ∧ f312_5 = decimal 3125 10 ∧ f262_5 = decimal 2625 10 := by
  decide +kernel

section
variable (g : Regs) (audT : BitVec 64)

theorem buzzTime_eq (oi : Nat) : buzzTime g audT oi = lineTime g audT oi := by
  obtain ⟨h16, hpal, hntsc, -, -⟩ := audio_decimals
  rw [buzzTime, lineTime, lineRate, h16, hpal, hntsc]

theorem inSyncWindow_eq (t : F64) : inSyncWindow g t = inWindow g t := by
  obtain ⟨-, -, -, hpal, hntsc⟩ := audio_decimals
  rw [inSyncWindow, inWindow, linesPerField, hpal, hntsc]

/-- One sub-sample of the loop. The equations of `buzzLoop` that `rw` generates evaluate its binary64 constants out of
memory, so later proofs go through this one. -/
theorem buzzLoop_cons (oi : Nat) (l : List Nat) (v : F64) : buzzLoop g audT (oi :: l) v = buzzLoop g audT l
    (if inSyncWindow g (buzzTime g audT oi) then fsub v (fdiv (fdiv g.audBuzzGain f16) f64Two) else v) :=
  buzzLoop.eq_def ..

/-- The loop over sub-samples subtracts the amount once for each of them in a window (R328). -/
theorem buzzLoop_eq (l : List Nat) (v : F64) : buzzLoop g audT l v =
    Nat.iterate (fun v => fsub v (fdiv (fdiv g.audBuzzGain (i2f 16)) (i2f 2)))
      (l.filter fun oi => inWindow g (lineTime g audT oi)).length v := by
  obtain ⟨-, htwo, -⟩ := composite_decimals
  obtain ⟨h16, -⟩ := audio_decimals
  induction l generalizing v with
  | nil => rfl
  | cons oi l ih =>
    rw [buzzLoop_cons, inSyncWindow_eq, buzzTime_eq, ih, h16, htwo, List.filter_cons]
    split
    · rw [List.length_cons, Function.iterate_succ_apply]
    · rfl

variable (ch : AudioChannel) (pcm : Int)

theorem lowBank_eq : audioBank .lp ch.alp (pcmToFloat pcm) =
    (Vector.ofFn fun k => ⟨ch.alp[k].alpha, lowOut ch.alp.toList (fdiv (i2f pcm) (i2f 32768)) (k.val + 1)⟩,
      lowOut ch.alp.toList (fdiv (i2f pcm) (i2f 32768)) 6) := by
  rw [audioBank_eq, pcmToFloat, i2f_f32768, bankOut_lp]
  refine Prod.ext (congrArg Vector.ofFn (funext fun k => ?_)) rfl
  rw [bankOut_lp, lowOut, cellLow]
  simp

theorem highBank_eq : audioBank .hp ch.ahp (lowOut ch.alp.toList (fdiv (i2f pcm) (i2f 32768)) 6) =
    (Vector.ofFn fun k => ⟨ch.ahp[k].alpha, cellLow ch.ahp[k]
        (highOut ch.ahp.toList (lowOut ch.alp.toList (fdiv (i2f pcm) (i2f 32768)) 6) k.val)⟩, audioV2 ch pcm) := by
  rw [audioBank_eq, bankOut_hp, audioV2]
  simp only [bankOut_hp]

theorem preemphasis_audioV2 : preemphasis g ch.apre (audioV2 ch pcm) =
    (if g.audPre then ⟨ch.apre.alpha, cellLow ch.apre (audioV2 ch pcm)⟩ else ch.apre, audioV3 g ch pcm) := by
  unfold preemphasis audioV3
  split <;> rfl

theorem buzz_audioV3 : buzz g audT (audioV3 g ch pcm) = audioV4 g audT ch pcm := by
  rw [buzz, buzzLoop_eq, audioV4, buzzCount]

theorem hiss_limiter_audioV4 (d : DrawSource) : hiss g (limiter (audioV4 g audT ch pcm)) d =
    (audioV6 g audT ch pcm (answerAt d 0), afterDraws d (hissDraws g)) := by
  unfold hiss audioV6 hissDraws
  split
  · rfl
  · next hlevel =>
    have hpos : 0 < (g.audHissLevel.toNat : Int) := by bv_omega
    rw [draw_sym _ hpos, i2f_f20000]

variable (ans : Nat)

theorem highBoost_audioV6 : highBoost g ch.aboost (audioV6 g audT ch pcm ans) =
    (if !g.hifi && !isZero g.audBoostGain then ⟨ch.aboost.alpha, cellLow ch.aboost (audioV6 g audT ch pcm ans)⟩
      else ch.aboost, audioV7 g audT ch pcm ans) := by
  unfold highBoost boostUsed audioV7
  split <;> rfl

theorem deemphasis_audioV7 : deemphasis g ch.ade (audioV7 g audT ch pcm ans) =
    (if g.audDe then ⟨ch.ade.alpha, cellLow ch.ade (audioV7 g audT ch pcm ans)⟩ else ch.ade,
      audioV8 g audT ch pcm ans) := by
  unfold deemphasis audioV8
  split <;> rfl

/-- The frame of a channel: its cells, its output and the draws left, from its own cells, its sample and the answer to
its draw (R320 to R333). -/
theorem channelStep_eq (d : DrawSource) :
    channelStep g audT ch pcm d = (audioCellsAfter g audT ch pcm (answerAt d 0),
      floatToPcm (audioV8 g audT ch pcm (answerAt d 0)), afterDraws d (hissDraws g)) := by
  simp only [channelStep, lowBank_eq, highBank_eq, preemphasis_audioV2, buzz_audioV3, hiss_limiter_audioV4,
    highBoost_audioV6, deemphasis_audioV7, audioCellsAfter]

end

theorem floatToPcm_of_finite {v : F64} (h : isFinite v = true) : floatToPcm v = some (audioOut v) := by
  rw [floatToPcm, if_pos h, i2f_f32768, audioOut]

theorem floatToPcm_of_not_finite {v : F64} (h : isFinite v = false) : floatToPcm v = none :=
  if_neg (Bool.not_eq_true _ ▸ h)

end Sys2Proof.Machine
end

section
/-!
PROOFS. AUDF: one frame of one or two channels, and that neither channel depends on the other (47_audio_chain.md R320 to
R336).
-/
namespace Sys2Proof.Machine

/-! ## The words of a frame (R322) -/

theorem wPcm0_eq (w : DataWord) : wPcm0 w = (w.extractLsb' 0 16).toInt := by
  rw [wPcm0, dataField_eq, BitVec.ofNat_toNat, BitVec.setWidth_eq]

theorem wPcm1_eq (w : DataWord) : wPcm1 w = (w.extractLsb' 16 16).toInt := by
  rw [wPcm1, dataField_eq, BitVec.ofNat_toNat, BitVec.setWidth_eq]

theorem wHigh_eq_zero_iff (w : DataWord) : wHigh w = 0 ↔ w.extractLsb' 32 32 = 0#32 := by
  rw [wHigh, dataField_eq, BitVec.toNat_eq, BitVec.toNat_ofNat, Nat.zero_mod]

theorem toNat_pcmWord (out0 out1 : Int) :
    (pcmWord out0 out1).toNat = (BitVec.ofInt 16 out1).toNat * 2 ^ 16 + (BitVec.ofInt 16 out0).toNat := by
  rw [pcmWord, BitVec.toNat_ofNat]
  omega

/-- The two outputs side by side. -/
theorem pcmWord_eq_append (out0 out1 : Int) :
    pcmWord out0 out1 = 0#32 ++ BitVec.ofInt 16 out1 ++ BitVec.ofInt 16 out0 := by
  apply BitVec.eq_of_toNat_eq
  rw [toNat_pcmWord, BitVec.toNat_append, BitVec.toNat_append, BitVec.toNat_ofNat, Nat.zero_mod, Nat.zero_shiftLeft,
    Nat.zero_or, ← Nat.shiftLeft_add_eq_or_of_lt (BitVec.ofInt 16 out0).isLt, Nat.shiftLeft_eq]

theorem pcmWord_zero (out0 : Int) : pcmWord out0 0 = 0#48 ++ BitVec.ofInt 16 out0 := pcmWord_eq_append out0 0

theorem extract_pcmWord_low (out0 out1 : Int) : (pcmWord out0 out1).extractLsb' 0 16 = BitVec.ofInt 16 out0 := by
  apply BitVec.eq_of_toNat_eq
  rw [BitVec.extractLsb'_toNat, toNat_pcmWord]
  omega

theorem extract_pcmWord_high (out0 out1 : Int) : (pcmWord out0 out1).extractLsb' 16 16 = BitVec.ofInt 16 out1 := by
  apply BitVec.eq_of_toNat_eq
  rw [BitVec.extractLsb'_toNat, toNat_pcmWord]
  omega

/-! ## The two channels of a frame (R322) -/

section
variable (s : State)

/-- The sample of channel 0 that step 9 tests. -/
def State.sample0 : F64 := audioV8 s.regs s.audT s.aud0 (wPcm0 s.wdata) (answerAt s.draws 0)

/-- The sample of channel 1 that step 9 tests: its draw is the one after channel 0's (R330). -/
def State.sample1 : F64 := audioV8 s.regs s.audT s.aud1 (wPcm1 s.wdata) (answerAt s.draws (hissDraws s.regs))

/-- The cells of channel 0 after the frame. -/
def State.cells0 : AudioChannel := audioCellsAfter s.regs s.audT s.aud0 (wPcm0 s.wdata) (answerAt s.draws 0)

/-- The cells of channel 1 after the frame. -/
def State.cells1 : AudioChannel :=
  audioCellsAfter s.regs s.audT s.aud1 (wPcm1 s.wdata) (answerAt s.draws (hissDraws s.regs))

theorem channelStep_aud0 : channelStep s.regs s.audT s.aud0 (wPcm0 s.wdata) s.draws
    = (s.cells0, floatToPcm s.sample0, afterDraws s.draws (hissDraws s.regs)) := channelStep_eq ..

theorem channelStep_aud1 : channelStep s.regs s.audT s.aud1 (wPcm1 s.wdata) (afterDraws s.draws (hissDraws s.regs))
    = (s.cells1, floatToPcm s.sample1, afterDraws s.draws (2 * hissDraws s.regs)) := by
  rw [channelStep_eq, answerAt_afterDraws, afterDraws_add, Nat.add_zero, ← Nat.two_mul]
  rfl

variable {s}

theorem audioFrame_overflow0 (h0 : isFinite s.sample0 = false) :
    audioFrame s = takeFault .planeOverflow { s with draws := afterDraws s.draws (hissDraws s.regs) } := by
  rw [audioFrame, channelStep_aud0, floatToPcm_of_not_finite h0]

theorem audioFrame_mono (h0 : isFinite s.sample0 = true) (hch : s.regs.audCh = 1#64) :
    audioFrame s = answer (pcmWord (audioOut s.sample0) 0)
      (advanceAudio { s with aud0 := s.cells0, draws := afterDraws s.draws (hissDraws s.regs) }) := by
  rw [audioFrame, channelStep_aud0, floatToPcm_of_finite h0]
  exact if_pos hch

theorem audioFrame_overflow1 (h0 : isFinite s.sample0 = true) (h1 : isFinite s.sample1 = false)
    (hch : s.regs.audCh ≠ 1#64) :
    audioFrame s = takeFault .planeOverflow { s with draws := afterDraws s.draws (2 * hissDraws s.regs) } := by
  rw [audioFrame, channelStep_aud0, floatToPcm_of_finite h0]
  dsimp only
  rw [if_neg hch, secondChannel, channelStep_aud1, floatToPcm_of_not_finite h1]

theorem audioFrame_stereo (h0 : isFinite s.sample0 = true) (h1 : isFinite s.sample1 = true)
    (hch : s.regs.audCh ≠ 1#64) :
    audioFrame s = answer (pcmWord (audioOut s.sample0) (audioOut s.sample1)) (advanceAudio { s with
      aud0 := s.cells0, aud1 := s.cells1, draws := afterDraws s.draws (2 * hissDraws s.regs) }) := by
  rw [audioFrame, channelStep_aud0, floatToPcm_of_finite h0]
  dsimp only
  rw [if_neg hch, secondChannel, channelStep_aud1, floatToPcm_of_finite h1]

/-! ## AUDF (R322, R335, R336) -/

theorem exec_audf_run (hp : s.phase = .run) : exec .audf s = .next (audioCommand s) := congrArg _ (if_pos hp)

theorem audioCommand_not_ready (h : s.audReady = false) : audioCommand s = takeFault .phaseError s := by
  rw [audioCommand, h]
  rfl

theorem audioCommand_bad_word (h : s.audReady = true) (hw : s.wdata.extractLsb' 32 32 ≠ 0#32) :
    audioCommand s = takeFault .invalidArgument s := by
  rw [audioCommand, h, Bool.not_true, if_neg Bool.false_ne_true, if_pos (mt (wHigh_eq_zero_iff _).mp hw)]

theorem audioCommand_frame (h : s.audReady = true) (hw : s.wdata.extractLsb' 32 32 = 0#32) :
    audioCommand s = audioFrame s := by
  rw [audioCommand, h, Bool.not_true, if_neg Bool.false_ne_true, if_neg (not_not.mpr ((wHigh_eq_zero_iff _).mpr hw))]

end

/-- Settles O43: the two refusals, and the frame by the closed form of each channel. -/
theorem audfProcessesFrame : Obligations.AudfProcessesFrame := by
  intro s hp
  rw [exec_audf_run hp]
  refine ⟨fun h => by rw [audioCommand_not_ready h], fun h hw => by rw [audioCommand_bad_word h hw], fun h hw => ?_⟩
  rw [audioCommand_frame h hw, ← wPcm0_eq, ← wPcm1_eq]
  have hstereo : s.regs.audCh = 2#64 → s.regs.audCh ≠ 1#64 := fun h2 => h2 ▸ by decide
  refine ⟨fun h0 => ?_, fun h0 h1 => ?_, fun h0 h1 h2 => ?_, fun h0 h1 h2 => ?_⟩
  · rw [audioFrame_overflow0 h0]
  · rw [audioFrame_mono h0 h1, pcmWord_zero]
    rfl
  · rw [audioFrame_overflow1 h0 h1 (hstereo h2)]
  · rw [audioFrame_stereo h0 h1 (hstereo h2), pcmWord_eq_append]
    rfl

/-! ## Each channel by itself (R320, R330) -/

/-- What a completed frame answers and leaves, channel by channel. -/
structure FrameGives (s t : State) (v : DataWord) : Prop where
  out0 : v.extractLsb' 0 16 = BitVec.ofInt 16 (audioOut s.sample0)
  out1 : v.extractLsb' 16 16 = if s.regs.audCh = 1#64 then 0#16 else BitVec.ofInt 16 (audioOut s.sample1)
  aud0 : t.aud0 = s.cells0
  aud1 : t.aud1 = if s.regs.audCh = 1#64 then s.aud1 else s.cells1
  audT : t.audT = s.audT + 1#64

theorem takeFault_resp_ne_ok {c : FaultCode} {s : State} {v : DataWord} : (takeFault c s).resp ≠ some (.ok v) := by
  rw [takeFault_resp]
  exact nofun

theorem audioFrame_gives {s : State} {v : DataWord} (hv : (audioFrame s).resp = some (.ok v)) :
    FrameGives s (audioFrame s) v := by
  cases h0 : isFinite s.sample0
  · exact absurd (audioFrame_overflow0 h0 ▸ hv) takeFault_resp_ne_ok
  by_cases hch : s.regs.audCh = 1#64
  · rw [audioFrame_mono h0 hch] at hv ⊢
    obtain rfl : pcmWord _ _ = v := by simpa using hv
    exact ⟨extract_pcmWord_low .., by rw [extract_pcmWord_high, if_pos hch]; rfl, rfl, (if_pos hch).symm, rfl⟩
  cases h1 : isFinite s.sample1
  · exact absurd (audioFrame_overflow1 h0 h1 hch ▸ hv) takeFault_resp_ne_ok
  · rw [audioFrame_stereo h0 h1 hch] at hv ⊢
    obtain rfl : pcmWord _ _ = v := by simpa using hv
    exact ⟨extract_pcmWord_low .., by rw [extract_pcmWord_high, if_neg hch], rfl, (if_neg hch).symm, rfl⟩

/-- An `AUDF` that completes has processed a frame. -/
theorem frameGives_of_exec {s t : State} {v : DataWord} (hexec : exec .audf s = .next t)
    (hv : t.resp = some (.ok v)) : FrameGives s t v := by
  obtain rfl : inRun audioCommand s = t := Host.Outcome.next.inj hexec
  rcases inRun_cases audioCommand s with ⟨-, h⟩ | ⟨-, h⟩
  · rw [h] at hv ⊢
    cases hready : s.audReady
    · exact absurd (audioCommand_not_ready hready ▸ hv) takeFault_resp_ne_ok
    by_cases hw : s.wdata.extractLsb' 32 32 = 0#32
    · rw [audioCommand_frame hready hw] at hv ⊢
      exact audioFrame_gives hv
    · exact absurd (audioCommand_bad_word hready hw ▸ hv) takeFault_resp_ne_ok
  · exact absurd (h ▸ hv) takeFault_resp_ne_ok

/-- Settles O44: what a completed frame gives and keeps of a channel is a function of that channel's cells and sample,
the configuration, the time and the answer to its own draw. -/
theorem audioChannelsIndependent : Obligations.AudioChannelsIndependent := by
  intro s s' t t' v v' _ hexec hexec' hv hv'
  obtain ⟨hout0, hout1, haud0, haud1, haudT⟩ := frameGives_of_exec hexec hv
  obtain ⟨hout0', hout1', haud0', haud1', haudT'⟩ := frameGives_of_exec hexec' hv'
  refine ⟨fun hs hw => ?_, fun hs hw => ?_⟩
  · obtain ⟨hsample, hcells⟩ : s'.sample0 = s.sample0 ∧ s'.cells0 = s.cells0 := by
      rw [hs]
      simp only [State.sample0, State.cells0, wPcm0_eq, hw, and_self]
    rw [hout0, hout0', haud0, haud0', haudT, haudT', hsample, hcells, congrArg State.audT hs]
    exact ⟨rfl, rfl, rfl⟩
  · obtain ⟨hsample, hcells⟩ : s'.sample1 = s.sample1 ∧ s'.cells1 = s.cells1 := by
      rw [hs]
      simp only [State.sample1, State.cells1, wPcm1_eq, hw, and_self]
    rw [hout1, hout1', haud1, haud1', haudT, haudT', hsample, hcells, congrArg State.audT hs, congrArg State.aud1 hs,
      congrArg State.regs hs]
    exact ⟨rfl, rfl, rfl⟩

end Sys2Proof.Machine
end
